-- ==== Sys2Proof/Word.lean ====
section
/-! DEFINITION. The word and byte types (00_scope.md rules R17, R20) and the zero extension between them. -/

namespace Sys2Proof

/-- A *word* is 32 bits, unsigned, bit 0 the least significant (R17). -/
abbrev Word := BitVec 32

/-- A byte is unsigned, 0..255 (R20). -/
abbrev Byte := BitVec 8

/-- The word of a natural number, reduced modulo 2^32 (R17, R18). -/
abbrev wordOf (n : Nat) : Word := BitVec.ofNat 32 n

/-- `zext_32` of a byte (R17). -/
abbrev zext (b : Byte) : Word := b.setWidth 32

end Sys2Proof
end

