-- ==== Sys2Proof/Syntax.lean ====
section
/-! DEFINITION. The commands of RME command set 1.0: one constructor for each of the 26 rows of
spec/opcode_table.json, in the order of 30_encoding.md rule R145. -/

namespace Sys2Proof

/-- The 26 commands (R145).  An immediate is held as the natural number the listing writes (R144, R152);
`WellFormed` says which numbers its field can hold. -/
inductive Instr where
  /-- do nothing (R290) -/
  | nop
  /-- reset the contexts of the 2-bit set `ctx` (R291) -/
  | reset (ctx : Nat)
  /-- validate and derive the parameters (R171) -/
  | cfg
  /-- hash to zero (R173) -/
  | hclr
  /-- one add-one-drop update with two immediate bytes; `inn` is the field the spec calls `in` (R174) -/
  | hupd (out inn : Nat)
  /-- hash of the window at I from scratch (R175) -/
  | hinit
  /-- slide the window one byte (R176) -/
  | hroll
  /-- empty the table (R191) -/
  | htclr
  /-- record the anchor I (R193) -/
  | insert
  /-- look the current hash up (R195) -/
  | probe
  /-- take the bytes of one read into the buffer (R207) -/
  | fill
  /-- set the scan cursor (R209) -/
  | seek
  /-- reject test and extension range of the candidate (R211) -/
  | bounds
  /-- copy one literal run out of the buffer (R215) -/
  | rdlit
  /-- extend backward (R226) -/
  | extb
  /-- extend forward (R228) -/
  | extf
  /-- length test, stage one record (R230) -/
  | commit
  /-- search, stage, index and advance at one byte (R241) -/
  | step
  /-- advance to the next multiple of L, indexing (R246) -/
  | skip
  /-- the per-cycle match-finding loop (R248) -/
  | scan
  /-- close the cycle (R252) -/
  | endcyc
  /-- stage the stream's tail (R255) -/
  | final
  /-- set the decoder up (R266) -/
  | dinit
  /-- copy a literal run into the ring (R269) -/
  | dlit
  /-- expand one match (R271) -/
  | dmatch
  /-- hand the pending output to DOUT (R274) -/
  | dflush
  deriving DecidableEq, Repr

end Sys2Proof
end

