-- ==== Sys2Proof/WellFormed.lean ====
section
/-! DEFINITION. Which commands have an encoding: the bounds of the immediate fields of 30_encoding.md rule R142. -/

namespace Sys2Proof

/-- Every immediate fits its field: `ctx` 2 bits, `out` and `in` 8 bits each (R142, R144). -/
def Instr.wellFormed : Instr → Bool
  | .reset ctx => decide (ctx < 4)
  | .hupd out inn => decide (out < 256) && decide (inn < 256)
  | .nop | .cfg | .hclr | .hinit | .hroll | .htclr | .insert | .probe | .fill | .seek | .bounds | .rdlit
  | .extb | .extf | .commit | .step | .skip | .scan | .endcyc | .final | .dinit | .dlit | .dmatch | .dflush => true

/-- The predicate form of `Instr.wellFormed`. -/
abbrev Instr.WellFormed (i : Instr) : Prop := i.wellFormed = true

end Sys2Proof
end

