-- ==== Sys2Proof/Decode.lean ====
section
/-! DEFINITION. The command word: opcodes, the decoder (total, rejecting by name) and, after it, the encoder
(30_encoding.md rules R140 to R147). -/

namespace Sys2Proof

/-- The context a command belongs to, by the high nibble of its opcode (R16, R146). -/
inductive Owner where
  /-- the encoder context, opcodes `0x1_` to `0x5_` -/
  | encoder
  /-- the decoder context, opcodes `0x6_` -/
  | decoder
  /-- neither: `0x0_` and `0x7_` to `0xF_` -/
  | neither
  deriving DecidableEq, Repr

/-- The context an opcode belongs to (R146). -/
def contextOf (op : Byte) : Owner :=
  if 1 ≤ op.toNat / 16 ∧ op.toNat / 16 ≤ 5 then .encoder
  else if op.toNat / 16 = 6 then .decoder
  else .neither

/-- The opcode column of R145. -/
def opcode : Instr → Byte
  | .nop => 0x00
  | .reset _ => 0x01
  | .cfg => 0x10
  | .hclr => 0x11
  | .hupd _ _ => 0x12
  | .hinit => 0x13
  | .hroll => 0x14
  | .htclr => 0x20
  | .insert => 0x21
  | .probe => 0x22
  | .fill => 0x30
  | .seek => 0x31
  | .bounds => 0x32
  | .rdlit => 0x33
  | .extb => 0x40
  | .extf => 0x41
  | .commit => 0x42
  | .step => 0x50
  | .skip => 0x51
  | .scan => 0x52
  | .endcyc => 0x53
  | .final => 0x54
  | .dinit => 0x60
  | .dlit => 0x61
  | .dmatch => 0x62
  | .dflush => 0x63

/-- Why a command word is reserved (R147). -/
inductive Reserved where
  /-- the opcode is not in the table of R145 -/
  | opcode
  /-- a bit of a must-be-zero field is 1 -/
  | zeroField
  deriving DecidableEq, Repr

/-- Bits 7:0 of a command word, in every format (R141). -/
def opField (w : Word) : Byte := w.extractLsb' 0 8

/-- Format N: bits 31:8 are zero (R141). -/
def formatN (w : Word) (i : Instr) : Except Reserved Instr :=
  if w.extractLsb' 8 24 = 0#24 then .ok i else .error .zeroField

/-- Format I: bits 31:10 are zero, `ctx` in bits 9:8 (R141). -/
def formatI (w : Word) (i : Nat → Instr) : Except Reserved Instr :=
  if w.extractLsb' 10 22 = 0#22 then .ok (i (w.extractLsb' 8 2).toNat) else .error .zeroField

/-- Format BB: bits 31:24 are zero, `in` in bits 23:16, `out` in bits 15:8 (R141). -/
def formatBB (w : Word) (i : Nat → Nat → Instr) : Except Reserved Instr :=
  if w.extractLsb' 24 8 = 0#8 then .ok (i (w.extractLsb' 8 8).toNat (w.extractLsb' 16 8).toNat)
  else .error .zeroField

/-- Decode a command word: the format is told from `op` alone (R143); every other word is reserved (R147). -/
def decode (w : Word) : Except Reserved Instr :=
  match (opField w).toNat with
  | 0x00 => formatN w .nop
  | 0x01 => formatI w .reset
  | 0x10 => formatN w .cfg
  | 0x11 => formatN w .hclr
  | 0x12 => formatBB w .hupd
  | 0x13 => formatN w .hinit
  | 0x14 => formatN w .hroll
  | 0x20 => formatN w .htclr
  | 0x21 => formatN w .insert
  | 0x22 => formatN w .probe
  | 0x30 => formatN w .fill
  | 0x31 => formatN w .seek
  | 0x32 => formatN w .bounds
  | 0x33 => formatN w .rdlit
  | 0x40 => formatN w .extb
  | 0x41 => formatN w .extf
  | 0x42 => formatN w .commit
  | 0x50 => formatN w .step
  | 0x51 => formatN w .skip
  | 0x52 => formatN w .scan
  | 0x53 => formatN w .endcyc
  | 0x54 => formatN w .final
  | 0x60 => formatN w .dinit
  | 0x61 => formatN w .dlit
  | 0x62 => formatN w .dmatch
  | 0x63 => formatN w .dflush
  | _ => .error .opcode

/-- The command word of an instruction (R141; the words of R174 and R291). -/
def encode : Instr → Word
  | .reset ctx => (wordOf ctx <<< 8) ||| 0x01#32
  | .hupd out inn => (wordOf inn <<< 16) ||| (wordOf out <<< 8) ||| 0x12#32
  | i => (opcode i).setWidth 32

/-- The instruction the decoder reads from a row's word, bit 0 of the number being bit 0 of the word.  A command is
one 32-bit word (R140): the bits above `nbits` are 0. -/
def decodeTableWord (nbits w : Nat) : Option Instr :=
  match decode (wordOf (w % 2 ^ nbits)) with
  | .ok i => some i
  | .error _ => none

end Sys2Proof
end

