-- ==== Sys2Proof/Config.lean ====
section
/-! DEFINITION. What an implementation fixes (the memory capacities, 00_scope.md rule R13) and the free
values of the model. -/

namespace Sys2Proof

/-- The implementation parameters of R13, "arguments of the model".  They are a field of State that no command
writes, so a statement over every state holds for every value of them (notes/assumptions/1.md). -/
structure Caps where
  /-- BUF_CAP: bytes of working-buffer memory -/
  bufCap : Nat
  /-- HT_CAP: words of hash-table memory -/
  htCap : Nat
  /-- REC_CAP: entries each staging array can hold -/
  recCap : Nat
  /-- SEG0_CAP: bytes of the decoder's first segment memory -/
  seg0Cap : Nat
  /-- SEG1_CAP: bytes of the decoder's second segment memory -/
  seg1Cap : Nat
  deriving DecidableEq, Repr

/-- The capacities State.reset names: the least that admit every legal configuration (`B ≤ 2^31`, `hash_size ≤ 2^31`,
R10, R51) and every count of records (`REC_CAP > B/S + 1`, 92_eei_decisions.md D8).  DESIGN CHOICE, unsafe: R13
gives none of them a value (notes/assumptions/1.md). -/
def Config.caps : Caps where
  bufCap := 2 ^ 31
  htCap := 2 ^ 31
  recCap := 2 ^ 31 + 2
  seg0Cap := 2 ^ 31
  seg1Cap := 2 ^ 31

/-- The bytes FILL takes from EIN beyond those the host offered: R116 makes the host offer them all first and says
nothing of a host that does not.  A FREE VALUE, applied to a counter (notes/assumptions/5.md). -/
opaque Config.unofferedEin : Nat → Byte

/-- The bytes DLIT takes from DIN beyond those the host offered (R118).  A FREE VALUE, applied to a counter of its own
(notes/assumptions/5.md). -/
opaque Config.unofferedDin : Nat → Byte

end Sys2Proof
end

