-- ==== Sys2Proof/Machine/State.lean ====
section
/-! DEFINITION. The architectural state as plain data: the encoder context, the decoder context, the operand
registers, the ports, the bus, and the machine after reset (10_state.md, 20_memory.md, 70_reset_and_hazards.md). -/

namespace Sys2Proof.Machine

open Sys2Proof

/-- A byte memory: the (address, byte) pairs of the bytes that hold a value, addresses strictly rising.  An address
that is not listed holds no value (R103, R104, R112). -/
abbrev Memory := List Host.Cell

/-- The hash table: the (slot, word) pairs of the non-zero slots, slots strictly rising.  A slot that is not listed
holds 0 (R61: "Zero means "empty""). -/
abbrev Table := List (Nat × Word)

/-- The ESTATUS flags (R55), in bit order.  Bits not listed read 0 (R54), so the word is a function of these. -/
structure EFlags where
  /-- bit 0: configured -/
  cfgok : Bool := false
  /-- bit 1: HASH is the hash of the window at I -/
  hvalid : Bool := false
  /-- bit 2: PROBE returned a candidate -/
  hit : Bool := false
  /-- bit 3: BOUNDS rejected it -/
  rej : Bool := false
  /-- bit 4: BOUNDS accepted it -/
  bvalid : Bool := false
  /-- bit 5: MSTART is valid -/
  svalid : Bool := false
  /-- bit 6: MEND is valid -/
  evalid : Bool := false
  /-- bit 7: the last COMMIT or STEP emitted -/
  matched : Bool := false
  /-- bit 8: a lap has ended -/
  lapped : Bool := false
  /-- bit 9: a cycle is open -/
  cycopen : Bool := false
  /-- bit 10: FINAL has run -/
  final : Bool := false
  /-- bit 31: faulted -/
  efault : Bool := false
  deriving DecidableEq, Repr

/-- The DSTATUS flags (R63), in bit order. -/
structure DFlags where
  /-- bit 0: set up -/
  dok : Bool := false
  /-- bit 1: segment 0 is the one being written -/
  block0 : Bool := false
  /-- bit 31: faulted -/
  dfault : Bool := false
  deriving DecidableEq, Repr

/-- The encoder context (R16): registers `0x00..0x1F` of R41, the staging arrays (R57), BUF (R60) and HT (R61).
Every default is the reset value (R67, R381); for HT, whose contents after reset are unspecified, the all-zero
table R381 allows (notes/assumptions/2.md). -/
structure Enc where
  cfgB : Word := 0
  cfgM : Word := 0
  cfgS : Word := 0
  cfgD : Word := 0
  cfgH : Word := 0
  cfgA : Word := 0
  drvL : Word := 0
  drvK : Word := 0
  drvTest : Word := 0
  drvHsize : Word := 0
  drvHmask : Word := 0
  drvKmask : Word := 0
  drvPL : Word := 0
  hash : Word := 0
  i : Word := 0
  lastI : Word := 0
  lastMatch : Word := 0
  base : Word := 0
  size : Word := 0
  cand : Word := 0
  lowb : Word := 0
  highb : Word := 0
  dist : Word := 0
  mstart : Word := 0
  mend : Word := 0
  nrec : Word := 0
  eerrinfo : Word := 0
  /-- ESTATUS (0x1E) -/
  flags : EFlags := {}
  eerr : Word := 0
  /-- staging array `lens` -/
  lens : List Word := []
  /-- staging array `offsets` -/
  offsets : List Word := []
  /-- staging array `datalens` -/
  datalens : List Word := []
  /-- staging array `dataOffsets` -/
  dataOffsets : List Word := []
  buf : Memory := []
  ht : Table := []
  deriving DecidableEq, Repr

/-- The decoder context (R62): registers `0x20..0x2F` of R41 and the two segment memories.  Defaults are the reset
values (R67). -/
structure Dec where
  dB : Word := 0
  dSize0 : Word := 0
  dData : Word := 0
  dLast : Word := 0
  dFilled : Word := 0
  derrinfo : Word := 0
  /-- DSTATUS (0x2E) -/
  flags : DFlags := {}
  derr : Word := 0
  seg0 : Memory := []
  seg1 : Memory := []
  deriving DecidableEq, Repr

/-- One write event on EOUT or DOUT with the word its sink answered (R21, R117, R119). -/
structure WriteEvent where
  bytes : List Byte
  answer : Word
  deriving DecidableEq, Repr

/-- The host's side of the four byte ports (R116 to R119).  It is no state of RME (R66): the spec hands it to the
step as an argument, and the step of this model reads it here (notes/assumptions/3.md). -/
structure Ports where
  /-- bytes the host offers on EIN and no FILL has taken, next first -/
  ein : List Byte := []
  /-- bytes the host offers on DIN and no DLIT has taken, next first -/
  din : List Byte := []
  /-- what the sink of EOUT answers to the write events to come, next first -/
  eoutAnswers : List Word := []
  /-- what the sink of DOUT answers to the write events to come, next first -/
  doutAnswers : List Word := []
  /-- the write events made on EOUT, oldest first -/
  eout : List WriteEvent := []
  /-- the write events made on DOUT, oldest first -/
  dout : List WriteEvent := []
  /-- the model's own counter of free bytes FILL has taken so far (notes/assumptions/5.md) -/
  einUnoffered : Nat := 0
  /-- the model's own counter of free bytes DLIT has taken so far (notes/assumptions/5.md) -/
  dinUnoffered : Nat := 0
  deriving DecidableEq, Repr

/-- What the host does to RME between commands: a bus transaction (R40, R293, R294) or a hardware reset (R380). -/
inductive HostOp where
  /-- `RD n` -/
  | rd (n : BitVec 6)
  /-- `WR n, v` -/
  | wr (n : BitVec 6) (v : Word)
  /-- the hardware reset -/
  | hwReset
  deriving DecidableEq, Repr

/-- The machine: two contexts that share no state (R16), the registers of neither (R292), the ports, the host's
pending operations, the values its reads returned, and the capacities (R13). -/
structure State where
  enc : Enc := {}
  dec : Dec := {}
  arg0 : Word := 0
  arg1 : Word := 0
  rIdx : Word := 0
  ports : Ports := {}
  /-- the host's operations to come, next first (notes/assumptions/3.md) -/
  bus : List HostOp := []
  /-- the values the bus reads so far returned, oldest first -/
  reads : List Word := []
  caps : Caps := Config.caps
  deriving DecidableEq, Repr

/-- Reasons the model would stop with a fault.  There is none, and so no constructor: every fault of the spec is
taken (R341: it is recorded in the context's error registers and the next bus transaction runs), and no rule leaves
a command without an effect. -/
inductive Fault where
  deriving DecidableEq, Repr

/-- Reasons the model would refuse an instruction. -/
inductive Refusal where
  /-- An instruction whose arm of `exec` has no meaning yet: raised by no arm of this model.  Safe: the run ends. -/
  | notModelled (mnemonic : String)
  deriving DecidableEq, Repr

/-- The machine right after a hardware reset (R67, R381): every register reads 0, every flag is 0, the staging arrays
are empty, no byte of BUF, SEG0, SEG1 holds a value, and nothing has happened on the ports and the bus. -/
def State.reset : State := {}

end Sys2Proof.Machine
end

