-- ==== Sys2Proof/Machine/Ops.lean ====
section
/-! DEFINITION. The named operations over memory and ports, taking a fault (60_exceptions.md rule R341), and the
frame every command runs in: the preambles of R170 and R265. -/

namespace Sys2Proof.Machine

open Sys2Proof

/-! ### Sparse memory -/

/-- The value listed at an address, if any. -/
def cellGet {α : Type} : List (Nat × α) → Nat → Option α
  | [], _ => none
  | (b, w) :: m, a => if a = b then some w else cellGet m a

/-- List a value at an address, keeping the addresses strictly rising. -/
def cellPut {α : Type} : List (Nat × α) → Nat → α → List (Nat × α)
  | [], a, v => [(a, v)]
  | (b, w) :: m, a, v =>
    if a < b then (a, v) :: (b, w) :: m
    else if a = b then (a, v) :: m
    else (b, w) :: cellPut m a v

/-- Remove the entry of an address. -/
def cellDel {α : Type} : List (Nat × α) → Nat → List (Nat × α)
  | [], _ => []
  | (b, w) :: m, a => if a = b then m else (b, w) :: cellDel m a

/-- Addresses strictly rising, so no address is listed twice. -/
abbrev CellsSorted {α : Type} (m : List (Nat × α)) : Prop := m.Pairwise (fun x y => x.1 < y.1)

/-- `MemRead(BUF | SEG0 | SEG1, p, 1)`: the byte at `p`, `none` where no value is held (R20, R104). -/
def Memory.read (m : Memory) (p : Nat) : Option Byte := cellGet m p

/-- `MemWrite(BUF | SEG0 | SEG1, p, 1, b)` (R20). -/
def Memory.write (m : Memory) (p : Nat) (b : Byte) : Memory := cellPut m p b

/-- The canonical form of a byte memory. -/
abbrev Memory.wf (m : Memory) : Prop := CellsSorted m

/-- The word in slot `s`; a slot not listed holds 0 (R61). -/
def Table.read (t : Table) (s : Nat) : Word := (cellGet t s).getD 0

/-- Write one slot; writing 0, the empty slot, removes its entry (R61). -/
def Table.write (t : Table) (s : Nat) (v : Word) : Table := if v = 0 then cellDel t s else cellPut t s v

/-- The canonical form of the table: slots strictly rising, no slot listed with 0. -/
abbrev Table.wf (t : Table) : Prop := CellsSorted t ∧ ∀ c ∈ t, c.2 ≠ 0

/-- Write a run of bytes at ascending positions. -/
def Memory.writeRun (m : Memory) (p : Nat) : List Byte → Memory
  | [] => m
  | b :: bs => (m.write p b).writeRun (p + 1) bs

/-- Read `n` bytes at ascending positions; at the first byte with no value answer its address (R104). -/
def Memory.readRun (m : Memory) (p : Nat) : Nat → Except Nat (List Byte)
  | 0 => .ok []
  | n + 1 =>
    match m.read p with
    | none => .error p
    | some b =>
      match m.readRun (p + 1) n with
      | .error a => .error a
      | .ok bs => .ok (b :: bs)

/-! ### Faults -/

/-- The ten fault names (R22, R340). -/
inductive Exn where
  | illegalCmd | cfg | noMem | state | align | range | uninit | stageOvf | io | corrupt
  deriving DecidableEq, Repr

/-- The fault codes (R342). -/
def Exn.code : Exn → Word
  | .illegalCmd => 1
  | .cfg => 2
  | .noMem => 3
  | .state => 4
  | .align => 5
  | .range => 6
  | .uninit => 7
  | .stageOvf => 8
  | .io => 9
  | .corrupt => 10

/-- The two contexts (R16). -/
inductive Ctx where
  | enc | dec
  deriving DecidableEq, Repr

/-- The fault flag of a context: EFAULT or DFAULT. -/
def faulted (c : Ctx) (s : State) : Bool :=
  match c with
  | .enc => s.enc.flags.efault
  | .dec => s.dec.flags.dfault

/-- TAKING A FAULT: `raise <Name>(info)` in a context (R341).  The first fault writes the code, the information word
and the fault flag; a later one changes nothing. -/
def raise (c : Ctx) (x : Exn) (info : Nat) (s : State) : State :=
  if faulted c s then s
  else
    match c with
    | .enc => { s with enc := { s.enc with
        eerr := x.code, eerrinfo := wordOf info, flags := { s.enc.flags with efault := true } } }
    | .dec => { s with dec := { s.dec with
        derr := x.code, derrinfo := wordOf info, flags := { s.dec.flags with dfault := true } } }

/-- How a rule's pseudocode ends: it ran to its end, or it raised a fault in the state it had reached, which keeps
the work already done (R249, R346). -/
inductive Run (σ : Type) where
  /-- ran to its end -/
  | done (s : σ)
  /-- raised `x(info)`; `s` is the state at that moment -/
  | raised (s : σ) (x : Exn) (info : Nat)
  deriving DecidableEq, Repr

/-- Run the next lines of a rule unless the lines before raised a fault (R240: "a fault it raises ends the composite
command too"). -/
def Run.andThen {σ : Type} (r : Run σ) (f : σ → Run σ) : Run σ :=
  match r with
  | .done s => f s
  | .raised s x n => .raised s x n

/-- Do the same lines `n` times, stopping at the first fault. -/
def Run.times {σ : Type} (f : σ → Run σ) : Nat → σ → Run σ
  | 0, s => .done s
  | n + 1, s => (f s).andThen (Run.times f n)

/-- Lines that touch the encoder context only. -/
def onEnc (f : Enc → Run Enc) (s : State) : Run State :=
  match f s.enc with
  | .done e => .done { s with enc := e }
  | .raised e x n => .raised { s with enc := e } x n

/-- Lines that touch the decoder context only. -/
def onDec (f : Dec → Run Dec) (s : State) : Run State :=
  match f s.dec with
  | .done d => .done { s with dec := d }
  | .raised d x n => .raised { s with dec := d } x n

/-- The state after a command of a context: its fault, if it raised one, is taken (R341). -/
def finish (c : Ctx) (r : Run State) : State :=
  match r with
  | .done s => s
  | .raised s x n => raise c x n s

/-- Preamble, first test: while the context is faulted its commands do nothing at all (R170 (1), R265 (1), R345). -/
def unlessFaulted (c : Ctx) (body : State → Run State) (s : State) : Host.Outcome State Fault Refusal :=
  .next (if faulted c s then s else finish c (body s))

/-- An encoder command other than CFG: without CFGOK it raises `State(op)` (R170 (2)). -/
def encCommand (op : Byte) (body : State → Run State) (s : State) : Host.Outcome State Fault Refusal :=
  unlessFaulted .enc (fun s => if s.enc.flags.cfgok then body s else .raised s .state op.toNat) s

/-- A decoder command other than DINIT: without DOK it raises `State(op)` (R265 (2)). -/
def decCommand (op : Byte) (body : State → Run State) (s : State) : Host.Outcome State Fault Refusal :=
  unlessFaulted .dec (fun s => if s.dec.flags.dok then body s else .raised s .state op.toNat) s

/-- What a write of a reserved word to CMD does: `IllegalCmd(word)` in the context of the opcode's high nibble, in
both where it names neither (R147, R295 (2)). -/
def illegalCommand (w : Word) (s : State) : State :=
  match contextOf (opField w) with
  | .encoder => raise .enc .illegalCmd w.toNat s
  | .decoder => raise .dec .illegalCmd w.toNat s
  | .neither => raise .dec .illegalCmd w.toNat (raise .enc .illegalCmd w.toNat s)

/-! ### Ports -/

/-- `PortIn(P, n)` on what the host offers: the next `n` bytes and what is left.  A byte beyond those offered is a
free value, numbered from `k` (R21, R116, R118; notes/assumptions/5.md). -/
def takeBytes (free : Nat → Byte) (n : Nat) (offered : List Byte) (k : Nat) : List Byte :=
  offered.take n ++ (List.range (n - offered.length)).map (fun j => free (k + j))

/-- `PortIn(EIN, n)`. -/
def einTake (n : Nat) (p : Ports) : List Byte × Ports :=
  (takeBytes Config.unofferedEin n p.ein p.einUnoffered,
    { p with ein := p.ein.drop n, einUnoffered := p.einUnoffered + (n - p.ein.length) })

/-- `PortIn(DIN, n)`. -/
def dinTake (n : Nat) (p : Ports) : List Byte × Ports :=
  (takeBytes Config.unofferedDin n p.din p.dinUnoffered,
    { p with din := p.din.drop n, dinUnoffered := p.dinUnoffered + (n - p.din.length) })

/-- A sink's answer is negative: bit 31 set.  A positive answer is treated as 0 (R349). -/
def negative (c : Word) : Bool := c.msb

/-- The answer of a sink to its next write event; where the host listed none it is 0, success
(notes/assumptions/4.md). -/
def nextAnswer (answers : List Word) : Word := answers.headD 0

/-- `PortOut(EOUT, bytes)`: one write event; a negative answer raises `Io` (R21, R117). -/
def eoutPut (bytes : List Byte) (s : State) : Run State :=
  let c := nextAnswer s.ports.eoutAnswers
  let s' := { s with ports := { s.ports with
    eoutAnswers := s.ports.eoutAnswers.tail, eout := s.ports.eout ++ [⟨bytes, c⟩] } }
  if negative c then .raised s' .io c.toNat else .done s'

/-- `PortOut(DOUT, bytes)`: one write event; a negative answer raises `Io` (R21, R119). -/
def doutPut (bytes : List Byte) (s : State) : Run State :=
  let c := nextAnswer s.ports.doutAnswers
  let s' := { s with ports := { s.ports with
    doutAnswers := s.ports.doutAnswers.tail, dout := s.ports.dout ++ [⟨bytes, c⟩] } }
  if negative c then .raised s' .io c.toNat else .done s'

end Sys2Proof.Machine
end

