-- ==== Sys2Proof/Machine/Flags.lean ====
section
/-! DEFINITION. The status words ESTATUS and DSTATUS and the candidate flags (10_state.md rules R54 to R56, R63). -/

namespace Sys2Proof.Machine

open Sys2Proof

/-- Bit `n` of a status word. -/
def flagBit (b : Bool) (n : Nat) : Word := if b then 1#32 <<< n else 0

/-- The word `RD ESTATUS` returns: the flag table of R55, every other bit 0 (R54). -/
def EFlags.word (f : EFlags) : Word :=
  flagBit f.cfgok 0 ||| flagBit f.hvalid 1 ||| flagBit f.hit 2 ||| flagBit f.rej 3 ||| flagBit f.bvalid 4 |||
  flagBit f.svalid 5 ||| flagBit f.evalid 6 ||| flagBit f.matched 7 ||| flagBit f.lapped 8 ||| flagBit f.cycopen 9 |||
  flagBit f.final 10 ||| flagBit f.efault 31

/-- The word `RD DSTATUS` returns: the flag table of R63, every other bit 0. -/
def DFlags.word (f : DFlags) : Word :=
  flagBit f.dok 0 ||| flagBit f.block0 1 ||| flagBit f.dfault 31

/-- Clear the candidate flags HIT, REJ, BVALID, SVALID, EVALID (R55, R56). -/
def EFlags.clearCand (f : EFlags) : EFlags :=
  { f with hit := false, rej := false, bvalid := false, svalid := false, evalid := false }

/-- Clear the candidate flags of the encoder context (R56). -/
def Enc.clearCand (e : Enc) : Enc := { e with flags := e.flags.clearCand }

/-- Clear HVALID and the candidate flags: the hash no longer describes the window at I (R55, R56, R393). -/
def EFlags.dropHash (f : EFlags) : EFlags := { f.clearCand with hvalid := false }

end Sys2Proof.Machine
end

