-- ==== Sys2Proof/Machine/Operands.lean ====
section
/-! DEFINITION. The operand forms: ARG0 and ARG1 and the abort form (30_encoding.md rules R150, R151), and the
quantities that are functions of the registers (20_memory.md R105, 10_state.md rules R59, R64). -/

namespace Sys2Proof.Machine

open Sys2Proof

/-- `ARG0 = 0xFFFFFFFF` is the abort form of FILL and DLIT (R151). -/
def abortForm (s : State) : Bool := s.arg0 == 0xFFFFFFFF#32

/-- `BASE + SIZE`, the end of the bytes read so far in this lap (R105). -/
def Enc.filled (e : Enc) : Nat := e.base.toNat + e.size.toNat

/-- The staging arrays emptied and NREC 0, as FILL and FINAL begin and CFG ends (R58, R171, R207, R255). -/
def Enc.clearStaging (e : Enc) : Enc :=
  { e with lens := [], offsets := [], datalens := [], dataOffsets := [], nrec := 0 }

/-- A staging array read through the window: the entry at R_IDX, 0 beyond the array (R59). -/
def stagingAt (arr : List Word) (idx : Word) : Word := arr.getD idx.toNat 0

/-- `seglen`: the length of the segment being written (R64). -/
def Dec.seglen (d : Dec) : Nat := if d.flags.block0 then d.dSize0.toNat else d.dB.toNat - d.dSize0.toNat

/-- `room = seglen − D_DATA` (R64, R267). -/
def Dec.room (d : Dec) : Nat := d.seglen - d.dData.toNat

/-- `dataPos`: the write position across both segments (R64). -/
def Dec.dataPos (d : Dec) : Nat := if d.flags.block0 then d.dData.toNat else d.dData.toNat + d.dSize0.toNat

/-- CUR, the segment being written: SEG0 when BLOCK0 = 1, else SEG1 (R267). -/
def Dec.cur (d : Dec) : Memory := if d.flags.block0 then d.seg0 else d.seg1

/-- CUR with new contents. -/
def Dec.setCur (d : Dec) (m : Memory) : Dec :=
  if d.flags.block0 then { d with seg0 := m } else { d with seg1 := m }

/-- The logical ring of the decoder: `W[p]` (R65, R113). -/
def Dec.ring (d : Dec) (p : Nat) : Option Byte :=
  if p < d.dSize0.toNat then d.seg0.read p else d.seg1.read (p - d.dSize0.toNat)

/-- The end of a sub-copy of `c` bytes: the write head and the count of bytes written, which stops at B
(R269, R270, R271). -/
def Dec.advance (d : Dec) (c : Nat) : Dec :=
  { d with
    dData := wordOf (d.dData.toNat + c)
    dFilled := wordOf (min d.dB.toNat (d.dFilled.toNat + c)) }

end Sys2Proof.Machine
end

