-- ==== Sys2Proof/Machine/RollingHash.lean ====
section
/-! DEFINITION. Configuration and the rolling-hash engine RH: CFG, HCLR, HUPD, HINIT, HROLL
(40_config_rolling_hash.md; the functions of 00_scope.md rules R11, R14, R24). -/

namespace Sys2Proof.Machine

open Sys2Proof

/-! ### Constants and functions -/

/-- `PRIME = 153191` (R14; an unaudited literal of the source, 93_implementation_defined.md U9). -/
def prime : Nat := 153191

/-- The checksum shift, 28 (R14; U9). -/
def chksumShift : Nat := 28

/-- The floor of the table divisor, 16 (R14; U9). -/
def divisorFloor : Nat := 16

/-- `rup2(x)`: the least power of two not below `x`, so `rup2(0) = rup2(1) = 1` (R11). -/
def rup2 (x : Nat) : Nat := if x ≤ 1 then 1 else 2 ^ (Nat.log2 (x - 1) + 1)

/-- `L = rup2(floor(S / 2))` (R11). -/
def windowLen (S : Nat) : Nat := rup2 (S / 2)

/-- `k`: the largest power of two not above `floor(sqrt(2·L))`.  `2^j ≤ sqrt n` is `2·j ≤ log2 n` (R11). -/
def subsample (L : Nat) : Nat := 2 ^ (Nat.log2 (2 * L) / 2)

/-- `test = min(k·A, L)`, the product without wrap (R11). -/
def probesPerBlock (k A L : Nat) : Nat := min (k * A) L

/-- `hash_size = 2^H` when `H > 0`, else `rup2(floor(floor(2·B / 3) / max(k, 16)))` (R11). -/
def tableSize (B H k : Nat) : Nat := if 0 < H then 2 ^ H else rup2 (2 * B / 3 / max k divisorFloor)

/-- Square a word `n` times. -/
def squareTimes : Nat → Word → Word
  | 0, x => x
  | n + 1, x => squareTimes n (x * x)

/-- `PL = PRIME^L mod 2^32`, by squaring: `L` is a power of two (R11). -/
def primePow (L : Nat) : Word := squareTimes (Nat.log2 L) (wordOf prime)

/-- `update_hash(h, out, in) = (h·PRIME + in − out·PL) mod 2^32` (R24, R178). -/
def updateHash (pl h : Word) (out inn : Byte) : Word := h * wordOf prime + zext inn - zext out * pl

/-- `Σ b_j · PRIME^(L−1−j)` of `L` bytes, a natural number (R24). -/
def polySum : List Byte → Nat
  | [] => 0
  | b :: bs => b.toNat * prime ^ bs.length + polySum bs

/-- `polyhash(b_0 .. b_{L−1})` (R24). -/
def polyhash (bs : List Byte) : Word := wordOf (polySum bs)

/-- `slot(h) = h & DRV_HMASK` (R106, R192). -/
def Enc.slot (e : Enc) (h : Word) : Nat := (h &&& e.drvHmask).toNat

/-- `chksum(h) = (h >> 28) & DRV_KMASK` (R157, R192). -/
def Enc.chksum (e : Enc) (h : Word) : Word := (h >>> chksumShift) &&& e.drvKmask

/-! ### CFG -/

/-- The registers and memories a successful CFG leaves (R171). -/
def configured (e : Enc) : Enc :=
  let L := windowLen e.cfgS.toNat
  let k := subsample L
  let hsize := tableSize e.cfgB.toNat e.cfgH.toNat k
  { e.clearStaging with
    drvL := wordOf L
    drvK := wordOf k
    drvTest := wordOf (probesPerBlock k e.cfgA.toNat L)
    drvHsize := wordOf hsize
    drvHmask := wordOf (hsize - 1)
    drvKmask := wordOf (k - 1)
    drvPL := primePow L
    ht := []
    buf := []
    hash := 0, i := 0, lastI := 0, lastMatch := 0, base := 0, size := 0
    flags := { cfgok := true } }

/-- CFG: the checks of R171 in their order, then the derivation. -/
def cfgLines (caps : Caps) (e : Enc) : Run Enc :=
  let B := e.cfgB.toNat
  let S := e.cfgS.toNat
  let L := windowLen S
  if e.flags.cfgok then .raised e .state (opcode .cfg).toNat
  else if S = 0 then .raised e .cfg 1
  else if e.cfgM.toNat < S then .raised e .cfg 2
  else if e.cfgA.toNat = 0 then .raised e .cfg 3
  else if 31 < e.cfgH.toNat then .raised e .cfg 4
  else if 2 ^ 31 < B then .raised e .cfg 5
  else if B < 2 * L then .raised e .cfg 6
  else if caps.bufCap < B then .raised e .noMem 1
  else if caps.htCap < tableSize B e.cfgH.toNat (subsample L) then .raised e .noMem 2
  else .done (configured e)

/-- CFG (R171).  It is the one encoder command that CFGOK = 0 does not stop (R170). -/
def execCfg (s : State) : Host.Outcome State Fault Refusal :=
  unlessFaulted .enc (fun s => onEnc (cfgLines s.caps) s) s

/-! ### HCLR, HUPD -/

/-- `HASH <- 0`; HVALID and the candidate flags cleared (R173). -/
def hclrLines (e : Enc) : Run Enc := .done { e with hash := 0, flags := e.flags.dropHash }

/-- HCLR (R173). -/
def execHclr (s : State) : Host.Outcome State Fault Refusal :=
  encCommand (opcode .hclr) (onEnc hclrLines) s

/-- One update with the two immediate bytes; HVALID and the candidate flags cleared (R174). -/
def hupdLines (out inn : Nat) (e : Enc) : Run Enc :=
  .done { e with
    hash := updateHash e.drvPL e.hash (BitVec.ofNat 8 out) (BitVec.ofNat 8 inn)
    flags := e.flags.dropHash }

/-- HUPD out, in (R174). -/
def execHupd (out inn : Nat) (s : State) : Host.Outcome State Fault Refusal :=
  encCommand (opcode (.hupd out inn)) (onEnc (hupdLines out inn)) s

/-! ### HINIT, HROLL -/

/-- `L` successive `update_hash(0, b)` from `h = 0` (R175). -/
def hashBytes (pl : Word) (bs : List Byte) : Word := bs.foldl (fun h b => updateHash pl h 0 b) 0

/-- The hash of the `L` bytes at I from scratch (R175). -/
def hinitLines (e : Enc) : Run Enc :=
  if e.filled < e.i.toNat + e.drvL.toNat then .raised e .range (e.i.toNat + e.drvL.toNat)
  else
    match e.buf.readRun e.i.toNat e.drvL.toNat with
    | .error a => .raised e .uninit a
    | .ok bs => .done { e with
        hash := hashBytes e.drvPL bs
        flags := { e.flags.clearCand with hvalid := true } }

/-- HINIT (R175). -/
def execHinit (s : State) : Host.Outcome State Fault Refusal :=
  encCommand (opcode .hinit) (onEnc hinitLines) s

/-- Slide the window one byte and add 1 to I (R176). -/
def hrollLines (e : Enc) : Run Enc :=
  let p := e.i.toNat
  let q := e.i.toNat + e.drvL.toNat
  if !e.flags.hvalid then .raised e .state (opcode .hroll).toNat
  else if e.filled ≤ q then .raised e .range q
  else
    match e.buf.read p with
    | none => .raised e .uninit p
    | some out =>
      match e.buf.read q with
      | none => .raised e .uninit q
      | some inn => .done { e with
          hash := updateHash e.drvPL e.hash out inn
          i := wordOf (p + 1)
          flags := e.flags.clearCand }

/-- HROLL (R176). -/
def execHroll (s : State) : Host.Outcome State Fault Refusal :=
  encCommand (opcode .hroll) (onEnc hrollLines) s

end Sys2Proof.Machine
end

