-- ==== Sys2Proof/Machine/HashTable.lean ====
section
/-! DEFINITION. The hash-table probe-and-checksum unit HT: HTCLR, INSERT, PROBE (41_hash_table.md). -/

namespace Sys2Proof.Machine

open Sys2Proof

/-- Every slot 0; no flag changed (R191). -/
def htclrLines (e : Enc) : Run Enc := .done { e with ht := [] }

/-- HTCLR (R191). -/
def execHtclr (s : State) : Host.Outcome State Fault Refusal :=
  encCommand (opcode .htclr) (onEnc htclrLines) s

/-- `HT[slot(HASH)] <- I | chksum(HASH)` at a multiple of `k` (R193, R109). -/
def insertLines (e : Enc) : Run Enc :=
  if !e.flags.hvalid then .raised e .state (opcode .insert).toNat
  else if e.i &&& e.drvKmask ≠ 0 then .raised e .align e.i.toNat
  else .done { e with ht := e.ht.write (e.slot e.hash) (e.i ||| e.chksum e.hash) }

/-- INSERT (R193). -/
def execInsert (s : State) : Host.Outcome State Fault Refusal :=
  encCommand (opcode .insert) (onEnc insertLines) s

/-- A hit is a non-zero slot whose checksum bits are those of the hash (R195). -/
def Enc.probeHits (e : Enc) : Bool :=
  let v := e.ht.read (e.slot e.hash)
  decide (v ≠ 0) && decide (v &&& e.drvKmask = e.chksum e.hash)

/-- Look the current hash up; CAND keeps its value where there is no hit (R195). -/
def probeLines (e : Enc) : Run Enc :=
  if !e.flags.hvalid then .raised e .state (opcode .probe).toNat
  else if e.probeHits then
    .done { e with
      cand := e.ht.read (e.slot e.hash) &&& ~~~e.drvKmask
      flags := { e.flags.clearCand with hit := true } }
  else .done e.clearCand

/-- PROBE (R195). -/
def execProbe (s : State) : Host.Outcome State Fault Refusal :=
  encCommand (opcode .probe) (onEnc probeLines) s

end Sys2Proof.Machine
end

