-- ==== Sys2Proof/Machine/RingBounds.lean ====
section
/-! DEFINITION. The ring-buffer address and bounds unit RB: FILL, SEEK, BOUNDS, RDLIT (42_ring_bounds.md; the ring
distance of 20_memory.md rule R128). -/

namespace Sys2Proof.Machine

open Sys2Proof

/-! ### FILL -/

/-- Open a cycle with the bytes `ds` of one read at BASE (R207, R108). -/
def fillWith (ds : List Byte) (e : Enc) : Enc :=
  { e.clearStaging with
    buf := e.buf.writeRun e.base.toNat ds
    size := wordOf ds.length
    flags := { e.flags.clearCand with cycopen := true, matched := false } }

/-- FILL: the tests of R207 in their order (the abort form is R208), then `n` bytes from EIN. -/
def fillLines (s : State) : Run State :=
  let n := s.arg0.toNat
  let e := s.enc
  if e.flags.cycopen then .raised s .state (opcode .fill).toNat
  else if e.flags.final then .raised s .state (opcode .fill).toNat
  else if abortForm s then .raised s .io s.arg1.toNat
  else if n = 0 then .raised s .range 0
  else if e.cfgB.toNat < e.base.toNat + n then .raised s .range (e.base.toNat + n)
  else
    let (ds, ports) := einTake n s.ports
    .done { s with enc := fillWith ds e, ports := ports }

/-- FILL (R207, R208). -/
def execFill (s : State) : Host.Outcome State Fault Refusal :=
  encCommand (opcode .fill) fillLines s

/-! ### SEEK -/

/-- `I <- p`; HVALID and the candidate flags cleared (R209). -/
def seekLines (p : Word) (e : Enc) : Run Enc :=
  if e.filled < p.toNat then .raised e .range p.toNat
  else .done { e with i := p, flags := e.flags.dropHash }

/-- SEEK, operand ARG0 (R209). -/
def execSeek (s : State) : Host.Outcome State Fault Refusal :=
  encCommand (opcode .seek) (onEnc (seekLines s.arg0)) s

/-! ### BOUNDS -/

/-- `dist(i, m) = (i − m + B) mod B` for `i, m` below `B`; the sum is written first so that no difference is
negative (R128). -/
def ringDist (i m B : Nat) : Nat := (i + B - m) % B

/-- LowBound of the pair (`i`, `m`), `bs = BASE + SIZE` (R211). -/
def lowBound (i m bs : Nat) : Nat :=
  if m < i then i - m
  else if i < m - bs then 0
  else i - (m - bs)

/-- HighBound of the pair (`i`, `m`): `B − m + i` (R211). -/
def highBound (i m B : Nat) : Nat := B - m + i

/-- The candidate lies in the in-flight window, ahead of the cursor (R105, R211). -/
def Enc.inFlight (e : Enc) : Bool := decide (e.i.toNat ≤ e.cand.toNat) && decide (e.cand.toNat < e.filled)

/-- Test the candidate and compute its extension range (R211). -/
def boundsLines (e : Enc) : Run Enc :=
  if !e.flags.hit then .raised e .state (opcode .bounds).toNat
  else if e.i.toNat < e.lastMatch.toNat then .raised e .state (opcode .bounds).toNat
  else if e.inFlight then
    .done { e with flags := { e.flags with rej := true, bvalid := false, svalid := false, evalid := false } }
  else
    .done { e with
      lowb := wordOf (lowBound e.i.toNat e.cand.toNat e.filled)
      highb := wordOf (highBound e.i.toNat e.cand.toNat e.cfgB.toNat)
      dist := wordOf (ringDist e.i.toNat e.cand.toNat e.cfgB.toNat)
      flags := { e.flags with rej := false, bvalid := true, svalid := false, evalid := false } }

/-- BOUNDS (R211). -/
def execBounds (s : State) : Host.Outcome State Fault Refusal :=
  encCommand (opcode .bounds) (onEnc boundsLines) s

/-! ### RDLIT -/

/-- One literal run to EOUT, operands ARG0 and ARG1; no write event for an empty run (R215). -/
def rdlitLines (s : State) : Run State :=
  let off := s.arg0.toNat
  let len := s.arg1.toNat
  if s.enc.cfgB.toNat < off + len then .raised s .range (off + len)
  else
    match s.enc.buf.readRun off len with
    | .error a => .raised s .uninit a
    | .ok bytes => if len = 0 then .done s else eoutPut bytes s

/-- RDLIT (R215). -/
def execRdlit (s : State) : Host.Outcome State Fault Refusal :=
  encCommand (opcode .rdlit) rdlitLines s

end Sys2Proof.Machine
end

