-- ==== Sys2Proof/Machine/MatchExtent.lean ====
section
/-! DEFINITION. The match-extent comparator MX: EXTB, EXTF, COMMIT (43_match_extent.md). -/

namespace Sys2Proof.Machine

open Sys2Proof

/-- Compare the bytes at a scan-side and a match-side position, the scan side read first; an address with no value
is answered as the error (R104, R226, R228). -/
def sameByte (buf : Memory) (p m : Nat) : Except Nat Bool :=
  match buf.read p with
  | none => .error p
  | some a =>
    match buf.read m with
    | none => .error m
    | some b => .ok (a == b)

/-- The backward loop of R226 from `p = lo + n`: the last argument counts the positions left above `lo`. -/
def extendBack (buf : Memory) (i m lo : Nat) : Nat → Except Nat Nat
  | 0 => .ok lo
  | n + 1 =>
    let p := lo + (n + 1)
    match sameByte buf (p - 1) (m - (i - p) - 1) with
    | .error a => .error a
    | .ok true => extendBack buf i m lo n
    | .ok false => .ok p

/-- The forward loop of R228 from `q`: the last argument counts the positions left below the bound. -/
def extendFwd (buf : Memory) (i m q : Nat) : Nat → Except Nat Nat
  | 0 => .ok q
  | n + 1 =>
    match sameByte buf q (m + (q - i)) with
    | .error a => .error a
    | .ok true => extendFwd buf i m (q + 1) n
    | .ok false => .ok q

/-- The lower bound of the backward extension, `max(LAST_MATCH, LOWB)` (R226). -/
def Enc.backLimit (e : Enc) : Nat := max e.lastMatch.toNat e.lowb.toNat

/-- The upper bound of the forward extension, `min(BASE + SIZE, HIGHB)` (R228). -/
def Enc.fwdLimit (e : Enc) : Nat := min e.filled e.highb.toNat

/-- Extend backward (R226).  Where the bound is not below I no byte is read and MSTART is I. -/
def extbLines (e : Enc) : Run Enc :=
  if !e.flags.bvalid then .raised e .state (opcode .extb).toNat
  else
    match extendBack e.buf e.i.toNat e.cand.toNat (min e.backLimit e.i.toNat) (e.i.toNat - e.backLimit) with
    | .error a => .raised e .uninit a
    | .ok p => .done { e with mstart := wordOf p, flags := { e.flags with svalid := true } }

/-- EXTB (R226). -/
def execExtb (s : State) : Host.Outcome State Fault Refusal :=
  encCommand (opcode .extb) (onEnc extbLines) s

/-- Extend forward (R228). -/
def extfLines (e : Enc) : Run Enc :=
  if !e.flags.bvalid then .raised e .state (opcode .extf).toNat
  else
    match extendFwd e.buf e.i.toNat e.cand.toNat e.i.toNat (e.fwdLimit - e.i.toNat) with
    | .error a => .raised e .uninit a
    | .ok q => .done { e with mend := wordOf q, flags := { e.flags with evalid := true } }

/-- EXTF (R228). -/
def execExtf (s : State) : Host.Outcome State Fault Refusal :=
  encCommand (opcode .extf) (onEnc extfLines) s

/-- The required length: `M` when the ring distance is below the barrier, else `S` (R230; 90_conflicts.md C2). -/
def Enc.required (e : Enc) (dist : Word) : Nat :=
  if dist.toNat < e.cfgD.toNat then e.cfgM.toNat else e.cfgS.toNat

/-- The extent passes the length test (R230). -/
def Enc.passes (e : Enc) : Bool := decide (e.required e.dist ≤ e.mend.toNat - e.mstart.toNat)

/-- Stage the record of the present extent and commit it (R230). -/
def stageRecord (e : Enc) : Enc :=
  { e with
    dataOffsets := e.dataOffsets ++ [e.lastMatch]
    datalens := e.datalens ++ [wordOf (e.mstart.toNat - e.lastMatch.toNat)]
    offsets := e.offsets ++ [e.dist]
    lens := e.lens ++ [wordOf (e.mend.toNat - e.mstart.toNat)]
    nrec := wordOf (e.nrec.toNat + 1)
    lastMatch := e.mend
    flags := { e.flags.clearCand with matched := true } }

/-- No room for a closing run: NREC is REC_CAP (R252), or an array the run is pushed to already holds REC_CAP entries
(R23, R57; notes/assumptions/7.md). -/
def Enc.runsFull (recCap : Nat) (e : Enc) : Bool :=
  decide (e.nrec.toNat = recCap) || decide (recCap ≤ e.dataOffsets.length) || decide (recCap ≤ e.datalens.length)

/-- No room for a record: NREC is REC_CAP (R230), or one of the four arrays already holds REC_CAP entries (R23). -/
def Enc.recordsFull (recCap : Nat) (e : Enc) : Bool :=
  e.runsFull recCap || decide (recCap ≤ e.offsets.length) || decide (recCap ≤ e.lens.length)

/-- Length test and staging; a full staging faults before any push (R230). -/
def commitLines (recCap : Nat) (e : Enc) : Run Enc :=
  if !e.flags.svalid || !e.flags.evalid then .raised e .state (opcode .commit).toNat
  else if e.passes then
    if e.recordsFull recCap then .raised e .stageOvf e.nrec.toNat
    else .done (stageRecord e)
  else .done { e with flags := { e.flags.clearCand with matched := false } }

/-- COMMIT (R230). -/
def execCommit (s : State) : Host.Outcome State Fault Refusal :=
  encCommand (opcode .commit) (onEnc (commitLines s.caps.recCap)) s

end Sys2Proof.Machine
end

