-- ==== Sys2Proof/Machine/Scan.lean ====
section
/-! DEFINITION. The scan sequencer SQ: STEP, SKIP, SCAN, ENDCYC, FINAL (44_scan.md).  A line of the pseudocode that
names a command is that command's lines without its preamble. -/

namespace Sys2Proof.Machine

open Sys2Proof

/-! ### STEP -/

/-- BOUNDS and, where it accepts, EXTB, EXTF, COMMIT (R241). -/
def verifyLines (recCap : Nat) (e : Enc) : Run Enc :=
  (boundsLines e).andThen fun e =>
    if e.flags.bvalid then ((extbLines e).andThen extfLines).andThen (commitLines recCap) else .done e

/-- The search part of STEP: nothing inside an already emitted match (R241). -/
def searchLines (recCap : Nat) (e : Enc) : Run Enc :=
  if e.lastMatch.toNat ≤ e.i.toNat then
    (probeLines e).andThen fun e => if e.flags.hit then verifyLines recCap e else .done e
  else .done e

/-- INSERT at the multiples of `k` (R194, R241). -/
def anchorLines (e : Enc) : Run Enc :=
  if e.i &&& e.drvKmask = 0 then insertLines e else .done e

/-- Search, stage, index and advance at one byte (R241). -/
def stepLines (recCap : Nat) (e : Enc) : Run Enc :=
  let q := e.i.toNat + e.drvL.toNat
  if !e.flags.hvalid then .raised e .state (opcode .step).toNat
  else if e.filled ≤ q then .raised e .range q
  else
    ((searchLines recCap { e with flags := { e.flags with matched := false } }).andThen anchorLines).andThen hrollLines

/-- STEP (R241). -/
def execStep (s : State) : Host.Outcome State Fault Refusal :=
  encCommand (opcode .step) (onEnc (stepLines s.caps.recCap)) s

/-! ### SKIP -/

/-- `I` is a multiple of the power of two `L` (R246). -/
def Enc.blockAligned (e : Enc) : Bool := e.i &&& (e.drvL - 1) == 0

/-- The loop of R246.  The first argument bounds the iterations: every one but the last moves I up towards
`BASE + SIZE − L`, where HROLL faults, so `Enc.loopBound` is never used up.  DEDUCED (log entry 20): where HROLL raises
`Range` in an iteration that has already run INSERT, the entry that INSERT made stays, as the order of R246's pseudocode
and R341 have it, though R246's prose speaks of the completed iterations only. -/
def skipLoop : Nat → Enc → Run Enc
  | 0, e => .done e
  | n + 1, e =>
    if e.blockAligned then .done e
    else ((anchorLines e).andThen hrollLines).andThen (skipLoop n)

/-- More iterations than the loops of SKIP and SCAN can make from here. -/
def Enc.loopBound (e : Enc) : Nat := e.filled - e.i.toNat + 1

/-- Advance to the next multiple of `L`, indexing on the way (R246). -/
def skipLines (e : Enc) : Run Enc :=
  if !e.flags.hvalid then .raised e .state (opcode .skip).toNat
  else skipLoop e.loopBound e.clearCand

/-- SKIP (R246). -/
def execSkip (s : State) : Host.Outcome State Fault Refusal :=
  encCommand (opcode .skip) (onEnc skipLines) s

/-! ### SCAN -/

/-- HINIT where the hash is not known to describe the window at I (R248). -/
def rehashLines (e : Enc) : Run Enc := if e.flags.hvalid then .done e else hinitLines e

/-- One outer iteration: the hash on demand, `test` STEPs, SKIP (R248). -/
def blockLines (recCap : Nat) (e : Enc) : Run Enc :=
  ((rehashLines e).andThen fun e => Run.times (stepLines recCap) e.drvTest.toNat e).andThen skipLines

/-- The outer loop of R248; the first argument bounds the iterations, each of which moves I up. -/
def scanLoop (recCap : Nat) : Nat → Enc → Run Enc
  | 0, e => .done e
  | n + 1, e =>
    if e.i.toNat + 2 * e.drvL.toNat < e.filled then (blockLines recCap e).andThen (scanLoop recCap n)
    else .done e

/-- The restart of a SCAN: the cursor at LAST_I, the hash dropped if that moves it (R248). -/
def restart (e : Enc) : Enc :=
  if e.i = e.lastI then e.clearCand else { e with i := e.lastI, flags := e.flags.dropHash }

/-- The per-cycle loop; LAST_I is not updated where it faults (R248, R249). -/
def scanLines (recCap : Nat) (e : Enc) : Run Enc :=
  if !e.flags.cycopen then .raised e .state (opcode .scan).toNat
  else
    (scanLoop recCap (restart e).loopBound (restart e)).andThen fun e => .done { e with lastI := e.i }

/-- SCAN (R248). -/
def execScan (s : State) : Host.Outcome State Fault Refusal :=
  encCommand (opcode .scan) (onEnc (scanLines s.caps.recCap)) s

/-! ### ENDCYC, FINAL -/

/-- This cycle ends the lap: `BASE + SIZE = B` (R252). -/
def Enc.lapEnds (e : Enc) : Bool := e.filled == e.cfgB.toNat

/-- Push the closing run, from LAST_MATCH to `tail` or of length 0, and commit it (R252). -/
def closeRun (tail : Word) (e : Enc) : Enc :=
  if tail.toNat < e.lastMatch.toNat then
    { e with dataOffsets := e.dataOffsets ++ [e.lastMatch], datalens := e.datalens ++ [0] }
  else
    { e with
      dataOffsets := e.dataOffsets ++ [e.lastMatch]
      datalens := e.datalens ++ [wordOf (tail.toNat - e.lastMatch.toNat)]
      lastMatch := tail }

/-- The cursors at the end of a cycle inside a lap (R252). -/
def closeCycle (e : Enc) : Enc :=
  { e with base := wordOf e.filled, size := 0, flags := { e.flags.clearCand with cycopen := false } }

/-- The cursors at the end of a lap: back to 0, the hash dropped (R252). -/
def closeLap (e : Enc) : Enc :=
  { e with
    base := 0, size := 0, lastMatch := 0, lastI := 0, i := 0
    flags := { e.flags.dropHash with cycopen := false, lapped := true } }

/-- Close the cycle (R252). -/
def endcycLines (recCap : Nat) (e : Enc) : Run Enc :=
  if !e.flags.cycopen then .raised e .state (opcode .endcyc).toNat
  else if e.runsFull recCap then .raised e .stageOvf e.nrec.toNat
  else if e.lapEnds then .done (closeLap (closeRun e.cfgB e))
  else .done (closeCycle (closeRun e.lastI e))

/-- ENDCYC (R252). -/
def execEndcyc (s : State) : Host.Outcome State Fault Refusal :=
  encCommand (opcode .endcyc) (onEnc (endcycLines s.caps.recCap)) s

/-- Stage the stream's tail, everything read and not yet committed (R255). -/
def finalLines (recCap : Nat) (e : Enc) : Run Enc :=
  if e.flags.cycopen then .raised e .state (opcode .final).toNat
  else if e.flags.final then .raised e .state (opcode .final).toNat
  else if recCap = 0 then .raised e .stageOvf 0
  else .done { e.clearStaging with
    dataOffsets := [e.lastMatch]
    datalens := [wordOf (e.base.toNat - e.lastMatch.toNat)]
    lastMatch := e.base
    flags := { e.flags.clearCand with final := true } }

/-- FINAL (R255). -/
def execFinal (s : State) : Host.Outcome State Fault Refusal :=
  encCommand (opcode .final) (onEnc (finalLines s.caps.recCap)) s

end Sys2Proof.Machine
end

