-- ==== Sys2Proof/Machine/Segment.lean ====
section
/-! DEFINITION. The segment reconstruction unit SR: DINIT, DLIT, DMATCH, DFLUSH
(45_segment_reconstruction.md). -/

namespace Sys2Proof.Machine

open Sys2Proof

/-! ### DINIT -/

/-- The registers and segments a successful DINIT leaves (R266). -/
def setUp (B s0 : Word) (d : Dec) : Dec :=
  { d with
    dB := B, dSize0 := s0, dData := 0, dLast := 0, dFilled := 0
    seg0 := [], seg1 := []
    flags := { dok := true, block0 := true } }

/-- The checks of R266 in their order, then the set-up. -/
def dinitLines (caps : Caps) (B s0 : Word) (d : Dec) : Run Dec :=
  if d.flags.dok then .raised d .state (opcode .dinit).toNat
  else if B.toNat = 0 then .raised d .cfg 7
  else if 2 ^ 31 < B.toNat then .raised d .cfg 5
  else if s0.toNat = 0 ∨ B.toNat < s0.toNat then .raised d .cfg 8
  else if caps.seg0Cap < s0.toNat then .raised d .noMem 3
  else if caps.seg1Cap < B.toNat - s0.toNat then .raised d .noMem 4
  else .done (setUp B s0 d)

/-- DINIT, operands ARG0 and ARG1 (R266).  It is the one decoder command that DOK = 0 does not stop (R265). -/
def execDinit (s : State) : Host.Outcome State Fault Refusal :=
  unlessFaulted .dec (fun s => onDec (dinitLines s.caps s.arg0 s.arg1) s) s

/-! ### The two common procedures -/

/-- Mark everything up to the write head as handed out. -/
def Dec.markFlushed (d : Dec) : Dec := { d with dLast := d.dData }

/-- `flush` (R268): the pending bytes of CUR in one write event, none where there are none.  Where the event is
refused D_LAST is not changed. -/
def flushLines (s : State) : Run State :=
  let d := s.dec
  if d.dLast.toNat < d.dData.toNat then
    match d.cur.readRun d.dLast.toNat (d.dData.toNat - d.dLast.toNat) with
    | .error a => .raised s .uninit a
    | .ok bytes => (doutPut bytes s).andThen fun s => .done { s with dec := s.dec.markFlushed }
  else .done { s with dec := d.markFlushed }

/-- The switch of `flushswitch`: the other segment where there are two, the cursors at its start (R268). -/
def Dec.switch (d : Dec) : Dec :=
  { d with
    dData := 0, dLast := 0
    flags := { d.flags with
      block0 := if d.dSize0.toNat < d.dB.toNat then !d.flags.block0 else d.flags.block0 } }

/-- `if room == 0: flushswitch` (R268). -/
def makeRoom (s : State) : Run State :=
  if s.dec.room = 0 then (flushLines s).andThen fun s => .done { s with dec := s.dec.switch }
  else .done s

/-! ### DLIT -/

/-- A sub-copy of literal bytes to CUR (R269). -/
def putBytes (bs : List Byte) (d : Dec) : Dec :=
  (d.setCur (d.cur.writeRun d.dData.toNat bs)).advance bs.length

/-- The loop of R269 with `n` bytes to go; each sub-copy takes its bytes from DIN as it is made.  The first argument
bounds the iterations: each copies at least one byte. -/
def dlitLoop : Nat → Nat → State → Run State
  | 0, _, s => .done s
  | fuel + 1, n, s =>
    if n = 0 then .done s
    else
      (makeRoom s).andThen fun s =>
        let c := min n s.dec.room
        let (bs, ports) := dinTake c s.ports
        dlitLoop fuel (n - c) { s with dec := putBytes bs s.dec, ports := ports }

/-- DLIT: the abort form (R151), else the literal run of ARG0 bytes (R269). -/
def dlitLines (s : State) : Run State :=
  if abortForm s then .raised s .io s.arg1.toNat
  else dlitLoop s.arg0.toNat s.arg0.toNat s

/-- DLIT (R269). -/
def execDlit (s : State) : Host.Outcome State Fault Refusal :=
  decCommand (opcode .dlit) dlitLines s

/-! ### DMATCH -/

/-- Where a ring position lies: in SEG0 or not, the address there, and the bytes from it to the end of its segment
(R113). -/
def Dec.locate (d : Dec) (p : Nat) : Bool × Nat × Nat :=
  if p < d.dSize0.toNat then (true, p, d.dSize0.toNat - p)
  else (false, p - d.dSize0.toNat, d.dB.toNat - p)

/-- A byte of SEG0 or SEG1. -/
def Dec.segByte (d : Dec) (inSeg0 : Bool) (a : Nat) : Option Byte :=
  if inSeg0 then d.seg0.read a else d.seg1.read a

/-- The byte loop of a sub-copy, in ascending order, each byte read and then written, so that a byte written here
can be read by a later turn (R271, R272). -/
def copyBytes : Nat → Bool → Nat → Nat → Dec → Run Dec
  | 0, _, _, _, d => .done d
  | c + 1, src, so, dst, d =>
    match d.segByte src so with
    | none => .raised d .uninit so
    | some b => copyBytes c src (so + 1) (dst + 1) (d.setCur (d.cur.write dst b))

/-- `fromPos = (dataPos − offset + B) mod B`, the sum written first so that no difference is negative (R271). -/
def Dec.fromPos (d : Dec) (offset : Nat) : Nat := (d.dataPos + d.dB.toNat - offset) % d.dB.toNat

/-- One sub-copy of at most `len` bytes; the count is returned with the state (R271, R273). -/
def subCopyLen (offset len : Nat) (d : Dec) : Nat :=
  min len (min d.room (d.locate (d.fromPos offset)).2.2)

/-- One sub-copy of `c` bytes from `offset` behind the write head (R271). -/
def subCopy (offset c : Nat) (d : Dec) : Run Dec :=
  let src := d.locate (d.fromPos offset)
  (copyBytes c src.1 src.2.1 d.dData.toNat d).andThen fun d => .done (d.advance c)

/-- The loop of R271 with `len` bytes to go; the first argument bounds the iterations: each copies at least one
byte. -/
def dmatchLoop (offset : Nat) : Nat → Nat → State → Run State
  | 0, _, s => .done s
  | fuel + 1, len, s =>
    if len = 0 then .done s
    else
      (makeRoom s).andThen fun s =>
        let c := subCopyLen offset len s.dec
        (onDec (subCopy offset c) s).andThen (dmatchLoop offset fuel (len - c))

/-- DMATCH: the three tests of R271, then the copy; operands ARG0 and ARG1. -/
def dmatchLines (s : State) : Run State :=
  let offset := s.arg0.toNat
  let len := s.arg1.toNat
  if offset = 0 then .raised s .corrupt offset
  else if s.dec.dB.toNat ≤ offset then .raised s .corrupt offset
  else if s.dec.dFilled.toNat < offset then .raised s .corrupt offset
  else dmatchLoop offset len len s

/-- DMATCH (R271). -/
def execDmatch (s : State) : Host.Outcome State Fault Refusal :=
  decCommand (opcode .dmatch) dmatchLines s

/-! ### DFLUSH -/

/-- DFLUSH: `flush`, no switch (R274). -/
def execDflush (s : State) : Host.Outcome State Fault Refusal :=
  decCommand (opcode .dflush) flushLines s

end Sys2Proof.Machine
end

