-- ==== Sys2Proof/Machine/System.lean ====
section
/-! DEFINITION. The system commands NOP and RESET, the hardware reset, and the register bus (46_system.md,
70_reset_and_hazards.md rule R380, the register map of 10_state.md rule R41). -/

namespace Sys2Proof.Machine

open Sys2Proof

/-! ### NOP, RESET -/

/-- NOP: nothing changes, also when both contexts are faulted (R290). -/
def execNop (s : State) : Host.Outcome State Fault Refusal := .next s

/-- The encoder context in its reset state; the table, unspecified there, is taken empty (R291, R381). -/
def resetEnc (s : State) : State := { s with enc := {} }

/-- The decoder context in its reset state (R291). -/
def resetDec (s : State) : State := { s with dec := {} }

/-- ARG0, ARG1 and R_IDX back to 0 (R292). -/
def resetShared (s : State) : State := { s with arg0 := 0, arg1 := 0, rIdx := 0 }

/-- The effect of RESET on the contexts of the set `ctx`; the ports are not touched (R291, R292). -/
def resetContexts (ctx : Nat) (s : State) : State :=
  let s := if ctx.testBit 0 then resetEnc s else s
  let s := if ctx.testBit 1 then resetDec s else s
  if ctx = 3 then resetShared s else s

/-- RESET ctx, whatever the fault flags say (R291). -/
def execReset (ctx : Nat) (s : State) : Host.Outcome State Fault Refusal := .next (resetContexts ctx s)

/-- The hardware reset: both contexts and ARG0, ARG1, R_IDX (R380). -/
def hardwareReset (s : State) : State := resetShared (resetDec (resetEnc s))

/-! ### The register bus -/

/-- The number of CMD (R41). -/
def cmdReg : Nat := 0x3F

/-- `x[n]`, what `RD n` returns: the register map of R41, computed registers by R59 and R64, 0 for CMD and for a
reserved number (R293). -/
def busRead (n : Nat) (s : State) : Word :=
  match n with
  | 0x00 => s.enc.cfgB
  | 0x01 => s.enc.cfgM
  | 0x02 => s.enc.cfgS
  | 0x03 => s.enc.cfgD
  | 0x04 => s.enc.cfgH
  | 0x05 => s.enc.cfgA
  | 0x08 => s.enc.drvL
  | 0x09 => s.enc.drvK
  | 0x0A => s.enc.drvTest
  | 0x0B => s.enc.drvHsize
  | 0x0C => s.enc.drvHmask
  | 0x0D => s.enc.drvKmask
  | 0x0E => s.enc.drvPL
  | 0x10 => s.enc.hash
  | 0x11 => s.enc.i
  | 0x12 => s.enc.lastI
  | 0x13 => s.enc.lastMatch
  | 0x14 => s.enc.base
  | 0x15 => s.enc.size
  | 0x16 => s.enc.cand
  | 0x17 => s.enc.lowb
  | 0x18 => s.enc.highb
  | 0x19 => s.enc.dist
  | 0x1A => s.enc.mstart
  | 0x1B => s.enc.mend
  | 0x1C => s.enc.nrec
  | 0x1D => s.enc.eerrinfo
  | 0x1E => s.enc.flags.word
  | 0x1F => s.enc.eerr
  | 0x20 => s.dec.dB
  | 0x21 => s.dec.dSize0
  | 0x22 => s.dec.dData
  | 0x23 => s.dec.dLast
  | 0x24 => s.dec.dFilled
  | 0x25 => if s.dec.flags.dok then wordOf s.dec.dataPos else 0
  | 0x2D => s.dec.derrinfo
  | 0x2E => s.dec.flags.word
  | 0x2F => s.dec.derr
  | 0x30 => s.rIdx
  | 0x31 => stagingAt s.enc.dataOffsets s.rIdx
  | 0x32 => stagingAt s.enc.datalens s.rIdx
  | 0x33 => stagingAt s.enc.offsets s.rIdx
  | 0x34 => stagingAt s.enc.lens s.rIdx
  | 0x35 => wordOf s.enc.datalens.length
  | 0x38 => s.arg0
  | 0x39 => s.arg1
  | _ => 0

/-- A CFG register is written only while CFGOK = 0 (R50, R294). -/
def writeCfg (f : Enc → Enc) (s : State) : State :=
  if s.enc.flags.cfgok then s else { s with enc := f s.enc }

/-- `WR n, v` for every `n` but CMD: the writable registers of R41; any other write is ignored (R294). -/
def busWrite (n : Nat) (v : Word) (s : State) : State :=
  match n with
  | 0x00 => writeCfg (fun e => { e with cfgB := v }) s
  | 0x01 => writeCfg (fun e => { e with cfgM := v }) s
  | 0x02 => writeCfg (fun e => { e with cfgS := v }) s
  | 0x03 => writeCfg (fun e => { e with cfgD := v }) s
  | 0x04 => writeCfg (fun e => { e with cfgH := v }) s
  | 0x05 => writeCfg (fun e => { e with cfgA := v }) s
  | 0x30 => { s with rIdx := v }
  | 0x38 => { s with arg0 := v }
  | 0x39 => { s with arg1 := v }
  | _ => s

/-- A bus read as a step: the value goes to the host, nothing else changes (R293, R297). -/
def hostRead (n : Nat) (s : State) : State := { s with reads := s.reads ++ [busRead n s] }

end Sys2Proof.Machine
end

