-- ==== Sys2Proof/Machine/Dispatch.lean ====
section
/-! DEFINITION. The one dispatch: every command of 30_encoding.md rule R145 to its meaning. -/

namespace Sys2Proof.Machine

open Sys2Proof

/-- The meaning of a decoded command, run to its end or to its first fault (R295 (3), (4)). -/
def exec (i : Instr) (s : State) : Host.Outcome State Fault Refusal :=
  match i with
  | .nop => Sys2Proof.Machine.execNop s
  | .reset ctx => Sys2Proof.Machine.execReset ctx s
  | .cfg => Sys2Proof.Machine.execCfg s
  | .hclr => Sys2Proof.Machine.execHclr s
  | .hupd out inn => Sys2Proof.Machine.execHupd out inn s
  | .hinit => Sys2Proof.Machine.execHinit s
  | .hroll => Sys2Proof.Machine.execHroll s
  | .htclr => Sys2Proof.Machine.execHtclr s
  | .insert => Sys2Proof.Machine.execInsert s
  | .probe => Sys2Proof.Machine.execProbe s
  | .fill => Sys2Proof.Machine.execFill s
  | .seek => Sys2Proof.Machine.execSeek s
  | .bounds => Sys2Proof.Machine.execBounds s
  | .rdlit => Sys2Proof.Machine.execRdlit s
  | .extb => Sys2Proof.Machine.execExtb s
  | .extf => Sys2Proof.Machine.execExtf s
  | .commit => Sys2Proof.Machine.execCommit s
  | .step => Sys2Proof.Machine.execStep s
  | .skip => Sys2Proof.Machine.execSkip s
  | .scan => Sys2Proof.Machine.execScan s
  | .endcyc => Sys2Proof.Machine.execEndcyc s
  | .final => Sys2Proof.Machine.execFinal s
  | .dinit => Sys2Proof.Machine.execDinit s
  | .dlit => Sys2Proof.Machine.execDlit s
  | .dmatch => Sys2Proof.Machine.execDmatch s
  | .dflush => Sys2Proof.Machine.execDflush s

end Sys2Proof.Machine
end

