-- ==== Sys2Proof/Machine/Step.lean ====
section
/-! DEFINITION. One step: the host's next operation (46_system.md rules R295, R297). -/

namespace Sys2Proof.Machine

open Sys2Proof

/-- What a write of `w` to CMD does (R295): decode; a reserved word raises `IllegalCmd`; any other runs. -/
def runCommand (w : Word) (s : State) : Host.Outcome State Fault Refusal :=
  match decode w with
  | .error _ => .next (illegalCommand w s)
  | .ok i => exec i s

/-- One step is one operation of the host, taken from the front of its pending operations: a bus read, a bus write
(a command where the register is CMD), or the hardware reset (R297, R380).  Where the host has none pending nothing
happens (R15: RME acts only on a command). -/
def step (s : State) : Host.Outcome State Fault Refusal :=
  match s.bus with
  | [] => .next s
  | .rd n :: rest => .next (hostRead n.toNat { s with bus := rest })
  | .wr n v :: rest =>
    if n.toNat = cmdReg then runCommand v { s with bus := rest }
    else .next (busWrite n.toNat v { s with bus := rest })
  | .hwReset :: rest => .next (hardwareReset { s with bus := rest })

/-- `s` with the write of the command word to CMD as the host's very next operation (R140; notes/assumptions/6.md). -/
def State.withFetchWord (s : State) (nbits w : Nat) : State :=
  { s with bus := .wr (BitVec.ofNat 6 cmdReg) (wordOf (w % 2 ^ nbits)) :: s.bus }

end Sys2Proof.Machine
end

