-- ==== Sys2Proof/Machine/HostStream.lean ====
section
/-! DEFINITION. The host's side, first part: the stream format and the block checks
(47_host_protocol.md rules R306 to R309, R326) and the error kinds (60_exceptions.md rule R350).  No step of the
machine uses this file: it is the platform contract of R305. -/

namespace Sys2Proof.Machine

open Sys2Proof

/-! ### Words and blocks -/

/-- A stream word: four bytes, least significant first (R107, R306). -/
def streamWord (v : Word) : List Byte :=
  [v.extractLsb' 0 8, v.extractLsb' 8 8, v.extractLsb' 16 8, v.extractLsb' 24 8]

/-- Read one stream word (R306). -/
def takeWord : List Byte → Option (Word × List Byte)
  | b0 :: b1 :: b2 :: b3 :: rest => some (b3 ++ b2 ++ b1 ++ b0, rest)
  | _ => none

/-- Read `n` stream words. -/
def takeWords : Nat → List Byte → Option (List Word × List Byte)
  | 0, bs => some ([], bs)
  | n + 1, bs =>
    match takeWord bs with
    | none => none
    | some (w, rest) =>
      match takeWords n rest with
      | none => none
      | some (ws, rest') => some (w :: ws, rest')

/-- The stream words of a list, in order. -/
def streamWords (ws : List Word) : List Byte := ws.flatMap streamWord

/-- The sum of a list of lengths, without wrap. -/
def wordSum (ws : List Word) : Nat := (ws.map BitVec.toNat).sum

/-- One framed block of the stream grammar (R307): literal runs and matches alternate, one more run than matches
(R308). -/
structure Block where
  lens : List Word
  offsets : List Word
  datalens : List Word
  literals : List Byte
  deriving DecidableEq, Repr

/-- `num`, the count of matches. -/
def Block.num (b : Block) : Nat := b.lens.length

/-- `comp_size = 8 + 12·num + Σ datalens` (R308). -/
def Block.compSize (b : Block) : Nat := 8 + 12 * b.num + wordSum b.datalens

/-- The arrays have the lengths of the grammar and the sizes fit a stream word (R307). -/
abbrev Block.wf (b : Block) : Prop :=
  b.offsets.length = b.num ∧ b.datalens.length = b.num + 1 ∧ b.literals.length = wordSum b.datalens ∧
    b.compSize < 2 ^ 32

/-- Everything in the block after `comp_size`: `num`, all lens, all offsets, all datalens, then the literal runs in
index order (R307). -/
def Block.body (b : Block) : List Byte :=
  streamWord (wordOf b.num) ++ streamWords b.lens ++ streamWords b.offsets ++ streamWords b.datalens ++ b.literals

/-- A framed block (R307).  It is read back as `b` where `comp_size` fits the stream word; the host frames no other
(`writeBlock`). -/
def Block.bytes (b : Block) : List Byte := streamWord (wordOf b.compSize) ++ b.body

/-- The end of the stream: a zero `comp_size` (R307, R309). -/
def eofBytes : List Byte := streamWord 0

/-- A whole stream: the block size, the blocks, the sentinel (R307, R309). -/
def streamBytes (B : Word) (blocks : List Block) : List Byte :=
  streamWord B ++ blocks.flatMap Block.bytes ++ eofBytes

/-! ### Errors -/

/-- What the host reports upstream: FA's three kinds, an invalid argument, and an error of the host's own program
(R350). -/
inductive HostError where
  /-- IoError(code), the code as the callback or the engine gave it -/
  | ioError (code : Word)
  /-- OutOfMemory -/
  | outOfMemory
  /-- CorruptInput -/
  | corruptInput
  /-- a violation of the parameter constraints, or parameters that let a block outgrow its size word (log entry 19) -/
  | invalidArgument
  /-- a fault that only a wrong command sequence raises -/
  | programError
  deriving DecidableEq, Repr

/-- The kind of an encoder fault, from EERR and EERRINFO (R316, R350). -/
def encoderError (err info : Word) : HostError :=
  if err = Exn.noMem.code ∨ err = Exn.stageOvf.code then .outOfMemory
  else if err = Exn.io.code then .ioError info
  else if err = Exn.cfg.code then .invalidArgument
  else .programError

/-- The kind of a decoder fault, from DERR and DERRINFO; a `Cfg` fault of DINIT is a corrupt header (R327, R350). -/
def decoderError (err info : Word) : HostError :=
  if err = Exn.noMem.code ∨ err = Exn.stageOvf.code then .outOfMemory
  else if err = Exn.io.code then .ioError info
  else if err = Exn.corrupt.code ∨ err = Exn.cfg.code then .corruptInput
  else .programError

/-! ### Parsing a block -/

/-- Parse the `compSize` bytes of a block after its size word, with the three checks of R326, each a CorruptInput. -/
def parseBody (compSize : Nat) (body : List Byte) : Except HostError Block :=
  if compSize < 8 then .error .corruptInput
  else
    match takeWord body with
    | none => .error .corruptInput
    | some (num, r0) =>
      if compSize < 8 + 12 * num.toNat then .error .corruptInput
      else
        match takeWords num.toNat r0 with
        | none => .error .corruptInput
        | some (lens, r1) =>
          match takeWords num.toNat r1 with
          | none => .error .corruptInput
          | some (offsets, r2) =>
            match takeWords (num.toNat + 1) r2 with
            | none => .error .corruptInput
            | some (datalens, literals) =>
              if 8 + 12 * num.toNat + wordSum datalens = compSize then .ok ⟨lens, offsets, datalens, literals⟩
              else .error .corruptInput

/-! ### Callbacks -/

/-- What one call of `read_cb` does: return at most `n` bytes (at least one where there are any, since 0 is EOF), or
fail with a negative code (R311). -/
inductive ReadAnswer where
  | upTo (n : Nat)
  | fail (code : Word)
  deriving DecidableEq, Repr

/-- The source behind `read_cb`: its bytes, and its answers to the calls to come; a call beyond them returns all it
is asked for. -/
structure Source where
  bytes : List Byte
  answers : List ReadAnswer := []
  deriving DecidableEq, Repr

/-- `read_cb(size)`: the bytes, none at EOF, or the negative code (R311). -/
def readCb (size : Nat) (src : Source) : Except Word (List Byte × Source) :=
  match src.answers with
  | [] => .ok (src.bytes.take size, { src with bytes := src.bytes.drop size })
  | .fail c :: _ => .error c
  | .upTo n :: rest =>
    let m := min size (max n 1)
    .ok (src.bytes.take m, ⟨src.bytes.drop m, rest⟩)

/-- The sink behind `write_cb`: the calls it took, oldest first, and its answers to the calls to come; a call beyond
them succeeds. -/
structure Sink where
  writes : List (List Byte) := []
  answers : List Word := []
  deriving DecidableEq, Repr

/-- All bytes written. -/
def Sink.bytes (k : Sink) : List Byte := k.writes.flatten

/-- `write_cb(bytes)`: a negative answer is an IoError (R311, R316). -/
def writeCb (bytes : List Byte) (k : Sink) : Except HostError Sink :=
  let c := nextAnswer k.answers
  if negative c then .error (.ioError c)
  else .ok ⟨k.writes ++ [bytes], k.answers.tail⟩

end Sys2Proof.Machine
end

