-- ==== Sys2Proof/Machine/HostDriver.lean ====
section
/-! DEFINITION. The host's side, second part: the encoder driver and the decoder driver as sequences of bus
transactions (47_host_protocol.md rules R310 to R316 and R320 to R327; the pseudo-commands of
30_encoding.md rule R153).  No step of the machine uses this file. -/

namespace Sys2Proof.Machine

open Sys2Proof

/-! ### Bus transactions -/

/-- `WR n, v` (R152). -/
def wr (n : Nat) (v : Word) : HostOp := .wr (BitVec.ofNat 6 n) v

/-- A command: its word written to CMD (R152). -/
def cmd (i : Instr) : HostOp := wr cmdReg (encode i)

/-- Run the host's operations one after the other. -/
def issue : List HostOp → State → State
  | [], s => s
  | op :: ops, s =>
    match step { s with bus := [op] } with
    | .next t => issue ops t
    | .fault _ => s
    | .refused _ => s

/-- The six stream parameters (R9). -/
structure Params where
  B : Word
  M : Word
  S : Word
  D : Word
  H : Word
  A : Word
  deriving DecidableEq, Repr

/-- `CONFIG B, M, S, D, H, A` (R153). -/
def configOps (p : Params) : List HostOp :=
  [wr 0x00 p.B, wr 0x01 p.M, wr 0x02 p.S, wr 0x03 p.D, wr 0x04 p.H, wr 0x05 p.A, cmd .cfg]

/-- `FILLN n, <bytes>`: the bytes on EIN, then FILL (R153). -/
def fillN (bytes : List Byte) (s : State) : State :=
  issue [wr 0x38 (wordOf bytes.length), cmd .fill] { s with ports := { s.ports with ein := bytes } }

/-- `DLITN n, <bytes>`: the bytes on DIN, then DLIT (R153). -/
def dlitN (bytes : List Byte) (s : State) : State :=
  issue [wr 0x38 (wordOf bytes.length), cmd .dlit] { s with ports := { s.ports with din := bytes } }

/-- `DCOPY offset, len` (R153). -/
def dcopyOps (offset len : Word) : List HostOp := [wr 0x38 offset, wr 0x39 len, cmd .dmatch]

/-! ### The encoder driver -/

/-- How many bytes the host asks for: `B − BASE` in the first lap, then `min(max(floor(B/8), 1), 8·2^20, B − BASE)`
(R312; 90_conflicts.md C5). -/
def readSize (s : State) : Nat :=
  let B := (busRead 0x00 s).toNat
  let BASE := (busRead 0x14 s).toNat
  if s.enc.flags.lapped then min (min (max (B / 8) 1) (8 * 2 ^ 20)) (B - BASE) else B - BASE

/-- Move the staging window to index `j`: `WR R_IDX, j` (R59, R314). -/
def windowAt (j : Nat) (s : State) : State := issue [wr 0x30 (wordOf j)] s

/-- Read `n` entries of a staging array through the register `reg` of the window, from index `j` up, and the state
the window is left in (R59, R314). -/
def stagedWords (reg : Nat) : Nat → Nat → State → List Word × State
  | 0, _, s => ([], s)
  | n + 1, j, s =>
    let t := windowAt j s
    let (ws, u) := stagedWords reg n (j + 1) t
    (busRead reg t :: ws, u)

/-- `LIT off, len` with EOUT pointed at the host's memory: the bytes of the write event (R153, R314). -/
def literalRun (off len : Word) (s : State) : List Byte × State :=
  let s0 := { s with ports := { s.ports with eout := [], eoutAnswers := [] } }
  let t := issue [wr 0x38 off, wr 0x39 len, cmd .rdlit] s0
  ((t.ports.eout.map WriteEvent.bytes).flatten, t)

/-- The literal bytes of the runs `j, j+1, …`, `n` of them, each `LIT R_DOFF, R_DLEN` at its index, and the state after
their RDLITs (R314). -/
def literalRuns : Nat → Nat → State → List Byte × State
  | 0, _, s => ([], s)
  | n + 1, j, s =>
    let t := windowAt j s
    let (bs, s1) := literalRun (busRead 0x31 t) (busRead 0x32 t) t
    let (rest, s2) := literalRuns n (j + 1) s1
    (bs ++ rest, s2)

/-- Frame a block from the staging arrays, in the order R314 gives: all lens, all offsets, all datalens, then the
literal runs. -/
def frameBlock (s : State) : Block × State :=
  let num := (busRead 0x1C s).toNat
  let (lens, s1) := stagedWords 0x34 num 0 s
  let (offsets, s2) := stagedWords 0x33 num 0 s1
  let (datalens, s3) := stagedWords 0x32 (num + 1) 0 s2
  let (literals, t) := literalRuns (num + 1) 0 s3
  (⟨lens, offsets, datalens, literals⟩, t)

/-- The check of R314: `R_NDL = num + 1`. -/
def framedAsExpected (s : State) : Bool := (busRead 0x35 s).toNat == (busRead 0x1C s).toNat + 1

/-- The encoder context faulted: the host reads EERR and EERRINFO (R316). -/
def encoderFailure (s : State) : Option HostError :=
  if s.enc.flags.efault then some (encoderError (busRead 0x1F s) (busRead 0x1D s)) else none

/-- How a driver stands: the error it must report, if any, the machine and the sink with what it took. -/
structure Drive where
  error : Option HostError
  s : State
  sink : Sink
  deriving DecidableEq, Repr

/-- Write the block staged now; `tail` is what follows it in the same call (R314, R315).  DESIGN CHOICE (log entry 18):
where the check `R_NDL = num + 1` of R314 fails, for which the rules name no outcome, the host stops and reports an error
of its own program; the driver of this file never gets there.  DESIGN CHOICE (log entry 19): where `comp_size` does not
fit the stream word, on which the rules are silent, the host writes nothing of the block and reports an invalid
argument, so that it never writes a stream that does not decode to its input (R330). -/
def writeBlock (tail : List Byte) (s : State) (k : Sink) : Drive :=
  match encoderFailure s with
  | some x => ⟨some x, s, k⟩
  | none =>
    if framedAsExpected s then
      let (b, t) := frameBlock s
      match encoderFailure t with
      | some x => ⟨some x, t, k⟩
      | none =>
        if 2 ^ 32 ≤ b.compSize then ⟨some .invalidArgument, t, k⟩
        else
          match writeCb (b.bytes ++ tail) k with
          | .error x => ⟨some x, t, k⟩
          | .ok k' => ⟨none, t, k'⟩
    else ⟨some .programError, s, k⟩

/-- Cycles until a read returns 0, then the end of input (R313, R315).  The first argument bounds the reads: each but
the last brings a byte.  DESIGN CHOICE (log entry 18): the sentinel travels with the terminal block, one of the two
ways R315 leaves open; and after a negative answer of `read_cb` the host only stops and reports it: it does not record
it in the context with the abort form of FILL, as R316 says it may. -/
def encoderLoop : Nat → State → Source → Sink → Drive
  | 0, s, _, k => ⟨none, s, k⟩
  | n + 1, s, src, k =>
    match readCb (readSize s) src with
    | .error c => ⟨some (.ioError c), s, k⟩
    | .ok (bytes, src') =>
      if bytes.isEmpty then writeBlock eofBytes (issue [cmd .final] s) k
      else
        let d := writeBlock [] (issue [cmd .scan, cmd .endcyc] (fillN bytes s)) k
        match d.error with
        | some _ => d
        | none => encoderLoop n d.s src' d.sink

/-- `rep_compress` with RME: RESET E, CONFIG, the header word, the cycles, and in every case RESET E at the end; what
the sink took before an error stays taken (R310, R315, R316). -/
def compress (caps : Caps) (p : Params) (src : Source) (k : Sink) : Drive :=
  let s := issue (cmd (.reset 1) :: configOps p) { State.reset with caps := caps }
  let d : Drive :=
    match encoderFailure s with
    | some x => ⟨some x, s, k⟩
    | none =>
      match writeCb (streamWord p.B) k with
      | .error x => ⟨some x, s, k⟩
      | .ok k' => encoderLoop (src.bytes.length + 1) s src k'
  { d with s := issue [cmd (.reset 1)] d.s }

/-! ### The decoder driver -/

/-- Read exactly `n` bytes; fewer, also none, is an IoError with the host's own code `short` (R325). -/
def readExactly (short : Word) (n : Nat) (src : Source) : Except HostError (List Byte × Source) :=
  if n = 0 then .ok ([], src)
  else
    match readCb n src with
    | .error c => .error (.ioError c)
    | .ok (bytes, src') => if bytes.length = n then .ok (bytes, src') else .error (.ioError short)

/-- Read one stream word (R321, R322). -/
def readWordExactly (short : Word) (src : Source) : Except HostError (Word × Source) :=
  match readExactly short 4 src with
  | .error x => .error x
  | .ok (bytes, src') =>
    match takeWord bytes with
    | none => .error (.ioError short)
    | some (w, _) => .ok (w, src')

/-- The decoder context faulted: the host reads DERR and DERRINFO (R327). -/
def decoderFailure (s : State) : Option HostError :=
  if s.dec.flags.dfault then some (decoderError (busRead 0x2F s) (busRead 0x2D s)) else none

/-- Execute the records of a block: a literal run, then a match, and the last run alone; the host looks at DFAULT after
each command (R323).  DESIGN CHOICE (log entry 18): a DLITN of 0 bytes and a DCOPY of length 0, which R323 lets the
host issue or leave out, are always issued; a DCOPY of length 0 with an illegal offset then raises `Corrupt`. -/
def executeRuns : List Word → List Word → List Word → List Byte → State → Except HostError State × State
  | d :: ds, o :: os, l :: ls, lits, s =>
    let s1 := dlitN (lits.take d.toNat) s
    match decoderFailure s1 with
    | some x => (.error x, s1)
    | none =>
      let s2 := issue (dcopyOps o l) s1
      match decoderFailure s2 with
      | some x => (.error x, s2)
      | none => executeRuns ds os ls (lits.drop d.toNat) s2
  | d :: _, _, _, lits, s =>
    let s1 := dlitN (lits.take d.toNat) s
    match decoderFailure s1 with
    | some x => (.error x, s1)
    | none => (.ok s1, s1)
  | [], _, _, _, s => (.ok s, s)

/-- Execute a block and flush at its end (R323, R324). -/
def executeBlock (b : Block) (s : State) : Except HostError State × State :=
  match executeRuns b.datalens b.offsets b.lens b.literals s with
  | (.error x, t) => (.error x, t)
  | (.ok _, t) =>
    let u := issue [cmd .dflush] t
    match decoderFailure u with
    | some x => (.error x, u)
    | none => (.ok u, u)

/-- Blocks until the sentinel (R322).  The first argument bounds the blocks: each takes at least four bytes.  The
state is returned in every case: the output already written is not undone (R327).  DESIGN CHOICE (log entry 18): a
short or failed read is only reported; the host does not record it in the context with the abort form of DLIT, as R325
says it may. -/
def decoderLoop (short : Word) : Nat → State → Source → Option HostError × State
  | 0, s, _ => (none, s)
  | n + 1, s, src =>
    match readWordExactly short src with
    | .error x => (some x, s)
    | .ok (size, src1) =>
      if size = 0 then (none, s)
      else
        match readExactly short size.toNat src1 with
        | .error x => (some x, s)
        | .ok (body, src2) =>
          match parseBody size.toNat body with
          | .error x => (some x, s)
          | .ok b =>
            match executeBlock b s with
            | (.error x, t) => (some x, t)
            | (.ok _, t) => decoderLoop short n t src2

/-- `rep_decompress` with RME: the header word, RESET D, DSETUP with segment 0 of `s0 B` bytes, the blocks, and in
every case RESET D at the end (R320 to R327).  DOUT is `write_cb`; the answers of its calls are `answers`. -/
def decompress (caps : Caps) (s0 : Word → Word) (short : Word) (src : Source) (answers : List Word) :
    Option HostError × State :=
  let start : State := { State.reset with caps := caps, ports := { doutAnswers := answers } }
  let ended : Option HostError × State :=
    match readWordExactly short src with
    | .error x => (some x, start)
    | .ok (B, src1) =>
      let s := issue [cmd (.reset 2), wr 0x38 B, wr 0x39 (s0 B), cmd .dinit] start
      match decoderFailure s with
      | some x => (some x, s)
      | none => decoderLoop short (src1.bytes.length + 1) s src1
  (ended.1, issue [cmd (.reset 2)] ended.2)

/-- The bytes a run wrote through DOUT: the write events the sink accepted, in order (R335). -/
def doutBytes (s : State) : List Byte :=
  ((s.ports.dout.filter fun w => !negative w.answer).map WriteEvent.bytes).flatten

end Sys2Proof.Machine
end

