-- ==== Sys2Proof/Safety.lean ====
section
/-! DEFINITION. What a good state is: the canonical form of the memories, the encoder invariants
(10_state.md rule R70 with R57, R103, R250), the decoder invariants (R71 with R112), and the words the statements
are written in. -/

namespace Sys2Proof.Machine

open Sys2Proof

/-! ### Contexts -/

/-- The encoder context accepts its commands: configured and not faulted (R170). -/
abbrev EncReady (s : State) : Prop := s.enc.flags.efault = false ∧ s.enc.flags.cfgok = true

/-- The decoder context accepts its commands: set up and not faulted (R265). -/
abbrev DecReady (s : State) : Prop := s.dec.flags.dfault = false ∧ s.dec.flags.dok = true

/-- The context a command belongs to (R146). -/
def owner (i : Instr) : Owner := contextOf (opcode i)

/-- The encoder context is in its reset state, whatever its table holds (R291, R381: the contents of HT are
unspecified). -/
abbrev EncIsReset (e : Enc) : Prop := ∃ ht : Table, e = { State.reset.enc with ht := ht }

/-- The state a command leaves. -/
def after (i : Instr) (s : State) : State :=
  match exec i s with
  | .next t => t
  | .fault _ => s
  | .refused _ => s

/-! ### Memories -/

/-- Every memory is in its canonical form. -/
structure Canonical (s : State) : Prop where
  buf : s.enc.buf.wf
  ht : s.enc.ht.wf
  seg0 : s.dec.seg0.wf
  seg1 : s.dec.seg1.wf

/-- The byte memory holds a value exactly at the addresses below `n` (R103, R112). -/
structure HeldBelow (m : Memory) (n : Nat) : Prop where
  bound : ∀ c ∈ m, c.1 < n
  held : ∀ p, p < n → (m.read p).isSome

/-- The bytes `bs` stand at `p` and up. -/
abbrev BytesAt (m : Memory) (p : Nat) (bs : List Byte) : Prop :=
  ∀ t, t < bs.length → m.read (p + t) = bs[t]?

/-! ### The encoder context -/

/-- The derived registers hold what CFG derived from legal parameters (R10, R11, R51, R52, R171). -/
structure EncConfigured (e : Enc) : Prop where
  sPos : 1 ≤ e.cfgS.toNat
  sLeM : e.cfgS.toNat ≤ e.cfgM.toNat
  aPos : 1 ≤ e.cfgA.toNat
  hLe : e.cfgH.toNat ≤ 31
  bLe : e.cfgB.toNat ≤ 2 ^ 31
  bGe : 2 * windowLen e.cfgS.toNat ≤ e.cfgB.toNat
  windowLength : e.drvL.toNat = windowLen e.cfgS.toNat
  factor : e.drvK.toNat = subsample (windowLen e.cfgS.toNat)
  probes : e.drvTest.toNat =
    probesPerBlock (subsample (windowLen e.cfgS.toNat)) e.cfgA.toNat (windowLen e.cfgS.toNat)
  slots : e.drvHsize.toNat = tableSize e.cfgB.toNat e.cfgH.toNat (subsample (windowLen e.cfgS.toNat))
  slotMask : e.drvHmask.toNat = e.drvHsize.toNat - 1
  chksumMask : e.drvKmask.toNat = e.drvK.toNat - 1
  dropMult : e.drvPL = wordOf (prime ^ windowLen e.cfgS.toNat)

/-- The cursors (R70 (a), (b), (c); R44; R250). -/
structure EncCursors (e : Enc) : Prop where
  inBuffer : e.filled ≤ e.cfgB.toNat
  lastMatchLe : e.lastMatch.toNat ≤ e.filled
  lastILe : e.lastI.toNat ≤ e.filled
  iLe : e.i.toNat ≤ e.filled
  lastIAligned : e.lastI.toNat % windowLen e.cfgS.toNat = 0
  closedSize : e.flags.cycopen = false → e.size.toNat = 0
  openSize : e.flags.cycopen = true → 1 ≤ e.size.toNat
  finalClosed : e.flags.final = true → e.flags.cycopen = false

/-- The hash and the table (R70 (d), (e)). -/
structure EncHash (e : Enc) : Prop where
  windowRead : e.flags.hvalid = true → e.i.toNat + e.drvL.toNat ≤ e.filled
  windowHash : e.flags.hvalid = true →
    ∀ bs : List Byte, bs.length = e.drvL.toNat → BytesAt e.buf e.i.toNat bs → e.hash = polyhash bs
  anchors : ∀ c ∈ e.ht, (c.2 &&& ~~~e.drvKmask).toNat < e.cfgB.toNat
  anchorsFirstLap : e.flags.lapped = false → ∀ c ∈ e.ht, (c.2 &&& ~~~e.drvKmask).toNat < e.filled

/-- The candidate flags mean what R55 says they mean for the present I and LAST_MATCH (R45, R211, R226, R228). -/
structure EncCandidate (e : Enc) : Prop where
  hitHash : e.flags.hit = true → e.flags.hvalid = true
  hitCand : e.flags.hit = true → e.cand.toNat < e.cfgB.toNat
  hitFirstLap : e.flags.hit = true → e.flags.lapped = false → e.cand.toNat < e.filled
  boundsHit : e.flags.bvalid = true → e.flags.hit = true
  boundsCursor : e.flags.bvalid = true → e.lastMatch.toNat ≤ e.i.toNat
  boundsOutside : e.flags.bvalid = true → e.cand.toNat < e.i.toNat ∨ e.filled ≤ e.cand.toNat
  boundsLow : e.flags.bvalid = true → e.lowb = wordOf (lowBound e.i.toNat e.cand.toNat e.filled)
  boundsHigh : e.flags.bvalid = true → e.highb = wordOf (highBound e.i.toNat e.cand.toNat e.cfgB.toNat)
  boundsDist : e.flags.bvalid = true → e.dist = wordOf (ringDist e.i.toNat e.cand.toNat e.cfgB.toNat)
  startBounds : e.flags.svalid = true → e.flags.bvalid = true
  startRange : e.flags.svalid = true → e.lastMatch.toNat ≤ e.mstart.toNat ∧ e.mstart.toNat ≤ e.i.toNat
  endBounds : e.flags.evalid = true → e.flags.bvalid = true
  endRange : e.flags.evalid = true → e.i.toNat ≤ e.mend.toNat ∧ e.mend.toNat ≤ e.filled

/-- The end of literal run `r`: the scan-side start of the match behind it, if it has one (R70 (g)). -/
def Enc.runEnd (e : Enc) (r : Nat) : Nat := (e.dataOffsets.getD r 0).toNat + (e.datalens.getD r 0).toNat

/-- The length of the match between literal run `r` and the next one, where run `c` is the closing run of ENDCYC or
FINAL: record `j` stands behind run `j` while `j < c`, none behind the closing run, and record `j` behind run `j + 1`
from `c` on (log entry 9). -/
def Enc.matchAfter (e : Enc) (c r : Nat) : Nat :=
  if r < c then (e.lens.getD r 0).toNat else if r = c then 0 else (e.lens.getD (r - 1) 0).toNat

/-- The staged runs are ordered, disjoint and adjacent, and reach LAST_MATCH, `c` records being staged before the
closing run.  With `c = NREC` this is R70 (g): no record was staged with no cycle open.  After the end of a lap
(`BASE + SIZE = 0`) LAST_MATCH is back at 0. -/
structure EncChain (c : Nat) (e : Enc) : Prop where
  bound : c ≤ e.nrec.toNat
  openAll : e.flags.cycopen = true → c = e.nrec.toNat
  emptyAll : e.filled = 0 → c = e.nrec.toNat
  adjacent : ∀ r, r + 1 < e.dataOffsets.length → (e.dataOffsets.getD (r + 1) 0).toNat = e.runEnd r + e.matchAfter c r
  reaches : e.filled ≠ 0 → ∀ r, r + 1 = e.dataOffsets.length → e.lastMatch.toNat = e.runEnd r + e.matchAfter c r

/-- The staging arrays (R57; R70 (f), (g)). -/
structure EncStaging (recCap : Nat) (e : Enc) : Prop where
  lensCount : e.lens.length = e.nrec.toNat
  offsetsCount : e.offsets.length = e.nrec.toNat
  sameRuns : e.datalens.length = e.dataOffsets.length
  openRuns : e.flags.cycopen = true → e.datalens.length = e.nrec.toNat
  closedRuns : e.flags.cycopen = false →
    e.datalens.length = e.nrec.toNat + 1 ∨ (e.datalens.length = 0 ∧ e.nrec.toNat = 0 ∧ e.filled = 0)
  recordsFit : e.nrec.toNat ≤ recCap
  runsFit : e.datalens.length ≤ recCap
  chain : ∃ c, EncChain c e
  recordCount : e.nrec.toNat ≤ e.lastMatch.toNat ∨ e.filled = 0

/-- The positions of BUF that hold a value are those below this (R103). -/
def Enc.heldLimit (e : Enc) : Nat := if e.flags.lapped then e.cfgB.toNat else e.filled

/-- The invariants of a configured encoder context that has not faulted (R70, with the rules each part names). -/
structure EncInv (recCap : Nat) (e : Enc) : Prop where
  config : EncConfigured e
  cursors : EncCursors e
  hash : EncHash e
  candidate : EncCandidate e
  staging : EncStaging recCap e
  buffer : HeldBelow e.buf e.heldLimit

/-- The encoder invariants hold wherever R70 claims them: while `CFGOK = 1` and `EFAULT = 0`. -/
def EncOK (s : State) : Prop := EncReady s → EncInv s.caps.recCap s.enc

/-- Every staged record obeys the length law (R231) and has a distance in `1 .. B − 1` (R159). -/
def RecordsLegal (e : Enc) : Prop :=
  ∀ j, j < e.lens.length →
    ((e.offsets.getD j 0).toNat < e.cfgD.toNat → e.cfgM.toNat ≤ (e.lens.getD j 0).toNat) ∧
    (e.cfgD.toNat ≤ (e.offsets.getD j 0).toNat → e.cfgS.toNat ≤ (e.lens.getD j 0).toNat) ∧
    1 ≤ (e.offsets.getD j 0).toNat ∧ (e.offsets.getD j 0).toNat < e.cfgB.toNat

/-! ### The decoder context -/

/-- The invariants of a decoder context that is set up and has not faulted (R71, R112). -/
structure DecInv (d : Dec) : Prop where
  size0Pos : 1 ≤ d.dSize0.toNat
  size0Le : d.dSize0.toNat ≤ d.dB.toNat
  bLe : d.dB.toNat ≤ 2 ^ 31
  lastLe : d.dLast.toNat ≤ d.dData.toNat
  dataLe : d.dData.toNat ≤ d.seglen
  filledLe : d.dFilled.toNat ≤ d.dB.toNat
  wholeSeg0 : d.dSize0 = d.dB → d.flags.block0 = true
  firstLap : d.dFilled.toNat < d.dB.toNat → d.dataPos = d.dFilled.toNat
  held : ∀ p, p < d.dB.toNat → ((d.ring p).isSome = true ↔ p < d.dFilled.toNat)

/-- The decoder invariants hold wherever R71 claims them: while `DOK = 1` and `DFAULT = 0`. -/
def DecOK (s : State) : Prop := DecReady s → DecInv s.dec

/-- The pending output `CUR[D_LAST .. D_DATA)` (R267). -/
def Dec.pending (d : Dec) : List (Option Byte) :=
  (List.range (d.dData.toNat - d.dLast.toNat)).map fun t => d.cur.read (d.dLast.toNat + t)

/-- The concatenation of the write events made on DOUT (R119, R276). -/
def eventBytes (s : State) : List Byte := (s.ports.dout.map WriteEvent.bytes).flatten

/-- Everything handed to DOUT and then the pending output: the logical output so far (R275, R276). -/
def written (s : State) : List (Option Byte) := (eventBytes s).map some ++ s.dec.pending

/-- The sink of DOUT refuses none of the write events to come. -/
abbrev DoutAccepts (s : State) : Prop := ∀ c ∈ s.ports.doutAnswers, negative c = false

/-- The ring position of the next byte to be written: a full segment not yet switched is the same position as the
start of the next one (R268). -/
def Dec.head (d : Dec) : Nat := d.dataPos % d.dB.toNat

/-- The state with the other segment selected where there are two, the cursors at its start: what `flushswitch` does
after its `flush` (R268). -/
def switched (s : State) : State :=
  { s with dec := { s.dec with
    dData := 0, dLast := 0
    flags := { s.dec.flags with
      block0 := if s.dec.dSize0.toNat < s.dec.dB.toNat then !s.dec.flags.block0 else s.dec.flags.block0 } } }

/-- Two decoder contexts that may differ in the split point and agree on the logical ring (R65, R114). -/
structure SameRing (d₁ d₂ : Dec) : Prop where
  size : d₁.dB = d₂.dB
  filled : d₁.dFilled = d₂.dFilled
  head : d₁.head = d₂.head
  ring : ∀ p, p < d₁.dB.toNat → d₁.ring p = d₂.ring p

end Sys2Proof.Machine
end

