-- ==== Sys2Proof/Certificates/Slice0/Obligations.lean ====
section
/-! DEFINITION. The statements for the provers.  Each docstring names the rule of spec/ it formalises, or says that it
is derived and from what. -/

open Sys2Proof Sys2Proof.Machine

/-! ### Reset, the bus, the system commands -/

/-- R381, R67: after reset every register reads 0 over the bus, the staging arrays are empty, and no byte of BUF, SEG0
or SEG1 holds a value. -/
def Obligations.ResetReadsZeroAndHoldsNothing : Prop :=
  (∀ n, n < 64 → busRead n State.reset = 0) ∧
  (State.reset.enc.lens = [] ∧ State.reset.enc.offsets = [] ∧ State.reset.enc.datalens = [] ∧
    State.reset.enc.dataOffsets = []) ∧
  ∀ p, State.reset.enc.buf.read p = none ∧ State.reset.dec.seg0.read p = none ∧ State.reset.dec.seg1.read p = none

/-- Derived from R290, R291, R380: NOP changes nothing; RESET returns exactly the contexts of its set to their reset
state, clears ARG0, ARG1 and R_IDX only for the full set, touches nothing else, and runs whatever the fault flags say;
the hardware reset, a step of its own, clears all of them (that the ports, the pending operations and the values read
so far are the host's and stay is the model's reading, log entry 16). The reset state of a context is the one
`ResetReadsZeroAndHoldsNothing` describes; the contents of HT are left open. -/
def Obligations.NopAndResetEffects : Prop :=
  ∀ s : State,
    exec .nop s = .next s ∧
    exec (.reset 0) s = .next s ∧
    (∃ ht : Table, exec (.reset 1) s = .next { s with enc := { State.reset.enc with ht := ht } }) ∧
    exec (.reset 2) s = .next { s with dec := State.reset.dec } ∧
    (∃ ht : Table, exec (.reset 3) s = .next { s with
      enc := { State.reset.enc with ht := ht }, dec := State.reset.dec, arg0 := 0, arg1 := 0, rIdx := 0 }) ∧
    ∀ rest : List HostOp, s.bus = .hwReset :: rest →
      ∃ ht : Table, step s = .next { s with
        bus := rest
        enc := { State.reset.enc with ht := ht }, dec := State.reset.dec, arg0 := 0, arg1 := 0, rIdx := 0 }

/-- R293 with R59 and R64: a bus read returns the register and has no side effect; a stored register returns its
content; reserved numbers and CMD return 0; the staging window returns the entry at R_IDX or 0 beyond the array; R_NDL
is the count of closing lengths; D_POS is `dataPos`, 0 while DOK = 0. -/
def Obligations.BusReadReturnsRegister : Prop :=
  (∀ (s : State) (n : BitVec 6) (rest : List HostOp), s.bus = .rd n :: rest →
    step s = .next { s with bus := rest, reads := s.reads ++ [busRead n.toNat { s with bus := rest }] }) ∧
  ∀ s : State,
    ([0x00, 0x01, 0x02, 0x03, 0x04, 0x05, 0x08, 0x09, 0x0A, 0x0B, 0x0C, 0x0D, 0x0E].map (busRead · s) =
      [s.enc.cfgB, s.enc.cfgM, s.enc.cfgS, s.enc.cfgD, s.enc.cfgH, s.enc.cfgA, s.enc.drvL, s.enc.drvK, s.enc.drvTest,
        s.enc.drvHsize, s.enc.drvHmask, s.enc.drvKmask, s.enc.drvPL]) ∧
    ([0x10, 0x11, 0x12, 0x13, 0x14, 0x15, 0x16, 0x17, 0x18, 0x19, 0x1A, 0x1B, 0x1C].map (busRead · s) =
      [s.enc.hash, s.enc.i, s.enc.lastI, s.enc.lastMatch, s.enc.base, s.enc.size, s.enc.cand, s.enc.lowb, s.enc.highb,
        s.enc.dist, s.enc.mstart, s.enc.mend, s.enc.nrec]) ∧
    ([0x1D, 0x1E, 0x1F, 0x20, 0x21, 0x22, 0x23, 0x24, 0x2D, 0x2E, 0x2F, 0x30, 0x38, 0x39].map (busRead · s) =
      [s.enc.eerrinfo, s.enc.flags.word, s.enc.eerr, s.dec.dB, s.dec.dSize0, s.dec.dData, s.dec.dLast, s.dec.dFilled,
        s.dec.derrinfo, s.dec.flags.word, s.dec.derr, s.rIdx, s.arg0, s.arg1]) ∧
    (∀ n ∈ [0x06, 0x07, 0x0F, 0x26, 0x27, 0x28, 0x29, 0x2A, 0x2B, 0x2C, 0x36, 0x37, 0x3A, 0x3B, 0x3C, 0x3D, 0x3E, 0x3F],
      busRead n s = 0) ∧
    (s.rIdx.toNat < s.enc.dataOffsets.length → s.enc.dataOffsets[s.rIdx.toNat]? = some (busRead 0x31 s)) ∧
    (s.rIdx.toNat < s.enc.datalens.length → s.enc.datalens[s.rIdx.toNat]? = some (busRead 0x32 s)) ∧
    (s.rIdx.toNat < s.enc.offsets.length → s.enc.offsets[s.rIdx.toNat]? = some (busRead 0x33 s)) ∧
    (s.rIdx.toNat < s.enc.lens.length → s.enc.lens[s.rIdx.toNat]? = some (busRead 0x34 s)) ∧
    (s.enc.dataOffsets.length ≤ s.rIdx.toNat → busRead 0x31 s = 0) ∧
    (s.enc.datalens.length ≤ s.rIdx.toNat → busRead 0x32 s = 0) ∧
    (s.enc.offsets.length ≤ s.rIdx.toNat → busRead 0x33 s = 0) ∧
    (s.enc.lens.length ≤ s.rIdx.toNat → busRead 0x34 s = 0) ∧
    busRead 0x35 s = wordOf s.enc.datalens.length ∧
    (s.dec.flags.dok = false → busRead 0x25 s = 0) ∧
    (s.dec.flags.dok = true → s.dec.flags.block0 = true → busRead 0x25 s = s.dec.dData) ∧
    (s.dec.flags.dok = true → s.dec.flags.block0 = false → busRead 0x25 s = s.dec.dData + s.dec.dSize0)

/-- Derived from R55, R63, R54: bit `n` of the word RD ESTATUS or RD DSTATUS returns is the flag the tables list
there; every bit not listed reads 0. -/
def Obligations.StatusWordsHoldTheFlags : Prop :=
  ∀ s : State,
    (let w := busRead 0x1E s
     let f := s.enc.flags
     w.getLsbD 0 = f.cfgok ∧ w.getLsbD 1 = f.hvalid ∧ w.getLsbD 2 = f.hit ∧ w.getLsbD 3 = f.rej ∧
     w.getLsbD 4 = f.bvalid ∧ w.getLsbD 5 = f.svalid ∧ w.getLsbD 6 = f.evalid ∧ w.getLsbD 7 = f.matched ∧
     w.getLsbD 8 = f.lapped ∧ w.getLsbD 9 = f.cycopen ∧ w.getLsbD 10 = f.final ∧ w.getLsbD 31 = f.efault ∧
     ∀ n, 10 < n → n < 31 → w.getLsbD n = false) ∧
    (let w := busRead 0x2E s
     let f := s.dec.flags
     w.getLsbD 0 = f.dok ∧ w.getLsbD 1 = f.block0 ∧ w.getLsbD 31 = f.dfault ∧
     ∀ n, 1 < n → n < 31 → w.getLsbD n = false)

/-- R294: a bus write stores a CFG register while CFGOK = 0, and R_IDX, ARG0, ARG1 always; a CFG write while CFGOK = 1
and a write of any other number but CMD are ignored; a write to CMD starts the command (R295). -/
def Obligations.BusWriteStoresOrIsIgnored : Prop :=
  ∀ (s : State) (n : BitVec 6) (v : Word) (rest : List HostOp), s.bus = .wr n v :: rest →
    let s' := { s with bus := rest }
    (s.enc.flags.cfgok = false →
      (n = 0x00 → step s = .next { s' with enc := { s.enc with cfgB := v } }) ∧
      (n = 0x01 → step s = .next { s' with enc := { s.enc with cfgM := v } }) ∧
      (n = 0x02 → step s = .next { s' with enc := { s.enc with cfgS := v } }) ∧
      (n = 0x03 → step s = .next { s' with enc := { s.enc with cfgD := v } }) ∧
      (n = 0x04 → step s = .next { s' with enc := { s.enc with cfgH := v } }) ∧
      (n = 0x05 → step s = .next { s' with enc := { s.enc with cfgA := v } })) ∧
    (s.enc.flags.cfgok = true → n.toNat ≤ 0x05 → step s = .next s') ∧
    (n = 0x30 → step s = .next { s' with rIdx := v }) ∧
    (n = 0x38 → step s = .next { s' with arg0 := v }) ∧
    (n = 0x39 → step s = .next { s' with arg1 := v }) ∧
    (n = 0x3F → step s = runCommand v s') ∧
    (0x05 < n.toNat → n ≠ 0x30 → n ≠ 0x38 → n ≠ 0x39 → n ≠ 0x3F → step s = .next s')

/-- Derived from R295: where the word written to CMD decodes to `i`, the step is `exec i` on the state without that
operation. -/
def Obligations.CommandWriteRunsTheDecodedInstruction : Prop :=
  ∀ (s : State) (w : Word) (i : Instr) (rest : List HostOp),
    s.bus = .wr 0x3F w :: rest → decode w = .ok i → step s = exec i { s with bus := rest }

/-- R147 with R146 and R295 (2): a reserved word written to CMD raises `IllegalCmd(word)` in the encoder context where
the high nibble of the opcode is 1 to 5, in the decoder context where it is 6, in both otherwise, and changes nothing
else. -/
def Obligations.ReservedWordRaisesIllegalCmd : Prop :=
  ∀ (s : State) (w : Word) (x : Reserved) (rest : List HostOp),
    s.bus = .wr 0x3F w :: rest → decode w = .error x →
    let s' := { s with bus := rest }
    let hi := w.toNat / 16 % 16
    (1 ≤ hi → hi ≤ 5 → step s = .next (raise .enc .illegalCmd w.toNat s')) ∧
    (hi = 6 → step s = .next (raise .dec .illegalCmd w.toNat s')) ∧
    (hi = 0 ∨ 7 ≤ hi → step s = .next (raise .dec .illegalCmd w.toNat (raise .enc .illegalCmd w.toNat s')))

/-- Derived from R15, R293, R294, R341: no state and no operation makes the machine stop: a bus transaction never
faults, and a command's fault is recorded in its context; with no operation of the host pending nothing happens (the
model's choice, log entry 3). -/
def Obligations.EveryStepAnswersNext : Prop :=
  (∀ s : State, s.bus = [] → step s = .next s) ∧ (∀ s : State, ∃ t, step s = .next t) ∧
  ∀ (i : Instr) (s : State), ∃ t, exec i s = .next t

/-! ### Faults -/

/-- Derived from R341, R342: the first fault of a context writes the code of its name, the information word and the
fault flag of that context, and nothing else; a fault in a context already faulted changes nothing. -/
def Obligations.RaiseRecordsTheFirstFault : Prop :=
  ∀ (x : Exn) (info : Nat) (s : State),
    (s.enc.flags.efault = false → raise .enc x info s = { s with enc := { s.enc with
      eerr := x.code, eerrinfo := wordOf info, flags := { s.enc.flags with efault := true } } }) ∧
    (s.dec.flags.dfault = false → raise .dec x info s = { s with dec := { s.dec with
      derr := x.code, derrinfo := wordOf info, flags := { s.dec.flags with dfault := true } } }) ∧
    (s.enc.flags.efault = true → raise .enc x info s = s) ∧
    (s.dec.flags.dfault = true → raise .dec x info s = s) ∧
    [Exn.illegalCmd, .cfg, .noMem, .state, .align, .range, .uninit, .stageOvf, .io, .corrupt].map Exn.code =
      [1, 2, 3, 4, 5, 6, 7, 8, 9, 10]

/-- Derived from R345: in a faulted context its commands do nothing, NOP runs, and RESET of the context clears the
flag and the whole context with it. -/
def Obligations.FaultedContextIsStuckUntilReset : Prop :=
  ∀ (s : State) (i : Instr),
    (s.enc.flags.efault = true → owner i = .encoder → exec i s = .next s) ∧
    (s.dec.flags.dfault = true → owner i = .decoder → exec i s = .next s) ∧
    exec .nop s = .next s ∧
    EncIsReset (after (.reset 1) s).enc ∧ (after (.reset 1) s).dec = s.dec ∧
    (after (.reset 2) s).dec = State.reset.dec ∧ (after (.reset 2) s).enc = s.enc

/-- R170, R265: the two tests before anything of a command's own: in a faulted context it does nothing at all; without
CFGOK every encoder command but CFG, and without DOK every decoder command but DINIT, raises `State` of its opcode. -/
def Obligations.PreamblesComeFirst : Prop :=
  ∀ (s : State) (i : Instr),
    (owner i = .encoder →
      (s.enc.flags.efault = true → exec i s = .next s) ∧
      (s.enc.flags.efault = false → s.enc.flags.cfgok = false → i ≠ .cfg →
        exec i s = .next (raise .enc .state (opcode i).toNat s))) ∧
    (owner i = .decoder →
      (s.dec.flags.dfault = true → exec i s = .next s) ∧
      (s.dec.flags.dfault = false → s.dec.flags.dok = false → i ≠ .dinit →
        exec i s = .next (raise .dec .state (opcode i).toNat s)))

/-- R122, R16: the two contexts share no state: a command of one leaves the other as it is, what it does does not
depend on it, and the order of a command of one and a command of the other is immaterial. -/
def Obligations.ContextsAreIndependent : Prop :=
  ∀ (i : Instr) (s t : State), exec i s = .next t →
    (owner i = .encoder → t.dec = s.dec ∧ ∀ d, exec i { s with dec := d } = .next { t with dec := d }) ∧
    (owner i = .decoder → t.enc = s.enc ∧ ∀ e, exec i { s with enc := e } = .next { t with enc := e }) ∧
    ∀ (j : Instr) (u v : State), owner i = .encoder → owner j = .decoder →
      exec j s = .next u → exec j t = .next v → exec i u = .next v

/-- Derived from R346, first half: a fault of a unit command is precise: apart from the error registers and the fault
flag, no state differs from the state before the command. -/
def Obligations.UnitCommandFaultsArePrecise : Prop :=
  ∀ (i : Instr) (s t : State), exec i s = .next t →
    (i ∈ [Instr.cfg, .hclr, .hinit, .hroll, .htclr, .insert, .probe, .fill, .seek, .bounds, .extb, .extf, .commit,
        .endcyc, .final] ∨ (∃ out inn, i = .hupd out inn) →
      s.enc.flags.efault = false → t.enc.flags.efault = true →
      t = { s with enc := { s.enc with
        eerr := t.enc.eerr, eerrinfo := t.enc.eerrinfo, flags := { s.enc.flags with efault := true } } }) ∧
    (i = .dinit → s.dec.flags.dfault = false → t.dec.flags.dfault = true →
      t = { s with dec := { s.dec with
        derr := t.dec.derr, derrinfo := t.dec.derrinfo, flags := { s.dec.flags with dfault := true } } })

/-- Derived from R53: EERR and EERRINFO, once written by the first fault, keep their value until RESET: from a faulted
context a step either keeps them and the flag, or puts the context into its reset state. The same of the decoder
(R63). -/
def Obligations.FirstFaultIsKeptUntilReset : Prop :=
  ∀ s t : State, step s = .next t →
    (s.enc.flags.efault = true →
      (t.enc.eerr = s.enc.eerr ∧ t.enc.eerrinfo = s.enc.eerrinfo ∧ t.enc.flags = s.enc.flags) ∨
        EncIsReset t.enc) ∧
    (s.dec.flags.dfault = true → t.dec = s.dec ∨ t.dec = State.reset.dec)

/-- R50, R51: once CFGOK = 1 the six parameters and the seven derived registers are read-only until a reset of the
context. -/
def Obligations.ConfigurationIsFixedForTheStream : Prop :=
  ∀ s t : State, step s = .next t → s.enc.flags.cfgok = true →
    (t.enc.flags.cfgok = true ∧
      t.enc.cfgB = s.enc.cfgB ∧ t.enc.cfgM = s.enc.cfgM ∧ t.enc.cfgS = s.enc.cfgS ∧
      t.enc.cfgD = s.enc.cfgD ∧ t.enc.cfgH = s.enc.cfgH ∧ t.enc.cfgA = s.enc.cfgA ∧
      t.enc.drvL = s.enc.drvL ∧ t.enc.drvK = s.enc.drvK ∧ t.enc.drvTest = s.enc.drvTest ∧
      t.enc.drvHsize = s.enc.drvHsize ∧ t.enc.drvHmask = s.enc.drvHmask ∧ t.enc.drvKmask = s.enc.drvKmask ∧
      t.enc.drvPL = s.enc.drvPL) ∨
    EncIsReset t.enc

/-- Derived from the column "Written by" of R41, from R53, R55, R56 and R63 for the error registers and the flags,
from R47 and R292 for the operand registers, and from R171 and R291: no command writes ARG0, ARG1 or R_IDX, but for
RESET of both contexts, which clears them, and none writes the capacities, the pending operations or the values read
(the model's own fields, log entries 1 and 3); a command other than RESET never changes the stream parameters, changes
the derived registers only if it is CFG, and the error registers and the fault flag of a context only by a fault
there; a command other than CFG, DINIT and RESET changes any other register or flag of the two contexts only if the
column names it for that register, the flag tables for that flag. Commands are given by their opcodes (R145). -/
def Obligations.RegistersAreWrittenByTheirCommandsOnly : Prop :=
  ∀ (i : Instr) (s t : State), exec i s = .next t →
    (i ≠ .reset 3 → t.arg0 = s.arg0 ∧ t.arg1 = s.arg1 ∧ t.rIdx = s.rIdx) ∧
    (t.caps = s.caps ∧ t.bus = s.bus ∧ t.reads = s.reads) ∧
    ((∀ c, i ≠ .reset c) →
    (t.enc.cfgB = s.enc.cfgB ∧ t.enc.cfgM = s.enc.cfgM ∧ t.enc.cfgS = s.enc.cfgS ∧
      t.enc.cfgD = s.enc.cfgD ∧ t.enc.cfgH = s.enc.cfgH ∧ t.enc.cfgA = s.enc.cfgA) ∧
    (i ≠ .cfg → t.enc.drvL = s.enc.drvL ∧ t.enc.drvK = s.enc.drvK ∧ t.enc.drvTest = s.enc.drvTest ∧
      t.enc.drvHsize = s.enc.drvHsize ∧ t.enc.drvHmask = s.enc.drvHmask ∧ t.enc.drvKmask = s.enc.drvKmask ∧
      t.enc.drvPL = s.enc.drvPL) ∧
    (s.enc.flags.efault = true ∨ t.enc.flags.efault = false →
      t.enc.flags.efault = s.enc.flags.efault ∧ t.enc.eerr = s.enc.eerr ∧ t.enc.eerrinfo = s.enc.eerrinfo) ∧
    (s.dec.flags.dfault = true ∨ t.dec.flags.dfault = false →
      t.dec.flags.dfault = s.dec.flags.dfault ∧ t.dec.derr = s.dec.derr ∧ t.dec.derrinfo = s.dec.derrinfo) ∧
    (i ≠ .cfg → i ≠ .dinit →
    (t.enc.flags.cfgok = s.enc.flags.cfgok ∧ t.dec.flags.dok = s.dec.flags.dok) ∧
    (opcode i ∉ [0x11, 0x12, 0x13, 0x31, 0x52, 0x53] → t.enc.flags.hvalid = s.enc.flags.hvalid) ∧
    (opcode i ∉ [0x11, 0x12, 0x13, 0x14, 0x22, 0x30, 0x31, 0x42, 0x50, 0x51, 0x52, 0x53, 0x54] →
      t.enc.flags.hit = s.enc.flags.hit ∧
      (i ≠ .bounds → t.enc.flags.rej = s.enc.flags.rej ∧ t.enc.flags.bvalid = s.enc.flags.bvalid) ∧
      (i ≠ .bounds → i ≠ .extb → t.enc.flags.svalid = s.enc.flags.svalid) ∧
      (i ≠ .bounds → i ≠ .extf → t.enc.flags.evalid = s.enc.flags.evalid)) ∧
    (opcode i ∉ [0x30, 0x42, 0x50, 0x52] → t.enc.flags.matched = s.enc.flags.matched) ∧
    (opcode i ∉ [0x53] → t.enc.flags.lapped = s.enc.flags.lapped) ∧
    (opcode i ∉ [0x30, 0x53] → t.enc.flags.cycopen = s.enc.flags.cycopen) ∧
    (opcode i ∉ [0x54] → t.enc.flags.final = s.enc.flags.final) ∧
    (opcode i ∉ [0x11, 0x12, 0x13, 0x14, 0x50, 0x51, 0x52] → t.enc.hash = s.enc.hash) ∧
    (opcode i ∉ [0x31, 0x14, 0x50, 0x51, 0x52, 0x53] → t.enc.i = s.enc.i) ∧
    (opcode i ∉ [0x52, 0x53] → t.enc.lastI = s.enc.lastI) ∧
    (opcode i ∉ [0x42, 0x50, 0x52, 0x53, 0x54] → t.enc.lastMatch = s.enc.lastMatch) ∧
    (opcode i ∉ [0x53] → t.enc.base = s.enc.base) ∧
    (opcode i ∉ [0x30, 0x53] → t.enc.size = s.enc.size) ∧
    (opcode i ∉ [0x22, 0x50, 0x52] → t.enc.cand = s.enc.cand) ∧
    (opcode i ∉ [0x32, 0x50, 0x52] →
      t.enc.lowb = s.enc.lowb ∧ t.enc.highb = s.enc.highb ∧ t.enc.dist = s.enc.dist) ∧
    (opcode i ∉ [0x40, 0x50, 0x52] → t.enc.mstart = s.enc.mstart) ∧
    (opcode i ∉ [0x41, 0x50, 0x52] → t.enc.mend = s.enc.mend) ∧
    (opcode i ∉ [0x30, 0x42, 0x50, 0x52, 0x54] →
      t.enc.nrec = s.enc.nrec ∧ t.enc.lens = s.enc.lens ∧ t.enc.offsets = s.enc.offsets) ∧
    (opcode i ∉ [0x30, 0x42, 0x50, 0x52, 0x53, 0x54] →
      t.enc.datalens = s.enc.datalens ∧ t.enc.dataOffsets = s.enc.dataOffsets) ∧
    (t.dec.dB = s.dec.dB ∧ t.dec.dSize0 = s.dec.dSize0) ∧
    (opcode i ∉ [0x61, 0x62] → t.dec.dData = s.dec.dData ∧ t.dec.dFilled = s.dec.dFilled ∧
      t.dec.flags.block0 = s.dec.flags.block0) ∧
    (opcode i ∉ [0x61, 0x62, 0x63] → t.dec.dLast = s.dec.dLast)))

/-- Derived from R60, R61, R41, R111: the memories and the ports change only by the commands the spec names: BUF by
FILL (and CFG, RESET, which empty it), HT by HTCLR, INSERT and the scan commands (and CFG, RESET), the segments by
DLIT and DMATCH (and DINIT, RESET); EIN is read by FILL only, DIN by DLIT only; write events on EOUT are made by RDLIT
only, on DOUT by DLIT, DMATCH and DFLUSH only. -/
def Obligations.MemoriesAndPortsChangeOnlyByTheirCommands : Prop :=
  ∀ (i : Instr) (s t : State), exec i s = .next t →
    (opcode i ∉ [0x01, 0x10, 0x30] → ∀ p, t.enc.buf.read p = s.enc.buf.read p) ∧
    (opcode i ∉ [0x01, 0x10, 0x20, 0x21, 0x50, 0x51, 0x52] → ∀ n, t.enc.ht.read n = s.enc.ht.read n) ∧
    (opcode i ∉ [0x01, 0x60, 0x61, 0x62] →
      ∀ p, t.dec.seg0.read p = s.dec.seg0.read p ∧ t.dec.seg1.read p = s.dec.seg1.read p) ∧
    (opcode i ∉ [0x30] → t.ports.ein = s.ports.ein) ∧
    (opcode i ∉ [0x61] → t.ports.din = s.ports.din) ∧
    (opcode i ∉ [0x33] → t.ports.eout = s.ports.eout ∧ t.ports.eoutAnswers = s.ports.eoutAnswers) ∧
    (opcode i ∉ [0x61, 0x62, 0x63] → t.ports.dout = s.ports.dout ∧ t.ports.doutAnswers = s.ports.doutAnswers)

/-! ### Configuration -/

/-- Derived from R11: `rup2(x)` is the least power of two not below `x`; `L`, `k`, `test` and `hash_size` are what the
rule says: `k` the largest power of two not above `floor(sqrt(2·L))`, for every `S`, `A`, `B`, `H`. -/
def Obligations.DerivedParametersAreLeastAndGreatest : Prop :=
  (∀ x : Nat, (∃ n, rup2 x = 2 ^ n) ∧ x ≤ rup2 x ∧ ∀ n, x ≤ 2 ^ n → rup2 x ≤ 2 ^ n) ∧
  (∀ S : Nat, windowLen S = rup2 (S / 2)) ∧
  (∀ L : Nat, 1 ≤ L → (∃ n, subsample L = 2 ^ n) ∧ subsample L ≤ Nat.sqrt (2 * L) ∧
    ∀ n, 2 ^ n ≤ Nat.sqrt (2 * L) → 2 ^ n ≤ subsample L) ∧
  (∀ k A L : Nat, probesPerBlock k A L = min (k * A) L) ∧
  (∀ B H k : Nat, (0 < H → tableSize B H k = 2 ^ H) ∧ (H = 0 → tableSize B H k = rup2 (2 * B / 3 / max k 16))) ∧
  ∀ n : Nat, primePow (2 ^ n) = wordOf (153191 ^ (2 ^ n))

/-- R171: CFG makes its tests in their order, each raising its fault and changing nothing else; where all pass it
writes the derived registers, empties the table and the buffer, puts the cursors and the staging arrays at their start
and leaves CFGOK as the only flag, and changes nothing else. -/
def Obligations.CfgValidatesDerivesAndClears : Prop :=
  ∀ s : State, s.enc.flags.efault = false →
    let B := s.enc.cfgB.toNat
    let S := s.enc.cfgS.toNat
    let L := windowLen S
    let k := subsample L
    let hsize := tableSize B s.enc.cfgH.toNat k
    let stops := fun (x : Exn) (n : Nat) => exec .cfg s = .next (raise .enc x n s)
    (s.enc.flags.cfgok = true → stops .state 0x10) ∧
    (s.enc.flags.cfgok = false →
      (S = 0 → stops .cfg 1) ∧
      (S ≠ 0 → s.enc.cfgM.toNat < S → stops .cfg 2) ∧
      (S ≠ 0 → S ≤ s.enc.cfgM.toNat →
        (s.enc.cfgA.toNat = 0 → stops .cfg 3) ∧
        (s.enc.cfgA.toNat ≠ 0 → 31 < s.enc.cfgH.toNat → stops .cfg 4) ∧
        (s.enc.cfgA.toNat ≠ 0 → s.enc.cfgH.toNat ≤ 31 →
          (2 ^ 31 < B → stops .cfg 5) ∧
          (B ≤ 2 ^ 31 → B < 2 * L → stops .cfg 6) ∧
          (B ≤ 2 ^ 31 → 2 * L ≤ B →
            (s.caps.bufCap < B → stops .noMem 1) ∧
            (B ≤ s.caps.bufCap → s.caps.htCap < hsize → stops .noMem 2) ∧
            (B ≤ s.caps.bufCap → hsize ≤ s.caps.htCap →
              ∃ (ht : Table) (buf : Memory), (∀ n, ht.read n = 0) ∧ (∀ p, buf.read p = none) ∧
              exec .cfg s = .next { s with enc := { s.enc with
                drvL := wordOf L, drvK := wordOf k, drvTest := wordOf (min (k * s.enc.cfgA.toNat) L)
                drvHsize := wordOf hsize, drvHmask := wordOf (hsize - 1), drvKmask := wordOf (k - 1)
                drvPL := wordOf (153191 ^ L)
                ht := ht, buf := buf
                hash := 0, i := 0, lastI := 0, lastMatch := 0, base := 0, size := 0, nrec := 0
                lens := [], offsets := [], datalens := [], dataOffsets := []
                flags := { cfgok := true } } })))))

/-! ### The rolling-hash engine -/

/-- R25: `L` calls `update_hash(h, 0, b)` from `h = 0` give `polyhash`; and dropping the first byte of the window
while adding one at its end gives the `polyhash` of the window moved by one. -/
def Obligations.RollingUpdateAgreesWithPolyhash : Prop :=
  (∀ (pl : Word) (bs : List Byte), bs.foldl (fun h b => updateHash pl h 0 b) 0 = polyhash bs) ∧
  ∀ (b0 bL : Byte) (bs : List Byte),
    updateHash (wordOf (153191 ^ (bs.length + 1))) (polyhash (b0 :: bs)) b0 bL = polyhash (bs ++ [bL])

/-- R173, R174: HCLR sets HASH to 0; HUPD computes `(HASH·153191 + in − out·PL) mod 2^32` on its two zero-extended
bytes; both clear HVALID and the candidate flags, and neither changes anything else. -/
def Obligations.HclrAndHupdSetTheHash : Prop :=
  ∀ (s : State) (out inn : Nat), EncReady s → out < 256 → inn < 256 →
    let dropped := { s.enc.flags with
      hvalid := false, hit := false, rej := false, bvalid := false, svalid := false, evalid := false }
    exec .hclr s = .next { s with enc := { s.enc with hash := 0, flags := dropped } } ∧
    exec (.hupd out inn) s = .next { s with enc := { s.enc with
      hash := s.enc.hash * 153191 + wordOf inn - wordOf out * s.enc.drvPL, flags := dropped } }

/-- R175: HINIT sets HASH to the `polyhash` of the `L` bytes at I, sets HVALID and clears the candidate flags, and
changes nothing else; a window that reaches past `BASE + SIZE` raises `Range(I + L)`, and the first byte with no value
raises `Uninit` of its position. -/
def Obligations.HinitHashesTheWindow : Prop :=
  ∀ s : State, EncReady s →
    let p := s.enc.i.toNat
    let L := s.enc.drvL.toNat
    (s.enc.base.toNat + s.enc.size.toNat < p + L → exec .hinit s = .next (raise .enc .range (p + L) s)) ∧
    (p + L ≤ s.enc.base.toNat + s.enc.size.toNat →
      (∀ bs : List Byte, bs.length = L → BytesAt s.enc.buf p bs →
        exec .hinit s = .next { s with enc := { s.enc with
          hash := polyhash bs
          flags := { s.enc.flags with
            hvalid := true, hit := false, rej := false, bvalid := false, svalid := false, evalid := false } } }) ∧
      (∀ t, t < L → (∀ u, u < t → (s.enc.buf.read (p + u)).isSome) → s.enc.buf.read (p + t) = none →
        exec .hinit s = .next (raise .enc .uninit (p + t) s)))

/-- R176: HROLL drops `BUF[I]`, adds `BUF[I + L]`, adds 1 to I, keeps HVALID, clears the candidate flags and changes
nothing else; after it HASH is the `polyhash` of the window at the new I. `State` before `Range` before `Uninit`, the
dropped byte read first. -/
def Obligations.HrollSlidesTheWindow : Prop :=
  ∀ s : State, EncReady s →
    let p := s.enc.i.toNat
    let L := s.enc.drvL.toNat
    let filled := s.enc.base.toNat + s.enc.size.toNat
    (s.enc.flags.hvalid = false → exec .hroll s = .next (raise .enc .state 0x14 s)) ∧
    (s.enc.flags.hvalid = true →
      (filled ≤ p + L → exec .hroll s = .next (raise .enc .range (p + L) s)) ∧
      (p + L < filled →
        (s.enc.buf.read p = none → exec .hroll s = .next (raise .enc .uninit p s)) ∧
        ∀ out, s.enc.buf.read p = some out →
          (s.enc.buf.read (p + L) = none → exec .hroll s = .next (raise .enc .uninit (p + L) s)) ∧
          ∀ inn, s.enc.buf.read (p + L) = some inn →
            (exec .hroll s = .next { s with enc := { s.enc with
              hash := updateHash s.enc.drvPL s.enc.hash out inn
              i := s.enc.i + 1
              flags := { s.enc.flags with
                hit := false, rej := false, bvalid := false, svalid := false, evalid := false } } }) ∧
            ∀ bs : List Byte, bs.length + 1 = L → s.enc.hash = polyhash (out :: bs) →
              s.enc.drvPL = wordOf (153191 ^ L) → (after .hroll s).enc.hash = polyhash (bs ++ [inn])))

/-! ### The hash table -/

/-- R191: HTCLR makes every slot 0 and changes nothing else, no flag included. -/
def Obligations.HtclrEmptiesEverySlot : Prop :=
  ∀ s : State, EncReady s →
    ∃ ht : Table, exec .htclr s = .next { s with enc := { s.enc with ht := ht } } ∧ ∀ n, ht.read n = 0

/-- R193: INSERT writes `I | chksum(HASH)` to the slot of HASH and no other slot, whatever the slot held, and changes
no flag and no register; `State` before `Align`. The table is in its canonical form, which every step keeps
(`CanonicalMemoriesAreKept`). -/
def Obligations.InsertRecordsTheAnchor : Prop :=
  ∀ s : State, EncReady s → s.enc.ht.wf →
    let h := s.enc.hash
    let slot := (h &&& s.enc.drvHmask).toNat
    (s.enc.flags.hvalid = false → exec .insert s = .next (raise .enc .state 0x21 s)) ∧
    (s.enc.flags.hvalid = true → s.enc.i &&& s.enc.drvKmask ≠ 0 →
      exec .insert s = .next (raise .enc .align s.enc.i.toNat s)) ∧
    (s.enc.flags.hvalid = true → s.enc.i &&& s.enc.drvKmask = 0 →
      ∃ ht : Table, exec .insert s = .next { s with enc := { s.enc with ht := ht } } ∧
        ht.read slot = s.enc.i ||| ((h >>> 28) &&& s.enc.drvKmask) ∧
        ∀ n, n ≠ slot → ht.read n = s.enc.ht.read n)

/-- R195: PROBE answers the position of the slot's entry where the entry is not 0 and its checksum bits are those of
HASH, and sets HIT; else HIT is 0 and CAND keeps its value. REJ, BVALID, SVALID and EVALID are cleared, and nothing
else changes. -/
def Obligations.ProbeAnswersTheSlot : Prop :=
  ∀ s : State, EncReady s →
    let h := s.enc.hash
    let v := s.enc.ht.read (h &&& s.enc.drvHmask).toNat
    let cleared := { s.enc.flags with hit := false, rej := false, bvalid := false, svalid := false, evalid := false }
    (s.enc.flags.hvalid = false → exec .probe s = .next (raise .enc .state 0x22 s)) ∧
    (s.enc.flags.hvalid = true →
      (v ≠ 0 → v &&& s.enc.drvKmask = (h >>> 28) &&& s.enc.drvKmask →
        exec .probe s = .next { s with enc := { s.enc with
          cand := v &&& ~~~s.enc.drvKmask, flags := { cleared with hit := true } } }) ∧
      (v = 0 ∨ v &&& s.enc.drvKmask ≠ (h >>> 28) &&& s.enc.drvKmask →
        exec .probe s = .next { s with enc := { s.enc with flags := cleared } }))

/-- Derived from R193, R195 and R158: a PROBE right after an INSERT finds the anchor just made, `CAND = I`, unless the
position and the checksum are both 0, when the anchor is lost. -/
def Obligations.ProbeFindsTheAnchorJustInserted : Prop :=
  ∀ s : State, EncReady s → s.enc.ht.wf → s.enc.flags.hvalid = true → s.enc.i &&& s.enc.drvKmask = 0 →
    let t := after .probe (after .insert s)
    let lost := s.enc.i = 0 ∧ (s.enc.hash >>> 28) &&& s.enc.drvKmask = 0
    (¬ lost → t.enc.flags.hit = true ∧ t.enc.cand = s.enc.i) ∧
    (lost → t.enc.flags.hit = false ∧ t.enc.cand = s.enc.cand)

/-! ### The ring buffer and its bounds -/

/-- R207, R208: FILL puts the `n` bytes the host offers on EIN at BASE and up, in order, sets SIZE, empties the
staging arrays, opens the cycle, clears MATCHED and the candidate flags, and changes no other byte and no other
register; the faults in their order, the abort form among them, take no byte and change nothing. -/
def Obligations.FillAppendsTheBytesOfOneRead : Prop :=
  ∀ s : State, EncReady s →
    let n := s.arg0.toNat
    let base := s.enc.base.toNat
    let stops := fun (x : Exn) (v : Nat) => exec .fill s = .next (raise .enc x v s)
    (s.enc.flags.cycopen = true ∨ s.enc.flags.final = true → stops .state 0x30) ∧
    (s.enc.flags.cycopen = false → s.enc.flags.final = false →
      (s.arg0 = 0xFFFFFFFF → stops .io s.arg1.toNat) ∧
      (s.arg0 ≠ 0xFFFFFFFF →
        (n = 0 → stops .range 0) ∧
        (n ≠ 0 → s.enc.cfgB.toNat < base + n → stops .range (base + n)) ∧
        (n ≠ 0 → base + n ≤ s.enc.cfgB.toNat → n ≤ s.ports.ein.length →
          ∃ buf : Memory,
            exec .fill s = .next { s with
              ports := { s.ports with ein := s.ports.ein.drop n }
              enc := { s.enc with
                buf := buf, size := s.arg0, nrec := 0
                lens := [], offsets := [], datalens := [], dataOffsets := []
                flags := { s.enc.flags with
                  cycopen := true, matched := false
                  hit := false, rej := false, bvalid := false, svalid := false, evalid := false } } } ∧
            (∀ t, t < n → buf.read (base + t) = s.ports.ein[t]?) ∧
            ∀ p, p < base ∨ base + n ≤ p → buf.read p = s.enc.buf.read p)))

/-- The model's choice (log entry 5), derived from R116 and R118, which make the host offer all bytes first: where it
offers fewer, FILL and DLIT still run, and every byte not offered is a free value. That a sink of DOUT with no answer
listed accepts is the model's choice too (log entry 4). -/
def Obligations.MissingPortBytesAreFreeValues : Prop :=
  (∀ s : State, EncReady s → s.enc.flags.cycopen = false → s.enc.flags.final = false →
    s.arg0 ≠ 0xFFFFFFFF → s.arg0.toNat ≠ 0 → s.enc.base.toNat + s.arg0.toNat ≤ s.enc.cfgB.toNat →
    ∃ t, exec .fill s = .next t ∧ t.enc.flags.efault = false ∧ t.enc.size = s.arg0 ∧
      (∀ j, j < s.arg0.toNat →
        t.enc.buf.read (s.enc.base.toNat + j) =
          if j < s.ports.ein.length then s.ports.ein[j]?
          else some (Config.unofferedEin (s.ports.einUnoffered + (j - s.ports.ein.length))))) ∧
  (∀ s : State, DecReady s → DecInv s.dec → s.arg0 ≠ 0xFFFFFFFF → DoutAccepts s →
    ∃ t, exec .dlit s = .next t ∧ t.dec.flags.dfault = false ∧
      written t = written s ++ (List.range s.arg0.toNat).map (fun j =>
        if j < s.ports.din.length then s.ports.din[j]?
        else some (Config.unofferedDin (s.ports.dinUnoffered + (j - s.ports.din.length)))))

/-- R209: SEEK sets I to ARG0, clears HVALID and the candidate flags and changes nothing else; a position above `BASE
+ SIZE` raises `Range(p)`. -/
def Obligations.SeekSetsTheCursor : Prop :=
  ∀ s : State, EncReady s →
    (s.enc.base.toNat + s.enc.size.toNat < s.arg0.toNat →
      exec .seek s = .next (raise .enc .range s.arg0.toNat s)) ∧
    (s.arg0.toNat ≤ s.enc.base.toNat + s.enc.size.toNat →
      exec .seek s = .next { s with enc := { s.enc with
        i := s.arg0
        flags := { s.enc.flags with
          hvalid := false, hit := false, rej := false, bvalid := false, svalid := false, evalid := false } } })

/-- R211: BOUNDS rejects a candidate in `[I, BASE + SIZE)`; else it sets LOWB by the three branches, HIGHB to `B − m +
i`, DIST to `(i − m + B) mod B`, and BVALID; HIT is kept, SVALID and EVALID cleared, nothing else changes. -/
def Obligations.BoundsRejectsOrComputesTheRange : Prop :=
  ∀ s : State, EncReady s →
    let i := s.enc.i.toNat
    let m := s.enc.cand.toNat
    let bs := s.enc.base.toNat + s.enc.size.toNat
    let B := s.enc.cfgB.toNat
    let accepts := fun (low : Nat) => exec .bounds s = .next { s with enc := { s.enc with
      lowb := wordOf low, highb := wordOf (B - m + i), dist := wordOf ((i + B - m) % B)
      flags := { s.enc.flags with rej := false, bvalid := true, svalid := false, evalid := false } } }
    (s.enc.flags.hit = false ∨ i < s.enc.lastMatch.toNat → exec .bounds s = .next (raise .enc .state 0x32 s)) ∧
    (s.enc.flags.hit = true → s.enc.lastMatch.toNat ≤ i →
      (i ≤ m → m < bs → exec .bounds s = .next { s with enc := { s.enc with
        flags := { s.enc.flags with rej := true, bvalid := false, svalid := false, evalid := false } } }) ∧
      (m < i → accepts (i - m)) ∧
      (i ≤ m → bs ≤ m → i < m - bs → accepts 0) ∧
      (i ≤ m → bs ≤ m → m - bs ≤ i → accepts (i - (m - bs))))

/-- Derived from R212, R213 (derived rules) and R214: where the invariants hold and BOUNDS accepted, every byte EXTB
and EXTF may compare holds a value: going back the match side stays at or above 0, and at or above `BASE + SIZE` when
it lies in the previous lap; going forward it stays below `B`. -/
def Obligations.BoundsKeepEveryComparedByteReadable : Prop :=
  ∀ s : State, EncReady s → EncInv s.caps.recCap s.enc → s.enc.flags.bvalid = true →
    let i := s.enc.i.toNat
    let m := s.enc.cand.toNat
    let bs := s.enc.base.toNat + s.enc.size.toNat
    (∀ p, max s.enc.lastMatch.toNat s.enc.lowb.toNat ≤ p → p < i →
      (s.enc.buf.read p).isSome ∧ i - p ≤ m ∧ (s.enc.buf.read (m - (i - p))).isSome ∧
        (i < m → bs ≤ m - (i - p))) ∧
    ∀ q, i ≤ q → q < min bs s.enc.highb.toNat →
      (s.enc.buf.read q).isSome ∧ m + (q - i) < s.enc.cfgB.toNat ∧ (s.enc.buf.read (m + (q - i))).isSome

/-- Derived from R215: RDLIT hands the run `BUF[off .. off + len)` to EOUT as one write event (none for an empty run)
and changes no state of RME; a run past `B` raises `Range`, the first byte with no value `Uninit`, and a sink that
refuses the event `Io` of its code. The model's choices: a sink with no answer listed accepts (log entry 4), and a
refused event is recorded with its answer (log entry 11). -/
def Obligations.RdlitHandsOutOneRun : Prop :=
  ∀ s : State, EncReady s →
    let off := s.arg0.toNat
    let len := s.arg1.toNat
    (s.enc.cfgB.toNat < off + len → exec .rdlit s = .next (raise .enc .range (off + len) s)) ∧
    (off + len ≤ s.enc.cfgB.toNat →
      (len = 0 → exec .rdlit s = .next s) ∧
      (∀ t, t < len → (∀ u, u < t → (s.enc.buf.read (off + u)).isSome) → s.enc.buf.read (off + t) = none →
        exec .rdlit s = .next (raise .enc .uninit (off + t) s)) ∧
      (∀ bs : List Byte, len ≠ 0 → bs.length = len → BytesAt s.enc.buf off bs →
        let c := s.ports.eoutAnswers.headD 0
        let t := { s with ports := { s.ports with
          eoutAnswers := s.ports.eoutAnswers.tail, eout := s.ports.eout ++ [⟨bs, c⟩] } }
        (c.toNat < 2 ^ 31 → exec .rdlit s = .next t) ∧
        (2 ^ 31 ≤ c.toNat → exec .rdlit s = .next (raise .enc .io c.toNat t))))

/-! ### The match-extent comparator -/

/-- R226: EXTB answers the lowest position reached from I by equal pairs within `max(LAST_MATCH, LOWB)`, sets SVALID
and changes nothing else; without BVALID it raises `State`; at a pair with a byte that holds no value, the scan side
read first, it raises `Uninit`. -/
def Obligations.ExtbFindsTheStartOfTheMatch : Prop :=
  ∀ s : State, EncReady s →
    let i := s.enc.i.toNat
    let m := s.enc.cand.toNat
    let lo := max s.enc.lastMatch.toNat s.enc.lowb.toNat
    let equalFrom := fun (p : Nat) => ∀ q, p ≤ q → q < i →
      ∃ b, s.enc.buf.read q = some b ∧ s.enc.buf.read (m - (i - q)) = some b
    let starts := fun (p : Nat) => exec .extb s = .next { s with enc := { s.enc with
      mstart := wordOf p, flags := { s.enc.flags with svalid := true } } }
    (s.enc.flags.bvalid = false → exec .extb s = .next (raise .enc .state 0x40 s)) ∧
    (s.enc.flags.bvalid = true →
      (i ≤ lo → starts i) ∧
      (lo ≤ i → equalFrom lo → starts lo) ∧
      ∀ p, lo < p → p ≤ i → equalFrom p →
        (∀ a b, s.enc.buf.read (p - 1) = some a → s.enc.buf.read (m - (i - (p - 1))) = some b → a ≠ b → starts p) ∧
        (s.enc.buf.read (p - 1) = none → exec .extb s = .next (raise .enc .uninit (p - 1) s)) ∧
        (∀ a, s.enc.buf.read (p - 1) = some a → s.enc.buf.read (m - (i - (p - 1))) = none →
          exec .extb s = .next (raise .enc .uninit (m - (i - (p - 1))) s)))

/-- R228: EXTF answers the end of the equal pairs from I up within `min(BASE + SIZE, HIGHB)`, sets EVALID and changes
nothing else; without BVALID it raises `State`; at a pair with a byte that holds no value, the scan side read first,
it raises `Uninit`. -/
def Obligations.ExtfFindsTheEndOfTheMatch : Prop :=
  ∀ s : State, EncReady s →
    let i := s.enc.i.toNat
    let m := s.enc.cand.toNat
    let hi := min (s.enc.base.toNat + s.enc.size.toNat) s.enc.highb.toNat
    let equalTo := fun (q : Nat) => ∀ p, i ≤ p → p < q →
      ∃ b, s.enc.buf.read p = some b ∧ s.enc.buf.read (m + (p - i)) = some b
    let ends := fun (q : Nat) => exec .extf s = .next { s with enc := { s.enc with
      mend := wordOf q, flags := { s.enc.flags with evalid := true } } }
    (s.enc.flags.bvalid = false → exec .extf s = .next (raise .enc .state 0x41 s)) ∧
    (s.enc.flags.bvalid = true →
      (hi ≤ i → ends i) ∧
      (i ≤ hi → equalTo hi → ends hi) ∧
      ∀ q, i ≤ q → q < hi → equalTo q →
        (∀ a b, s.enc.buf.read q = some a → s.enc.buf.read (m + (q - i)) = some b → a ≠ b → ends q) ∧
        (s.enc.buf.read q = none → exec .extf s = .next (raise .enc .uninit q s)) ∧
        (∀ a, s.enc.buf.read q = some a → s.enc.buf.read (m + (q - i)) = none →
          exec .extf s = .next (raise .enc .uninit (m + (q - i)) s)))

/-- Derived from R230, with the guard of `push` (R23; where the arrays and NREC differ, log entry 7): an extent of at
least `M` bytes where the ring distance is below the barrier, else of at least `S`, is staged as one record and
LAST_MATCH moves to its end; a shorter one only clears MATCHED; the candidate flags are cleared, nothing else changes;
a full staging faults before any push. -/
def Obligations.CommitTestsAndStagesTheExtent : Prop :=
  ∀ s : State, EncReady s →
    let required := if s.enc.dist.toNat < s.enc.cfgD.toNat then s.enc.cfgM.toNat else s.enc.cfgS.toNat
    let extent := s.enc.mend.toNat - s.enc.mstart.toNat
    let cleared := { s.enc.flags with hit := false, rej := false, bvalid := false, svalid := false, evalid := false }
    let full := s.enc.nrec.toNat = s.caps.recCap ∨ s.caps.recCap ≤ s.enc.dataOffsets.length ∨
      s.caps.recCap ≤ s.enc.datalens.length ∨ s.caps.recCap ≤ s.enc.offsets.length ∨
      s.caps.recCap ≤ s.enc.lens.length
    (s.enc.flags.svalid = false ∨ s.enc.flags.evalid = false →
      exec .commit s = .next (raise .enc .state 0x42 s)) ∧
    (s.enc.flags.svalid = true → s.enc.flags.evalid = true →
      (extent < required →
        exec .commit s = .next { s with enc := { s.enc with flags := { cleared with matched := false } } }) ∧
      (required ≤ extent → full → exec .commit s = .next (raise .enc .stageOvf s.enc.nrec.toNat s)) ∧
      (required ≤ extent → ¬ full →
        exec .commit s = .next { s with enc := { s.enc with
          dataOffsets := s.enc.dataOffsets ++ [s.enc.lastMatch]
          datalens := s.enc.datalens ++ [wordOf (s.enc.mstart.toNat - s.enc.lastMatch.toNat)]
          offsets := s.enc.offsets ++ [s.enc.dist]
          lens := s.enc.lens ++ [wordOf extent]
          nrec := s.enc.nrec + 1
          lastMatch := s.enc.mend
          flags := { cleared with matched := true } } }))

/-- R231, R159: every staged record is at least `M` long where its distance is below the barrier and at least `S`
otherwise, in every case at least `S ≥ 1`, and its distance lies in `1 .. B − 1`: kept by every step, from every state
with the encoder invariants, also by a step that ends in a fault, whose records the host can still read. -/
def Obligations.StagedRecordsObeyTheLengthLaw : Prop :=
  ∀ s t : State, EncOK s → (EncReady s → RecordsLegal s.enc) → step s = .next t →
    EncReady s ∨ EncReady t →
    RecordsLegal t.enc ∧ ∀ l ∈ t.enc.lens, 1 ≤ t.enc.cfgS.toNat ∧ t.enc.cfgS.toNat ≤ l.toNat

/-! ### The scan sequencer -/

/-- R242 with R241: STEP equals the unit commands a host could issue itself: MATCHED cleared; PROBE unless `I <
LAST_MATCH`; on a hit BOUNDS; if it accepts EXTB, EXTF, COMMIT; INSERT at a multiple of `k`; HROLL. Its own two faults
come first and change nothing. -/
def Obligations.StepEqualsTheUnitCommands : Prop :=
  ∀ s : State, EncReady s →
    let q := s.enc.i.toNat + s.enc.drvL.toNat
    let filled := s.enc.base.toNat + s.enc.size.toNat
    (s.enc.flags.hvalid = false → exec .step s = .next (raise .enc .state 0x50 s)) ∧
    (s.enc.flags.hvalid = true → filled ≤ q → exec .step s = .next (raise .enc .range q s)) ∧
    (s.enc.flags.hvalid = true → q < filled →
      let s0 := { s with enc := { s.enc with flags := { s.enc.flags with matched := false } } }
      let verified := fun u => if u.enc.flags.bvalid = true then after .commit (after .extf (after .extb u)) else u
      let bounded := fun u => if u.enc.flags.hit = true then verified (after .bounds u) else u
      let searched := if s.enc.lastMatch.toNat ≤ s.enc.i.toNat then bounded (after .probe s0) else s0
      let indexed := if s.enc.i &&& s.enc.drvKmask = 0 then after .insert searched else searched
      exec .step s = .next (after .hroll indexed))

/-- Derived from R241, completion: where the invariants hold, the hash is valid, one more byte is there and the
staging has room, STEP ends without a fault: I moves up by 1, HVALID stays, the candidate flags end 0, the invariants
hold again, and only HASH, I, LAST_MATCH, the candidate registers, the staging arrays, NREC, HT and the flags MATCHED,
HIT … EVALID can differ. -/
def Obligations.StepAdvancesOneByte : Prop :=
  ∀ s : State, EncReady s → EncInv s.caps.recCap s.enc → s.enc.flags.hvalid = true →
    s.enc.i.toNat + s.enc.drvL.toNat < s.enc.base.toNat + s.enc.size.toNat →
    s.enc.dataOffsets.length < s.caps.recCap →
    ∃ e : Enc, exec .step s = .next { s with enc := e } ∧ EncInv s.caps.recCap e ∧ e.i = s.enc.i + 1 ∧
      e = { s.enc with
        hash := e.hash, i := e.i, lastMatch := e.lastMatch, cand := e.cand, lowb := e.lowb, highb := e.highb
        dist := e.dist, mstart := e.mstart, mend := e.mend, nrec := e.nrec, lens := e.lens, offsets := e.offsets
        datalens := e.datalens, dataOffsets := e.dataOffsets, ht := e.ht
        flags := { s.enc.flags with
          hvalid := true, hit := false, rej := false, bvalid := false, svalid := false, evalid := false
          matched := e.flags.matched } } ∧
      (e.flags.matched = true ↔ e.nrec.toNat = s.enc.nrec.toNat + 1) ∧
      (e.flags.matched = false ↔ e.nrec = s.enc.nrec) ∧
      (s.enc.i.toNat < s.enc.lastMatch.toNat → e.flags.matched = false ∧ e.lastMatch = s.enc.lastMatch)

/-- Derived from R246, R194: SKIP only clears the candidate flags where I is a multiple of `L`; elsewhere it is, with
these flags cleared, INSERT at a multiple of `k`, then HROLL, then SKIP again. So it moves I to the next multiple of
`L`, stages nothing, keeps MATCHED and HVALID and clears the candidate flags, and only HASH, I and HT can differ
otherwise; where the window at that multiple would reach past `BASE + SIZE` it raises `Range(I + L)` at the I it has
reached, and without HVALID `State`. That HT keeps the entry INSERT made in the iteration whose HROLL raises `Range`
is the model's choice (log entry 20), read from the pseudocode and R341 against R246's prose and R249. -/
def Obligations.SkipReachesTheNextBlock : Prop :=
  ∀ s : State, EncReady s → EncInv s.caps.recCap s.enc →
    let L := s.enc.drvL.toNat
    let target := (s.enc.i.toNat + L - 1) / L * L
    let filled := s.enc.base.toNat + s.enc.size.toNat
    (s.enc.flags.hvalid = false → exec .skip s = .next (raise .enc .state 0x51 s)) ∧
    (s.enc.flags.hvalid = true →
      ∃ e : Enc,
        e = { s.enc with
          hash := e.hash, i := e.i, ht := e.ht
          flags := { s.enc.flags with
            hit := false, rej := false, bvalid := false, svalid := false, evalid := false } } ∧
        (target + L ≤ filled →
          exec .skip s = .next { s with enc := e } ∧ e.i = wordOf target ∧ EncInv s.caps.recCap e) ∧
        (filled < target + L →
          exec .skip s = .next (raise .enc .range filled { s with enc := e }) ∧ e.i.toNat + L = filled)) ∧
    (s.enc.flags.hvalid = true →
      let cleared := { s with enc := { s.enc with flags := { s.enc.flags with
        hit := false, rej := false, bvalid := false, svalid := false, evalid := false } } }
      let indexed := if s.enc.i &&& s.enc.drvKmask = 0 then after .insert cleared else cleared
      (s.enc.i.toNat % L = 0 → exec .skip s = .next cleared) ∧
      (s.enc.i.toNat % L ≠ 0 → exec .skip s = exec .skip (after .hroll indexed)))

/-- Derived from R248, what SCAN computes, its completion and its frame: where the invariants hold and a cycle is
open, SCAN is the restart at LAST_I (the hash dropped if that moves I) and then, while `I + 2L < BASE + SIZE` and
nothing faulted, blocks of HINIT where HVALID is 0, `DRV_TEST` STEPs and SKIP; without a fault LAST_I becomes I at the
end. Where the staging can also hold a record for every byte, SCAN ends without a fault with the invariants, at the
first multiple of `L` from LAST_I up from which `2L` or fewer bytes remain, and LAST_I is that I; BUF, the parameters,
BASE, SIZE, the cycle and the lap are as before. -/
def Obligations.ScanRunsToTheMargin : Prop :=
  ∀ s : State, EncReady s → EncInv s.caps.recCap s.enc → s.enc.flags.cycopen = true →
    let L := s.enc.drvL.toNat
    let filled := s.enc.base.toNat + s.enc.size.toNat
    let start := { s with enc := { s.enc with
      i := s.enc.lastI
      flags := { s.enc.flags with
        hvalid := s.enc.flags.hvalid && s.enc.i == s.enc.lastI
        hit := false, rej := false, bvalid := false, svalid := false, evalid := false } } }
    let hashed := fun u : State => if u.enc.flags.hvalid = true then u else after .hinit u
    let block := fun u : State => after .skip ((after .step)^[s.enc.drvTest.toNat] (hashed u))
    (∃ n : Nat,
      (∀ j, j < n → (block^[j] start).enc.flags.efault = false ∧ (block^[j] start).enc.i.toNat + 2 * L < filled) ∧
      let u := block^[n] start
      (u.enc.flags.efault = true → exec .scan s = .next u) ∧
      (u.enc.flags.efault = false → filled ≤ u.enc.i.toNat + 2 * L ∧
        exec .scan s = .next { u with enc := { u.enc with lastI := u.enc.i } })) ∧
    (filled ≤ s.caps.recCap →
    ∃ e : Enc, exec .scan s = .next { s with enc := e } ∧ EncInv s.caps.recCap e ∧
      e.i = e.lastI ∧ e.i.toNat % L = 0 ∧ s.enc.lastI.toNat ≤ e.i.toNat ∧ filled ≤ e.i.toNat + 2 * L ∧
      (∀ p, s.enc.lastI.toNat ≤ p → p < e.i.toNat → p % L = 0 → p + 2 * L < filled) ∧
      e = { s.enc with
        hash := e.hash, i := e.i, lastI := e.lastI, lastMatch := e.lastMatch, cand := e.cand, lowb := e.lowb
        highb := e.highb, dist := e.dist, mstart := e.mstart, mend := e.mend, nrec := e.nrec, lens := e.lens
        offsets := e.offsets, datalens := e.datalens, dataOffsets := e.dataOffsets, ht := e.ht
        flags := { s.enc.flags with
          hvalid := e.flags.hvalid, matched := e.flags.matched
          hit := false, rej := false, bvalid := false, svalid := false, evalid := false } })

/-- Derived from R248, R249: without an open cycle SCAN raises `State` and changes nothing; where a STEP inside it
overflows the staging the fault is recorded, LAST_I is not updated and the records staged before stay. -/
def Obligations.ScanFaultsKeepTheWorkDone : Prop :=
  ∀ s : State, EncReady s →
    (s.enc.flags.cycopen = false → exec .scan s = .next (raise .enc .state 0x52 s)) ∧
    (s.enc.flags.cycopen = true → EncInv s.caps.recCap s.enc →
      ∀ t, exec .scan s = .next t → t.enc.flags.efault = true →
        t.enc.eerr = 8 ∧ t.enc.eerrinfo = t.enc.nrec ∧ t.enc.lastI = s.enc.lastI ∧
        s.enc.lens <+: t.enc.lens ∧ s.enc.offsets <+: t.enc.offsets ∧
        s.enc.datalens <+: t.enc.datalens ∧ s.enc.dataOffsets <+: t.enc.dataOffsets ∧
        t.enc.buf = s.enc.buf ∧ t.enc.base = s.enc.base ∧ t.enc.size = s.enc.size)

/-- Derived from R252: ENDCYC pushes the closing run, moves BASE up by SIZE, closes the cycle and clears the candidate
flags; at the end of a lap the run reaches to `B`, the cursors return to 0, HVALID is cleared and LAPPED set; nothing
else changes; `State` before `StageOvf`, with the guard of `push` (R23; where the arrays and NREC differ, log entry
7). -/
def Obligations.EndcycClosesTheCycle : Prop :=
  ∀ s : State, EncReady s →
    let filled := s.enc.base.toNat + s.enc.size.toNat
    let full := s.enc.nrec.toNat = s.caps.recCap ∨ s.caps.recCap ≤ s.enc.dataOffsets.length ∨
      s.caps.recCap ≤ s.enc.datalens.length
    let cleared := { s.enc.flags with
      cycopen := false, hit := false, rej := false, bvalid := false, svalid := false, evalid := false }
    let run := fun (tail : Word) =>
      if tail.toNat < s.enc.lastMatch.toNat then (0 : Word) else wordOf (tail.toNat - s.enc.lastMatch.toNat)
    (s.enc.flags.cycopen = false → exec .endcyc s = .next (raise .enc .state 0x53 s)) ∧
    (s.enc.flags.cycopen = true → full → exec .endcyc s = .next (raise .enc .stageOvf s.enc.nrec.toNat s)) ∧
    (s.enc.flags.cycopen = true → ¬ full →
      (filled ≠ s.enc.cfgB.toNat →
        exec .endcyc s = .next { s with enc := { s.enc with
          dataOffsets := s.enc.dataOffsets ++ [s.enc.lastMatch]
          datalens := s.enc.datalens ++ [run s.enc.lastI]
          lastMatch := if s.enc.lastI.toNat < s.enc.lastMatch.toNat then s.enc.lastMatch else s.enc.lastI
          base := wordOf filled, size := 0, flags := cleared } }) ∧
      (filled = s.enc.cfgB.toNat →
        exec .endcyc s = .next { s with enc := { s.enc with
          dataOffsets := s.enc.dataOffsets ++ [s.enc.lastMatch]
          datalens := s.enc.datalens ++ [run s.enc.cfgB]
          lastMatch := 0, base := 0, size := 0, lastI := 0, i := 0
          flags := { cleared with hvalid := false, lapped := true } } }))

/-- R255: FINAL empties the staging arrays and pushes the one run from LAST_MATCH to BASE, moves LAST_MATCH to BASE,
sets FINAL and clears the candidate flags; nothing else changes; the faults in their order. -/
def Obligations.FinalStagesTheTail : Prop :=
  ∀ s : State, EncReady s →
    (s.enc.flags.cycopen = true ∨ s.enc.flags.final = true →
      exec .final s = .next (raise .enc .state 0x54 s)) ∧
    (s.enc.flags.cycopen = false → s.enc.flags.final = false →
      (s.caps.recCap = 0 → exec .final s = .next (raise .enc .stageOvf 0 s)) ∧
      (s.caps.recCap ≠ 0 → exec .final s = .next { s with enc := { s.enc with
        lens := [], offsets := [], nrec := 0
        dataOffsets := [s.enc.lastMatch]
        datalens := [wordOf (s.enc.base.toNat - s.enc.lastMatch.toNat)]
        lastMatch := s.enc.base
        flags := { s.enc.flags with
          final := true, hit := false, rej := false, bvalid := false, svalid := false, evalid := false } } }))

/-! ### The segment reconstruction unit -/

/-- R266: DINIT sets the decoder up: `D_B`, `D_SIZE0`, the cursors at 0, both segments without a value, DOK and BLOCK0
as the only flags; nothing else changes; the faults in their order. -/
def Obligations.DinitSetsTheDecoderUp : Prop :=
  ∀ s : State, s.dec.flags.dfault = false →
    let B := s.arg0.toNat
    let s0 := s.arg1.toNat
    let stops := fun (x : Exn) (n : Nat) => exec .dinit s = .next (raise .dec x n s)
    (s.dec.flags.dok = true → stops .state 0x60) ∧
    (s.dec.flags.dok = false →
      (B = 0 → stops .cfg 7) ∧
      (2 ^ 31 < B → stops .cfg 5) ∧
      (B ≠ 0 → B ≤ 2 ^ 31 → s0 = 0 ∨ B < s0 → stops .cfg 8) ∧
      (B ≤ 2 ^ 31 → s0 ≠ 0 → s0 ≤ B →
        (s.caps.seg0Cap < s0 → stops .noMem 3) ∧
        (s0 ≤ s.caps.seg0Cap → s.caps.seg1Cap < B - s0 → stops .noMem 4) ∧
        (s0 ≤ s.caps.seg0Cap → B - s0 ≤ s.caps.seg1Cap →
          exec .dinit s = .next { s with dec := { s.dec with
            dB := s.arg0, dSize0 := s.arg1, dData := 0, dLast := 0, dFilled := 0
            seg0 := [], seg1 := [], flags := { dok := true, block0 := true } } })))

/-- Derived from R269, R270, R275, R276: where the invariants hold and the sink refuses nothing, DLIT appends the `n`
bytes of DIN to the logical output and to the ring at the write head, byte `j` at position `(head + j) mod B` unless a
later byte of the run replaces it, changes no other ring position, moves the head by `n`, and leaves the encoder
context and the operand registers. Write events: a run no longer than the room left in the segment makes none, moves
D_DATA by its length and keeps D_LAST and BLOCK0; a longer one is the run that fills the segment and then the rest;
and at a full segment the run is DFLUSH, the switch (R268), and then the run. The abort form raises `Io(ARG1)` and
does nothing else (R151). That a sink with no answer listed accepts is the model's choice (log entry 4). -/
def Obligations.DlitAppendsTheLiteralRun : Prop :=
  ∀ s : State, DecReady s →
    (s.arg0 = 0xFFFFFFFF → exec .dlit s = .next (raise .dec .io s.arg1.toNat s)) ∧
    (s.arg0 ≠ 0xFFFFFFFF → DecInv s.dec → DoutAccepts s → s.arg0.toNat ≤ s.ports.din.length →
      let n := s.arg0.toNat
      let B := s.dec.dB.toNat
      let P := s.dec.head
      ∃ (d : Dec) (ports : Ports), exec .dlit s = .next { s with dec := d, ports := ports } ∧ DecInv d ∧
        written { s with dec := d, ports := ports } = written s ++ (s.ports.din.take n).map some ∧
        ports = { s.ports with
          din := s.ports.din.drop n, dout := ports.dout, doutAnswers := ports.doutAnswers } ∧
        d.dB = s.dec.dB ∧ d.dSize0 = s.dec.dSize0 ∧ d.derr = s.dec.derr ∧ d.derrinfo = s.dec.derrinfo ∧
        d.flags.dok = true ∧ d.flags.dfault = false ∧
        d.dFilled.toNat = min B (s.dec.dFilled.toNat + n) ∧ d.head = (P + n) % B ∧
        (∀ j, j < n → n ≤ j + B → d.ring ((P + j) % B) = s.ports.din[j]?) ∧
        (∀ p, p < B → (∀ j, j < n → (P + j) % B ≠ p) → d.ring p = s.dec.ring p) ∧
        (n ≤ s.dec.room → ports.dout = s.ports.dout ∧ ports.doutAnswers = s.ports.doutAnswers ∧
          d.flags = s.dec.flags ∧ d.dLast = s.dec.dLast ∧ d.dData.toNat = s.dec.dData.toNat + n) ∧
        (0 < s.dec.room → s.dec.room < n →
          let filling := after .dlit { s with arg0 := wordOf s.dec.room }
          exec .dlit s =
            .next { after .dlit { filling with arg0 := wordOf (n - s.dec.room) } with arg0 := s.arg0 }) ∧
        (s.dec.room = 0 → 0 < n → exec .dlit s = exec .dlit (switched (after .dflush s))))

/-- Derived from R271, R272, R275: an offset of 0, of `D_B` or more, or into bytes not yet written raises
`Corrupt(offset)` and changes nothing. Where the invariants hold, the offset is legal and the sink refuses nothing,
DMATCH appends `len` bytes, byte `j` being the byte `offset` before it: the bytes that stood at the `offset` ring
positions behind the write head, repeated with period `offset`. The ring and the head move, and the write events are
made, as for a literal run of these bytes; the ports' inputs, the encoder context and the operand registers are left.
That a sink with no answer listed accepts is the model's choice (log entry 4). -/
def Obligations.DmatchRepeatsTheSource : Prop :=
  ∀ s : State, DecReady s →
    let offset := s.arg0.toNat
    let len := s.arg1.toNat
    let B := s.dec.dB.toNat
    let P := s.dec.head
    let copied := fun (j : Nat) => s.dec.ring ((P + B - offset + j % offset) % B)
    (offset = 0 ∨ B ≤ offset ∨ s.dec.dFilled.toNat < offset →
      exec .dmatch s = .next (raise .dec .corrupt offset s)) ∧
    (DecInv s.dec → DoutAccepts s → 1 ≤ offset → offset < B → offset ≤ s.dec.dFilled.toNat →
      ∃ (d : Dec) (ports : Ports), exec .dmatch s = .next { s with dec := d, ports := ports } ∧ DecInv d ∧
        written { s with dec := d, ports := ports } = written s ++ (List.range len).map copied ∧
        ports = { s.ports with dout := ports.dout, doutAnswers := ports.doutAnswers } ∧
        d.dB = s.dec.dB ∧ d.dSize0 = s.dec.dSize0 ∧ d.derr = s.dec.derr ∧ d.derrinfo = s.dec.derrinfo ∧
        d.flags.dok = true ∧ d.flags.dfault = false ∧
        d.dFilled.toNat = min B (s.dec.dFilled.toNat + len) ∧ d.head = (P + len) % B ∧
        (∀ j, j < len → len ≤ j + B → d.ring ((P + j) % B) = copied j) ∧
        (∀ p, p < B → (∀ j, j < len → (P + j) % B ≠ p) → d.ring p = s.dec.ring p) ∧
        (len ≤ s.dec.room → ports.dout = s.ports.dout ∧ ports.doutAnswers = s.ports.doutAnswers ∧
          d.flags = s.dec.flags ∧ d.dLast = s.dec.dLast ∧ d.dData.toNat = s.dec.dData.toNat + len) ∧
        (0 < s.dec.room → s.dec.room < len →
          let filling := after .dmatch { s with arg1 := wordOf s.dec.room }
          exec .dmatch s =
            .next { after .dmatch { filling with arg1 := wordOf (len - s.dec.room) } with arg1 := s.arg1 }) ∧
        (s.dec.room = 0 → 0 < len → exec .dmatch s = exec .dmatch (switched (after .dflush s))))

/-- Derived from R268, R269, R271, R346: where a write event inside DLIT or DMATCH is refused, the command ends with
`Io` of the sink's code, the bytes copied before stay, the rest are not copied, and the refused bytes are still
pending: what DOUT accepted and then the pending output is as before, with the first `k` bytes of the run after it,
and DLIT has taken just these `k` bytes. The model's choices: a sink with no answer listed accepts, so that the code
of a refusal is one of the listed answers (log entry 4), and a refused event is recorded with its answer (log entry
11). -/
def Obligations.RefusedOutputKeepsTheWorkDone : Prop :=
  ∀ (i : Instr) (s t : State), DecReady s → DecInv s.dec → exec i s = .next t → t.dec.flags.dfault = true →
    let B := s.dec.dB.toNat
    let offset := s.arg0.toNat
    let accepted := fun (u : State) => (doutBytes u).map some ++ u.dec.pending
    let kept := fun (out : List (Option Byte)) (taken : Nat → Nat) =>
      ∃ (k : Nat) (c : Word), k < out.length ∧ c ∈ s.ports.doutAnswers ∧ negative c = true ∧
        t.dec.derr = 9 ∧ t.dec.derrinfo = c ∧ accepted t = accepted s ++ out.take k ∧
        t.ports.din = s.ports.din.drop (taken k)
    (i = .dlit → s.arg0 ≠ 0xFFFFFFFF → s.arg0.toNat ≤ s.ports.din.length →
      kept ((s.ports.din.take s.arg0.toNat).map some) id) ∧
    (i = .dmatch → 1 ≤ offset → offset < B → offset ≤ s.dec.dFilled.toNat →
      kept ((List.range s.arg1.toNat).map fun j => s.dec.ring ((s.dec.head + B - offset + j % offset) % B))
        fun _ => 0)

/-- Derived from R274 with R268: DFLUSH hands the pending output to DOUT in one write event (none where nothing is
pending) and moves D_LAST to D_DATA; nothing else changes; a sink that refuses the event raises `Io` of its code and
D_LAST stays. The model's choices: a sink with no answer listed accepts (log entry 4), and a refused event is recorded
with its answer (log entry 11). -/
def Obligations.DflushHandsOutThePending : Prop :=
  ∀ s : State, DecReady s → DecInv s.dec →
    (s.dec.dLast = s.dec.dData → exec .dflush s = .next s) ∧
    (s.dec.dLast ≠ s.dec.dData → ∃ bs : List Byte, bs.map some = s.dec.pending ∧ bs ≠ [] ∧
      let c := s.ports.doutAnswers.headD 0
      let t := { s with ports := { s.ports with
        doutAnswers := s.ports.doutAnswers.tail, dout := s.ports.dout ++ [⟨bs, c⟩] } }
      (c.toNat < 2 ^ 31 → exec .dflush s = .next { t with dec := { s.dec with dLast := s.dec.dData } }) ∧
      (2 ^ 31 ≤ c.toNat → exec .dflush s = .next (raise .dec .io c.toNat t)))

/-- Derived from R114: the split point changes no output byte. Two decoders that agree on the logical ring, whatever
their `D_SIZE0`, and that are given the same command, operands and port bytes, append the same bytes to their logical
outputs, agree on the logical ring again, and meet every hypothesis again but the operands' (the decoder invariants by
`DecoderInvariantsAreKept`). The model's choices: a byte not offered on DIN is a free value (log entry 5), and a sink
with no answer listed accepts (log entry 4). -/
def Obligations.SplitPointChangesNoOutputByte : Prop :=
  ∀ (i : Instr) (s₁ s₂ : State), i = .dlit ∨ i = .dmatch ∨ i = .dflush →
    DecReady s₁ → DecReady s₂ → DecInv s₁.dec → DecInv s₂.dec → SameRing s₁.dec s₂.dec →
    s₁.arg0 = s₂.arg0 → s₁.arg1 = s₂.arg1 → s₁.ports.din = s₂.ports.din →
    s₁.ports.dinUnoffered = s₂.ports.dinUnoffered → DoutAccepts s₁ → DoutAccepts s₂ →
    ∃ (t₁ t₂ : State) (out : List (Option Byte)),
      exec i s₁ = .next t₁ ∧ exec i s₂ = .next t₂ ∧ SameRing t₁.dec t₂.dec ∧
      written t₁ = written s₁ ++ out ∧ written t₂ = written s₂ ++ out ∧
      t₁.ports.din = t₂.ports.din ∧ t₁.ports.dinUnoffered = t₂.ports.dinUnoffered ∧
      DoutAccepts t₁ ∧ DoutAccepts t₂ ∧ t₁.dec.flags.dok = true ∧ t₂.dec.flags.dok = true ∧
      t₁.dec.flags.dfault = t₂.dec.flags.dfault

/-! ### Invariants -/

/-- The canonical form is the model's own representation of the memories (log entry 12, DESIGN CHOICE), of which R20,
R61 and R103 say only what a read answers: every step keeps every memory in it. -/
def Obligations.CanonicalMemoriesAreKept : Prop :=
  ∀ s t : State, Canonical s → step s = .next t → Canonical t

/-- Derived from R70, R57, R103, R250 and the meaning of the flags of R55: every step keeps the encoder invariants,
from every state that has them, reachable or not; and R70 (g) in full is kept by every step but one that stages a
record with no cycle open, which no precondition of R230 or R241 forbids (log entry 9). -/
def Obligations.EncoderInvariantsAreKept : Prop :=
  ∀ s t : State, EncOK s → step s = .next t →
    EncOK t ∧
    ((EncReady s → EncChain s.enc.nrec.toNat s.enc) →
      s.enc.flags.cycopen = true ∨ t.enc.lens.length ≤ s.enc.lens.length →
      EncReady t → EncChain t.enc.nrec.toNat t.enc)

/-- Derived from R71, R112: every step keeps the decoder invariants, from every state that has them, reachable or not.
-/
def Obligations.DecoderInvariantsAreKept : Prop :=
  ∀ s t : State, DecOK s → step s = .next t → DecOK t

/-- Derived from R381, R171, R266, R70, R71: the invariants hold after reset, and after a successful CFG or DINIT they
hold with their full content. The canonical form of the memories, which reset has, is the model's own representation
(log entry 12, DESIGN CHOICE), of which no cited rule speaks. -/
def Obligations.InvariantsHoldAtResetAndSetUp : Prop :=
  (Canonical State.reset ∧ EncOK State.reset ∧ DecOK State.reset) ∧
  (∀ s t : State, exec .cfg s = .next t → s.enc.flags.cfgok = false → EncReady t →
    EncInv t.caps.recCap t.enc ∧ EncChain t.enc.nrec.toNat t.enc) ∧
  ∀ s t : State, exec .dinit s = .next t → s.dec.flags.dok = false → DecReady t → DecInv t.dec

/-- Derived from R104, R214, R248, R271: where the invariants hold no command of the encoder but RDLIT, and none of
the decoder, reads a byte that holds no value: none raises `Uninit`. -/
def Obligations.OnlyRdlitCanRaiseUninit : Prop :=
  ∀ (i : Instr) (s t : State), EncOK s → DecOK s → exec i s = .next t →
    (s.enc.flags.efault = false → t.enc.flags.efault = true → t.enc.eerr = Exn.uninit.code → i = .rdlit) ∧
    (s.dec.flags.dfault = false → t.dec.flags.dfault = true → t.dec.derr ≠ Exn.uninit.code)

/-! ### Encodings -/

/-- Derived from R141, R142, R145: decoding the word of a well-formed command gives it back, with every operand at
every value its field admits. -/
def Obligations.DecodeInvertsEncode : Prop :=
  ∀ i : Instr, i.WellFormed → decode (encode i) = .ok i

/-- Derived from R141, R147: a word that decodes is the word of the command it decodes to, and that command is
well-formed: no two words decode to one command, and no reserved word decodes. -/
def Obligations.EncodeInvertsDecode : Prop :=
  ∀ (w : Word) (i : Instr), decode w = .ok i → i.WellFormed ∧ encode i = w

/-- Derived from R145, R174, R291, R358: words written out from the rules decode to the commands they stand for, and
reserved words do not decode. -/
def Obligations.SampleWordsDecode : Prop :=
  decode 0x00000000 = .ok .nop ∧ decode 0x00000201 = .ok (.reset 2) ∧ decode 0x00000010 = .ok .cfg ∧
  decode 0x00656112 = .ok (.hupd 0x61 0x65) ∧ decode 0x00000021 = .ok .insert ∧ decode 0x00000032 = .ok .bounds ∧
  decode 0x00000042 = .ok .commit ∧ decode 0x00000052 = .ok .scan ∧ decode 0x00000062 = .ok .dmatch ∧
  decode 0x00000110 = .error .zeroField ∧ decode 0x00000401 = .error .zeroField ∧
  decode 0x01000012 = .error .zeroField ∧ decode 0x000000FF = .error .opcode ∧ decode 0x00000015 = .error .opcode

/-! ### The stream format -/

/-- Derived from R307, R308, R326: parsing the body of a framed block gives the block back, its size word is the count
of the bytes after it and at least 8, and a body whose sizes do not add up is refused. -/
def Obligations.BlockParsingInvertsFraming : Prop :=
  (∀ b : Block, b.wf → parseBody b.compSize b.body = .ok b ∧ b.body.length = b.compSize ∧ 8 ≤ b.compSize ∧
    b.bytes = streamWord (wordOf b.compSize) ++ b.body) ∧
  ∀ (n : Nat) (body : List Byte) (b : Block), parseBody n body = .ok b → n = 8 + 12 * b.num + wordSum b.datalens

/-- Derived from R330: whatever the source and its answers, the parameters and the capacities, where the encoder host
reports no error, the decoder host, given the bytes it wrote and any split `s0` its segments can hold, reports none
and hands out exactly the source's bytes. That a sink with no answer listed accepts is the model's choice (log entry
4); the hosts' other choices are those of log entries 18 and 19. -/
def Obligations.RoundTripGivesTheInputBack : Prop :=
  ∀ (encCaps decCaps : Caps) (p : Params) (src : Source) (answers doutAnswers : List Word) (s0 : Word → Word)
    (short : Word),
    let d := compress encCaps p src { answers := answers }
    d.error = none →
    1 ≤ (s0 p.B).toNat → (s0 p.B).toNat ≤ p.B.toNat →
    (s0 p.B).toNat ≤ decCaps.seg0Cap → p.B.toNat - (s0 p.B).toNat ≤ decCaps.seg1Cap →
    (∀ c ∈ doutAnswers, negative c = false) →
    let r := decompress decCaps s0 short { bytes := d.sink.bytes } doutAnswers
    r.1 = none ∧ doutBytes r.2 = src.bytes
end

