-- ==== Sys2Proof/Laws/Memory.lean ====
section
/-! SUPPORT. The laws of the sparse memories: read after write, and that every operation keeps the canonical form. -/

namespace Sys2Proof.Machine

open Sys2Proof

/-! ### Lists of cells -/

section Cells

variable {α : Type}

/-- An address below every listed one is not listed. -/
theorem cellGet_of_lt : ∀ (m : List (Nat × α)) (a : Nat), (∀ c ∈ m, a < c.1) → cellGet m a = none
  | [], _, _ => rfl
  | (b, w) :: m, a, h => by
    have hb : a < b := h (b, w) (by simp)
    simp only [cellGet, Nat.ne_of_lt hb, if_false]
    exact cellGet_of_lt m a fun c hc => h c (by simp [hc])

/-- Every address of a memory after a put is the address put or was there before. -/
theorem mem_cellPut : ∀ (m : List (Nat × α)) (a : Nat) (v : α) (c : Nat × α),
    c ∈ cellPut m a v → c = (a, v) ∨ c ∈ m
  | [], a, v, c, h => by simpa [cellPut] using h
  | (b, w) :: m, a, v, c, h => by
    simp only [cellPut] at h
    split at h
    · simpa using h
    · split at h
      · rcases List.mem_cons.1 h with h | h
        · exact .inl h
        · exact .inr (by simp [h])
      · rcases List.mem_cons.1 h with h | h
        · exact .inr (by simp [h])
        · rcases mem_cellPut m a v c h with h | h
          · exact .inl h
          · exact .inr (by simp [h])

/-- A put keeps the addresses strictly rising. -/
theorem sorted_cellPut : ∀ (m : List (Nat × α)) (a : Nat) (v : α), CellsSorted m → CellsSorted (cellPut m a v)
  | [], _, _, _ => by simp [cellPut, CellsSorted]
  | (b, w) :: m, a, v, h => by
    have hb : ∀ c ∈ m, b < c.1 := (List.pairwise_cons.1 h).1
    have hm : CellsSorted m := (List.pairwise_cons.1 h).2
    simp only [cellPut]
    split
    next hab =>
      refine List.pairwise_cons.2 ⟨?_, h⟩
      intro c hc
      rcases List.mem_cons.1 hc with rfl | hc
      · exact hab
      · exact Nat.lt_trans hab (hb c hc)
    next hab =>
      split
      next he => subst he; exact List.pairwise_cons.2 ⟨hb, hm⟩
      next he =>
        refine List.pairwise_cons.2 ⟨?_, sorted_cellPut m a v hm⟩
        intro c hc
        rcases mem_cellPut m a v c hc with rfl | hc
        · show b < a
          omega
        · exact hb c hc

/-- Reading after a put. -/
theorem cellGet_cellPut : ∀ (m : List (Nat × α)) (a : Nat) (v : α) (x : Nat),
    cellGet (cellPut m a v) x = if x = a then some v else cellGet m x
  | [], a, v, x => by simp [cellPut, cellGet]
  | (b, w) :: m, a, v, x => by
    simp only [cellPut]
    split
    next h => simp only [cellGet]
    next h =>
      split
      next he => subst he; simp only [cellGet]; split <;> rfl
      next he =>
        simp only [cellGet, cellGet_cellPut m a v x]
        split
        · next hx => rw [if_neg (by omega)]
        · rfl

/-- Every cell left by a removal was there before. -/
theorem mem_cellDel : ∀ (m : List (Nat × α)) (a : Nat) (c : Nat × α), c ∈ cellDel m a → c ∈ m
  | [], _, _, h => h
  | (b, w) :: m, a, c, h => by
    simp only [cellDel] at h
    split at h
    · exact List.mem_cons_of_mem _ h
    · rcases List.mem_cons.1 h with h | h
      · simp [h]
      · exact List.mem_cons_of_mem _ (mem_cellDel m a c h)

/-- A removal keeps the addresses strictly rising. -/
theorem sorted_cellDel : ∀ (m : List (Nat × α)) (a : Nat), CellsSorted m → CellsSorted (cellDel m a)
  | [], _, h => h
  | (b, w) :: m, a, h => by
    have hm : CellsSorted m := (List.pairwise_cons.1 h).2
    simp only [cellDel]
    split
    · exact hm
    · exact List.pairwise_cons.2 ⟨fun c hc => (List.pairwise_cons.1 h).1 c (mem_cellDel m a c hc), sorted_cellDel m a hm⟩

/-- Reading after a removal, in a memory with strictly rising addresses. -/
theorem cellGet_cellDel : ∀ (m : List (Nat × α)) (a x : Nat), CellsSorted m →
    cellGet (cellDel m a) x = if x = a then none else cellGet m x
  | [], a, x, _ => by simp [cellDel, cellGet]
  | (b, w) :: m, a, x, h => by
    have hb : ∀ c ∈ m, b < c.1 := (List.pairwise_cons.1 h).1
    have hm : CellsSorted m := (List.pairwise_cons.1 h).2
    simp only [cellDel]
    split
    next he =>
      subst he
      simp only [cellGet]
      split
      next hx => subst hx; exact cellGet_of_lt m x hb
      next => rfl
    next he =>
      simp only [cellGet, cellGet_cellDel m a x hm]
      split
      · next hx => rw [if_neg (by omega)]
      · rfl

/-- An address listed with a value is a cell of the memory. -/
theorem mem_of_cellGet : ∀ (m : List (Nat × α)) (a : Nat) (v : α), cellGet m a = some v → (a, v) ∈ m
  | [], _, _, h => by simp [cellGet] at h
  | (b, w) :: m, a, v, h => by
    simp only [cellGet] at h
    split at h
    next he => subst he; simp at h; simp [h]
    next => exact List.mem_cons_of_mem _ (mem_of_cellGet m a v h)

/-- Two memories in canonical form that read the same are the same list. -/
theorem cells_ext : ∀ (m n : List (Nat × α)), CellsSorted m → CellsSorted n → (∀ a, cellGet m a = cellGet n a) → m = n
  | [], [], _, _, _ => rfl
  | [], (b, w) :: n, _, _, h => by simpa [cellGet] using h b
  | (b, w) :: m, [], _, _, h => by simpa [cellGet] using h b
  | (b, w) :: m, (c, v) :: n, hm, hn, h => by
    have hb : ∀ x ∈ m, b < x.1 := (List.pairwise_cons.1 hm).1
    have hc : ∀ x ∈ n, c < x.1 := (List.pairwise_cons.1 hn).1
    have hbc : b = c := by
      rcases Nat.lt_trichotomy b c with hlt | heq | hlt
      · have h1 := h b
        rw [cellGet_of_lt ((c, v) :: n) b (by
          intro x hx
          rcases List.mem_cons.1 hx with rfl | hx
          · exact hlt
          · exact Nat.lt_trans hlt (hc x hx))] at h1
        simp [cellGet] at h1
      · exact heq
      · have h1 := h c
        rw [cellGet_of_lt ((b, w) :: m) c (by
          intro x hx
          rcases List.mem_cons.1 hx with rfl | hx
          · exact hlt
          · exact Nat.lt_trans hlt (hb x hx))] at h1
        simp [cellGet] at h1
    subst hbc
    have hwv : w = v := by simpa [cellGet] using h b
    subst hwv
    congr 1
    refine cells_ext m n (List.pairwise_cons.1 hm).2 (List.pairwise_cons.1 hn).2 fun a => ?_
    by_cases ha : a = b
    · subst ha
      rw [cellGet_of_lt m a hb, cellGet_of_lt n a hc]
    · simpa [cellGet, ha] using h a

end Cells

/-! ### Byte memories -/

@[simp] theorem Memory.read_nil (p : Nat) : Memory.read [] p = none := rfl

theorem Memory.read_write (m : Memory) (p : Nat) (b : Byte) (q : Nat) :
    (m.write p b).read q = if q = p then some b else m.read q := cellGet_cellPut m p b q

theorem Memory.wf_nil : Memory.wf [] := List.Pairwise.nil

theorem Memory.wf_write (m : Memory) (p : Nat) (b : Byte) (h : m.wf) : (m.write p b).wf := sorted_cellPut m p b h

theorem Memory.wf_writeRun : ∀ (bs : List Byte) (m : Memory) (p : Nat), m.wf → (m.writeRun p bs).wf
  | [], _, _, h => h
  | b :: bs, m, p, h => Memory.wf_writeRun bs (m.write p b) (p + 1) (Memory.wf_write m p b h)

/-- Two canonical byte memories that read the same everywhere are equal. -/
theorem Memory.ext_read (m n : Memory) (hm : m.wf) (hn : n.wf) (h : ∀ p, m.read p = n.read p) : m = n :=
  cells_ext m n hm hn h

/-- Reading after a run of bytes was written. -/
theorem Memory.read_writeRun : ∀ (bs : List Byte) (m : Memory) (p q : Nat),
    (m.writeRun p bs).read q = if p ≤ q ∧ q < p + bs.length then bs[q - p]? else m.read q
  | [], m, p, q => by simp [Memory.writeRun]
  | b :: bs, m, p, q => by
    rw [Memory.writeRun, Memory.read_writeRun bs (m.write p b) (p + 1) q, Memory.read_write]
    by_cases hq : q = p
    · subst hq
      simp
    · by_cases hlt : p + 1 ≤ q ∧ q < p + 1 + bs.length
      · have hs : q - p = (q - (p + 1)) + 1 := by omega
        rw [if_pos hlt, if_pos (by simp; omega), hs, List.getElem?_cons_succ]
      · rw [if_neg hlt, if_neg hq, if_neg (by simp; omega)]

/-- What a run that is read through consists of. -/
theorem Memory.readRun_ok : ∀ (n : Nat) (m : Memory) (p : Nat) (bs : List Byte),
    m.readRun p n = .ok bs → bs.length = n ∧ ∀ t, t < n → m.read (p + t) = bs[t]?
  | 0, m, p, bs, h => by
    simp only [Memory.readRun, Except.ok.injEq] at h
    subst h
    simp
  | n + 1, m, p, bs, h => by
    simp only [Memory.readRun] at h
    cases hb : m.read p with
    | none => simp [hb] at h
    | some b =>
      cases hr : m.readRun (p + 1) n with
      | error a => simp [hb, hr] at h
      | ok cs =>
        simp only [hb, hr, Except.ok.injEq] at h
        subst h
        obtain ⟨hl, ht⟩ := Memory.readRun_ok n m (p + 1) cs hr
        refine ⟨by simp [hl], fun t hlt => ?_⟩
        cases t with
        | zero => simpa using hb
        | succ t =>
          rw [List.getElem?_cons_succ, ← ht t (by omega)]
          congr 1
          omega

/-- Bytes that stand at `p` and up are what a run read there answers. -/
theorem Memory.readRun_of_bytes : ∀ (bs : List Byte) (m : Memory) (p : Nat),
    (∀ t, t < bs.length → m.read (p + t) = bs[t]?) → m.readRun p bs.length = .ok bs
  | [], _, _, _ => rfl
  | b :: bs, m, p, h => by
    have h0 : m.read p = some b := by simpa using h 0 (by simp)
    have hr := Memory.readRun_of_bytes bs m (p + 1) fun t ht => by
      have := h (t + 1) (by simpa using ht)
      rw [List.getElem?_cons_succ] at this
      rw [← this]
      congr 1
      omega
    simp [Memory.readRun, h0, hr]

/-- A run that cannot be read through stops at its first byte with no value. -/
theorem Memory.readRun_error : ∀ (n : Nat) (m : Memory) (p a : Nat), m.readRun p n = .error a →
    p ≤ a ∧ a < p + n ∧ m.read a = none ∧ ∀ q, p ≤ q → q < a → (m.read q).isSome
  | 0, _, _, _, h => by simp [Memory.readRun] at h
  | n + 1, m, p, a, h => by
    simp only [Memory.readRun] at h
    cases hb : m.read p with
    | none =>
      simp only [hb, Except.error.injEq] at h
      subst h
      exact ⟨Nat.le_refl _, by omega, hb, fun q h1 h2 => by omega⟩
    | some b =>
      cases hr : m.readRun (p + 1) n with
      | ok cs => simp [hb, hr] at h
      | error c =>
        simp only [hb, hr, Except.error.injEq] at h
        subst h
        obtain ⟨h1, h2, h3, h4⟩ := Memory.readRun_error n m (p + 1) c hr
        refine ⟨by omega, by omega, h3, fun q hq1 hq2 => ?_⟩
        by_cases hq : q = p
        · subst hq
          simp [hb]
        · exact h4 q (by omega) hq2

/-- Where every byte of the run holds a value the run can be read through. -/
theorem Memory.readRun_of_held (m : Memory) (p n : Nat) (h : ∀ t, t < n → (m.read (p + t)).isSome) :
    ∃ bs, m.readRun p n = .ok bs := by
  cases hr : m.readRun p n with
  | ok bs => exact ⟨bs, rfl⟩
  | error a =>
    obtain ⟨h1, h2, h3, -⟩ := Memory.readRun_error n m p a hr
    have := h (a - p) (by omega)
    rw [Nat.add_sub_cancel' h1, h3] at this
    simp at this

/-- The bytes that stand at a place are determined. -/
theorem Memory.bytes_unique (m : Memory) (p : Nat) (bs cs : List Byte) (hl : cs.length = bs.length)
    (hb : ∀ t, t < bs.length → m.read (p + t) = bs[t]?) (hc : ∀ t, t < cs.length → m.read (p + t) = cs[t]?) :
    cs = bs := by
  have h1 := Memory.readRun_of_bytes bs m p hb
  have h2 := Memory.readRun_of_bytes cs m p hc
  rw [hl, h1] at h2
  simpa using h2.symm

/-! ### The hash table -/

@[simp] theorem Table.read_nil (n : Nat) : Table.read [] n = 0 := rfl

theorem Table.wf_nil : Table.wf [] := ⟨List.Pairwise.nil, by simp⟩

/-- A write changes one slot and keeps the canonical form. -/
theorem Table.read_write (t : Table) (n : Nat) (v : Word) (k : Nat) (h : t.wf) :
    (t.write n v).read k = if k = n then v else t.read k := by
  unfold Table.write Table.read
  split
  next hv => rw [cellGet_cellDel t n k h.1]; split <;> simp [hv]
  next hv => rw [cellGet_cellPut]; split <;> simp

theorem Table.wf_write (t : Table) (n : Nat) (v : Word) (h : t.wf) : (t.write n v).wf := by
  unfold Table.write
  split
  · exact ⟨sorted_cellDel t n h.1, fun c hc => h.2 c (mem_cellDel t n c hc)⟩
  · refine ⟨sorted_cellPut t n v h.1, fun c hc => ?_⟩
    rcases mem_cellPut t n v c hc with rfl | hc
    · assumption
    · exact h.2 c hc

/-- A slot that is not 0 is a cell of the table. -/
theorem Table.mem_of_read (t : Table) (n : Nat) (h : t.read n ≠ 0) : (n, t.read n) ∈ t := by
  unfold Table.read at h ⊢
  cases hg : cellGet t n with
  | none => simp [hg] at h
  | some v => simpa using mem_of_cellGet t n v hg

/-- Every cell of a table after a write is the cell written or was there before. -/
theorem Table.mem_write (t : Table) (n : Nat) (v : Word) (c : Nat × Word) (h : c ∈ t.write n v) : c = (n, v) ∨ c ∈ t := by
  unfold Table.write at h
  split at h
  · exact .inr (mem_cellDel t n c h)
  · exact mem_cellPut t n v c h

/-! ### After reset -/

theorem reset_buf_wf : State.reset.enc.buf.wf := Memory.wf_nil
theorem reset_ht_wf : State.reset.enc.ht.wf := Table.wf_nil
theorem reset_seg0_wf : State.reset.dec.seg0.wf := Memory.wf_nil
theorem reset_seg1_wf : State.reset.dec.seg1.wf := Memory.wf_nil

end Sys2Proof.Machine
end

