-- ==== Sys2Proof/Laws/State.lean ====
section
/-! SUPPORT. What every shared update of the state does to every field: one lemma per field, so that no proof unfolds a
record update. -/

namespace Sys2Proof.Machine

open Sys2Proof

@[simp] theorem EFlags.clearCand_cfgok (f : EFlags) : (f.clearCand).cfgok = f.cfgok := rfl
@[simp] theorem EFlags.clearCand_hvalid (f : EFlags) : (f.clearCand).hvalid = f.hvalid := rfl
@[simp] theorem EFlags.clearCand_hit (f : EFlags) : (f.clearCand).hit = false := rfl
@[simp] theorem EFlags.clearCand_rej (f : EFlags) : (f.clearCand).rej = false := rfl
@[simp] theorem EFlags.clearCand_bvalid (f : EFlags) : (f.clearCand).bvalid = false := rfl
@[simp] theorem EFlags.clearCand_svalid (f : EFlags) : (f.clearCand).svalid = false := rfl
@[simp] theorem EFlags.clearCand_evalid (f : EFlags) : (f.clearCand).evalid = false := rfl
@[simp] theorem EFlags.clearCand_matched (f : EFlags) : (f.clearCand).matched = f.matched := rfl
@[simp] theorem EFlags.clearCand_lapped (f : EFlags) : (f.clearCand).lapped = f.lapped := rfl
@[simp] theorem EFlags.clearCand_cycopen (f : EFlags) : (f.clearCand).cycopen = f.cycopen := rfl
@[simp] theorem EFlags.clearCand_final (f : EFlags) : (f.clearCand).final = f.final := rfl
@[simp] theorem EFlags.clearCand_efault (f : EFlags) : (f.clearCand).efault = f.efault := rfl

@[simp] theorem EFlags.dropHash_cfgok (f : EFlags) : (f.dropHash).cfgok = f.cfgok := rfl
@[simp] theorem EFlags.dropHash_hvalid (f : EFlags) : (f.dropHash).hvalid = false := rfl
@[simp] theorem EFlags.dropHash_hit (f : EFlags) : (f.dropHash).hit = false := rfl
@[simp] theorem EFlags.dropHash_rej (f : EFlags) : (f.dropHash).rej = false := rfl
@[simp] theorem EFlags.dropHash_bvalid (f : EFlags) : (f.dropHash).bvalid = false := rfl
@[simp] theorem EFlags.dropHash_svalid (f : EFlags) : (f.dropHash).svalid = false := rfl
@[simp] theorem EFlags.dropHash_evalid (f : EFlags) : (f.dropHash).evalid = false := rfl
@[simp] theorem EFlags.dropHash_matched (f : EFlags) : (f.dropHash).matched = f.matched := rfl
@[simp] theorem EFlags.dropHash_lapped (f : EFlags) : (f.dropHash).lapped = f.lapped := rfl
@[simp] theorem EFlags.dropHash_cycopen (f : EFlags) : (f.dropHash).cycopen = f.cycopen := rfl
@[simp] theorem EFlags.dropHash_final (f : EFlags) : (f.dropHash).final = f.final := rfl
@[simp] theorem EFlags.dropHash_efault (f : EFlags) : (f.dropHash).efault = f.efault := rfl

@[simp] theorem Enc.clearCand_cfgB (e : Enc) : (e.clearCand).cfgB = e.cfgB := rfl
@[simp] theorem Enc.clearCand_cfgM (e : Enc) : (e.clearCand).cfgM = e.cfgM := rfl
@[simp] theorem Enc.clearCand_cfgS (e : Enc) : (e.clearCand).cfgS = e.cfgS := rfl
@[simp] theorem Enc.clearCand_cfgD (e : Enc) : (e.clearCand).cfgD = e.cfgD := rfl
@[simp] theorem Enc.clearCand_cfgH (e : Enc) : (e.clearCand).cfgH = e.cfgH := rfl
@[simp] theorem Enc.clearCand_cfgA (e : Enc) : (e.clearCand).cfgA = e.cfgA := rfl
@[simp] theorem Enc.clearCand_drvL (e : Enc) : (e.clearCand).drvL = e.drvL := rfl
@[simp] theorem Enc.clearCand_drvK (e : Enc) : (e.clearCand).drvK = e.drvK := rfl
@[simp] theorem Enc.clearCand_drvTest (e : Enc) : (e.clearCand).drvTest = e.drvTest := rfl
@[simp] theorem Enc.clearCand_drvHsize (e : Enc) : (e.clearCand).drvHsize = e.drvHsize := rfl
@[simp] theorem Enc.clearCand_drvHmask (e : Enc) : (e.clearCand).drvHmask = e.drvHmask := rfl
@[simp] theorem Enc.clearCand_drvKmask (e : Enc) : (e.clearCand).drvKmask = e.drvKmask := rfl
@[simp] theorem Enc.clearCand_drvPL (e : Enc) : (e.clearCand).drvPL = e.drvPL := rfl
@[simp] theorem Enc.clearCand_hash (e : Enc) : (e.clearCand).hash = e.hash := rfl
@[simp] theorem Enc.clearCand_i (e : Enc) : (e.clearCand).i = e.i := rfl
@[simp] theorem Enc.clearCand_lastI (e : Enc) : (e.clearCand).lastI = e.lastI := rfl
@[simp] theorem Enc.clearCand_lastMatch (e : Enc) : (e.clearCand).lastMatch = e.lastMatch := rfl
@[simp] theorem Enc.clearCand_base (e : Enc) : (e.clearCand).base = e.base := rfl
@[simp] theorem Enc.clearCand_size (e : Enc) : (e.clearCand).size = e.size := rfl
@[simp] theorem Enc.clearCand_cand (e : Enc) : (e.clearCand).cand = e.cand := rfl
@[simp] theorem Enc.clearCand_lowb (e : Enc) : (e.clearCand).lowb = e.lowb := rfl
@[simp] theorem Enc.clearCand_highb (e : Enc) : (e.clearCand).highb = e.highb := rfl
@[simp] theorem Enc.clearCand_dist (e : Enc) : (e.clearCand).dist = e.dist := rfl
@[simp] theorem Enc.clearCand_mstart (e : Enc) : (e.clearCand).mstart = e.mstart := rfl
@[simp] theorem Enc.clearCand_mend (e : Enc) : (e.clearCand).mend = e.mend := rfl
@[simp] theorem Enc.clearCand_nrec (e : Enc) : (e.clearCand).nrec = e.nrec := rfl
@[simp] theorem Enc.clearCand_eerrinfo (e : Enc) : (e.clearCand).eerrinfo = e.eerrinfo := rfl
@[simp] theorem Enc.clearCand_flags (e : Enc) : (e.clearCand).flags = e.flags.clearCand := rfl
@[simp] theorem Enc.clearCand_eerr (e : Enc) : (e.clearCand).eerr = e.eerr := rfl
@[simp] theorem Enc.clearCand_lens (e : Enc) : (e.clearCand).lens = e.lens := rfl
@[simp] theorem Enc.clearCand_offsets (e : Enc) : (e.clearCand).offsets = e.offsets := rfl
@[simp] theorem Enc.clearCand_datalens (e : Enc) : (e.clearCand).datalens = e.datalens := rfl
@[simp] theorem Enc.clearCand_dataOffsets (e : Enc) : (e.clearCand).dataOffsets = e.dataOffsets := rfl
@[simp] theorem Enc.clearCand_buf (e : Enc) : (e.clearCand).buf = e.buf := rfl
@[simp] theorem Enc.clearCand_ht (e : Enc) : (e.clearCand).ht = e.ht := rfl

@[simp] theorem Enc.clearStaging_cfgB (e : Enc) : (e.clearStaging).cfgB = e.cfgB := rfl
@[simp] theorem Enc.clearStaging_cfgM (e : Enc) : (e.clearStaging).cfgM = e.cfgM := rfl
@[simp] theorem Enc.clearStaging_cfgS (e : Enc) : (e.clearStaging).cfgS = e.cfgS := rfl
@[simp] theorem Enc.clearStaging_cfgD (e : Enc) : (e.clearStaging).cfgD = e.cfgD := rfl
@[simp] theorem Enc.clearStaging_cfgH (e : Enc) : (e.clearStaging).cfgH = e.cfgH := rfl
@[simp] theorem Enc.clearStaging_cfgA (e : Enc) : (e.clearStaging).cfgA = e.cfgA := rfl
@[simp] theorem Enc.clearStaging_drvL (e : Enc) : (e.clearStaging).drvL = e.drvL := rfl
@[simp] theorem Enc.clearStaging_drvK (e : Enc) : (e.clearStaging).drvK = e.drvK := rfl
@[simp] theorem Enc.clearStaging_drvTest (e : Enc) : (e.clearStaging).drvTest = e.drvTest := rfl
@[simp] theorem Enc.clearStaging_drvHsize (e : Enc) : (e.clearStaging).drvHsize = e.drvHsize := rfl
@[simp] theorem Enc.clearStaging_drvHmask (e : Enc) : (e.clearStaging).drvHmask = e.drvHmask := rfl
@[simp] theorem Enc.clearStaging_drvKmask (e : Enc) : (e.clearStaging).drvKmask = e.drvKmask := rfl
@[simp] theorem Enc.clearStaging_drvPL (e : Enc) : (e.clearStaging).drvPL = e.drvPL := rfl
@[simp] theorem Enc.clearStaging_hash (e : Enc) : (e.clearStaging).hash = e.hash := rfl
@[simp] theorem Enc.clearStaging_i (e : Enc) : (e.clearStaging).i = e.i := rfl
@[simp] theorem Enc.clearStaging_lastI (e : Enc) : (e.clearStaging).lastI = e.lastI := rfl
@[simp] theorem Enc.clearStaging_lastMatch (e : Enc) : (e.clearStaging).lastMatch = e.lastMatch := rfl
@[simp] theorem Enc.clearStaging_base (e : Enc) : (e.clearStaging).base = e.base := rfl
@[simp] theorem Enc.clearStaging_size (e : Enc) : (e.clearStaging).size = e.size := rfl
@[simp] theorem Enc.clearStaging_cand (e : Enc) : (e.clearStaging).cand = e.cand := rfl
@[simp] theorem Enc.clearStaging_lowb (e : Enc) : (e.clearStaging).lowb = e.lowb := rfl
@[simp] theorem Enc.clearStaging_highb (e : Enc) : (e.clearStaging).highb = e.highb := rfl
@[simp] theorem Enc.clearStaging_dist (e : Enc) : (e.clearStaging).dist = e.dist := rfl
@[simp] theorem Enc.clearStaging_mstart (e : Enc) : (e.clearStaging).mstart = e.mstart := rfl
@[simp] theorem Enc.clearStaging_mend (e : Enc) : (e.clearStaging).mend = e.mend := rfl
@[simp] theorem Enc.clearStaging_nrec (e : Enc) : (e.clearStaging).nrec = 0 := rfl
@[simp] theorem Enc.clearStaging_eerrinfo (e : Enc) : (e.clearStaging).eerrinfo = e.eerrinfo := rfl
@[simp] theorem Enc.clearStaging_flags (e : Enc) : (e.clearStaging).flags = e.flags := rfl
@[simp] theorem Enc.clearStaging_eerr (e : Enc) : (e.clearStaging).eerr = e.eerr := rfl
@[simp] theorem Enc.clearStaging_lens (e : Enc) : (e.clearStaging).lens = [] := rfl
@[simp] theorem Enc.clearStaging_offsets (e : Enc) : (e.clearStaging).offsets = [] := rfl
@[simp] theorem Enc.clearStaging_datalens (e : Enc) : (e.clearStaging).datalens = [] := rfl
@[simp] theorem Enc.clearStaging_dataOffsets (e : Enc) : (e.clearStaging).dataOffsets = [] := rfl
@[simp] theorem Enc.clearStaging_buf (e : Enc) : (e.clearStaging).buf = e.buf := rfl
@[simp] theorem Enc.clearStaging_ht (e : Enc) : (e.clearStaging).ht = e.ht := rfl

@[simp] theorem Dec.markFlushed_dB (d : Dec) : (d.markFlushed).dB = d.dB := rfl
@[simp] theorem Dec.markFlushed_dSize0 (d : Dec) : (d.markFlushed).dSize0 = d.dSize0 := rfl
@[simp] theorem Dec.markFlushed_dData (d : Dec) : (d.markFlushed).dData = d.dData := rfl
@[simp] theorem Dec.markFlushed_dLast (d : Dec) : (d.markFlushed).dLast = d.dData := rfl
@[simp] theorem Dec.markFlushed_dFilled (d : Dec) : (d.markFlushed).dFilled = d.dFilled := rfl
@[simp] theorem Dec.markFlushed_derrinfo (d : Dec) : (d.markFlushed).derrinfo = d.derrinfo := rfl
@[simp] theorem Dec.markFlushed_flags (d : Dec) : (d.markFlushed).flags = d.flags := rfl
@[simp] theorem Dec.markFlushed_derr (d : Dec) : (d.markFlushed).derr = d.derr := rfl
@[simp] theorem Dec.markFlushed_seg0 (d : Dec) : (d.markFlushed).seg0 = d.seg0 := rfl
@[simp] theorem Dec.markFlushed_seg1 (d : Dec) : (d.markFlushed).seg1 = d.seg1 := rfl

@[simp] theorem Dec.advance_dB (d : Dec) (c : Nat) : (d.advance c).dB = d.dB := rfl
@[simp] theorem Dec.advance_dSize0 (d : Dec) (c : Nat) : (d.advance c).dSize0 = d.dSize0 := rfl
@[simp] theorem Dec.advance_dData (d : Dec) (c : Nat) : (d.advance c).dData = wordOf (d.dData.toNat + c) := rfl
@[simp] theorem Dec.advance_dLast (d : Dec) (c : Nat) : (d.advance c).dLast = d.dLast := rfl
@[simp] theorem Dec.advance_dFilled (d : Dec) (c : Nat) : (d.advance c).dFilled = wordOf (min d.dB.toNat (d.dFilled.toNat + c)) := rfl
@[simp] theorem Dec.advance_derrinfo (d : Dec) (c : Nat) : (d.advance c).derrinfo = d.derrinfo := rfl
@[simp] theorem Dec.advance_flags (d : Dec) (c : Nat) : (d.advance c).flags = d.flags := rfl
@[simp] theorem Dec.advance_derr (d : Dec) (c : Nat) : (d.advance c).derr = d.derr := rfl
@[simp] theorem Dec.advance_seg0 (d : Dec) (c : Nat) : (d.advance c).seg0 = d.seg0 := rfl
@[simp] theorem Dec.advance_seg1 (d : Dec) (c : Nat) : (d.advance c).seg1 = d.seg1 := rfl

@[simp] theorem Dec.switch_dB (d : Dec) : (d.switch).dB = d.dB := rfl
@[simp] theorem Dec.switch_dSize0 (d : Dec) : (d.switch).dSize0 = d.dSize0 := rfl
@[simp] theorem Dec.switch_dData (d : Dec) : (d.switch).dData = 0 := rfl
@[simp] theorem Dec.switch_dLast (d : Dec) : (d.switch).dLast = 0 := rfl
@[simp] theorem Dec.switch_dFilled (d : Dec) : (d.switch).dFilled = d.dFilled := rfl
@[simp] theorem Dec.switch_derrinfo (d : Dec) : (d.switch).derrinfo = d.derrinfo := rfl
@[simp] theorem Dec.switch_derr (d : Dec) : (d.switch).derr = d.derr := rfl
@[simp] theorem Dec.switch_seg0 (d : Dec) : (d.switch).seg0 = d.seg0 := rfl
@[simp] theorem Dec.switch_seg1 (d : Dec) : (d.switch).seg1 = d.seg1 := rfl
@[simp] theorem Dec.switch_dok (d : Dec) : d.switch.flags.dok = d.flags.dok := rfl
@[simp] theorem Dec.switch_dfault (d : Dec) : d.switch.flags.dfault = d.flags.dfault := rfl
@[simp] theorem Dec.switch_block0 (d : Dec) : d.switch.flags.block0 =
    (if d.dSize0.toNat < d.dB.toNat then !d.flags.block0 else d.flags.block0) := rfl

@[simp] theorem resetEnc_enc (s : State) : (resetEnc s).enc = {} := rfl
@[simp] theorem resetEnc_dec (s : State) : (resetEnc s).dec = s.dec := rfl
@[simp] theorem resetEnc_arg0 (s : State) : (resetEnc s).arg0 = s.arg0 := rfl
@[simp] theorem resetEnc_arg1 (s : State) : (resetEnc s).arg1 = s.arg1 := rfl
@[simp] theorem resetEnc_rIdx (s : State) : (resetEnc s).rIdx = s.rIdx := rfl
@[simp] theorem resetEnc_ports (s : State) : (resetEnc s).ports = s.ports := rfl
@[simp] theorem resetEnc_bus (s : State) : (resetEnc s).bus = s.bus := rfl
@[simp] theorem resetEnc_reads (s : State) : (resetEnc s).reads = s.reads := rfl
@[simp] theorem resetEnc_caps (s : State) : (resetEnc s).caps = s.caps := rfl

@[simp] theorem resetDec_enc (s : State) : (resetDec s).enc = s.enc := rfl
@[simp] theorem resetDec_dec (s : State) : (resetDec s).dec = {} := rfl
@[simp] theorem resetDec_arg0 (s : State) : (resetDec s).arg0 = s.arg0 := rfl
@[simp] theorem resetDec_arg1 (s : State) : (resetDec s).arg1 = s.arg1 := rfl
@[simp] theorem resetDec_rIdx (s : State) : (resetDec s).rIdx = s.rIdx := rfl
@[simp] theorem resetDec_ports (s : State) : (resetDec s).ports = s.ports := rfl
@[simp] theorem resetDec_bus (s : State) : (resetDec s).bus = s.bus := rfl
@[simp] theorem resetDec_reads (s : State) : (resetDec s).reads = s.reads := rfl
@[simp] theorem resetDec_caps (s : State) : (resetDec s).caps = s.caps := rfl

@[simp] theorem resetShared_enc (s : State) : (resetShared s).enc = s.enc := rfl
@[simp] theorem resetShared_dec (s : State) : (resetShared s).dec = s.dec := rfl
@[simp] theorem resetShared_arg0 (s : State) : (resetShared s).arg0 = 0 := rfl
@[simp] theorem resetShared_arg1 (s : State) : (resetShared s).arg1 = 0 := rfl
@[simp] theorem resetShared_rIdx (s : State) : (resetShared s).rIdx = 0 := rfl
@[simp] theorem resetShared_ports (s : State) : (resetShared s).ports = s.ports := rfl
@[simp] theorem resetShared_bus (s : State) : (resetShared s).bus = s.bus := rfl
@[simp] theorem resetShared_reads (s : State) : (resetShared s).reads = s.reads := rfl
@[simp] theorem resetShared_caps (s : State) : (resetShared s).caps = s.caps := rfl

@[simp] theorem hostRead_enc (s : State) (n : Nat) : (hostRead n s).enc = s.enc := rfl
@[simp] theorem hostRead_dec (s : State) (n : Nat) : (hostRead n s).dec = s.dec := rfl
@[simp] theorem hostRead_arg0 (s : State) (n : Nat) : (hostRead n s).arg0 = s.arg0 := rfl
@[simp] theorem hostRead_arg1 (s : State) (n : Nat) : (hostRead n s).arg1 = s.arg1 := rfl
@[simp] theorem hostRead_rIdx (s : State) (n : Nat) : (hostRead n s).rIdx = s.rIdx := rfl
@[simp] theorem hostRead_ports (s : State) (n : Nat) : (hostRead n s).ports = s.ports := rfl
@[simp] theorem hostRead_bus (s : State) (n : Nat) : (hostRead n s).bus = s.bus := rfl
@[simp] theorem hostRead_reads (s : State) (n : Nat) : (hostRead n s).reads = s.reads ++ [busRead n s] := rfl
@[simp] theorem hostRead_caps (s : State) (n : Nat) : (hostRead n s).caps = s.caps := rfl

@[simp] theorem State.withFetchWord_enc (s : State) (nbits w : Nat) : (s.withFetchWord nbits w).enc = s.enc := rfl
@[simp] theorem State.withFetchWord_dec (s : State) (nbits w : Nat) : (s.withFetchWord nbits w).dec = s.dec := rfl
@[simp] theorem State.withFetchWord_arg0 (s : State) (nbits w : Nat) : (s.withFetchWord nbits w).arg0 = s.arg0 := rfl
@[simp] theorem State.withFetchWord_arg1 (s : State) (nbits w : Nat) : (s.withFetchWord nbits w).arg1 = s.arg1 := rfl
@[simp] theorem State.withFetchWord_rIdx (s : State) (nbits w : Nat) : (s.withFetchWord nbits w).rIdx = s.rIdx := rfl
@[simp] theorem State.withFetchWord_ports (s : State) (nbits w : Nat) : (s.withFetchWord nbits w).ports = s.ports := rfl
@[simp] theorem State.withFetchWord_bus (s : State) (nbits w : Nat) : (s.withFetchWord nbits w).bus = .wr (BitVec.ofNat 6 cmdReg) (wordOf (w % 2 ^ nbits)) :: s.bus := rfl
@[simp] theorem State.withFetchWord_reads (s : State) (nbits w : Nat) : (s.withFetchWord nbits w).reads = s.reads := rfl
@[simp] theorem State.withFetchWord_caps (s : State) (nbits w : Nat) : (s.withFetchWord nbits w).caps = s.caps := rfl

/-! ### The updates that go by cases -/

@[simp] theorem Dec.setCur_dB (d : Dec) (m : Memory) : (d.setCur m).dB = d.dB := by unfold Dec.setCur; split <;> rfl
@[simp] theorem Dec.setCur_dSize0 (d : Dec) (m : Memory) : (d.setCur m).dSize0 = d.dSize0 := by
  unfold Dec.setCur; split <;> rfl
@[simp] theorem Dec.setCur_dData (d : Dec) (m : Memory) : (d.setCur m).dData = d.dData := by
  unfold Dec.setCur; split <;> rfl
@[simp] theorem Dec.setCur_dLast (d : Dec) (m : Memory) : (d.setCur m).dLast = d.dLast := by
  unfold Dec.setCur; split <;> rfl
@[simp] theorem Dec.setCur_dFilled (d : Dec) (m : Memory) : (d.setCur m).dFilled = d.dFilled := by
  unfold Dec.setCur; split <;> rfl
@[simp] theorem Dec.setCur_derr (d : Dec) (m : Memory) : (d.setCur m).derr = d.derr := by
  unfold Dec.setCur; split <;> rfl
@[simp] theorem Dec.setCur_derrinfo (d : Dec) (m : Memory) : (d.setCur m).derrinfo = d.derrinfo := by
  unfold Dec.setCur; split <;> rfl
@[simp] theorem Dec.setCur_flags (d : Dec) (m : Memory) : (d.setCur m).flags = d.flags := by
  unfold Dec.setCur; split <;> rfl
@[simp] theorem Dec.setCur_cur (d : Dec) (m : Memory) : (d.setCur m).cur = m := by
  unfold Dec.cur Dec.setCur; cases h : d.flags.block0 <;> simp [h]

/-- The segment that is not CUR is left. -/
theorem Dec.setCur_other (d : Dec) (m : Memory) :
    (d.flags.block0 = true → (d.setCur m).seg1 = d.seg1) ∧ (d.flags.block0 = false → (d.setCur m).seg0 = d.seg0) := by
  unfold Dec.setCur; cases h : d.flags.block0 <;> simp

/-- Taking a fault in one context leaves everything outside that context. -/
@[simp] theorem raise_arg0 (c : Ctx) (x : Exn) (n : Nat) (s : State) : (raise c x n s).arg0 = s.arg0 := by
  unfold raise; split <;> [rfl; (cases c <;> rfl)]
@[simp] theorem raise_arg1 (c : Ctx) (x : Exn) (n : Nat) (s : State) : (raise c x n s).arg1 = s.arg1 := by
  unfold raise; split <;> [rfl; (cases c <;> rfl)]
@[simp] theorem raise_rIdx (c : Ctx) (x : Exn) (n : Nat) (s : State) : (raise c x n s).rIdx = s.rIdx := by
  unfold raise; split <;> [rfl; (cases c <;> rfl)]
@[simp] theorem raise_ports (c : Ctx) (x : Exn) (n : Nat) (s : State) : (raise c x n s).ports = s.ports := by
  unfold raise; split <;> [rfl; (cases c <;> rfl)]
@[simp] theorem raise_bus (c : Ctx) (x : Exn) (n : Nat) (s : State) : (raise c x n s).bus = s.bus := by
  unfold raise; split <;> [rfl; (cases c <;> rfl)]
@[simp] theorem raise_reads (c : Ctx) (x : Exn) (n : Nat) (s : State) : (raise c x n s).reads = s.reads := by
  unfold raise; split <;> [rfl; (cases c <;> rfl)]
@[simp] theorem raise_caps (c : Ctx) (x : Exn) (n : Nat) (s : State) : (raise c x n s).caps = s.caps := by
  unfold raise; split <;> [rfl; (cases c <;> rfl)]
@[simp] theorem raise_enc_dec (x : Exn) (n : Nat) (s : State) : (raise .enc x n s).dec = s.dec := by
  unfold raise; split <;> rfl
@[simp] theorem raise_dec_enc (x : Exn) (n : Nat) (s : State) : (raise .dec x n s).enc = s.enc := by
  unfold raise; split <;> rfl

/-- Taking a fault changes no memory of its own context either. -/
@[simp] theorem raise_buf (c : Ctx) (x : Exn) (n : Nat) (s : State) : (raise c x n s).enc.buf = s.enc.buf := by
  unfold raise; split <;> [rfl; (cases c <;> rfl)]
@[simp] theorem raise_ht (c : Ctx) (x : Exn) (n : Nat) (s : State) : (raise c x n s).enc.ht = s.enc.ht := by
  unfold raise; split <;> [rfl; (cases c <;> rfl)]
@[simp] theorem raise_seg0 (c : Ctx) (x : Exn) (n : Nat) (s : State) : (raise c x n s).dec.seg0 = s.dec.seg0 := by
  unfold raise; split <;> [rfl; (cases c <;> rfl)]
@[simp] theorem raise_seg1 (c : Ctx) (x : Exn) (n : Nat) (s : State) : (raise c x n s).dec.seg1 = s.dec.seg1 := by
  unfold raise; split <;> [rfl; (cases c <;> rfl)]

/-- After a fault is raised in a context, the context is faulted. -/
theorem faulted_raise (c : Ctx) (x : Exn) (n : Nat) (s : State) : faulted c (raise c x n s) = true := by
  unfold raise
  split
  · assumption
  · cases c <;> rfl

end Sys2Proof.Machine
end

