-- ==== Sys2Proof/Laws/Ops.lean ====
section
/-! SUPPORT. What each shared operation can do, once: the ends of a run, the preambles, the ports, the extension loops,
the segment locator, the powers by squaring. -/

namespace Sys2Proof.Machine

open Sys2Proof

/-! ### Runs -/

@[simp] theorem Run.andThen_done {σ : Type} (s : σ) (f : σ → Run σ) : (Run.done s).andThen f = f s := rfl
@[simp] theorem Run.andThen_raised {σ : Type} (s : σ) (x : Exn) (n : Nat) (f : σ → Run σ) :
    (Run.raised s x n).andThen f = .raised s x n := rfl

theorem Run.andThen_assoc {σ : Type} (r : Run σ) (f g : σ → Run σ) :
    (r.andThen f).andThen g = r.andThen fun s => (f s).andThen g := by cases r <;> rfl

/-- A sequence ran to its end exactly where both parts did. -/
theorem Run.andThen_eq_done {σ : Type} (r : Run σ) (f : σ → Run σ) (t : σ) :
    r.andThen f = .done t ↔ ∃ s, r = .done s ∧ f s = .done t := by
  cases r <;> simp [Run.andThen]

/-- A sequence raised a fault exactly where its first part did, or its first part ran and the second did. -/
theorem Run.andThen_eq_raised {σ : Type} (r : Run σ) (f : σ → Run σ) (t : σ) (x : Exn) (n : Nat) :
    r.andThen f = .raised t x n ↔ r = .raised t x n ∨ ∃ s, r = .done s ∧ f s = .raised t x n := by
  cases r <;> simp [Run.andThen]

/-- The state a run ended in, whichever way. -/
def Run.final {σ : Type} : Run σ → σ
  | .done s => s
  | .raised s _ _ => s

@[simp] theorem Run.final_done {σ : Type} (s : σ) : (Run.done s).final = s := rfl
@[simp] theorem Run.final_raised {σ : Type} (s : σ) (x : Exn) (n : Nat) : (Run.raised s x n).final = s := rfl

/-- A property of the final state that both parts of a sequence keep. -/
theorem Run.final_andThen {σ : Type} (P : σ → Prop) (r : Run σ) (f : σ → Run σ) (hr : P r.final)
    (hf : ∀ s, P s → P (f s).final) : P (r.andThen f).final := by
  cases r with
  | done s => exact hf s hr
  | raised s x n => exact hr

/-- A property that each turn of a counted loop keeps. -/
theorem Run.final_times {σ : Type} (P : σ → Prop) (f : σ → Run σ) (hf : ∀ s, P s → P (f s).final) :
    ∀ (n : Nat) (s : σ), P s → P (Run.times f n s).final
  | 0, _, h => h
  | n + 1, s, h => Run.final_andThen P (f s) _ (hf s h) fun t ht => Run.final_times P f hf n t ht

/-- What the lines of the encoder context leave: the final encoder context, all else as before. -/
theorem final_onEnc (f : Enc → Run Enc) (s : State) : (onEnc f s).final = { s with enc := (f s.enc).final } := by
  unfold onEnc; cases f s.enc <;> rfl

/-- What the lines of the decoder context leave: the final decoder context, all else as before. -/
theorem final_onDec (f : Dec → Run Dec) (s : State) : (onDec f s).final = { s with dec := (f s.dec).final } := by
  unfold onDec; cases f s.dec <;> rfl

/-- A command that ran to its end leaves the final state; one that raised takes the fault in it. -/
theorem finish_cases (c : Ctx) (r : Run State) :
    (∃ s, r = .done s ∧ finish c r = s) ∨ ∃ s x n, r = .raised s x n ∧ finish c r = raise c x n s := by
  cases r with
  | done s => exact .inl ⟨s, rfl, rfl⟩
  | raised s x n => exact .inr ⟨s, x, n, rfl, rfl⟩

/-! ### The preambles -/

/-- The three ways an encoder command other than CFG goes (R170). -/
theorem encCommand_cases (op : Byte) (body : State → Run State) (s : State) :
    (s.enc.flags.efault = true ∧ encCommand op body s = .next s) ∨
    (s.enc.flags.efault = false ∧ s.enc.flags.cfgok = false ∧
      encCommand op body s = .next (raise .enc .state op.toNat s)) ∨
    (s.enc.flags.efault = false ∧ s.enc.flags.cfgok = true ∧ encCommand op body s = .next (finish .enc (body s))) := by
  unfold encCommand unlessFaulted faulted finish
  cases hf : s.enc.flags.efault <;> cases hc : s.enc.flags.cfgok <;> simp [hc]

/-- The three ways a decoder command other than DINIT goes (R265). -/
theorem decCommand_cases (op : Byte) (body : State → Run State) (s : State) :
    (s.dec.flags.dfault = true ∧ decCommand op body s = .next s) ∨
    (s.dec.flags.dfault = false ∧ s.dec.flags.dok = false ∧
      decCommand op body s = .next (raise .dec .state op.toNat s)) ∨
    (s.dec.flags.dfault = false ∧ s.dec.flags.dok = true ∧ decCommand op body s = .next (finish .dec (body s))) := by
  unfold decCommand unlessFaulted faulted finish
  cases hf : s.dec.flags.dfault <;> cases hd : s.dec.flags.dok <;> simp [hd]

/-- A ready encoder context runs the lines of the command. -/
theorem encCommand_ready (op : Byte) (body : State → Run State) (s : State) (hf : s.enc.flags.efault = false)
    (hc : s.enc.flags.cfgok = true) : encCommand op body s = .next (finish .enc (body s)) := by
  simp [encCommand, unlessFaulted, faulted, hf, hc]

/-- A ready decoder context runs the lines of the command. -/
theorem decCommand_ready (op : Byte) (body : State → Run State) (s : State) (hf : s.dec.flags.dfault = false)
    (hd : s.dec.flags.dok = true) : decCommand op body s = .next (finish .dec (body s)) := by
  simp [decCommand, unlessFaulted, faulted, hf, hd]

/-! ### Ports -/

/-- As many bytes as asked for. -/
theorem length_takeBytes (free : Nat → Byte) (n : Nat) (offered : List Byte) (k : Nat) :
    (takeBytes free n offered k).length = n := by
  simp [takeBytes]; omega

/-- Where the host offers enough, the bytes are the offered ones. -/
theorem takeBytes_offered (free : Nat → Byte) (n : Nat) (offered : List Byte) (k : Nat) (h : n ≤ offered.length) :
    takeBytes free n offered k = offered.take n := by
  simp [takeBytes, Nat.sub_eq_zero_of_le h]

/-- Byte by byte: the offered byte, else a free value. -/
theorem getElem?_takeBytes (free : Nat → Byte) (n : Nat) (offered : List Byte) (k j : Nat) (h : j < n) :
    (takeBytes free n offered k)[j]? =
      if j < offered.length then offered[j]? else some (free (k + (j - offered.length))) := by
  unfold takeBytes
  split
  next hj => rw [List.getElem?_append_left (by simp; omega), List.getElem?_take_of_lt h]
  next hj =>
    rw [List.getElem?_append_right (by simp; omega)]
    have hm : min n offered.length = offered.length := by omega
    simp [List.length_take, hm, List.getElem?_range (show j - offered.length < n - offered.length by omega)]

/-- The two ends of a write event on DOUT: accepted, or refused with `Io`; the event is recorded in both. -/
theorem doutPut_cases (bytes : List Byte) (s : State) :
    let c := nextAnswer s.ports.doutAnswers
    let s' := { s with ports := { s.ports with
      doutAnswers := s.ports.doutAnswers.tail, dout := s.ports.dout ++ [⟨bytes, c⟩] } }
    (negative c = false ∧ doutPut bytes s = .done s') ∨ (negative c = true ∧ doutPut bytes s = .raised s' .io c.toNat) := by
  simp only [doutPut]
  cases negative (nextAnswer s.ports.doutAnswers) <;> simp

/-- The two ends of a write event on EOUT. -/
theorem eoutPut_cases (bytes : List Byte) (s : State) :
    let c := nextAnswer s.ports.eoutAnswers
    let s' := { s with ports := { s.ports with
      eoutAnswers := s.ports.eoutAnswers.tail, eout := s.ports.eout ++ [⟨bytes, c⟩] } }
    (negative c = false ∧ eoutPut bytes s = .done s') ∨ (negative c = true ∧ eoutPut bytes s = .raised s' .io c.toNat) := by
  simp only [eoutPut]
  cases negative (nextAnswer s.ports.eoutAnswers) <;> simp

/-- A sink that refuses nothing answers 0 or a positive code to its next event. -/
theorem negative_nextAnswer (answers : List Word) (h : ∀ c ∈ answers, negative c = false) :
    negative (nextAnswer answers) = false := by
  cases answers with
  | nil => decide
  | cons c cs => exact h c (by simp)

/-! ### Comparing and extending -/

/-- The three answers of a comparison, the scan side read first. -/
theorem sameByte_cases (buf : Memory) (p m : Nat) :
    (∃ a b, buf.read p = some a ∧ buf.read m = some b ∧ sameByte buf p m = .ok (a == b)) ∨
    (buf.read p = none ∧ sameByte buf p m = .error p) ∨
    ((buf.read p).isSome ∧ buf.read m = none ∧ sameByte buf p m = .error m) := by
  unfold sameByte
  cases hp : buf.read p with
  | none => simp
  | some a =>
    cases hm : buf.read m with
    | none => simp
    | some b => simp

/-- The backward loop answers a position in its range; every pair from it up to the start was equal, and it stopped at
the bound or at an unequal pair (R226). -/
theorem extendBack_ok : ∀ (n : Nat) (buf : Memory) (i m lo p : Nat), extendBack buf i m lo n = .ok p →
    lo ≤ p ∧ p ≤ lo + n ∧
    (∀ q, p ≤ q → q < lo + n → sameByte buf q (m - (i - (q + 1)) - 1) = .ok true) ∧
    (lo < p → sameByte buf (p - 1) (m - (i - p) - 1) = .ok false)
  | 0, buf, i, m, lo, p, h => by
    simp only [extendBack, Except.ok.injEq] at h
    subst h
    exact ⟨Nat.le_refl _, Nat.le_refl _, fun q h1 h2 => by omega, fun h => by omega⟩
  | n + 1, buf, i, m, lo, p, h => by
    simp only [extendBack] at h
    split at h
    · simp at h
    next hs =>
      obtain ⟨h1, h2, h3, h4⟩ := extendBack_ok n buf i m lo p h
      refine ⟨h1, by omega, fun q hq1 hq2 => ?_, h4⟩
      by_cases hq : q < lo + n
      · exact h3 q hq1 hq
      · have : q = lo + n := by omega
        subst this
        exact hs
    next hs =>
      simp only [Except.ok.injEq] at h
      subst h
      exact ⟨by omega, by omega, fun q h1 h2 => by omega, fun _ => hs⟩

/-- The forward loop answers a position in its range; every pair below it was equal, and it stopped at the bound or at
an unequal pair (R228). -/
theorem extendFwd_ok : ∀ (n : Nat) (buf : Memory) (i m q r : Nat), extendFwd buf i m q n = .ok r →
    q ≤ r ∧ r ≤ q + n ∧ (∀ p, q ≤ p → p < r → sameByte buf p (m + (p - i)) = .ok true) ∧
    (r < q + n → sameByte buf r (m + (r - i)) = .ok false)
  | 0, buf, i, m, q, r, h => by
    simp only [extendFwd, Except.ok.injEq] at h
    subst h
    exact ⟨Nat.le_refl _, Nat.le_refl _, fun p h1 h2 => by omega, fun h => by omega⟩
  | n + 1, buf, i, m, q, r, h => by
    simp only [extendFwd] at h
    split at h
    · simp at h
    next hs =>
      obtain ⟨h1, h2, h3, h4⟩ := extendFwd_ok n buf i m (q + 1) r h
      refine ⟨by omega, by omega, fun p hp1 hp2 => ?_, fun hlt => h4 (by omega)⟩
      by_cases hp : p = q
      · subst hp
        exact hs
      · exact h3 p (by omega) hp2
    next hs =>
      simp only [Except.ok.injEq] at h
      subst h
      exact ⟨Nat.le_refl _, by omega, fun p h1 h2 => by omega, fun _ => hs⟩

/-- Where every pair in the range can be read the backward loop does not fault. -/
theorem extendBack_runs : ∀ (n : Nat) (buf : Memory) (i m lo : Nat),
    (∀ q, lo ≤ q → q < lo + n → (buf.read q).isSome ∧ (buf.read (m - (i - (q + 1)) - 1)).isSome) →
    ∃ p, extendBack buf i m lo n = .ok p
  | 0, _, _, _, lo, _ => ⟨lo, rfl⟩
  | n + 1, buf, i, m, lo, h => by
    obtain ⟨h1, h2⟩ := h (lo + n) (by omega) (by omega)
    obtain ⟨r, hr⟩ := extendBack_runs n buf i m lo fun q hq1 hq2 => h q hq1 (by omega)
    rcases sameByte_cases buf (lo + n) (m - (i - (lo + n + 1)) - 1) with ⟨a, b, -, -, hs⟩ | ⟨hn, -⟩ | ⟨-, hn, -⟩
    · have hs' : sameByte buf (lo + (n + 1) - 1) (m - (i - (lo + (n + 1))) - 1) = .ok (a == b) := hs
      simp only [extendBack, hs']
      cases a == b
      · exact ⟨_, rfl⟩
      · exact ⟨r, hr⟩
    · simp [hn] at h1
    · simp [hn] at h2

/-- Where every pair in the range can be read the forward loop does not fault. -/
theorem extendFwd_runs : ∀ (n : Nat) (buf : Memory) (i m q : Nat),
    (∀ p, q ≤ p → p < q + n → (buf.read p).isSome ∧ (buf.read (m + (p - i))).isSome) →
    ∃ r, extendFwd buf i m q n = .ok r
  | 0, _, _, _, q, _ => ⟨q, rfl⟩
  | n + 1, buf, i, m, q, h => by
    obtain ⟨h1, h2⟩ := h q (by omega) (by omega)
    obtain ⟨r, hr⟩ := extendFwd_runs n buf i m (q + 1) fun p hp1 hp2 => h p (by omega) (by omega)
    rcases sameByte_cases buf q (m + (q - i)) with ⟨a, b, -, -, hs⟩ | ⟨hn, -⟩ | ⟨-, hn, -⟩
    · simp only [extendFwd, hs]
      cases a == b
      · exact ⟨_, rfl⟩
      · exact ⟨r, hr⟩
    · simp [hn] at h1
    · simp [hn] at h2

/-! ### The decoder's segments -/

/-- The byte at the place a ring position is located at is the byte of the ring (R65, R113). -/
theorem Dec.segByte_locate (d : Dec) (p : Nat) : d.segByte (d.locate p).1 (d.locate p).2.1 = d.ring p := by
  unfold Dec.segByte Dec.locate Dec.ring
  split <;> simp

/-- Inside the run up to the end of the segment, the next address is the next ring position. -/
theorem Dec.segByte_locate_add (d : Dec) (p t : Nat) (h : t < (d.locate p).2.2) :
    d.segByte (d.locate p).1 ((d.locate p).2.1 + t) = d.ring (p + t) := by
  unfold Dec.segByte Dec.locate Dec.ring at *
  split at h
  next hp =>
    have : p + t < d.dSize0.toNat := by simp at h; omega
    simp [hp, this]
  next hp =>
    have h1 : ¬ p + t < d.dSize0.toNat := by omega
    have h2 : p - d.dSize0.toNat + t = p + t - d.dSize0.toNat := by omega
    simp [hp, h1, h2]

/-! ### Powers by squaring -/

/-- Squaring `n` times raises to the power `2^n`. -/
theorem squareTimes_eq : ∀ (n : Nat) (x : Nat), squareTimes n (wordOf x) = wordOf (x ^ 2 ^ n)
  | 0, x => by simp [squareTimes]
  | n + 1, x => by
    have h : wordOf x * wordOf x = wordOf (x * x) := by
      apply BitVec.eq_of_toNat_eq
      simp [BitVec.toNat_mul, Nat.mul_mod]
    rw [squareTimes, h, squareTimes_eq n (x * x)]
    congr 1
    rw [← pow_two, ← pow_mul, pow_succ' 2 n]

end Sys2Proof.Machine
end

