-- ==== Sys2Proof/Laws/Lines.lean ====
section
/-! SUPPORT. The inversion of each rule's lines that the composite commands share: every way the lines can end, with the
guard and the state left, so that no later proof unfolds them. -/

namespace Sys2Proof.Machine

open Sys2Proof

/-- HINIT (R175): `Range`, `Uninit`, or the hash of the window. -/
theorem hinitLines_cases (e : Enc) :
    (e.filled < e.i.toNat + e.drvL.toNat ∧ hinitLines e = .raised e .range (e.i.toNat + e.drvL.toNat)) ∨
    (e.i.toNat + e.drvL.toNat ≤ e.filled ∧ ∃ a, e.buf.readRun e.i.toNat e.drvL.toNat = .error a ∧
      hinitLines e = .raised e .uninit a) ∨
    (e.i.toNat + e.drvL.toNat ≤ e.filled ∧ ∃ bs, e.buf.readRun e.i.toNat e.drvL.toNat = .ok bs ∧
      hinitLines e = .done { e with
        hash := hashBytes e.drvPL bs, flags := { e.flags.clearCand with hvalid := true } }) := by
  unfold hinitLines
  split
  next h => exact .inl ⟨h, rfl⟩
  next h =>
    cases hr : e.buf.readRun e.i.toNat e.drvL.toNat with
    | error a => exact .inr (.inl ⟨by omega, a, rfl, rfl⟩)
    | ok bs => exact .inr (.inr ⟨by omega, bs, rfl, rfl⟩)

/-- HROLL (R176): its faults in their order, each with the state unchanged, or one byte of progress. -/
theorem hrollLines_cases (e : Enc) :
    (e.flags.hvalid = false ∧ hrollLines e = .raised e .state 0x14) ∨
    (e.flags.hvalid = true ∧ e.filled ≤ e.i.toNat + e.drvL.toNat ∧
      hrollLines e = .raised e .range (e.i.toNat + e.drvL.toNat)) ∨
    (e.flags.hvalid = true ∧ e.i.toNat + e.drvL.toNat < e.filled ∧
      ((e.buf.read e.i.toNat = none ∧ hrollLines e = .raised e .uninit e.i.toNat) ∨
       (∃ out, e.buf.read e.i.toNat = some out ∧
        ((e.buf.read (e.i.toNat + e.drvL.toNat) = none ∧
            hrollLines e = .raised e .uninit (e.i.toNat + e.drvL.toNat)) ∨
         ∃ inn, e.buf.read (e.i.toNat + e.drvL.toNat) = some inn ∧
           hrollLines e = .done { e with
             hash := updateHash e.drvPL e.hash out inn, i := wordOf (e.i.toNat + 1), flags := e.flags.clearCand })))) := by
  unfold hrollLines
  cases hv : e.flags.hvalid with
  | false => exact .inl ⟨rfl, rfl⟩
  | true =>
    by_cases hr : e.filled ≤ e.i.toNat + e.drvL.toNat
    · exact .inr (.inl ⟨rfl, hr, by simp [hr]⟩)
    · refine .inr (.inr ⟨rfl, by omega, ?_⟩)
      cases ho : e.buf.read e.i.toNat with
      | none => exact .inl ⟨rfl, by simp [hr, ho]⟩
      | some out =>
        refine .inr ⟨out, rfl, ?_⟩
        cases hi : e.buf.read (e.i.toNat + e.drvL.toNat) with
        | none => exact .inl ⟨rfl, by simp [hr, ho, hi]⟩
        | some inn => exact .inr ⟨inn, rfl, by simp [hr, ho, hi]⟩

/-- INSERT (R193): `State`, `Align`, or one slot written. -/
theorem insertLines_cases (e : Enc) :
    (e.flags.hvalid = false ∧ insertLines e = .raised e .state 0x21) ∨
    (e.flags.hvalid = true ∧ e.i &&& e.drvKmask ≠ 0 ∧ insertLines e = .raised e .align e.i.toNat) ∨
    (e.flags.hvalid = true ∧ e.i &&& e.drvKmask = 0 ∧
      insertLines e = .done { e with ht := e.ht.write (e.slot e.hash) (e.i ||| e.chksum e.hash) }) := by
  unfold insertLines
  cases hv : e.flags.hvalid with
  | false => exact .inl ⟨rfl, rfl⟩
  | true =>
    by_cases ha : e.i &&& e.drvKmask = 0
    · exact .inr (.inr ⟨rfl, ha, by rw [ha]; rfl⟩)
    · exact .inr (.inl ⟨rfl, ha, by rw [if_neg (by simp), if_pos ha]⟩)

/-- The INSERT of the scan commands (R194): at a multiple of `k` one slot, else nothing; with a valid hash no fault. -/
theorem anchorLines_cases (e : Enc) (hv : e.flags.hvalid = true) :
    (e.i &&& e.drvKmask = 0 ∧
      anchorLines e = .done { e with ht := e.ht.write (e.slot e.hash) (e.i ||| e.chksum e.hash) }) ∨
    (e.i &&& e.drvKmask ≠ 0 ∧ anchorLines e = .done e) := by
  unfold anchorLines
  split
  next h =>
    rcases insertLines_cases e with ⟨h1, -⟩ | ⟨-, h2, -⟩ | ⟨-, -, h3⟩
    · simp [hv] at h1
    · exact absurd h h2
    · exact .inl ⟨h, h3⟩
  next h => exact .inr ⟨h, rfl⟩

/-- PROBE (R195): `State`, a hit with the position of the slot's entry, or no hit. -/
theorem probeLines_cases (e : Enc) :
    (e.flags.hvalid = false ∧ probeLines e = .raised e .state 0x22) ∨
    (e.flags.hvalid = true ∧ e.probeHits = true ∧
      probeLines e = .done { e with
        cand := e.ht.read (e.slot e.hash) &&& ~~~e.drvKmask, flags := { e.flags.clearCand with hit := true } }) ∨
    (e.flags.hvalid = true ∧ e.probeHits = false ∧ probeLines e = .done e.clearCand) := by
  unfold probeLines
  cases hv : e.flags.hvalid with
  | false => exact .inl ⟨rfl, rfl⟩
  | true =>
    cases hp : e.probeHits with
    | true => exact .inr (.inl ⟨rfl, rfl, by simp⟩)
    | false => exact .inr (.inr ⟨rfl, rfl, by simp⟩)

/-- A hit is a slot that is not 0 and whose checksum bits are those of the hash (R195). -/
theorem probeHits_iff (e : Enc) : e.probeHits = true ↔
    e.ht.read (e.slot e.hash) ≠ 0 ∧ e.ht.read (e.slot e.hash) &&& e.drvKmask = e.chksum e.hash := by
  simp [Enc.probeHits]

/-- BOUNDS (R211): `State`, a rejected candidate, or the extension range. -/
theorem boundsLines_cases (e : Enc) :
    ((e.flags.hit = false ∨ e.i.toNat < e.lastMatch.toNat) ∧ boundsLines e = .raised e .state 0x32) ∨
    (e.flags.hit = true ∧ e.lastMatch.toNat ≤ e.i.toNat ∧ e.i.toNat ≤ e.cand.toNat ∧ e.cand.toNat < e.filled ∧
      boundsLines e = .done { e with
        flags := { e.flags with rej := true, bvalid := false, svalid := false, evalid := false } }) ∨
    (e.flags.hit = true ∧ e.lastMatch.toNat ≤ e.i.toNat ∧ (e.cand.toNat < e.i.toNat ∨ e.filled ≤ e.cand.toNat) ∧
      boundsLines e = .done { e with
        lowb := wordOf (lowBound e.i.toNat e.cand.toNat e.filled)
        highb := wordOf (highBound e.i.toNat e.cand.toNat e.cfgB.toNat)
        dist := wordOf (ringDist e.i.toNat e.cand.toNat e.cfgB.toNat)
        flags := { e.flags with rej := false, bvalid := true, svalid := false, evalid := false } }) := by
  unfold boundsLines Enc.inFlight
  cases hh : e.flags.hit with
  | false => exact .inl ⟨.inl rfl, rfl⟩
  | true =>
    by_cases hl : e.i.toNat < e.lastMatch.toNat
    · exact .inl ⟨.inr hl, by simp [hl, opcode]⟩
    · by_cases hw : e.i.toNat ≤ e.cand.toNat ∧ e.cand.toNat < e.filled
      · exact .inr (.inl ⟨rfl, by omega, hw.1, hw.2, by simp [hl, hw.1, hw.2]⟩)
      · refine .inr (.inr ⟨rfl, by omega, by omega, ?_⟩)
        simp [hl, hw]

/-- EXTB (R226): `State`, `Uninit`, or the lowest position reached. -/
theorem extbLines_cases (e : Enc) :
    let run := extendBack e.buf e.i.toNat e.cand.toNat (min e.backLimit e.i.toNat) (e.i.toNat - e.backLimit)
    (e.flags.bvalid = false ∧ extbLines e = .raised e .state 0x40) ∨
    (e.flags.bvalid = true ∧ ∃ a, run = .error a ∧ extbLines e = .raised e .uninit a) ∨
    (e.flags.bvalid = true ∧ ∃ p, run = .ok p ∧
      extbLines e = .done { e with mstart := wordOf p, flags := { e.flags with svalid := true } }) := by
  intro run
  unfold extbLines
  cases hb : e.flags.bvalid with
  | false => exact .inl ⟨rfl, rfl⟩
  | true =>
    cases hr : run with
    | error a => exact .inr (.inl ⟨rfl, a, rfl, by simp [run] at hr; simp [hr]⟩)
    | ok p => exact .inr (.inr ⟨rfl, p, rfl, by simp [run] at hr; simp [hr]⟩)

/-- EXTF (R228): `State`, `Uninit`, or the end of the equal pairs. -/
theorem extfLines_cases (e : Enc) :
    let run := extendFwd e.buf e.i.toNat e.cand.toNat e.i.toNat (e.fwdLimit - e.i.toNat)
    (e.flags.bvalid = false ∧ extfLines e = .raised e .state 0x41) ∨
    (e.flags.bvalid = true ∧ ∃ a, run = .error a ∧ extfLines e = .raised e .uninit a) ∨
    (e.flags.bvalid = true ∧ ∃ q, run = .ok q ∧
      extfLines e = .done { e with mend := wordOf q, flags := { e.flags with evalid := true } }) := by
  intro run
  unfold extfLines
  cases hb : e.flags.bvalid with
  | false => exact .inl ⟨rfl, rfl⟩
  | true =>
    cases hr : run with
    | error a => exact .inr (.inl ⟨rfl, a, rfl, by simp [run] at hr; simp [hr]⟩)
    | ok q => exact .inr (.inr ⟨rfl, q, rfl, by simp [run] at hr; simp [hr]⟩)

/-- COMMIT (R230): `State`, too short, `StageOvf` before any push, or one record staged. -/
theorem commitLines_cases (recCap : Nat) (e : Enc) :
    ((e.flags.svalid = false ∨ e.flags.evalid = false) ∧ commitLines recCap e = .raised e .state 0x42) ∨
    (e.flags.svalid = true ∧ e.flags.evalid = true ∧ e.mend.toNat - e.mstart.toNat < e.required e.dist ∧
      commitLines recCap e = .done { e with flags := { e.flags.clearCand with matched := false } }) ∨
    (e.flags.svalid = true ∧ e.flags.evalid = true ∧ e.required e.dist ≤ e.mend.toNat - e.mstart.toNat ∧
      e.recordsFull recCap = true ∧ commitLines recCap e = .raised e .stageOvf e.nrec.toNat) ∨
    (e.flags.svalid = true ∧ e.flags.evalid = true ∧ e.required e.dist ≤ e.mend.toNat - e.mstart.toNat ∧
      e.recordsFull recCap = false ∧ commitLines recCap e = .done (stageRecord e)) := by
  unfold commitLines Enc.passes
  cases hs : e.flags.svalid with
  | false => exact .inl ⟨.inl rfl, rfl⟩
  | true =>
    cases hv : e.flags.evalid with
    | false => exact .inl ⟨.inr rfl, rfl⟩
    | true =>
      by_cases hp : e.required e.dist ≤ e.mend.toNat - e.mstart.toNat
      · cases hf : e.recordsFull recCap with
        | true => exact .inr (.inr (.inl ⟨rfl, rfl, hp, rfl, by simp [hp]⟩))
        | false => exact .inr (.inr (.inr ⟨rfl, rfl, hp, rfl, by simp [hp]⟩))
      · exact .inr (.inl ⟨rfl, rfl, by omega, by simp [hp]⟩)

/-- SEEK (R209): `Range`, or the cursor moved and the hash dropped. -/
theorem seekLines_cases (p : Word) (e : Enc) :
    (e.filled < p.toNat ∧ seekLines p e = .raised e .range p.toNat) ∨
    (p.toNat ≤ e.filled ∧ seekLines p e = .done { e with i := p, flags := e.flags.dropHash }) := by
  unfold seekLines
  split
  next h => exact .inl ⟨h, rfl⟩
  next h => exact .inr ⟨by omega, rfl⟩

/-- The outer loop test of SCAN (R248): where the margin is reached the loop ends, else it runs one block more. -/
theorem scanLoop_succ (recCap n : Nat) (e : Enc) :
    (e.filled ≤ e.i.toNat + 2 * e.drvL.toNat ∧ scanLoop recCap (n + 1) e = .done e) ∨
    (e.i.toNat + 2 * e.drvL.toNat < e.filled ∧
      scanLoop recCap (n + 1) e = (blockLines recCap e).andThen (scanLoop recCap n)) := by
  rw [scanLoop]
  split
  next h => exact .inr ⟨h, rfl⟩
  next h => exact .inl ⟨by omega, rfl⟩

/-- `flush` (R268): nothing pending, a pending byte without a value, or one write event, accepted or refused. -/
theorem flushLines_cases (s : State) :
    (s.dec.dData.toNat ≤ s.dec.dLast.toNat ∧ flushLines s = .done { s with dec := s.dec.markFlushed }) ∨
    (s.dec.dLast.toNat < s.dec.dData.toNat ∧
      ((∃ a, s.dec.cur.readRun s.dec.dLast.toNat (s.dec.dData.toNat - s.dec.dLast.toNat) = .error a ∧
          flushLines s = .raised s .uninit a) ∨
       ∃ bs, s.dec.cur.readRun s.dec.dLast.toNat (s.dec.dData.toNat - s.dec.dLast.toNat) = .ok bs ∧
          flushLines s = (doutPut bs s).andThen fun t => .done { t with dec := t.dec.markFlushed })) := by
  unfold flushLines
  by_cases h : s.dec.dLast.toNat < s.dec.dData.toNat
  · refine .inr ⟨h, ?_⟩
    cases hr : s.dec.cur.readRun s.dec.dLast.toNat (s.dec.dData.toNat - s.dec.dLast.toNat) with
    | error a => exact .inl ⟨a, rfl, by simp [h, hr]⟩
    | ok bs => exact .inr ⟨bs, rfl, by simp [h, hr]⟩
  · exact .inl ⟨by omega, by simp [h]⟩

end Sys2Proof.Machine
end

