-- ==== Sys2Proof/Laws/PerInstr.lean ====
section
/-! SUPPORT. The family `EncodedOpcode`, one lemma per command: bits 7:0 of the command word are the opcode of R145, so
the format and the context of a word are told from its opcode alone (30_encoding.md rules R143, R146). -/

namespace Sys2Proof.Laws.EncodedOpcode

open Sys2Proof

/-- Bits 7:0 of the word of a well-formed command are its opcode. -/
def Statement (i : Instr) : Prop := i.WellFormed → opField (encode i) = opcode i

/-- The low byte of a word that is a byte below two shifted bytes. -/
theorem low_byte (hi lo : Word) (op : Byte) : opField ((hi <<< 16) ||| (lo <<< 8) ||| op.setWidth 32) = op := by
  apply BitVec.eq_of_getLsbD_eq
  intro k hk
  have h1 : k < 32 := by omega
  have h2 : k < 16 := by omega
  simp only [opField, BitVec.getLsbD_extractLsb', BitVec.getLsbD_or, BitVec.getLsbD_shiftLeft,
    BitVec.getLsbD_setWidth, Nat.zero_add, hk, h1, h2, decide_true, Bool.not_true, Bool.and_false, Bool.false_and,
    Bool.true_and, Bool.false_or]

theorem nop : Statement .nop := by intro _; decide

theorem reset (ctx : Nat) : Statement (.reset ctx) := by
  intro _
  simpa [encode, opcode] using low_byte 0 (wordOf ctx) 0x01

theorem cfg : Statement .cfg := by intro _; decide

theorem hclr : Statement .hclr := by intro _; decide

theorem hupd (out inn : Nat) : Statement (.hupd out inn) := by
  intro _
  simpa [encode, opcode] using low_byte (wordOf inn) (wordOf out) 0x12

theorem hinit : Statement .hinit := by intro _; decide

theorem hroll : Statement .hroll := by intro _; decide

theorem htclr : Statement .htclr := by intro _; decide

theorem insert : Statement .insert := by intro _; decide

theorem probe : Statement .probe := by intro _; decide

theorem fill : Statement .fill := by intro _; decide

theorem seek : Statement .seek := by intro _; decide

theorem bounds : Statement .bounds := by intro _; decide

theorem rdlit : Statement .rdlit := by intro _; decide

theorem extb : Statement .extb := by intro _; decide

theorem extf : Statement .extf := by intro _; decide

theorem commit : Statement .commit := by intro _; decide

theorem step : Statement .step := by intro _; decide

theorem skip : Statement .skip := by intro _; decide

theorem scan : Statement .scan := by intro _; decide

theorem endcyc : Statement .endcyc := by intro _; decide

theorem final : Statement .final := by intro _; decide

theorem dinit : Statement .dinit := by intro _; decide

theorem dlit : Statement .dlit := by intro _; decide

theorem dmatch : Statement .dmatch := by intro _; decide

theorem dflush : Statement .dflush := by intro _; decide

end Sys2Proof.Laws.EncodedOpcode
end

