-- ==== Sys2Proof/Tests/Slice0.lean ====
section
/-! SUPPORT. The model's own tests: ill-formed commands, the decoder on words written out from the rules, one or two
steps of each command with results from spec/95_test_vectors.md or the examples of the rules, and a witness for the
hypotheses of each statement. -/

namespace Sys2Proof.Tests

open Sys2Proof Sys2Proof.Machine

-- one thread for the tests: many small evaluations at once exhaust the memory for thread stacks
set_option Elab.async false

/-! ### Well-formedness (R142, R144) -/

theorem test_ctx_too_large : (Instr.reset 4).wellFormed = false := by decide
theorem test_out_too_large : (Instr.hupd 256 0).wellFormed = false := by decide
theorem test_in_too_large : (Instr.hupd 0 256).wellFormed = false := by decide
theorem test_largest_fields : (Instr.reset 3).WellFormed ∧ (Instr.hupd 255 255).WellFormed := by decide

/-! ### Decoding: bit by bit from R141 and R145, `zero` fields then immediates then `op` -/

theorem test_decode_nop : decode (0#24 ++ 0b00000000#8) = .ok .nop := by rfl
theorem test_decode_reset : decode (0b0000000000000000000000#22 ++ 0b10#2 ++ 0b00000001#8) = .ok (.reset 2) := by rfl
theorem test_decode_cfg : decode (0#24 ++ 0b00010000#8) = .ok .cfg := by rfl
theorem test_decode_hclr : decode (0#24 ++ 0b00010001#8) = .ok .hclr := by rfl
theorem test_decode_hupd :
    decode (0b00000000#8 ++ 0b01100101#8 ++ 0b01100001#8 ++ 0b00010010#8) = .ok (.hupd 0x61 0x65) := by rfl
theorem test_decode_hinit : decode (0#24 ++ 0b00010011#8) = .ok .hinit := by rfl
theorem test_decode_hroll : decode (0#24 ++ 0b00010100#8) = .ok .hroll := by rfl
theorem test_decode_htclr : decode (0#24 ++ 0b00100000#8) = .ok .htclr := by rfl
theorem test_decode_insert : decode (0#24 ++ 0b00100001#8) = .ok .insert := by rfl
theorem test_decode_probe : decode (0#24 ++ 0b00100010#8) = .ok .probe := by rfl
theorem test_decode_fill : decode (0#24 ++ 0b00110000#8) = .ok .fill := by rfl
theorem test_decode_seek : decode (0#24 ++ 0b00110001#8) = .ok .seek := by rfl
theorem test_decode_bounds : decode (0#24 ++ 0b00110010#8) = .ok .bounds := by rfl
theorem test_decode_rdlit : decode (0#24 ++ 0b00110011#8) = .ok .rdlit := by rfl
theorem test_decode_extb : decode (0#24 ++ 0b01000000#8) = .ok .extb := by rfl
theorem test_decode_extf : decode (0#24 ++ 0b01000001#8) = .ok .extf := by rfl
theorem test_decode_commit : decode (0#24 ++ 0b01000010#8) = .ok .commit := by rfl
theorem test_decode_step : decode (0#24 ++ 0b01010000#8) = .ok .step := by rfl
theorem test_decode_skip : decode (0#24 ++ 0b01010001#8) = .ok .skip := by rfl
theorem test_decode_scan : decode (0#24 ++ 0b01010010#8) = .ok .scan := by rfl
theorem test_decode_endcyc : decode (0#24 ++ 0b01010011#8) = .ok .endcyc := by rfl
theorem test_decode_final : decode (0#24 ++ 0b01010100#8) = .ok .final := by rfl
theorem test_decode_dinit : decode (0#24 ++ 0b01100000#8) = .ok .dinit := by rfl
theorem test_decode_dlit : decode (0#24 ++ 0b01100001#8) = .ok .dlit := by rfl
theorem test_decode_dmatch : decode (0#24 ++ 0b01100010#8) = .ok .dmatch := by rfl
theorem test_decode_dflush : decode (0#24 ++ 0b01100011#8) = .ok .dflush := by rfl
theorem test_decode_table_word : decodeTableWord 32 0x00656112 = some (.hupd 0x61 0x65) := by decide

/-- A 1 in a `zero` field of each format, and an opcode R145 does not list (R147, R358). -/
theorem test_decode_reserved :
    decode 0x00000152 = .error .zeroField ∧ decode 0x00000401 = .error .zeroField ∧
    decode 0x01000012 = .error .zeroField ∧ decode 0x00000064 = .error .opcode := ⟨rfl, rfl, rfl, rfl⟩

/-! ### Small states -/

/-- The text `T` of 95_test_vectors.md section 2, "abcdefghabcdefghXYZ01234". -/
def textT : List Byte :=
  [0x61, 0x62, 0x63, 0x64, 0x65, 0x66, 0x67, 0x68, 0x61, 0x62, 0x63, 0x64] ++
  [0x65, 0x66, 0x67, 0x68, 0x58, 0x59, 0x5A, 0x30, 0x31, 0x32, 0x33, 0x34]

/-- The encoder context with the parameters `P8` before CFG. -/
def unset8 : Enc := { cfgB := 64, cfgM := 8, cfgS := 8, cfgD := 64, cfgH := 8, cfgA := 1 }

/-- `P8` after CFG: the row of vector 2.1. -/
def set8 : Enc := { unset8 with
  drvL := 4, drvK := 2, drvTest := 2, drvHsize := 256, drvHmask := 255, drvKmask := 1, drvPL := 0x1E054BE1
  flags := { cfgok := true } }

/-- `P8`; `FILLN 24, T`. -/
def open8 : Enc := { set8 with
  buf := Memory.writeRun [] 0 textT, size := 24, flags := { cfgok := true, cycopen := true } }

/-- `open8` with the hash of the window at `i`. -/
def hashed (i h : Word) : Enc := { open8 with
  i := i, hash := h, flags := { cfgok := true, cycopen := true, hvalid := true } }

/-- `open8` at `i` with a candidate. -/
def hitAt (i m : Word) : Enc := { open8 with
  i := i, cand := m, flags := { cfgok := true, cycopen := true, hvalid := true, hit := true } }

/-- The state of vector 2.5 row 1 after BOUNDS: the pair (10, 2). -/
def bounded10 : Enc := { hitAt 10 2 with
  hash := 0x7C85AF32, lowb := 8, highb := 72, dist := 8
  flags := { cfgok := true, cycopen := true, hvalid := true, hit := true, bvalid := true } }

/-- The state of vector 2.5 row 1 after EXTF. -/
def extended10 : Enc := { bounded10 with
  mstart := 8, mend := 16
  flags := { cfgok := true, cycopen := true, hvalid := true, hit := true, bvalid := true, svalid := true
             evalid := true } }

/-- A machine whose encoder context is `e`. -/
def onlyEnc (e : Enc) : State := { enc := e }

/-- `DSETUP 16, 10`. -/
def dec16 : Dec := { dB := 16, dSize0 := 10, flags := { dok := true, block0 := true } }

/-- The state of the example of R269: eight bytes "abcdefgh" written. -/
def dec8 : Dec := { dec16 with dData := 8, dFilled := 8, seg0 := Memory.writeRun [] 0 (textT.take 8) }

/-- A machine whose decoder context is `d`, with operands. -/
def onlyDec (d : Dec) (a0 a1 : Word) : State := { dec := d, arg0 := a0, arg1 := a1 }

/-- The bytes of a memory from `p`. -/
def bytesAt (m : Memory) (p n : Nat) : List (Option Byte) := (List.range n).map fun t => m.read (p + t)

/-! ### The bus and the system commands -/

/-- Vector 2.13 row 1: NOP in a faulted context. -/
theorem test_nop_in_faulted_context :
    (after .nop { enc := { flags := { efault := true }, eerr := 6 } }).enc.eerr = 6 := by decide

/-- Vector 2.13 row 2: RESET E leaves the decoder and ARG0. -/
theorem test_reset_encoder :
    let t := after (.reset 1) { enc := { open8 with eerr := 6 }, dec := dec16, arg0 := 16 }
    busRead 0x1E t = 0 ∧ busRead 0x1F t = 0 ∧ busRead 0x00 t = 0 ∧ busRead 0x2E t = 3 ∧ t.arg0 = 16 := by decide

/-- Vector 2.13 row 4: RESET ED, and as the first instruction fetched after reset. -/
theorem test_reset_both :
    (match step (State.withFetchWord { enc := open8, dec := dec16, arg0 := 5 } 32 0x301) with
     | .next t => decide (t.enc = State.reset.enc ∧ t.dec = State.reset.dec ∧ t.arg0 = 0)
     | _ => false) = true := by decide +kernel

/-- Vector 2.13 row 6: WR CFG_B after CFG is ignored. -/
theorem test_write_cfg_after_cfg : busRead 0x00 (busWrite 0x00 128 (onlyEnc set8)) = 64 := by decide

/-- Vector 2.13 row 8: HASH is read-only on the bus. -/
theorem test_write_hash_ignored : busRead 0x10 (busWrite 0x10 0x12345678 (onlyEnc set8)) = 0 := by decide

/-- Vector F20: a reserved opcode of no context; the encoder keeps its first error. -/
theorem test_reserved_opcode :
    let t := illegalCommand 0xFF { enc := { flags := { cfgok := true, hvalid := true, cycopen := true, efault := true }
                                            eerr := 4, eerrinfo := 0x32 } }
    busRead 0x1F t = 4 ∧ busRead 0x1D t = 0x32 ∧ busRead 0x1E t = 0x80000203 ∧
    busRead 0x2F t = 1 ∧ busRead 0x2D t = 0xFF ∧ busRead 0x2E t = 0x80000000 := by decide

/-! ### One step of each command -/

/-- Vector 2.1, first row. -/
theorem test_cfg : (after .cfg (onlyEnc unset8)).enc = set8 := by decide +kernel

/-- Vector 2.1: `CONFIG 7, 8, 8, 0, 0, 1` fails check 6. -/
theorem test_cfg_small_buffer :
    let t := after .cfg (onlyEnc { cfgB := 7, cfgM := 8, cfgS := 8, cfgA := 1 })
    busRead 0x1F t = 2 ∧ busRead 0x1D t = 6 ∧ busRead 0x1E t = 0x80000000 ∧ busRead 0x08 t = 0 := by decide +kernel

/-- R173, the hash of "abcd" dropped. -/
theorem test_hclr :
    let t := after .hclr (onlyEnc (hashed 0 0xEB992A92))
    busRead 0x10 t = 0 ∧ busRead 0x1E t = 0x201 := by decide

/-- Vector 2.2: from "abcd" to "bcde". -/
theorem test_hupd : busRead 0x10 (after (.hupd 0x61 0x65) (onlyEnc { set8 with hash := 0xEB992A92 })) = 0x340F6CE2 := by
  decide

/-- Vector 2.2, last row: both bytes 0xFF, the sum wraps. -/
theorem test_hupd_wraps :
    busRead 0x10 (after (.hupd 0xFF 0xFF) (onlyEnc { set8 with hash := 0xFFFFFFFF })) = 0x18B71579 := by decide

/-- Vector 2.2: the last window of `T`. -/
theorem test_hinit :
    let t := after .hinit (onlyEnc { open8 with i := 20 })
    busRead 0x10 t = 0x556CBB92 ∧ busRead 0x1E t = 0x203 := by decide +kernel

/-- Vector F10: a window past the bytes read. -/
theorem test_hinit_range :
    let t := after .hinit (onlyEnc { open8 with i := 22 })
    busRead 0x1F t = 6 ∧ busRead 0x1D t = 26 ∧ busRead 0x1E t = 0x80000201 ∧ busRead 0x11 t = 22 := by decide +kernel

/-- Vector 2.2: from row 12 to row 13, "fghX". -/
theorem test_hroll :
    let t := after .hroll (onlyEnc (hashed 12 0x0D7233D2))
    busRead 0x10 t = 0x55E87611 ∧ busRead 0x11 t = 13 ∧ busRead 0x1E t = 0x203 := by decide +kernel

/-- Vector F11: the last window cannot slide. -/
theorem test_hroll_range :
    let t := after .hroll (onlyEnc (hashed 20 0x556CBB92))
    busRead 0x1F t = 6 ∧ busRead 0x1D t = 24 ∧ busRead 0x1E t = 0x80000203 ∧ busRead 0x11 t = 20 := by decide +kernel

/-- R191: every slot 0, no flag changed. -/
theorem test_htclr :
    let t := after .htclr (onlyEnc { hitAt 10 2 with ht := [(2, 3)] })
    t.enc.ht.read 2 = 0 ∧ busRead 0x1E t = 0x207 := by decide

/-- Vector 2.3 row 1 (with 256 slots the slot is `0x32`). -/
theorem test_insert :
    let t := after .insert (onlyEnc (hashed 2 0x7C85AF32))
    t.enc.ht = [(0x32, 3)] ∧ busRead 0x1E t = 0x203 := by decide

/-- Vector 2.3 row 7: an unaligned anchor. -/
theorem test_insert_align :
    let t := after .insert (onlyEnc (hashed 1 0x340F6CE2))
    busRead 0x1F t = 5 ∧ busRead 0x1D t = 1 ∧ busRead 0x1E t = 0x80000203 ∧ t.enc.ht = [] := by decide

/-- Vector 2.3 row 4: "ghab" hits the anchor of "cdef", a false positive. -/
theorem test_probe_hit :
    let t := after .probe (onlyEnc { hashed 6 0x9E4C0532 with ht := [(0x32, 3)] })
    busRead 0x16 t = 2 ∧ busRead 0x1E t = 0x207 := by decide

/-- Vector 2.3 row 3 (the slot given): the checksum filters. -/
theorem test_probe_filters :
    let t := after .probe (onlyEnc { hashed 0 0xEB992A92 with ht := [(0x92, 3)], cand := 7 })
    busRead 0x16 t = 7 ∧ busRead 0x1E t = 0x203 := by decide

/-- Program A line 9. -/
theorem test_fill :
    let t := after .fill { enc := set8, arg0 := 24, ports := { ein := textT } }
    t.enc = open8 ∧ t.ports.ein = [] := by decide +kernel

/-- Vector F17: the abort form. -/
theorem test_fill_abort :
    let t := after .fill { enc := set8, arg0 := 0xFFFFFFFF, arg1 := 0xFFFFFFF9 }
    busRead 0x1F t = 9 ∧ busRead 0x1D t = 0xFFFFFFF9 ∧ busRead 0x1E t = 0x80000001 := by decide

/-- R209, to the end of the bytes read. -/
theorem test_seek :
    let t := after .seek { enc := hashed 2 0x7C85AF32, arg0 := 24 }
    busRead 0x11 t = 24 ∧ busRead 0x1E t = 0x201 := by decide

/-- Vector F9. -/
theorem test_seek_range :
    let t := after .seek { enc := open8, arg0 := 25 }
    busRead 0x1F t = 6 ∧ busRead 0x1D t = 25 ∧ busRead 0x1E t = 0x80000201 ∧ busRead 0x11 t = 0 := by decide

/-- Vector 2.4 row 7: a source in the previous lap. -/
theorem test_bounds_previous_lap :
    let t := after .bounds (onlyEnc { hitAt 56 100 with cfgB := 256, base := 32, size := 32 })
    busRead 0x17 t = 20 ∧ busRead 0x18 t = 212 ∧ busRead 0x19 t = 212 ∧ busRead 0x1E t = 0x217 := by decide

/-- Vector 2.4 row 4: a candidate ahead of the cursor. -/
theorem test_bounds_rejects :
    let t := after .bounds (onlyEnc (hitAt 1 2))
    busRead 0x1E t = 0x20F ∧ busRead 0x17 t = 0 ∧ busRead 0x18 t = 0 := by decide

/-- Program A line 15: one write event, no other change. -/
theorem test_rdlit :
    let s : State := { enc := open8, arg0 := 0, arg1 := 8 }
    (after .rdlit s).ports.eout = [⟨textT.take 8, 0⟩] ∧ (after .rdlit s).enc = s.enc := by decide +kernel

/-- Vector F8: byte 24 has no value; no write event. -/
theorem test_rdlit_uninit :
    let t := after .rdlit { enc := open8, arg0 := 20, arg1 := 8 }
    busRead 0x1F t = 7 ∧ busRead 0x1D t = 24 ∧ busRead 0x1E t = 0x80000201 ∧ t.ports.eout = [] := by decide +kernel

/-- Vector 2.5 row 1. -/
theorem test_extb :
    let t := after .extb (onlyEnc bounded10)
    busRead 0x1A t = 8 ∧ busRead 0x1E t = 0x237 := by decide +kernel

/-- Vector 2.5 row 4: the false positive of 2.3 row 4 extends by nothing. -/
theorem test_extb_mismatch :
    busRead 0x1A (after .extb (onlyEnc { bounded10 with i := 6, lowb := 4, highb := 68, dist := 4 })) = 6 := by
  decide +kernel

/-- Vector 2.5 row 1, after EXTB. -/
theorem test_extf :
    let t := after .extf (onlyEnc { bounded10 with mstart := 8, flags := { bounded10.flags with svalid := true } })
    busRead 0x1B t = 16 ∧ busRead 0x1E t = 0x277 := by decide +kernel

/-- Vector 2.5 row 4. -/
theorem test_extf_mismatch :
    busRead 0x1B (after .extf (onlyEnc { bounded10 with i := 6, lowb := 4, highb := 68, dist := 4 })) = 6 := by
  decide +kernel

/-- Vector 2.5 row 1: `len = M`, staged. -/
theorem test_commit :
    let t := after .commit (onlyEnc extended10)
    t.enc.lens = [8] ∧ t.enc.offsets = [8] ∧ t.enc.datalens = [8] ∧ t.enc.dataOffsets = [0] ∧
    busRead 0x13 t = 16 ∧ busRead 0x1C t = 1 ∧ busRead 0x1E t = 0x283 := by decide

/-- Vector 2.5 rows 2 and 3: the same extent on the two sides of the barrier. -/
theorem test_commit_barrier :
    busRead 0x1C (after .commit (onlyEnc { extended10 with cfgM := 16 })) = 0 ∧
    busRead 0x1C (after .commit (onlyEnc { extended10 with cfgM := 16, cfgD := 8 })) = 1 := by decide

/-- The example of R241: the STEP at 12 that emits. -/
theorem test_step :
    let t := after .step (onlyEnc { hashed 12 0x0D7233D2 with ht := [(0xD2, 4)] })
    t.enc.lens = [8] ∧ t.enc.datalens = [8] ∧ busRead 0x13 t = 16 ∧ t.enc.ht = [(0xD2, 0xC)] ∧
    busRead 0x11 t = 13 ∧ busRead 0x10 t = 0x55E87611 ∧ busRead 0x1E t = 0x283 := by decide +kernel

/-- Vector 2.6 (a): the STEP at 13, inside the match, does not probe. -/
theorem test_step_inside_match :
    let t := after .step (onlyEnc { hashed 13 0x55E87611 with lastMatch := 16, ht := [(0x11, 3)], cand := 4 })
    busRead 0x11 t = 14 ∧ busRead 0x10 t = 0x9E36FB8A ∧ busRead 0x16 t = 4 ∧ busRead 0x1E t = 0x203 := by decide +kernel

/-- The example of R246: from 14 to 16, an anchor at 14. -/
theorem test_skip :
    let t := after .skip (onlyEnc (hashed 14 0x9E36FB8A))
    busRead 0x11 t = 16 ∧ busRead 0x10 t = 0x5F70D597 ∧ t.enc.ht = [(0x8A, 0xF)] := by decide +kernel

/-- Program A line 10. -/
theorem test_scan :
    (after .scan (onlyEnc open8)).enc = { open8 with
      hash := 0x5F70D597, i := 16, lastI := 16, lastMatch := 16, cand := 4, lowb := 8, highb := 72, dist := 8
      mstart := 8, mend := 16, nrec := 1, lens := [8], offsets := [8], datalens := [8], dataOffsets := [0]
      ht := [(0x32, 0xB), (0x8A, 0xF), (0x92, 8), (0xD2, 0xC)]
      flags := { cfgok := true, cycopen := true, hvalid := true } } := by decide +kernel

/-- Vector F14: no room for a record. -/
theorem test_scan_overflow :
    let t := after .scan { enc := open8, caps := { Config.caps with recCap := 0 } }
    busRead 0x1F t = 8 ∧ busRead 0x1D t = 0 ∧ busRead 0x1E t = 0x80000277 ∧ busRead 0x11 t = 12 ∧
    busRead 0x12 t = 0 ∧ busRead 0x13 t = 0 ∧ t.enc.ht = [(0x32, 0xB), (0x92, 8), (0xD2, 4)] := by decide +kernel

/-- Program A line 11. -/
theorem test_endcyc :
    let t := after .endcyc (onlyEnc { hashed 16 0x5F70D597 with
      lastI := 16, lastMatch := 16, nrec := 1, lens := [8], offsets := [8], datalens := [8], dataOffsets := [0] })
    t.enc.datalens = [8, 0] ∧ t.enc.dataOffsets = [0, 16] ∧ busRead 0x14 t = 24 ∧ busRead 0x15 t = 0 ∧
    busRead 0x1E t = 3 := by decide

/-- Vector 2.8, cycle 1: the end of a lap. -/
theorem test_endcyc_lap :
    let t := after .endcyc (onlyEnc { hashed 248 7 with cfgB := 256, size := 256, lastI := 248 })
    t.enc.datalens = [256] ∧ t.enc.dataOffsets = [0] ∧ busRead 0x11 t = 0 ∧ busRead 0x12 t = 0 ∧ busRead 0x13 t = 0 ∧
    busRead 0x14 t = 0 ∧ busRead 0x1E t = 0x101 := by decide

/-- Program A line 17. -/
theorem test_final :
    let t := after .final (onlyEnc { set8 with
      base := 24, lastMatch := 16, nrec := 1, lens := [8], offsets := [8], datalens := [8, 0], dataOffsets := [0, 16]
      flags := { cfgok := true, hvalid := true } })
    t.enc.lens = [] ∧ t.enc.datalens = [8] ∧ t.enc.dataOffsets = [16] ∧ busRead 0x13 t = 24 ∧ busRead 0x1C t = 0 ∧
    busRead 0x1E t = 0x403 := by decide

/-- Vector 2.6 (d): FINAL with a cycle open. -/
theorem test_final_open :
    let t := after .final (onlyEnc open8)
    busRead 0x1F t = 4 ∧ busRead 0x1D t = 0x54 ∧ busRead 0x1E t = 0x80000201 := by decide

/-- The example of R266. -/
theorem test_dinit : (after .dinit (onlyDec {} 16 10)).dec = dec16 := by decide

/-- Vector 2.10 row 6: `DSETUP 16, 17`. -/
theorem test_dinit_size :
    let t := after .dinit (onlyDec {} 16 17)
    busRead 0x2F t = 2 ∧ busRead 0x2D t = 8 ∧ busRead 0x2E t = 0x80000000 := by decide

/-- The example of R269. -/
theorem test_dlit :
    let t := after .dlit { onlyDec dec16 8 0 with ports := { din := textT.take 8 } }
    t.dec = dec8 ∧ t.ports.dout = [] ∧ t.ports.din = [] ∧ busRead 0x25 t = 8 := by decide +kernel

/-- The first `DLITN` of vector 2.10 row 4 and the byte that needs room: the full ring leaves in one event. -/
theorem test_dlit_flushes :
    let t := after .dlit { onlyDec { dec8 with dSize0 := 16, dB := 16 } 9 0 with ports := { din := textT.drop 8 } }
    t.ports.dout = [⟨textT.take 16, 0⟩] ∧ busRead 0x22 t = 1 ∧ busRead 0x23 t = 0 ∧ busRead 0x24 t = 16 ∧
    t.dec.seg0.read 0 = some 0x58 := by decide +kernel

/-- The example of R271: "fghfghf" across the segment switch. -/
theorem test_dmatch :
    let t := after .dmatch (onlyDec dec8 3 7)
    t.ports.dout = [⟨textT.take 8 ++ [0x66, 0x67], 0⟩] ∧ bytesAt t.dec.seg1 0 5 = ([0x68, 0x66, 0x67, 0x68, 0x66] : List Byte).map some ∧
    busRead 0x22 t = 5 ∧ busRead 0x23 t = 0 ∧ busRead 0x24 t = 15 ∧ busRead 0x25 t = 15 ∧ busRead 0x2E t = 1 := by
  decide +kernel

/-- Vector 2.10 row 1: an offset into bytes not yet written. -/
theorem test_dmatch_corrupt :
    let t := after .dmatch (onlyDec { dec16 with dSize0 := 16, dData := 3, dFilled := 3 } 4 1)
    busRead 0x2F t = 10 ∧ busRead 0x2D t = 4 ∧ busRead 0x2E t = 0x80000003 := by decide

/-- The example of R274: the write event "hfghf". -/
theorem test_dflush :
    let d : Dec := { dec8 with
      dData := 5, dFilled := 15, seg1 := Memory.writeRun [] 0 [0x68, 0x66, 0x67, 0x68, 0x66], flags := { dok := true } }
    let t := after .dflush (onlyDec d 0 0)
    t.ports.dout = [⟨[0x68, 0x66, 0x67, 0x68, 0x66], 0⟩] ∧ busRead 0x23 t = 5 := by decide +kernel

/-- Vector F18: the sink answers −7. -/
theorem test_dflush_refused :
    let t := after .dflush { onlyDec { dec8 with dB := 64, dSize0 := 64 } 0 0 with ports := { doutAnswers := [0xFFFFFFF9] } }
    busRead 0x2F t = 9 ∧ busRead 0x2D t = 0xFFFFFFF9 ∧ busRead 0x2E t = 0x80000003 ∧ busRead 0x23 t = 0 := by
  decide +kernel

/-- Program A: the bytes of block 1 (R314). -/
theorem test_block_bytes :
    (Block.mk [8] [8] [8, 0] (textT.take 8)).bytes =
      [0x1C, 0, 0, 0, 1, 0, 0, 0, 8, 0, 0, 0, 8, 0, 0, 0, 8, 0, 0, 0, 0, 0, 0, 0] ++ textT.take 8 := by decide +kernel

/-! ### Witnesses: each statement's hypotheses, clause by clause, at boundary values -/

/-- A list of operations with `op` first. -/
def pending (op : HostOp) (s : State) : State := { s with bus := [op] }

/-- The encoder context faulted, the decoder context faulted. -/
def bothFaulted : State := { enc := { flags := { efault := true } }, dec := { flags := { dfault := true } } }

theorem witness_NopAndResetEffects : (pending .hwReset (onlyEnc open8)).bus = .hwReset :: [] := by rfl

theorem witness_BusReadReturnsRegister :
    (pending (.rd 0x1E) (onlyEnc open8)).bus = .rd 0x1E :: [] ∧
    (let e : Enc := { open8 with lens := [8], offsets := [8], datalens := [8], dataOffsets := [0] }
     (∀ arr ∈ [e.lens, e.offsets, e.datalens, e.dataOffsets], (0#32).toNat < arr.length ∧ arr.length ≤ (1#32).toNat)) ∧
    (onlyDec {} 0 0).dec.flags.dok = false ∧
    ((onlyDec dec8 0 0).dec.flags.dok = true ∧ (onlyDec dec8 0 0).dec.flags.block0 = true) ∧
    (let d : Dec := { dec8 with flags := { dok := true } }
     d.flags.dok = true ∧ d.flags.block0 = false) := ⟨rfl, by decide, by decide, by decide, by decide⟩

theorem witness_BusWriteStoresOrIsIgnored :
    (∀ (n : BitVec 6) (v : Word), (pending (.wr n v) (onlyEnc unset8)).bus = .wr n v :: []) ∧
    (onlyEnc unset8).enc.flags.cfgok = false ∧ (onlyEnc set8).enc.flags.cfgok = true ∧
    (5 : BitVec 6).toNat ≤ 0x05 ∧ 0x05 < (6 : BitVec 6).toNat ∧
    (∀ n ∈ [(6 : BitVec 6), 0x10, 0x2F, 0x3E], 0x05 < n.toNat ∧ n ≠ 0x30 ∧ n ≠ 0x38 ∧ n ≠ 0x39 ∧ n ≠ 0x3F) :=
  ⟨fun _ _ => rfl, by decide, by decide, by decide, by decide, by decide⟩

theorem witness_CommandWriteRunsTheDecodedInstruction :
    (pending (.wr 0x3F 0x00FFFF12) (onlyEnc set8)).bus = .wr 0x3F 0x00FFFF12 :: [] ∧
    decode 0x00FFFF12 = .ok (.hupd 0xFF 0xFF) := ⟨rfl, rfl⟩

theorem witness_ReservedWordRaisesIllegalCmd :
    (decode 0x00000015 = .error .opcode ∧ (0x00000015 : Word).toNat / 16 % 16 = 1) ∧
    (decode 0x00000152 = .error .zeroField ∧ (0x00000152 : Word).toNat / 16 % 16 = 5) ∧
    (decode 0x00000064 = .error .opcode ∧ (0x00000064 : Word).toNat / 16 % 16 = 6) ∧
    (decode 0x00000401 = .error .zeroField ∧ (0x00000401 : Word).toNat / 16 % 16 = 0) ∧
    (decode 0x00000070 = .error .opcode ∧ (0x00000070 : Word).toNat / 16 % 16 = 7) ∧
    (decode 0xFFFFFFFF = .error .opcode ∧ (0xFFFFFFFF : Word).toNat / 16 % 16 = 15) :=
  ⟨⟨rfl, by decide⟩, ⟨rfl, by decide⟩, ⟨rfl, by decide⟩, ⟨rfl, by decide⟩, ⟨rfl, by decide⟩, ⟨rfl, by decide⟩⟩

theorem witness_EveryStepAnswersNext : (onlyEnc open8).bus = [] := by rfl

theorem witness_RaiseRecordsTheFirstFault :
    ((onlyEnc open8).enc.flags.efault = false ∧ (onlyEnc open8).dec.flags.dfault = false) ∧
    bothFaulted.enc.flags.efault = true ∧ bothFaulted.dec.flags.dfault = true := by decide

theorem witness_FaultedContextIsStuckUntilReset :
    bothFaulted.enc.flags.efault = true ∧ bothFaulted.dec.flags.dfault = true ∧
    owner .cfg = .encoder ∧ owner .final = .encoder ∧ owner .dinit = .decoder ∧ owner .dflush = .decoder := by decide

theorem witness_PreamblesComeFirst :
    (bothFaulted.enc.flags.efault = true ∧ bothFaulted.dec.flags.dfault = true) ∧
    State.reset.enc.flags.efault = false ∧ State.reset.enc.flags.cfgok = false ∧ owner .hclr = .encoder ∧
    Instr.hclr ≠ .cfg ∧ State.reset.dec.flags.dfault = false ∧ State.reset.dec.flags.dok = false ∧
    owner .dflush = .decoder ∧ Instr.dflush ≠ .dinit := by decide

theorem witness_ContextsAreIndependent :
    owner .scan = .encoder ∧ owner .dflush = .decoder ∧
    (∃ t, exec .scan { onlyEnc open8 with dec := dec16 } = .next t ∧ ∃ v, exec .dflush t = .next v) ∧
    ∃ u, exec .dflush { onlyEnc open8 with dec := dec16 } = .next u :=
  ⟨by decide, by decide, ⟨_, rfl, ⟨_, rfl⟩⟩, ⟨_, rfl⟩⟩

theorem witness_UnitCommandFaultsArePrecise :
    (∃ t, exec .seek { enc := open8, arg0 := 25 } = .next t ∧ t.enc.flags.efault = true) ∧
    (open8.flags.efault = false) ∧
    (∃ t, exec (.hupd 255 255) State.reset = .next t ∧ t.enc.flags.efault = true) ∧
    ∃ t, exec .dinit (onlyDec {} 16 17) = .next t ∧ t.dec.flags.dfault = true ∧
      (onlyDec {} 16 17).dec.flags.dfault = false :=
  ⟨⟨_, rfl, by decide⟩, by decide, ⟨_, rfl, by decide⟩, ⟨_, rfl, by decide, by decide⟩⟩

theorem witness_FirstFaultIsKeptUntilReset :
    bothFaulted.enc.flags.efault = true ∧ bothFaulted.dec.flags.dfault = true ∧
    (∃ t, step (pending (.wr 0x3F 0x301) bothFaulted) = .next t) ∧ ∃ t, step (pending (.wr 0 5) bothFaulted) = .next t :=
  ⟨by decide, by decide, ⟨_, rfl⟩, ⟨_, rfl⟩⟩

theorem witness_RegistersAreWrittenByTheirCommandsOnly_operands :
    (∃ t, exec .scan (onlyEnc open8) = .next t) ∧ Instr.scan ≠ .reset 3 := ⟨⟨_, rfl⟩, by decide⟩

theorem witness_ConfigurationIsFixedForTheStream :
    (onlyEnc open8).enc.flags.cfgok = true ∧ ∃ t, step (pending (.wr 0x3F 0x52) (onlyEnc open8)) = .next t :=
  ⟨by decide, ⟨_, rfl⟩⟩

theorem witness_RegistersAreWrittenByTheirCommandsOnly :
    (∃ t, exec .insert (onlyEnc (hashed 2 0x7C85AF32)) = .next t) ∧ Instr.insert ≠ .cfg ∧ Instr.insert ≠ .dinit ∧
    (∀ c, Instr.insert ≠ .reset c) ∧
    opcode .insert ∉ ([0x11, 0x12, 0x13, 0x14, 0x50, 0x51, 0x52] : List Byte) ∧
    opcode .hclr ∉ ([0x61, 0x62, 0x63] : List Byte) ∧ (∀ c, Instr.cfg ≠ .reset c) ∧
    (after .insert (onlyEnc (hashed 2 0x7C85AF32))).enc.flags.efault = false ∧
    opcode .insert ∉ ([0x11, 0x12, 0x13, 0x14, 0x22, 0x30, 0x31, 0x42, 0x50, 0x51, 0x52, 0x53, 0x54] : List Byte) ∧
    Instr.insert ≠ .bounds ∧ Instr.insert ≠ .extb ∧ Instr.insert ≠ .extf :=
  ⟨⟨_, rfl⟩, by decide, by decide, by simp, by decide, by decide, by simp, by decide +kernel, by decide, by decide,
    by decide, by decide⟩

theorem witness_MemoriesAndPortsChangeOnlyByTheirCommands :
    (∃ t, exec .insert (onlyEnc (hashed 2 0x7C85AF32)) = .next t) ∧
    opcode .insert ∉ ([0x01, 0x10, 0x30] : List Byte) ∧
    opcode .fill ∉ ([0x01, 0x10, 0x20, 0x21, 0x50, 0x51, 0x52] : List Byte) ∧
    opcode .dflush ∉ ([0x01, 0x60, 0x61, 0x62] : List Byte) ∧ opcode .rdlit ∉ ([0x30] : List Byte) ∧
    opcode .dmatch ∉ ([0x61] : List Byte) ∧ opcode (.reset 3) ∉ ([0x33] : List Byte) :=
  ⟨⟨_, rfl⟩, by decide, by decide, by decide, by decide, by decide, by decide⟩

theorem witness_DerivedParametersAreLeastAndGreatest :
    (0 : Nat) ≤ 2 ^ 0 ∧ (1 : Nat) ≤ 1 ∧ 2 ^ 1 ≤ Nat.sqrt (2 * 2) ∧ 0 < 1 := ⟨by decide, by decide, by norm_num, by decide⟩

/-- The rows of vector 2.1's fault table, one for each test; then `P8`, and the least `B` a window of 4 admits (its last
row) with capacities that just hold it. -/
theorem witness_CfgValidatesDerivesAndClears :
    (onlyEnc set8).enc.flags.cfgok = true ∧
    (let e := { unset8 with cfgS := 0 }
     e.flags.efault = false ∧ e.flags.cfgok = false ∧ e.cfgS.toNat = 0) ∧
    (let e := { unset8 with cfgS := 9 }
     e.cfgS.toNat ≠ 0 ∧ e.cfgM.toNat < e.cfgS.toNat) ∧
    (let e := { unset8 with cfgA := 0 }
     e.cfgS.toNat ≤ e.cfgM.toNat ∧ e.cfgA.toNat = 0) ∧
    (let e := { unset8 with cfgH := 32 }
     e.cfgA.toNat ≠ 0 ∧ 31 < e.cfgH.toNat) ∧
    (let e := { unset8 with cfgB := 0x80000001, cfgH := 31 }
     e.cfgA.toNat ≠ 0 ∧ e.cfgH.toNat ≤ 31 ∧ 2 ^ 31 < e.cfgB.toNat) ∧
    (let e := { unset8 with cfgB := 7 }
     e.cfgB.toNat ≤ 2 ^ 31 ∧ e.cfgB.toNat < 2 * windowLen e.cfgS.toNat) ∧
    (2 * windowLen unset8.cfgS.toNat ≤ unset8.cfgB.toNat ∧ 63 < unset8.cfgB.toNat ∧ unset8.cfgB.toNat ≤ 64 ∧
      255 < tableSize unset8.cfgB.toNat unset8.cfgH.toNat (subsample (windowLen unset8.cfgS.toNat))) ∧
    (∀ s ∈ [onlyEnc unset8,
        { onlyEnc { unset8 with cfgB := 8, cfgH := 0 } with caps := ⟨8, 1, 0, 0, 0⟩ }],
      s.enc.flags.efault = false ∧ s.enc.flags.cfgok = false ∧ s.enc.cfgS.toNat ≠ 0 ∧
      s.enc.cfgS.toNat ≤ s.enc.cfgM.toNat ∧ s.enc.cfgA.toNat ≠ 0 ∧ s.enc.cfgH.toNat ≤ 31 ∧ s.enc.cfgB.toNat ≤ 2 ^ 31 ∧
      2 * windowLen s.enc.cfgS.toNat ≤ s.enc.cfgB.toNat ∧ s.enc.cfgB.toNat ≤ s.caps.bufCap ∧
      tableSize s.enc.cfgB.toNat s.enc.cfgH.toNat (subsample (windowLen s.enc.cfgS.toNat)) ≤ s.caps.htCap) := by
  decide +kernel

theorem witness_HclrAndHupdSetTheHash : EncReady (onlyEnc set8) ∧ (255 : Nat) < 256 := by decide

theorem witness_HinitHashesTheWindow :
    let filled := fun (e : Enc) => e.base.toNat + e.size.toNat
    (let e := { open8 with i := 21 }
     EncReady (onlyEnc e) ∧ filled e < e.i.toNat + e.drvL.toNat) ∧
    (let e := { open8 with i := 20 }
     EncReady (onlyEnc e) ∧ e.i.toNat + e.drvL.toNat ≤ filled e ∧
       ([0x31, 0x32, 0x33, 0x34] : List Byte).length = e.drvL.toNat ∧ BytesAt e.buf e.i.toNat [0x31, 0x32, 0x33, 0x34]) ∧
    (let e := { open8 with buf := [(0, 0x61)] }
     EncReady (onlyEnc e) ∧ e.i.toNat + e.drvL.toNat ≤ filled e ∧ 1 < e.drvL.toNat ∧
       (∀ u, u < 1 → (e.buf.read (e.i.toNat + u)).isSome) ∧ e.buf.read (e.i.toNat + 1) = none) := by decide +kernel

theorem witness_HrollSlidesTheWindow :
    let filled := fun (e : Enc) => e.base.toNat + e.size.toNat
    (EncReady (onlyEnc open8) ∧ open8.flags.hvalid = false) ∧
    (let e := hashed 20 0x556CBB92
     e.flags.hvalid = true ∧ filled e ≤ e.i.toNat + e.drvL.toNat) ∧
    (let e := { hashed 19 0x0CF67942 with buf := [] }
     e.i.toNat + e.drvL.toNat < filled e ∧ e.buf.read e.i.toNat = none) ∧
    (let e := { hashed 0 0 with buf := [(0, 0x61)] }
     e.buf.read e.i.toNat = some 0x61 ∧ e.buf.read (e.i.toNat + e.drvL.toNat) = none) ∧
    (let e := hashed 19 0x0CF67942
     e.flags.hvalid = true ∧ e.i.toNat + e.drvL.toNat < filled e ∧ e.buf.read e.i.toNat = some 0x30 ∧
       e.buf.read (e.i.toNat + e.drvL.toNat) = some 0x34 ∧ ([0x31, 0x32, 0x33] : List Byte).length + 1 = e.drvL.toNat ∧
       e.hash = polyhash [0x30, 0x31, 0x32, 0x33] ∧ e.drvPL = wordOf (153191 ^ e.drvL.toNat)) := by decide +kernel

theorem witness_HtclrEmptiesEverySlot : EncReady (onlyEnc { set8 with ht := [(2, 3)] }) := by decide

theorem witness_InsertRecordsTheAnchor :
    EncReady (onlyEnc open8) ∧ open8.ht.wf ∧ open8.flags.hvalid = false ∧
    (let e := hashed 1 0x340F6CE2
     e.flags.hvalid = true ∧ e.i &&& e.drvKmask ≠ 0) ∧
    (let e := { hashed 2 0x7C85AF32 with ht := [(0x32, 7)] }
     EncReady (onlyEnc e) ∧ e.ht.wf ∧ e.flags.hvalid = true ∧ e.i &&& e.drvKmask = 0) := by decide

theorem witness_ProbeAnswersTheSlot :
    let slotWord := fun (e : Enc) => e.ht.read (e.hash &&& e.drvHmask).toNat
    (EncReady (onlyEnc open8) ∧ open8.flags.hvalid = false) ∧
    (let e := { hashed 6 0x9E4C0532 with ht := [(0x32, 3)] }
     EncReady (onlyEnc e) ∧ e.flags.hvalid = true ∧ slotWord e ≠ 0 ∧
       slotWord e &&& e.drvKmask = (e.hash >>> 28) &&& e.drvKmask) ∧
    (hashed 6 0x9E4C0532).ht.read ((hashed 6 0x9E4C0532).hash &&& 255).toNat = 0 ∧
    (let e := { hashed 0 0xEB992A92 with ht := [(0x92, 3)] }
     slotWord e &&& e.drvKmask ≠ (e.hash >>> 28) &&& e.drvKmask) := by decide

theorem witness_ProbeFindsTheAnchorJustInserted :
    (let e := hashed 2 0x7C85AF32
     EncReady (onlyEnc e) ∧ e.ht.wf ∧ e.flags.hvalid = true ∧ e.i &&& e.drvKmask = 0 ∧ e.i ≠ 0) ∧
    (let e := hashed 0 0xEB992A92
     e.flags.hvalid = true ∧ e.i = 0 ∧ (e.hash >>> 28) &&& e.drvKmask = 0) := by decide

theorem witness_FillAppendsTheBytesOfOneRead :
    (EncReady (onlyEnc open8) ∧ open8.flags.cycopen = true) ∧
    (let e := { set8 with flags := { cfgok := true, final := true } }
     EncReady (onlyEnc e) ∧ e.flags.final = true) ∧
    (EncReady (onlyEnc set8) ∧ set8.flags.cycopen = false ∧ set8.flags.final = false ∧ (0xFFFFFFFF : Word) = 0xFFFFFFFF) ∧
    ((0 : Word) ≠ 0xFFFFFFFF ∧ (0 : Word).toNat = 0) ∧
    ((65 : Word) ≠ 0xFFFFFFFF ∧ set8.cfgB.toNat < set8.base.toNat + (65 : Word).toNat) ∧
    (let e := { set8 with base := 40 }
     (24 : Word) ≠ 0xFFFFFFFF ∧ (24 : Word).toNat ≠ 0 ∧ e.base.toNat + (24 : Word).toNat ≤ e.cfgB.toNat ∧
       (24 : Word).toNat ≤ textT.length) := by decide

theorem witness_SeekSetsTheCursor :
    EncReady (onlyEnc open8) ∧ open8.base.toNat + open8.size.toNat < (25 : Word).toNat ∧
    (24 : Word).toNat ≤ open8.base.toNat + open8.size.toNat := by decide

/-- Vector 2.4, rows 2, 4, 6, 9 and 10 and the two `State` cases. -/
theorem witness_BoundsRejectsOrComputesTheRange :
    let bs := fun (e : Enc) => e.base.toNat + e.size.toNat
    let lap := fun (i m : Word) => { hitAt i m with cfgB := 256, base := 32, size := 32 }
    (EncReady (onlyEnc open8) ∧ open8.flags.hit = false) ∧
    (let e := { hitAt 10 2 with lastMatch := 11 }
     EncReady (onlyEnc e) ∧ e.i.toNat < e.lastMatch.toNat) ∧
    (∀ e ∈ [hitAt 1 2, hitAt 8 8, lap 40 63], EncReady (onlyEnc e) ∧ e.flags.hit = true ∧
      e.lastMatch.toNat ≤ e.i.toNat ∧ e.i.toNat ≤ e.cand.toNat ∧ e.cand.toNat < bs e) ∧
    (∀ e ∈ [hitAt 10 2, hitAt 10 9], EncReady (onlyEnc e) ∧ e.flags.hit = true ∧ e.lastMatch.toNat ≤ e.i.toNat ∧
      e.cand.toNat < e.i.toNat) ∧
    (∀ e ∈ [lap 56 156, lap 56 121], EncReady (onlyEnc e) ∧ e.flags.hit = true ∧ e.lastMatch.toNat ≤ e.i.toNat ∧
      e.i.toNat ≤ e.cand.toNat ∧ bs e ≤ e.cand.toNat ∧ e.i.toNat < e.cand.toNat - bs e) ∧
    (∀ e ∈ [lap 40 64, lap 36 100], EncReady (onlyEnc e) ∧ e.flags.hit = true ∧ e.lastMatch.toNat ≤ e.i.toNat ∧
      e.i.toNat ≤ e.cand.toNat ∧ bs e ≤ e.cand.toNat ∧ e.cand.toNat - bs e ≤ e.i.toNat) := by decide +kernel

theorem witness_RdlitHandsOutOneRun :
    EncReady (onlyEnc open8) ∧
    open8.cfgB.toNat < (60 : Word).toNat + (5 : Word).toNat ∧
    (64 : Word).toNat + (0 : Word).toNat ≤ open8.cfgB.toNat ∧
    ((20 : Word).toNat + (8 : Word).toNat ≤ open8.cfgB.toNat ∧ 4 < (8 : Word).toNat ∧
      (∀ u, u < 4 → (open8.buf.read (20 + u)).isSome) ∧ open8.buf.read (20 + 4) = none) ∧
    ((20 : Word).toNat + (4 : Word).toNat ≤ open8.cfgB.toNat ∧ (4 : Word).toNat ≠ 0 ∧
      ([0x31, 0x32, 0x33, 0x34] : List Byte).length = (4 : Word).toNat ∧
      BytesAt open8.buf 20 [0x31, 0x32, 0x33, 0x34]) ∧
    (([0x7FFFFFFF] : List Word).headD 0).toNat < 2 ^ 31 ∧ 2 ^ 31 ≤ (([0x80000000] : List Word).headD 0).toNat := by
  decide +kernel

/-- `bounded10` (vector 2.5 row 1): the bound is reached from 10 down to 8; from 6 the pair at 5 differs (row 4); with
fewer bytes held each side is the one with no value; and with `LAST_MATCH` at I nothing is compared. -/
theorem witness_ExtbFindsTheStartOfTheMatch :
    let lo := fun (e : Enc) => max e.lastMatch.toNat e.lowb.toNat
    let equalFrom := fun (e : Enc) (p : Nat) => ∀ q, q < e.i.toNat → p ≤ q →
      (e.buf.read q).isSome ∧ e.buf.read q = e.buf.read (e.cand.toNat - (e.i.toNat - q))
    (EncReady (onlyEnc open8) ∧ open8.flags.bvalid = false) ∧
    (let e := { bounded10 with lastMatch := 10 }
     EncReady (onlyEnc e) ∧ e.flags.bvalid = true ∧ e.i.toNat ≤ lo e) ∧
    (lo bounded10 ≤ bounded10.i.toNat ∧ equalFrom bounded10 (lo bounded10)) ∧
    (let e := { bounded10 with i := 6, lowb := 4 }
     lo e < 6 ∧ 6 ≤ e.i.toNat ∧ equalFrom e 6 ∧ e.buf.read 5 = some 0x66 ∧
       e.buf.read (e.cand.toNat - (e.i.toNat - 5)) = some 0x62) ∧
    (let e := { bounded10 with buf := [(0, 0x61), (1, 0x62), (9, 0x62)] }
     lo e < 9 ∧ equalFrom e 9 ∧ e.buf.read 8 = none) ∧
    (let e := { bounded10 with buf := [(1, 0x62), (8, 0x61), (9, 0x62)] }
     lo e < 9 ∧ equalFrom e 9 ∧ e.buf.read 8 = some 0x61 ∧ e.buf.read (e.cand.toNat - (e.i.toNat - 8)) = none) := by
  decide +kernel

/-- `bounded10`: the pair at 16 differs; with HIGHB 16 the bound is reached; with fewer bytes held each side is the one
with no value; and with HIGHB at I nothing is compared. -/
theorem witness_ExtfFindsTheEndOfTheMatch :
    let hi := fun (e : Enc) => min (e.base.toNat + e.size.toNat) e.highb.toNat
    let equalTo := fun (e : Enc) (q : Nat) => ∀ p, p < q → e.i.toNat ≤ p →
      (e.buf.read p).isSome ∧ e.buf.read p = e.buf.read (e.cand.toNat + (p - e.i.toNat))
    (EncReady (onlyEnc open8) ∧ open8.flags.bvalid = false) ∧
    (let e := { bounded10 with highb := 10 }
     EncReady (onlyEnc e) ∧ e.flags.bvalid = true ∧ hi e ≤ e.i.toNat) ∧
    (let e := { bounded10 with highb := 16 }
     e.i.toNat ≤ hi e ∧ equalTo e (hi e)) ∧
    (bounded10.i.toNat ≤ 16 ∧ 16 < hi bounded10 ∧ equalTo bounded10 16 ∧ bounded10.buf.read 16 = some 0x58 ∧
      bounded10.buf.read (bounded10.cand.toNat + (16 - bounded10.i.toNat)) = some 0x61) ∧
    (let e := { bounded10 with buf := [(2, 0x63), (3, 0x64), (10, 0x63)] }
     11 < hi e ∧ equalTo e 11 ∧ e.buf.read 11 = none) ∧
    (let e := { bounded10 with buf := [(2, 0x63), (10, 0x63), (11, 0x64)] }
     11 < hi e ∧ equalTo e 11 ∧ e.buf.read 11 = some 0x64 ∧ e.buf.read (e.cand.toNat + (11 - e.i.toNat)) = none) := by
  decide +kernel

theorem witness_CommitTestsAndStagesTheExtent :
    let required := fun (e : Enc) => if e.dist.toNat < e.cfgD.toNat then e.cfgM.toNat else e.cfgS.toNat
    let full := fun (recCap : Nat) (e : Enc) => e.nrec.toNat = recCap ∨ recCap ≤ e.dataOffsets.length ∨
      recCap ≤ e.datalens.length ∨ recCap ≤ e.offsets.length ∨ recCap ≤ e.lens.length
    (EncReady (onlyEnc bounded10) ∧ bounded10.flags.evalid = false) ∧
    (let e := { extended10 with cfgM := 9 }
     EncReady (onlyEnc e) ∧ e.flags.svalid = true ∧ e.flags.evalid = true ∧
       e.mend.toNat - e.mstart.toNat < required e) ∧
    (required extended10 ≤ extended10.mend.toNat - extended10.mstart.toNat ∧ full 0 extended10) ∧
    (required extended10 ≤ extended10.mend.toNat - extended10.mstart.toNat ∧ ¬ full 1 extended10) := by decide

theorem witness_StepEqualsTheUnitCommands :
    let filled := fun (e : Enc) => e.base.toNat + e.size.toNat
    (EncReady (onlyEnc open8) ∧ open8.flags.hvalid = false) ∧
    (let e := hashed 20 0x556CBB92
     EncReady (onlyEnc e) ∧ e.flags.hvalid = true ∧ filled e ≤ e.i.toNat + e.drvL.toNat) ∧
    (let e := hashed 19 0x0CF67942
     EncReady (onlyEnc e) ∧ e.flags.hvalid = true ∧ e.i.toNat + e.drvL.toNat < filled e) := by decide

theorem witness_EndcycClosesTheCycle :
    let filled := fun (e : Enc) => e.base.toNat + e.size.toNat
    let full := fun (recCap : Nat) (e : Enc) =>
      e.nrec.toNat = recCap ∨ recCap ≤ e.dataOffsets.length ∨ recCap ≤ e.datalens.length
    (EncReady (onlyEnc set8) ∧ set8.flags.cycopen = false) ∧
    (EncReady (onlyEnc open8) ∧ open8.flags.cycopen = true ∧ full 0 open8) ∧
    (EncReady (onlyEnc open8) ∧ open8.flags.cycopen = true ∧ ¬ full 1 open8 ∧ filled open8 ≠ open8.cfgB.toNat) ∧
    (let e := { open8 with cfgB := 24 }
     EncReady (onlyEnc e) ∧ e.flags.cycopen = true ∧ ¬ full 1 e ∧ filled e = e.cfgB.toNat) := by decide

theorem witness_FinalStagesTheTail :
    (EncReady (onlyEnc open8) ∧ open8.flags.cycopen = true) ∧
    (let e := { set8 with flags := { cfgok := true, final := true } }
     EncReady (onlyEnc e) ∧ e.flags.final = true) ∧
    (EncReady (onlyEnc set8) ∧ set8.flags.cycopen = false ∧ set8.flags.final = false) ∧
    ({ onlyEnc set8 with caps := ⟨0, 0, 0, 0, 0⟩ } : State).caps.recCap = 0 ∧ (onlyEnc set8).caps.recCap ≠ 0 := by decide

/-- Vector 2.10 row 6 and the capacities at their edges. -/
theorem witness_DinitSetsTheDecoderUp :
    (dec16.flags.dfault = false ∧ dec16.flags.dok = true) ∧
    (({} : Dec).flags.dfault = false ∧ ({} : Dec).flags.dok = false) ∧
    (0 : Word).toNat = 0 ∧ 2 ^ 31 < (0x80000001 : Word).toNat ∧
    ((16 : Word).toNat ≠ 0 ∧ (16 : Word).toNat ≤ 2 ^ 31 ∧ (16 : Word).toNat < (17 : Word).toNat) ∧
    ((16 : Word).toNat ≤ 2 ^ 31 ∧ (10 : Word).toNat ≠ 0 ∧ (10 : Word).toNat ≤ (16 : Word).toNat) ∧
    9 < (10 : Word).toNat ∧ (10 : Word).toNat ≤ 10 ∧ 5 < (16 : Word).toNat - (10 : Word).toNat ∧
    (16 : Word).toNat - (10 : Word).toNat ≤ 6 := by decide

/-! ### Witnesses of the invariants -/

theorem exec_scan (s : State) : exec .scan s = .next (after .scan s) := by rfl
theorem exec_dlit (s : State) : exec .dlit s = .next (after .dlit s) := by rfl
theorem exec_dmatch (s : State) : exec .dmatch s = .next (after .dmatch s) := by rfl
theorem exec_cfg (s : State) : exec .cfg s = .next (after .cfg s) := by rfl
theorem step_scan (s : State) : step (pending (.wr 0x3F 0x52) s) = .next (after .scan { s with bus := [] }) := by rfl

/-- A candidate in the previous lap: `S = M = 1`, `B = 4`, one byte of the second lap read. -/
def lapped4 : Enc where
  cfgB := 4
  cfgM := 1
  cfgS := 1
  cfgA := 1
  drvL := 1
  drvK := 1
  drvTest := 1
  drvHsize := 1
  drvHmask := 0
  drvKmask := 0
  drvPL := 0x00025667
  hash := 0x61
  size := 1
  cand := 3
  lowb := 0
  highb := 1
  dist := 1
  buf := [(0, 0x61), (1, 0x62), (2, 0x63), (3, 0x61)]
  ht := [(0, 3)]
  flags := { cfgok := true, hvalid := true, hit := true, bvalid := true, lapped := true, cycopen := true }

/-- The hash of a window that stands in the buffer is that of the bytes there. -/
theorem windowHash_of (m : Memory) (p : Nat) (h : Word) (cs : List Byte) (hc : BytesAt m p cs)
    (hh : h = polyhash cs) (bs : List Byte) (hl : bs.length = cs.length) (hb : BytesAt m p bs) : h = polyhash bs := by
  rw [hh, Memory.bytes_unique m p cs bs hl hc hb]

theorem witness_config8 : EncConfigured set8 := by constructor <;> decide +kernel

/-- The parameters alone decide `EncConfigured`. -/
theorem config_of_set8 (e : Enc) (h : (e.cfgB, e.cfgM, e.cfgS, e.cfgA, e.cfgH) = (64, 8, 8, 1, 8))
    (d : (e.drvL, e.drvK, e.drvTest, e.drvHsize, e.drvHmask, e.drvKmask, e.drvPL) = (4, 2, 2, 256, 255, 1, 0x1E054BE1)) :
    EncConfigured e := by
  simp only [Prod.mk.injEq] at h d
  obtain ⟨hB, hM, hS, hA, hH⟩ := h
  obtain ⟨dL, dK, dT, dS, dM, dC, dP⟩ := d
  have w := witness_config8
  constructor
  · rw [hS]; exact w.sPos
  · rw [hS, hM]
  · rw [hA]; exact w.aPos
  · rw [hH]; exact w.hLe
  · rw [hB]; exact w.bLe
  · rw [hS, hB]; exact w.bGe
  · rw [dL, hS]; exact w.windowLength
  · rw [dK, hS]; exact w.factor
  · rw [dT, hS, hA]; exact w.probes
  · rw [dS, hB, hS, hH]; exact w.slots
  · rw [dM, dS]; exact w.slotMask
  · rw [dC, dK]; exact w.chksumMask
  · rw [dP, hS]; exact w.dropMult

/-- After CFG, before the first FILL. -/
theorem witness_inv_configured (recCap : Nat) : EncInv recCap set8 where
  config := witness_config8
  cursors := by constructor <;> decide
  hash := { windowRead := by decide
            windowHash := fun h => by simp [set8] at h
            anchors := by decide
            anchorsFirstLap := by decide }
  candidate := by constructor <;> decide
  staging := { lensCount := by decide, offsetsCount := by decide, sameRuns := by decide, openRuns := by decide
               closedRuns := by decide, recordsFit := Nat.zero_le _, runsFit := Nat.zero_le _
               chain := ⟨0, by constructor <;> simp [set8, unset8]⟩
               recordCount := by decide }
  buffer := { bound := by decide, held := by decide }

/-- No record staged yet in an open cycle. -/
theorem staging_empty (recCap : Nat) (e : Enc) (h : e.flags.cycopen = true) (hn : e.nrec = 0)
    (ha : (e.lens, e.offsets, e.datalens, e.dataOffsets) = ([], [], [], [])) : EncStaging recCap e := by
  simp only [Prod.mk.injEq] at ha
  obtain ⟨h1, h2, h3, h4⟩ := ha
  have hc : EncChain 0 e := by constructor <;> simp [hn, h4]
  exact { lensCount := by simp [hn, h1], offsetsCount := by simp [hn, h2], sameRuns := by simp [h3, h4]
          openRuns := by simp [hn, h3], closedRuns := by simp [h], recordsFit := by simp [hn], runsFit := by simp [h3]
          chain := ⟨0, hc⟩, recordCount := by simp [hn] }

/-- A cycle open, nothing scanned: the state SCAN starts from. -/
theorem witness_inv_open (recCap : Nat) : EncInv recCap open8 where
  config := config_of_set8 _ rfl rfl
  cursors := by constructor <;> decide
  hash := { windowRead := by decide
            windowHash := fun h => by simp [open8] at h
            anchors := by decide
            anchorsFirstLap := by decide }
  candidate := by constructor <;> decide
  staging := staging_empty recCap _ rfl rfl rfl
  buffer := { bound := by decide +kernel, held := by decide +kernel }

/-- The hash valid at 12 and the anchor 4 in the table: the STEP here emits. -/
def mid12 : Enc := { hashed 12 0x0D7233D2 with ht := [(0xD2, 4)] }

theorem witness_inv_mid12 (recCap : Nat) : EncInv recCap mid12 where
  config := config_of_set8 _ rfl rfl
  cursors := by constructor <;> decide
  hash := { windowRead := by decide
            windowHash := fun _ => windowHash_of _ _ _ [0x65, 0x66, 0x67, 0x68] (by decide +kernel) (by decide +kernel)
            anchors := by decide
            anchorsFirstLap := by decide }
  candidate := by constructor <;> decide
  staging := staging_empty recCap _ rfl rfl rfl
  buffer := { bound := by decide +kernel, held := by decide +kernel }

/-- After that STEP: I inside the staged match. -/
def inside13 : Enc := { hashed 13 0x55E87611 with
  lastMatch := 16, nrec := 1, lens := [8], offsets := [8], datalens := [8], dataOffsets := [0], ht := [(0xD2, 0xC)] }

theorem witness_chain_inside13 : EncChain 1 inside13 where
  bound := by decide
  openAll := by decide
  emptyAll := by decide
  adjacent := fun r h => by
    have h1 : r + 1 < 1 := h
    omega
  reaches := fun _ r h => by
    have h1 : r + 1 = 1 := h
    have h0 : r = 0 := by omega
    subst h0
    rfl

theorem witness_inv_inside13 (recCap : Nat) (hr : 1 ≤ recCap) : EncInv recCap inside13 where
  config := config_of_set8 _ rfl rfl
  cursors := by constructor <;> decide
  hash := { windowRead := by decide
            windowHash := fun _ => windowHash_of _ _ _ [0x66, 0x67, 0x68, 0x58] (by decide +kernel) (by decide +kernel)
            anchors := by decide
            anchorsFirstLap := by decide }
  candidate := by constructor <;> decide
  staging := { lensCount := by decide, offsetsCount := by decide, sameRuns := by decide, openRuns := by decide
               closedRuns := by decide, recordsFit := hr, runsFit := hr
               chain := ⟨1, witness_chain_inside13⟩
               recordCount := by decide }
  buffer := { bound := by decide +kernel, held := by decide +kernel }

/-- One byte fewer read, the cursor in the last block: SKIP cannot reach the next multiple of `L`. -/
def short19 : Enc := { hashed 19 0x0CF67942 with size := 23, buf := Memory.writeRun [] 0 (textT.take 23) }

theorem witness_inv_short19 (recCap : Nat) : EncInv recCap short19 where
  config := config_of_set8 _ rfl rfl
  cursors := by constructor <;> decide
  hash := { windowRead := by decide
            windowHash := fun _ => windowHash_of _ _ _ [0x30, 0x31, 0x32, 0x33] (by decide +kernel) (by decide +kernel)
            anchors := by decide
            anchorsFirstLap := by decide }
  candidate := by constructor <;> decide
  staging := staging_empty recCap _ rfl rfl rfl
  buffer := { bound := by decide +kernel, held := by decide +kernel }

/-- An accepted candidate below the cursor. -/
theorem witness_inv_bounded10 (recCap : Nat) : EncInv recCap bounded10 where
  config := config_of_set8 _ rfl rfl
  cursors := by constructor <;> decide
  hash := { windowRead := by decide
            windowHash := fun _ => windowHash_of _ _ _ [0x63, 0x64, 0x65, 0x66] (by decide +kernel) (by decide +kernel)
            anchors := by decide
            anchorsFirstLap := by decide }
  candidate := by constructor <;> decide
  staging := staging_empty recCap _ rfl rfl rfl
  buffer := { bound := by decide +kernel, held := by decide +kernel }

/-- An accepted candidate in the previous lap. -/
theorem witness_inv_lapped4 (recCap : Nat) : EncInv recCap lapped4 where
  config := by constructor <;> decide +kernel
  cursors := by constructor <;> decide
  hash := { windowRead := by decide
            windowHash := fun _ => windowHash_of _ _ _ [0x61] (by decide +kernel) (by decide +kernel)
            anchors := by decide
            anchorsFirstLap := by decide }
  candidate := by constructor <;> decide
  staging := staging_empty recCap _ rfl rfl rfl
  buffer := { bound := by decide, held := by decide }

theorem witness_BoundsKeepEveryComparedByteReadable :
    (EncReady (onlyEnc bounded10) ∧ EncInv (onlyEnc bounded10).caps.recCap bounded10 ∧ bounded10.flags.bvalid = true ∧
      max bounded10.lastMatch.toNat bounded10.lowb.toNat ≤ 8 ∧ 9 < bounded10.i.toNat ∧
      bounded10.i.toNat ≤ 23 ∧ 23 < min (bounded10.base.toNat + bounded10.size.toNat) bounded10.highb.toNat) ∧
    (EncReady (onlyEnc lapped4) ∧ EncInv (onlyEnc lapped4).caps.recCap lapped4 ∧ lapped4.flags.bvalid = true ∧
      lapped4.i.toNat < lapped4.cand.toNat) :=
  ⟨⟨by decide, witness_inv_bounded10 _, by decide⟩, ⟨by decide, witness_inv_lapped4 _, by decide⟩⟩

theorem witness_StepAdvancesOneByte :
    (∀ e ∈ [mid12, inside13], EncReady (onlyEnc e) ∧ e.flags.hvalid = true ∧
      e.i.toNat + e.drvL.toNat < e.base.toNat + e.size.toNat) ∧
    (∀ e ∈ [mid12, inside13], e.dataOffsets.length < 2) ∧
    EncInv 2 mid12 ∧ EncInv 2 inside13 ∧ inside13.i.toNat < inside13.lastMatch.toNat :=
  ⟨by decide, by decide, witness_inv_mid12 _, witness_inv_inside13 _ (by decide), by decide⟩

/-- The cursor at a multiple of `k` whose window ends at the last byte read: SKIP runs INSERT, and then HROLL raises
`Range` (log entry 20). -/
def edge18 : Enc := { hashed 18 0 with
  hash := polyhash [0x5A, 0x30, 0x31, 0x32], size := 22, buf := Memory.writeRun [] 0 (textT.take 22) }

theorem witness_inv_edge18 (recCap : Nat) : EncInv recCap edge18 where
  config := config_of_set8 _ rfl rfl
  cursors := by constructor <;> decide
  hash := { windowRead := by decide
            windowHash := fun _ => windowHash_of _ _ _ [0x5A, 0x30, 0x31, 0x32] (by decide +kernel) rfl
            anchors := by decide
            anchorsFirstLap := by decide }
  candidate := by constructor <;> decide
  staging := staging_empty recCap _ rfl rfl rfl
  buffer := { bound := by decide +kernel, held := by decide +kernel }

theorem witness_SkipReachesTheNextBlock_insert_then_range :
    EncReady (onlyEnc edge18) ∧ EncInv (onlyEnc edge18).caps.recCap edge18 ∧ edge18.flags.hvalid = true ∧
    edge18.i.toNat % edge18.drvL.toNat ≠ 0 ∧ edge18.i &&& edge18.drvKmask = 0 ∧
    (let t := after .skip (onlyEnc edge18)
     t.enc.flags.efault = true ∧ t.enc.eerr = Exn.range.code ∧ t.enc.i = 18 ∧ t.enc.ht ≠ edge18.ht) :=
  ⟨by decide, witness_inv_edge18 _, by decide, by decide, by decide, by decide +kernel⟩

theorem witness_SkipReachesTheNextBlock :
    (EncReady (onlyEnc open8) ∧ EncInv (onlyEnc open8).caps.recCap open8 ∧ open8.flags.hvalid = false) ∧
    (EncReady (onlyEnc inside13) ∧ EncInv 1 inside13 ∧ inside13.flags.hvalid = true ∧
      (inside13.i.toNat + 4 - 1) / 4 * 4 + 4 ≤ 24) ∧
    (EncReady (onlyEnc short19) ∧ EncInv (onlyEnc short19).caps.recCap short19 ∧ short19.flags.hvalid = true ∧
      short19.base.toNat + short19.size.toNat < (short19.i.toNat + 4 - 1) / 4 * 4 + 4) :=
  ⟨⟨by decide, witness_inv_open _, by decide⟩,
    ⟨by decide, witness_inv_inside13 _ (by decide), by decide, by decide⟩,
    ⟨by decide, witness_inv_short19 _, by decide, by decide⟩⟩

/-- The two branches of SKIP: at a multiple of `L`, and elsewhere. -/
theorem witness_SkipReachesTheNextBlock_branches :
    (EncReady (onlyEnc mid12) ∧ EncInv (onlyEnc mid12).caps.recCap mid12 ∧ mid12.flags.hvalid = true ∧
      mid12.i.toNat % mid12.drvL.toNat = 0) ∧
    inside13.flags.hvalid = true ∧ inside13.i.toNat % inside13.drvL.toNat ≠ 0 :=
  ⟨⟨by decide, witness_inv_mid12 _, by decide, by decide⟩, by decide, by decide⟩

/-- `open8` with a capacity of exactly its 24 bytes. -/
theorem witness_ScanRunsToTheMargin :
    let s : State := { onlyEnc open8 with caps := ⟨64, 256, 24, 0, 0⟩ }
    EncReady s ∧ EncInv s.caps.recCap s.enc ∧ s.enc.flags.cycopen = true ∧
    s.enc.base.toNat + s.enc.size.toNat ≤ s.caps.recCap := ⟨by decide, witness_inv_open _, by decide, by decide⟩

theorem witness_ScanFaultsKeepTheWorkDone :
    (EncReady (onlyEnc set8) ∧ set8.flags.cycopen = false) ∧
    (let s : State := { onlyEnc open8 with caps := ⟨64, 256, 0, 0, 0⟩ }
     EncReady s ∧ s.enc.flags.cycopen = true ∧ EncInv s.caps.recCap s.enc ∧
     ∃ t, exec .scan s = .next t ∧ t.enc.flags.efault = true) :=
  ⟨by decide, by decide, by decide, witness_inv_open _, ⟨_, exec_scan _, by decide +kernel⟩⟩

theorem witness_StagedRecordsObeyTheLengthLaw :
    let s := pending (.wr 0x3F 0x52) (onlyEnc open8)
    EncOK s ∧ (EncReady s → RecordsLegal s.enc) ∧ EncReady s ∧ ∃ t, step s = .next t ∧ EncReady t ∧ t.enc.lens = [8] :=
  ⟨fun _ => witness_inv_open _, fun _ j h => absurd h (Nat.not_lt_zero j), by decide,
    ⟨_, step_scan _, by decide +kernel, by decide +kernel⟩⟩

/-- The step that faults: no room for the record. -/
theorem witness_StagedRecordsObeyTheLengthLaw_fault :
    let s := pending (.wr 0x3F 0x52) { onlyEnc open8 with caps := ⟨64, 256, 0, 0, 0⟩ }
    EncOK s ∧ (EncReady s → RecordsLegal s.enc) ∧ EncReady s ∧ ∃ t, step s = .next t ∧ ¬ EncReady t :=
  ⟨fun _ => witness_inv_open _, fun _ j h => absurd h (Nat.not_lt_zero j), by decide, ⟨_, step_scan _, by decide +kernel⟩⟩

theorem witness_CanonicalMemoriesAreKept :
    let s := pending (.wr 0x3F 0x21) { onlyEnc mid12 with dec := dec8 }
    Canonical s ∧ ∃ t, step s = .next t :=
  ⟨⟨by decide +kernel, by decide, by decide +kernel, by decide⟩, ⟨_, rfl⟩⟩

theorem witness_EncoderInvariantsAreKept :
    let s := pending (.wr 0x3F 0x50) (onlyEnc mid12)
    EncOK s ∧ EncReady s ∧ EncChain s.enc.nrec.toNat s.enc ∧ s.enc.flags.cycopen = true ∧ ∃ t, step s = .next t :=
  ⟨fun _ => witness_inv_mid12 _, by decide, by constructor <;> simp [onlyEnc, pending, mid12, hashed, open8, set8, unset8],
    by decide, ⟨_, rfl⟩⟩

/-- After ENDCYC with one record staged: its two runs form the chain of R70 (g). -/
def closed16 : Enc := { inside13 with
  i := 16, lastI := 16, base := 24, size := 0, datalens := [8, 0], dataOffsets := [0, 16]
  flags := { cfgok := true } }

theorem witness_chain_closed16 : EncChain closed16.nrec.toNat closed16 where
  bound := by decide
  openAll := by decide
  emptyAll := by decide
  adjacent := fun r h => by
    have h1 : r + 1 < 2 := h
    have h0 : r = 0 := by omega
    subst h0
    decide
  reaches := fun _ r h => by
    have h1 : r + 1 = 2 := h
    have h0 : r = 1 := by omega
    subst h0
    decide

theorem witness_inv_closed16 (recCap : Nat) (hr : 2 ≤ recCap) : EncInv recCap closed16 where
  config := config_of_set8 _ rfl rfl
  cursors := by constructor <;> decide
  hash := { windowRead := by decide
            windowHash := fun h => by simp [closed16] at h
            anchors := by decide
            anchorsFirstLap := by decide }
  candidate := by constructor <;> decide
  staging := { lensCount := by decide, offsetsCount := by decide, sameRuns := by decide, openRuns := by decide
               closedRuns := by decide, recordsFit := Nat.le_trans (by decide) hr, runsFit := hr
               chain := ⟨_, witness_chain_closed16⟩
               recordCount := by decide }
  buffer := { bound := by decide +kernel, held := by decide +kernel }

theorem witness_EncoderInvariantsAreKept_closed :
    let s := pending (.wr 0x3F 0x31) (onlyEnc closed16)
    EncOK s ∧ EncReady s ∧ EncChain s.enc.nrec.toNat s.enc ∧ s.enc.flags.cycopen = false ∧
    ∃ t, step s = .next t ∧ t.enc.lens.length ≤ s.enc.lens.length :=
  ⟨fun _ => witness_inv_closed16 _ (by decide), by decide, witness_chain_closed16, by decide, ⟨_, rfl, by decide⟩⟩

/-- No cycle open, after an ENDCYC right after FILL, then SEEK and HINIT at 12: the STEP here emits. -/
def closed12 : Enc := { mid12 with
  base := 24, size := 0, datalens := [0], dataOffsets := [0], flags := { cfgok := true, hvalid := true } }

theorem witness_chain_closed12 : EncChain closed12.nrec.toNat closed12 where
  bound := by decide
  openAll := by decide
  emptyAll := by decide
  adjacent := fun r h => by
    have h1 : r + 1 < 1 := h
    omega
  reaches := fun _ r h => by
    have h1 : r + 1 = 1 := h
    have h0 : r = 0 := by omega
    subst h0
    decide

theorem witness_inv_closed12 (recCap : Nat) (hr : 1 ≤ recCap) : EncInv recCap closed12 where
  config := config_of_set8 _ rfl rfl
  cursors := by constructor <;> decide
  hash := { windowRead := by decide
            windowHash := fun _ => windowHash_of _ _ _ [0x65, 0x66, 0x67, 0x68] (by decide +kernel) (by decide +kernel)
            anchors := by decide
            anchorsFirstLap := by decide }
  candidate := by constructor <;> decide
  staging := { lensCount := by decide, offsetsCount := by decide, sameRuns := by decide, openRuns := by decide
               closedRuns := by decide, recordsFit := Nat.zero_le _, runsFit := hr
               chain := ⟨_, witness_chain_closed12⟩
               recordCount := by decide }
  buffer := { bound := by decide +kernel, held := by decide +kernel }

/-- The state that STEP leaves: its record stands behind the closing run. -/
def beyond13 : Enc := { inside13 with
  base := 24, size := 0, datalens := [0, 8], dataOffsets := [0, 0], flags := { cfgok := true, hvalid := true } }

/-- R241 with R230's pushes: CYCOPEN is no precondition of STEP (R343), and the record goes behind the closing run. -/
theorem test_step_outside_cycle :
    let e := (after .step (onlyEnc closed12)).enc
    closed12.flags.cycopen = false ∧ e.flags.efault = false ∧
    (e.dataOffsets, e.datalens, e.lens, e.offsets) =
      (beyond13.dataOffsets, beyond13.datalens, beyond13.lens, beyond13.offsets) ∧
    (e.nrec, e.lastMatch, e.base, e.size) = (beyond13.nrec, beyond13.lastMatch, beyond13.base, beyond13.size) := by
  decide +kernel

/-- The record stands behind run 1, not run 0: R70 (g) with `c = NREC` fails here, the chain with `c = 0` holds. -/
theorem witness_chain_beyond13 : EncChain 0 beyond13 ∧ ¬ EncChain beyond13.nrec.toNat beyond13 := by
  refine ⟨⟨by decide, by decide, by decide, fun r h => ?_, fun _ r h => ?_⟩, fun h => ?_⟩
  · have h1 : r + 1 < 2 := h
    have h0 : r = 0 := by omega
    subst h0
    decide
  · have h1 : r + 1 = 2 := h
    have h0 : r = 1 := by omega
    subst h0
    decide
  · exact absurd (h.adjacent 0 (by decide)) (by decide)

/-! ### Witnesses of the decoder -/

theorem witness_inv_dec8 : DecInv dec8 := by constructor <;> decide +kernel

/-- The same ring with the split at 16: a single segment. -/
def dec8whole : Dec := { dec8 with dSize0 := 16 }

theorem witness_inv_dec8whole : DecInv dec8whole := by constructor <;> decide +kernel

/-- A full ring: ten bytes in SEG0, six in SEG1, which is full and not yet switched. -/
def decFull : Dec := { dec16 with
  dData := 6, dLast := 4, dFilled := 16, seg0 := Memory.writeRun [] 0 (textT.take 10)
  seg1 := Memory.writeRun [] 0 ((textT.drop 10).take 6), flags := { dok := true } }

theorem witness_inv_decFull : DecInv decFull := by constructor <;> decide +kernel

theorem witness_DecoderInvariantsAreKept :
    let s := pending (.wr 0x3F 0x62) (onlyDec dec8 3 7)
    DecOK s ∧ DecReady s ∧ ∃ t, step s = .next t := ⟨fun _ => witness_inv_dec8, by decide, ⟨_, rfl⟩⟩

theorem dout_accepts_none (s : State) (h : s.ports.doutAnswers = []) : DoutAccepts s := by simp [DoutAccepts, h]

theorem witness_MissingPortBytesAreFreeValues :
    (let s : State := { enc := set8, arg0 := 24, ports := { ein := textT.take 3 } }
     EncReady s ∧ s.enc.flags.cycopen = false ∧ s.enc.flags.final = false ∧ s.arg0 ≠ 0xFFFFFFFF ∧ s.arg0.toNat ≠ 0 ∧
     s.enc.base.toNat + s.arg0.toNat ≤ s.enc.cfgB.toNat) ∧
    (let s : State := { onlyDec decFull 5 0 with ports := { din := textT.take 3 } }
     DecReady s ∧ DecInv s.dec ∧ s.arg0 ≠ 0xFFFFFFFF ∧ DoutAccepts s) :=
  ⟨by decide +kernel, by decide +kernel, witness_inv_decFull, by decide, dout_accepts_none _ rfl⟩

theorem witness_DlitAppendsTheLiteralRun :
    (DecReady (onlyDec dec8 0xFFFFFFFF 5) ∧ (onlyDec dec8 0xFFFFFFFF 5).arg0 = 0xFFFFFFFF) ∧
    (let s : State := { onlyDec decFull 24 0 with ports := { din := textT, doutAnswers := [0, 0x7FFFFFFF] } }
     DecReady s ∧ s.arg0 ≠ 0xFFFFFFFF ∧ DecInv s.dec ∧ DoutAccepts s ∧ s.arg0.toNat ≤ s.ports.din.length ∧
     8 < s.arg0.toNat ∧ s.arg0.toNat ≤ 8 + s.dec.dB.toNat) :=
  ⟨by decide, by decide, by decide, witness_inv_decFull, by simp [DoutAccepts, negative]; decide, by decide,
    by decide, by decide⟩

/-- The segment just full, not yet switched. -/
def decEdge : Dec := { dec16 with dData := 10, dFilled := 10, seg0 := Memory.writeRun [] 0 (textT.take 10) }

theorem witness_inv_decEdge : DecInv decEdge := by constructor <;> decide +kernel

/-- The write events of DLIT and DMATCH: a run that fits the room, one that does not, and one at a full segment. -/
theorem witness_write_events :
    dec8.room = 2 ∧ 0 < dec8.room ∧ (2 : Word).toNat ≤ dec8.room ∧ dec8.room < (7 : Word).toNat ∧
    DecReady (onlyDec decEdge 3 7) ∧ DecInv decEdge ∧ decEdge.room = 0 ∧
    (3 : Word).toNat ≤ decEdge.dFilled.toNat ∧ DoutAccepts (onlyDec decEdge 3 7) :=
  ⟨by decide, by decide, by decide, by decide, by decide +kernel, witness_inv_decEdge, by decide, by decide +kernel,
    dout_accepts_none _ rfl⟩

/-- A run of four bytes crosses the full segment in one event of its ten bytes (R268, R269). -/
theorem test_dlit_event :
    let t := after .dlit { onlyDec decEdge 4 0 with ports := { din := textT } }
    t.ports.dout = [⟨textT.take 10, 0⟩] ∧ t.dec.flags.block0 = false ∧ t.dec.dLast = 0 ∧ t.dec.dData = 4 := by
  decide +kernel

theorem witness_DmatchRepeatsTheSource :
    DecReady (onlyDec dec8 0 1) ∧
    ((0 : Word).toNat = 0 ∧ dec8.dB.toNat ≤ (16 : Word).toNat ∧ dec8.dFilled.toNat < (9 : Word).toNat) ∧
    (DecInv dec8 ∧ DoutAccepts (onlyDec dec8 8 40) ∧ 1 ≤ (1 : Word).toNat ∧ (8 : Word).toNat < dec8.dB.toNat ∧
      (8 : Word).toNat ≤ dec8.dFilled.toNat ∧ 8 + dec8.dB.toNat < (40 : Word).toNat) ∧
    (DecInv decFull ∧ DoutAccepts (onlyDec decFull 15 2) ∧ (15 : Word).toNat < decFull.dB.toNat ∧
      (15 : Word).toNat ≤ decFull.dFilled.toNat) :=
  ⟨by decide, by decide, ⟨witness_inv_dec8, dout_accepts_none _ rfl, by decide⟩,
    ⟨witness_inv_decFull, dout_accepts_none _ rfl, by decide⟩⟩

theorem witness_DflushHandsOutThePending :
    (DecReady (onlyDec dec16 0 0) ∧ DecInv dec16 ∧ dec16.dLast = dec16.dData) ∧
    (DecReady (onlyDec decFull 0 0) ∧ DecInv decFull ∧ decFull.dLast ≠ decFull.dData) ∧
    (([] : List Word).headD 0).toNat < 2 ^ 31 ∧ (([0x7FFFFFFF] : List Word).headD 0).toNat < 2 ^ 31 ∧
    2 ^ 31 ≤ (([0x80000000] : List Word).headD 0).toNat :=
  ⟨⟨by decide +kernel, by constructor <;> decide +kernel, by decide +kernel⟩, ⟨by decide +kernel, witness_inv_decFull, by decide +kernel⟩,
    by decide +kernel, by decide +kernel, by decide +kernel⟩

theorem witness_RefusedOutputKeepsTheWorkDone :
    (let s : State := { onlyDec dec8 3 0 with ports := { din := textT.take 3, doutAnswers := [0x80000000] } }
     DecReady s ∧ DecInv s.dec ∧ s.arg0 ≠ 0xFFFFFFFF ∧ s.arg0.toNat ≤ s.ports.din.length ∧
     ∃ t, exec .dlit s = .next t ∧ t.dec.flags.dfault = true) ∧
    (let s : State := { onlyDec dec8 8 3 with ports := { doutAnswers := [0xFFFFFFFF] } }
     DecReady s ∧ DecInv s.dec ∧ 1 ≤ s.arg0.toNat ∧ s.arg0.toNat < s.dec.dB.toNat ∧
     s.arg0.toNat ≤ s.dec.dFilled.toNat ∧ ∃ t, exec .dmatch s = .next t ∧ t.dec.flags.dfault = true) :=
  ⟨⟨by decide +kernel, witness_inv_dec8, by decide +kernel, by decide +kernel, ⟨_, exec_dlit _, by decide +kernel⟩⟩,
    ⟨by decide +kernel, witness_inv_dec8, by decide +kernel, by decide +kernel, by decide +kernel, ⟨_, exec_dmatch _, by decide +kernel⟩⟩⟩

theorem witness_SplitPointChangesNoOutputByte :
    let s₁ := { onlyDec dec8 3 7 with ports := { din := textT } }
    let s₂ := { onlyDec dec8whole 3 7 with ports := { din := textT } }
    DecReady s₁ ∧ DecReady s₂ ∧ DecInv s₁.dec ∧ DecInv s₂.dec ∧ SameRing s₁.dec s₂.dec ∧ s₁.arg0 = s₂.arg0 ∧
    s₁.arg1 = s₂.arg1 ∧ s₁.ports.din = s₂.ports.din ∧ s₁.ports.dinUnoffered = s₂.ports.dinUnoffered ∧ DoutAccepts s₁ ∧
    DoutAccepts s₂ ∧ s₁.dec.dSize0 ≠ s₂.dec.dSize0 :=
  ⟨by decide +kernel, by decide +kernel, witness_inv_dec8, witness_inv_dec8whole,
    ⟨by decide +kernel, by decide +kernel, by decide +kernel, by decide +kernel⟩,
    by decide, by decide, by decide, by decide, dout_accepts_none _ rfl, dout_accepts_none _ rfl, by decide⟩

theorem witness_InvariantsHoldAtResetAndSetUp :
    (∃ t, exec .cfg (onlyEnc unset8) = .next t ∧ EncReady t) ∧ unset8.flags.cfgok = false ∧
    (∃ t, exec .dinit (onlyDec {} 16 10) = .next t ∧ DecReady t) ∧ (onlyDec {} 16 10).dec.flags.dok = false :=
  ⟨⟨_, exec_cfg _, by decide +kernel⟩, by decide +kernel, ⟨_, rfl, by decide +kernel⟩, by decide +kernel⟩

theorem witness_OnlyRdlitCanRaiseUninit :
    (let s : State := { enc := open8, dec := dec8, arg0 := 20, arg1 := 8 }
     EncOK s ∧ DecOK s ∧ s.enc.flags.efault = false ∧
     (after .rdlit s).enc.flags.efault = true ∧ (after .rdlit s).enc.eerr = Exn.uninit.code) ∧
    (let s : State := { onlyDec dec8 9 1 with enc := open8 }
     EncOK s ∧ DecOK s ∧ s.dec.flags.dfault = false ∧ (after .dmatch s).dec.flags.dfault = true) :=
  ⟨⟨fun _ => witness_inv_open _, fun _ => witness_inv_dec8, by decide, by decide +kernel, by decide +kernel⟩,
    ⟨fun _ => witness_inv_open _, fun _ => witness_inv_dec8, by decide, by decide +kernel⟩⟩

/-! ### Witnesses of the encodings and the stream format -/

theorem witness_DecodeInvertsEncode : (Instr.hupd 255 0).WellFormed ∧ (Instr.reset 3).WellFormed := by decide

theorem witness_EncodeInvertsDecode : decode 0x00000301 = .ok (.reset 3) := by rfl

theorem witness_BlockParsingInvertsFraming :
    (Block.mk [8] [8] [8, 0] (textT.take 8)).wf ∧ (Block.mk [] [] [0] []).wf ∧
    ∃ b, parseBody 8 [0, 0, 0, 0, 0, 0, 0, 0] = .ok b := ⟨by decide +kernel, by decide, ⟨_, rfl⟩⟩

/-- Ten bytes through a buffer of eight, so two laps, the first read of seven bytes. -/
theorem witness_RoundTripGivesTheInputBack :
    let d := compress State.reset.caps ⟨8, 2, 2, 8, 2, 1⟩ { bytes := [1, 2, 3, 1, 2, 3, 1, 2, 3, 4], answers := [.upTo 7] } {}
    d.error = none ∧ 1 ≤ (5 : Word).toNat ∧ (5 : Word).toNat ≤ (8 : Word).toNat ∧
    (5 : Word).toNat ≤ State.reset.caps.seg0Cap ∧ (8 : Word).toNat - (5 : Word).toNat ≤ State.reset.caps.seg1Cap := by
  decide +kernel

end Sys2Proof.Tests
end

section
/-! PROOFS. The statements of `00_scope.md`: every step answers a next state, the derived parameters of CFG, the rolling
hash against `polyhash`, and the canonical form of the memories. -/

namespace Sys2Proof.Machine

open Sys2Proof

/-! ### Every step answers a next state -/

/-- Every command answers the next state `after` names, in every state. -/
theorem exec_eq_next (i : Instr) (s : State) : exec i s = .next (after i s) := by
  cases i <;> rfl

theorem step_nil (s : State) (h : s.bus = []) : step s = .next s := by
  simp [step, h]

/-- A step answers a next state for every kind of operation the host can have pending. -/
theorem exists_step_next (s : State) : ∃ t, step s = .next t := by
  unfold step
  split
  case h_1 => exact ⟨_, rfl⟩
  case h_2 => exact ⟨_, rfl⟩
  case h_3 n v rest _ =>
    split
    next =>
      unfold runCommand
      split
      next => exact ⟨_, rfl⟩
      next i _ => exact ⟨_, exec_eq_next i _⟩
    next => exact ⟨_, rfl⟩
  case h_4 => exact ⟨_, rfl⟩

/-- Settles O8: an operation pending is a read, a write or a reset, and every arm of `exec` is a next state. -/
theorem everyStepAnswersNext : Obligations.EveryStepAnswersNext :=
  ⟨step_nil, exists_step_next, fun i s => ⟨after i s, exec_eq_next i s⟩⟩

/-! ### The derived parameters (R11) -/

theorem exists_rup2_eq_two_pow (x : Nat) : ∃ n, rup2 x = 2 ^ n := by
  unfold rup2
  split
  · exact ⟨0, rfl⟩
  · exact ⟨_, rfl⟩

/-- The powers of two at or above `rup2 x` are those at or above `x`. -/
theorem rup2_le_two_pow_iff (x n : Nat) : rup2 x ≤ 2 ^ n ↔ x ≤ 2 ^ n := by
  have hpos : 1 ≤ 2 ^ n := Nat.one_le_two_pow
  unfold rup2
  split
  next hx => omega
  next hx =>
    calc 2 ^ (Nat.log2 (x - 1) + 1) ≤ 2 ^ n
      _ ↔ Nat.log2 (x - 1) < n := Nat.pow_le_pow_iff_right (by decide)
      _ ↔ x - 1 < 2 ^ n := Nat.log2_lt (by omega)
      _ ↔ x ≤ 2 ^ n := by omega

theorem le_rup2 (x : Nat) : x ≤ rup2 x := by
  obtain ⟨n, hn⟩ := exists_rup2_eq_two_pow x
  rw [hn]
  exact (rup2_le_two_pow_iff x n).1 hn.le

/-- The powers of two not above `subsample L` are those not above `floor(sqrt(2·L))`. -/
theorem two_pow_le_subsample_iff (L n : Nat) (hL : 1 ≤ L) : 2 ^ n ≤ subsample L ↔ 2 ^ n ≤ Nat.sqrt (2 * L) :=
  calc 2 ^ n ≤ 2 ^ (Nat.log2 (2 * L) / 2)
    _ ↔ n ≤ Nat.log2 (2 * L) / 2 := Nat.pow_le_pow_iff_right (by decide)
    _ ↔ n + n ≤ Nat.log2 (2 * L) := by omega
    _ ↔ 2 ^ (n + n) ≤ 2 * L := Nat.le_log2 (by omega)
    _ ↔ 2 ^ n * 2 ^ n ≤ 2 * L := by rw [pow_add]
    _ ↔ 2 ^ n ≤ Nat.sqrt (2 * L) := Nat.le_sqrt.symm

theorem primePow_two_pow (n : Nat) : primePow (2 ^ n) = wordOf (prime ^ 2 ^ n) := by
  rw [primePow, Nat.log2_two_pow, squareTimes_eq]

/-- Settles O18: `rup2` and `subsample` by the powers of two they compare with, the power by squaring. -/
theorem derivedParametersAreLeastAndGreatest : Obligations.DerivedParametersAreLeastAndGreatest := by
  refine ⟨fun x => ⟨exists_rup2_eq_two_pow x, le_rup2 x, fun n => (rup2_le_two_pow_iff x n).2⟩, fun _ => rfl,
    fun L hL => ⟨⟨_, rfl⟩, ?_, fun n => (two_pow_le_subsample_iff L n hL).2⟩, fun _ _ _ => rfl,
    fun B H k => ⟨fun hH => if_pos hH, fun hH => if_neg (by omega)⟩, primePow_two_pow⟩
  exact (two_pow_le_subsample_iff L _ hL).1 le_rfl

/-! ### The rolling hash (R24, R25) -/

/-- `polyhash` by its first byte, in the arithmetic of words. -/
theorem polyhash_cons (b : Byte) (bs : List Byte) :
    polyhash (b :: bs) = zext b * wordOf prime ^ bs.length + polyhash bs := by
  have hb : zext b = wordOf b.toNat := (BitVec.ofNat_toNat 32 b).symm
  rw [hb]
  simp only [polyhash, polySum, wordOf, BitVec.ofNat_add, BitVec.ofNat_mul, BitVec.ofNat_pow]

/-- An update that drops the byte 0 is one turn of Horner's rule, whatever `PL`. -/
theorem updateHash_zero_out (pl h : Word) (b : Byte) : updateHash pl h 0 b = h * wordOf prime + zext b := by
  have hz : zext 0 = 0 := rfl
  rw [updateHash, hz, zero_mul, sub_zero]

/-- Updates that drop nothing, from any hash `h`: `h` moves up by the number of bytes (Horner's rule). -/
theorem foldl_updateHash (pl : Word) : ∀ (bs : List Byte) (h : Word),
    bs.foldl (fun h b => updateHash pl h 0 b) h = h * wordOf prime ^ bs.length + polyhash bs
  | [], h => by simp [polyhash, polySum]
  | b :: bs, h => by
    rw [List.foldl_cons, foldl_updateHash pl bs, updateHash_zero_out, polyhash_cons, List.length_cons]
    ring

/-- `L` updates from 0 give `polyhash` (R25, R175). -/
theorem foldl_updateHash_zero (pl : Word) (bs : List Byte) :
    bs.foldl (fun h b => updateHash pl h 0 b) 0 = polyhash bs := by
  rw [foldl_updateHash, zero_mul, zero_add]

theorem polyhash_append_singleton (bs : List Byte) (b : Byte) :
    polyhash (bs ++ [b]) = polyhash bs * wordOf prime + zext b := by
  rw [← foldl_updateHash_zero 0, List.foldl_append, foldl_updateHash_zero, List.foldl_cons, List.foldl_nil,
    updateHash_zero_out]

/-- One update slides the window by one byte (R25, R176). -/
theorem updateHash_polyhash_cons (b0 bL : Byte) (bs : List Byte) :
    updateHash (wordOf (prime ^ (bs.length + 1))) (polyhash (b0 :: bs)) b0 bL = polyhash (bs ++ [bL]) := by
  have hp : wordOf (prime ^ (bs.length + 1)) = wordOf prime ^ (bs.length + 1) := BitVec.ofNat_pow ..
  rw [updateHash, polyhash_cons, polyhash_append_singleton, hp]
  ring

/-- Settles O20: Horner's rule for the updates from 0; the dropped byte's term cancels in the slide. -/
theorem rollingUpdateAgreesWithPolyhash : Obligations.RollingUpdateAgreesWithPolyhash :=
  ⟨foldl_updateHash_zero, updateHash_polyhash_cons⟩

end Sys2Proof.Machine
end

section
/-! PROOFS. Every step keeps the canonical form of the memories (log entry 12): the lines of each command keep it in
their own context, a composite command keeps it because its parts do, and taking a fault touches no memory. -/

namespace Sys2Proof.Machine

open Sys2Proof

/-- The encoder's part of `Canonical`. -/
def Enc.MemWf (e : Enc) : Prop := e.buf.wf ∧ e.ht.wf

/-- The decoder's part of `Canonical`. -/
def Dec.MemWf (d : Dec) : Prop := d.seg0.wf ∧ d.seg1.wf

/-- `Canonical`, context by context. -/
def State.MemWf (s : State) : Prop := s.enc.MemWf ∧ s.dec.MemWf

theorem canonical_iff (s : State) : Canonical s ↔ s.MemWf :=
  ⟨fun h => ⟨⟨h.buf, h.ht⟩, ⟨h.seg0, h.seg1⟩⟩, fun ⟨⟨hb, hh⟩, ⟨h0, h1⟩⟩ => ⟨hb, hh, h0, h1⟩⟩

/-- A test at the head of a rule's lines: where it fails, its fault is raised in the state the lines began with. -/
theorem Run.final_guard {σ : Type} (P : σ → Prop) {c : Prop} [Decidable c] {s : σ} {x : Exn} {n : Nat} {r : Run σ}
    (hs : P s) (hr : P r.final) : P (if c then Run.raised s x n else r).final := by
  split
  · exact hs
  · exact hr

/-! ### The lines of the encoder context -/

/-- The registers the hash engine writes are no memory.  The values are variables here, so that no check of a use of
this lemma evaluates a hash. -/
theorem Enc.memWf_setHash (hash i : Word) (flags : EFlags) (e : Enc) (he : e.MemWf) :
    Enc.MemWf { e with hash := hash, i := i, flags := flags } := he

theorem cfgLines_memWf (caps : Caps) (e : Enc) (he : e.MemWf) : (cfgLines caps e).final.MemWf := by
  unfold cfgLines
  iterate 9 refine Run.final_guard Enc.MemWf he ?_
  exact ⟨Memory.wf_nil, Table.wf_nil⟩

theorem hclrLines_memWf (e : Enc) (he : e.MemWf) : (hclrLines e).final.MemWf := he

theorem hupdLines_memWf (out inn : Nat) (e : Enc) (he : e.MemWf) : (hupdLines out inn e).final.MemWf :=
  e.memWf_setHash _ _ _ he

theorem hinitLines_memWf (e : Enc) (he : e.MemWf) : (hinitLines e).final.MemWf := by
  obtain ⟨-, h⟩ | ⟨-, a, -, h⟩ | ⟨-, bs, -, h⟩ := hinitLines_cases e <;> rw [h] <;> exact he

theorem hrollLines_memWf (e : Enc) (he : e.MemWf) : (hrollLines e).final.MemWf := by
  obtain ⟨-, h⟩ | ⟨-, -, h⟩ | ⟨-, -, ⟨-, h⟩ | ⟨out, -, ⟨-, h⟩ | ⟨inn, -, h⟩⟩⟩ := hrollLines_cases e <;>
    rw [h]
  · exact he
  · exact he
  · exact he
  · exact he
  · exact e.memWf_setHash _ _ _ he

theorem htclrLines_memWf (e : Enc) (he : e.MemWf) : (htclrLines e).final.MemWf := ⟨he.1, Table.wf_nil⟩

/-- INSERT writes one slot; a word of 0 removes the slot's entry, so no slot is listed with 0. -/
theorem insertLines_memWf (e : Enc) (he : e.MemWf) : (insertLines e).final.MemWf := by
  obtain ⟨-, h⟩ | ⟨-, -, h⟩ | ⟨-, -, h⟩ := insertLines_cases e <;> rw [h]
  · exact he
  · exact he
  · exact ⟨he.1, Table.wf_write _ _ _ he.2⟩

theorem probeLines_memWf (e : Enc) (he : e.MemWf) : (probeLines e).final.MemWf := by
  obtain ⟨-, h⟩ | ⟨-, -, h⟩ | ⟨-, -, h⟩ := probeLines_cases e <;> rw [h] <;> exact he

theorem seekLines_memWf (p : Word) (e : Enc) (he : e.MemWf) : (seekLines p e).final.MemWf := by
  obtain ⟨-, h⟩ | ⟨-, h⟩ := seekLines_cases p e <;> rw [h] <;> exact he

theorem boundsLines_memWf (e : Enc) (he : e.MemWf) : (boundsLines e).final.MemWf := by
  obtain ⟨-, h⟩ | ⟨-, -, -, -, h⟩ | ⟨-, -, -, h⟩ := boundsLines_cases e <;> rw [h] <;> exact he

theorem extbLines_memWf (e : Enc) (he : e.MemWf) : (extbLines e).final.MemWf := by
  obtain ⟨-, h⟩ | ⟨-, a, -, h⟩ | ⟨-, p, -, h⟩ := extbLines_cases e <;> rw [h] <;> exact he

theorem extfLines_memWf (e : Enc) (he : e.MemWf) : (extfLines e).final.MemWf := by
  obtain ⟨-, h⟩ | ⟨-, a, -, h⟩ | ⟨-, q, -, h⟩ := extfLines_cases e <;> rw [h] <;> exact he

theorem commitLines_memWf (recCap : Nat) (e : Enc) (he : e.MemWf) : (commitLines recCap e).final.MemWf := by
  obtain ⟨-, h⟩ | ⟨-, -, -, h⟩ | ⟨-, -, -, -, h⟩ | ⟨-, -, -, -, h⟩ := commitLines_cases recCap e <;>
    rw [h] <;> exact he

theorem verifyLines_memWf (recCap : Nat) (e : Enc) (he : e.MemWf) : (verifyLines recCap e).final.MemWf := by
  refine Run.final_andThen Enc.MemWf _ _ (boundsLines_memWf e he) fun e he => ?_
  split
  · exact Run.final_andThen Enc.MemWf _ _
      (Run.final_andThen Enc.MemWf _ _ (extbLines_memWf e he) extfLines_memWf) (commitLines_memWf recCap)
  · exact he

theorem searchLines_memWf (recCap : Nat) (e : Enc) (he : e.MemWf) : (searchLines recCap e).final.MemWf := by
  unfold searchLines
  split
  · refine Run.final_andThen Enc.MemWf _ _ (probeLines_memWf e he) fun e he => ?_
    split
    · exact verifyLines_memWf recCap e he
    · exact he
  · exact he

theorem anchorLines_memWf (e : Enc) (he : e.MemWf) : (anchorLines e).final.MemWf := by
  unfold anchorLines
  split
  · exact insertLines_memWf e he
  · exact he

theorem stepLines_memWf (recCap : Nat) (e : Enc) (he : e.MemWf) : (stepLines recCap e).final.MemWf :=
  Run.final_guard Enc.MemWf he <| Run.final_guard Enc.MemWf he <| Run.final_andThen Enc.MemWf _ _
    (Run.final_andThen Enc.MemWf _ _ (searchLines_memWf recCap _ he) anchorLines_memWf) hrollLines_memWf

theorem skipLoop_memWf : ∀ (n : Nat) (e : Enc), e.MemWf → (skipLoop n e).final.MemWf
  | 0, _, he => he
  | n + 1, e, he => by
    rw [skipLoop]
    split
    · exact he
    · exact Run.final_andThen Enc.MemWf _ _
        (Run.final_andThen Enc.MemWf _ _ (anchorLines_memWf e he) hrollLines_memWf) (skipLoop_memWf n)

theorem skipLines_memWf (e : Enc) (he : e.MemWf) : (skipLines e).final.MemWf :=
  Run.final_guard Enc.MemWf he (skipLoop_memWf _ _ he)

theorem rehashLines_memWf (e : Enc) (he : e.MemWf) : (rehashLines e).final.MemWf := by
  unfold rehashLines
  split
  · exact he
  · exact hinitLines_memWf e he

theorem blockLines_memWf (recCap : Nat) (e : Enc) (he : e.MemWf) : (blockLines recCap e).final.MemWf :=
  Run.final_andThen Enc.MemWf _ _
    (Run.final_andThen Enc.MemWf _ _ (rehashLines_memWf e he) fun e he =>
      Run.final_times Enc.MemWf _ (stepLines_memWf recCap) _ e he)
    skipLines_memWf

theorem scanLoop_memWf (recCap : Nat) : ∀ (n : Nat) (e : Enc), e.MemWf → (scanLoop recCap n e).final.MemWf
  | 0, _, he => he
  | n + 1, e, he => by
    obtain ⟨-, h⟩ | ⟨-, h⟩ := scanLoop_succ recCap n e <;> rw [h]
    · exact he
    · exact Run.final_andThen Enc.MemWf _ _ (blockLines_memWf recCap e he) (scanLoop_memWf recCap n)

theorem restart_memWf (e : Enc) (he : e.MemWf) : (restart e).MemWf := by
  unfold restart
  split <;> exact he

theorem scanLines_memWf (recCap : Nat) (e : Enc) (he : e.MemWf) : (scanLines recCap e).final.MemWf :=
  Run.final_guard Enc.MemWf he <|
    Run.final_andThen Enc.MemWf _ _ (scanLoop_memWf recCap _ _ (restart_memWf e he)) fun _ he => he

theorem closeRun_memWf (tail : Word) (e : Enc) (he : e.MemWf) : (closeRun tail e).MemWf := by
  unfold closeRun
  split <;> exact he

theorem endcycLines_memWf (recCap : Nat) (e : Enc) (he : e.MemWf) : (endcycLines recCap e).final.MemWf := by
  refine Run.final_guard Enc.MemWf he (Run.final_guard Enc.MemWf he ?_)
  split
  · exact closeRun_memWf e.cfgB e he
  · exact closeRun_memWf e.lastI e he

theorem finalLines_memWf (recCap : Nat) (e : Enc) (he : e.MemWf) : (finalLines recCap e).final.MemWf :=
  Run.final_guard Enc.MemWf he (Run.final_guard Enc.MemWf he (Run.final_guard Enc.MemWf he he))

/-! ### The lines of the decoder context -/

theorem dinitLines_memWf (caps : Caps) (B s0 : Word) (d : Dec) (hd : d.MemWf) :
    (dinitLines caps B s0 d).final.MemWf := by
  unfold dinitLines
  iterate 6 refine Run.final_guard Dec.MemWf hd ?_
  exact ⟨Memory.wf_nil, Memory.wf_nil⟩

theorem Dec.cur_wf (d : Dec) (hd : d.MemWf) : d.cur.wf := by
  unfold Dec.cur
  split
  · exact hd.1
  · exact hd.2

theorem Dec.setCur_memWf (d : Dec) (m : Memory) (hd : d.MemWf) (hm : m.wf) : (d.setCur m).MemWf := by
  unfold Dec.setCur
  split
  · exact ⟨hm, hd.2⟩
  · exact ⟨hd.1, hm⟩

theorem putBytes_memWf (bs : List Byte) (d : Dec) (hd : d.MemWf) : (putBytes bs d).MemWf :=
  Dec.setCur_memWf d _ hd (Memory.wf_writeRun bs _ _ (d.cur_wf hd))

theorem copyBytes_memWf : ∀ (c : Nat) (src : Bool) (so dst : Nat) (d : Dec), d.MemWf →
    (copyBytes c src so dst d).final.MemWf
  | 0, _, _, _, _, hd => hd
  | c + 1, src, so, dst, d, hd => by
    rw [copyBytes]
    split
    next => exact hd
    next b _ =>
      exact copyBytes_memWf c src (so + 1) (dst + 1) _ (d.setCur_memWf _ hd (Memory.wf_write _ dst b (d.cur_wf hd)))

theorem subCopy_memWf (offset c : Nat) (d : Dec) (hd : d.MemWf) : (subCopy offset c d).final.MemWf :=
  Run.final_andThen Dec.MemWf _ _ (copyBytes_memWf _ _ _ _ d hd) fun _ hd => hd

/-! ### Lines that touch the ports -/

theorem onEnc_memWf (f : Enc → Run Enc) (hf : ∀ e, e.MemWf → (f e).final.MemWf) (s : State) (hs : s.MemWf) :
    (onEnc f s).final.MemWf := by
  rw [final_onEnc]
  exact ⟨hf s.enc hs.1, hs.2⟩

theorem onDec_memWf (f : Dec → Run Dec) (hf : ∀ d, d.MemWf → (f d).final.MemWf) (s : State) (hs : s.MemWf) :
    (onDec f s).final.MemWf := by
  rw [final_onDec]
  exact ⟨hs.1, hf s.dec hs.2⟩

theorem eoutPut_memWf (bytes : List Byte) (s : State) (hs : s.MemWf) : (eoutPut bytes s).final.MemWf := by
  obtain ⟨-, h⟩ | ⟨-, h⟩ := eoutPut_cases bytes s <;> rw [h] <;> exact hs

theorem doutPut_memWf (bytes : List Byte) (s : State) (hs : s.MemWf) : (doutPut bytes s).final.MemWf := by
  obtain ⟨-, h⟩ | ⟨-, h⟩ := doutPut_cases bytes s <;> rw [h] <;> exact hs

theorem fillLines_memWf (s : State) (hs : s.MemWf) : (fillLines s).final.MemWf := by
  unfold fillLines
  iterate 5 refine Run.final_guard State.MemWf hs ?_
  exact ⟨⟨Memory.wf_writeRun _ _ _ hs.1.1, hs.1.2⟩, hs.2⟩

theorem rdlitLines_memWf (s : State) (hs : s.MemWf) : (rdlitLines s).final.MemWf := by
  refine Run.final_guard State.MemWf hs ?_
  split
  · exact hs
  split
  · exact hs
  · exact eoutPut_memWf _ s hs

theorem flushLines_memWf (s : State) (hs : s.MemWf) : (flushLines s).final.MemWf := by
  obtain ⟨-, h⟩ | ⟨-, ⟨a, -, h⟩ | ⟨bs, -, h⟩⟩ := flushLines_cases s <;> rw [h]
  · exact hs
  · exact hs
  · exact Run.final_andThen State.MemWf _ _ (doutPut_memWf bs s hs) fun _ hs => hs

theorem makeRoom_memWf (s : State) (hs : s.MemWf) : (makeRoom s).final.MemWf := by
  unfold makeRoom
  split
  · exact Run.final_andThen State.MemWf _ _ (flushLines_memWf s hs) fun _ hs => hs
  · exact hs

theorem dlitLoop_memWf : ∀ (fuel n : Nat) (s : State), s.MemWf → (dlitLoop fuel n s).final.MemWf
  | 0, _, _, hs => hs
  | fuel + 1, n, s, hs => by
    rw [dlitLoop]
    split
    · exact hs
    · exact Run.final_andThen State.MemWf _ _ (makeRoom_memWf s hs) fun s hs =>
        dlitLoop_memWf fuel _ _ ⟨hs.1, putBytes_memWf _ _ hs.2⟩

theorem dlitLines_memWf (s : State) (hs : s.MemWf) : (dlitLines s).final.MemWf :=
  Run.final_guard State.MemWf hs (dlitLoop_memWf _ _ s hs)

theorem dmatchLoop_memWf (offset : Nat) : ∀ (fuel len : Nat) (s : State), s.MemWf →
    (dmatchLoop offset fuel len s).final.MemWf
  | 0, _, _, hs => hs
  | fuel + 1, len, s, hs => by
    rw [dmatchLoop]
    split
    · exact hs
    · exact Run.final_andThen State.MemWf _ _ (makeRoom_memWf s hs) fun s hs =>
        Run.final_andThen State.MemWf _ _ (onDec_memWf _ (subCopy_memWf offset _) s hs) (dmatchLoop_memWf offset fuel _)

theorem dmatchLines_memWf (s : State) (hs : s.MemWf) : (dmatchLines s).final.MemWf := by
  unfold dmatchLines
  iterate 3 refine Run.final_guard State.MemWf hs ?_
  exact dmatchLoop_memWf _ _ _ s hs

/-! ### Commands, the bus and a step -/

theorem raise_memWf (c : Ctx) (x : Exn) (n : Nat) (s : State) (hs : s.MemWf) : (raise c x n s).MemWf := by
  simpa [State.MemWf, Enc.MemWf, Dec.MemWf] using hs

theorem unlessFaulted_memWf {c : Ctx} {body : State → Run State} {s t : State} (hs : s.MemWf)
    (hb : (body s).final.MemWf) (h : unlessFaulted c body s = .next t) : t.MemWf := by
  unfold unlessFaulted at h
  cases h
  split
  · exact hs
  · obtain ⟨u, hr, hf⟩ | ⟨u, x, n, hr, hf⟩ := finish_cases c (body s) <;> rw [hr] at hb <;> rw [hf]
    · exact hb
    · exact raise_memWf c x n u hb

/-- The preamble's `State(op)` (R170, R265) is a fault like those of the lines. -/
theorem encCommand_memWf {op : Byte} {body : State → Run State} {s t : State} (hs : s.MemWf)
    (hb : (body s).final.MemWf) (h : encCommand op body s = .next t) : t.MemWf := by
  refine unlessFaulted_memWf hs ?_ h
  split
  · exact hb
  · exact hs

theorem decCommand_memWf {op : Byte} {body : State → Run State} {s t : State} (hs : s.MemWf)
    (hb : (body s).final.MemWf) (h : decCommand op body s = .next t) : t.MemWf := by
  refine unlessFaulted_memWf hs ?_ h
  split
  · exact hb
  · exact hs

theorem resetEnc_memWf (s : State) (hs : s.MemWf) : (resetEnc s).MemWf := ⟨⟨Memory.wf_nil, Table.wf_nil⟩, hs.2⟩

theorem resetDec_memWf (s : State) (hs : s.MemWf) : (resetDec s).MemWf := ⟨hs.1, ⟨Memory.wf_nil, Memory.wf_nil⟩⟩

theorem hardwareReset_memWf (s : State) (hs : s.MemWf) : (hardwareReset s).MemWf :=
  resetDec_memWf (resetEnc s) (resetEnc_memWf s hs)

theorem resetContexts_memWf (ctx : Nat) (s : State) (hs : s.MemWf) : (resetContexts ctx s).MemWf := by
  have henc : (if ctx.testBit 0 then resetEnc s else s).MemWf := by
    split
    · exact resetEnc_memWf s hs
    · exact hs
  have hdec : ∀ u : State, u.MemWf → (if ctx.testBit 1 then resetDec u else u).MemWf := fun u hu => by
    split
    · exact resetDec_memWf u hu
    · exact hu
  simp only [resetContexts]
  split
  · exact hdec _ henc
  · exact hdec _ henc

/-- Every command keeps every memory in its canonical form. -/
theorem exec_memWf (i : Instr) (s t : State) (hs : s.MemWf) (h : exec i s = .next t) : t.MemWf := by
  cases i with
  | nop => cases h; exact hs
  | reset ctx => cases h; exact resetContexts_memWf ctx s hs
  | cfg => exact unlessFaulted_memWf hs (onEnc_memWf _ (cfgLines_memWf s.caps) s hs) h
  | hclr => exact encCommand_memWf hs (onEnc_memWf _ hclrLines_memWf s hs) h
  | hupd out inn => exact encCommand_memWf hs (onEnc_memWf _ (hupdLines_memWf out inn) s hs) h
  | hinit => exact encCommand_memWf hs (onEnc_memWf _ hinitLines_memWf s hs) h
  | hroll => exact encCommand_memWf hs (onEnc_memWf _ hrollLines_memWf s hs) h
  | htclr => exact encCommand_memWf hs (onEnc_memWf _ htclrLines_memWf s hs) h
  | insert => exact encCommand_memWf hs (onEnc_memWf _ insertLines_memWf s hs) h
  | probe => exact encCommand_memWf hs (onEnc_memWf _ probeLines_memWf s hs) h
  | fill => exact encCommand_memWf hs (fillLines_memWf s hs) h
  | seek => exact encCommand_memWf hs (onEnc_memWf _ (seekLines_memWf s.arg0) s hs) h
  | bounds => exact encCommand_memWf hs (onEnc_memWf _ boundsLines_memWf s hs) h
  | rdlit => exact encCommand_memWf hs (rdlitLines_memWf s hs) h
  | extb => exact encCommand_memWf hs (onEnc_memWf _ extbLines_memWf s hs) h
  | extf => exact encCommand_memWf hs (onEnc_memWf _ extfLines_memWf s hs) h
  | commit => exact encCommand_memWf hs (onEnc_memWf _ (commitLines_memWf s.caps.recCap) s hs) h
  | step => exact encCommand_memWf hs (onEnc_memWf _ (stepLines_memWf s.caps.recCap) s hs) h
  | skip => exact encCommand_memWf hs (onEnc_memWf _ skipLines_memWf s hs) h
  | scan => exact encCommand_memWf hs (onEnc_memWf _ (scanLines_memWf s.caps.recCap) s hs) h
  | endcyc => exact encCommand_memWf hs (onEnc_memWf _ (endcycLines_memWf s.caps.recCap) s hs) h
  | final => exact encCommand_memWf hs (onEnc_memWf _ (finalLines_memWf s.caps.recCap) s hs) h
  | dinit => exact unlessFaulted_memWf hs (onDec_memWf _ (dinitLines_memWf s.caps s.arg0 s.arg1) s hs) h
  | dlit => exact decCommand_memWf hs (dlitLines_memWf s hs) h
  | dmatch => exact decCommand_memWf hs (dmatchLines_memWf s hs) h
  | dflush => exact decCommand_memWf hs (flushLines_memWf s hs) h

theorem illegalCommand_memWf (w : Word) (s : State) (hs : s.MemWf) : (illegalCommand w s).MemWf := by
  unfold illegalCommand
  split
  · exact raise_memWf _ _ _ s hs
  · exact raise_memWf _ _ _ s hs
  · exact raise_memWf _ _ _ _ (raise_memWf _ _ _ s hs)

theorem runCommand_memWf (w : Word) (s t : State) (hs : s.MemWf) (h : runCommand w s = .next t) : t.MemWf := by
  unfold runCommand at h
  split at h
  next => cases h; exact illegalCommand_memWf w s hs
  next i _ => exact exec_memWf i s t hs h

/-- A configuration register is written outside the memories, or not at all (R50). -/
theorem writeCfg_memWf (f : Enc → Enc) (hf : ∀ e, e.MemWf → (f e).MemWf) (s : State) (hs : s.MemWf) :
    (writeCfg f s).MemWf := by
  unfold writeCfg
  split
  · exact hs
  · exact ⟨hf s.enc hs.1, hs.2⟩

theorem busWrite_memWf (n : Nat) (v : Word) (s : State) (hs : s.MemWf) : (busWrite n v s).MemWf := by
  unfold busWrite
  split
  iterate 6
    refine writeCfg_memWf _ ?_ s hs
    exact fun _ he => he
  all_goals exact hs

theorem step_memWf (s t : State) (hs : s.MemWf) (h : step s = .next t) : t.MemWf := by
  unfold step at h
  split at h
  case h_1 => cases h; exact hs
  case h_2 => cases h; exact hs
  case h_3 n v rest _ =>
    have hrest : State.MemWf { s with bus := rest } := hs
    split at h
    next => exact runCommand_memWf v _ t hrest h
    next => cases h; exact busWrite_memWf _ v _ hrest
  case h_4 rest _ =>
    have hrest : State.MemWf { s with bus := rest } := hs
    cases h
    exact hardwareReset_memWf _ hrest

/-- Settles O51: no operation of the host takes a memory out of its canonical form. -/
theorem canonicalMemoriesAreKept : Obligations.CanonicalMemoriesAreKept := fun s t hs h =>
  (canonical_iff t).2 (step_memWf s t ((canonical_iff s).1 hs) h)

end Sys2Proof.Machine
end

section
/-! PROOFS. The statements of `10_state.md` about single registers: the bits of the status words, and the columns
"Written by" of the register map and the flag tables as one function, from which what a command leaves as it is
follows register by register. -/

namespace Sys2Proof.Machine

open Sys2Proof

/-! ### The status words -/

theorem getLsbD_flagBit (b : Bool) (k n : Nat) (hn : n < 32) : (flagBit b k).getLsbD n = (b && decide (n = k)) := by
  cases b with
  | false => simp [flagBit]
  | true =>
    simp only [flagBit, if_true, BitVec.getLsbD_shiftLeft, BitVec.getLsbD_one, Bool.true_and, hn, decide_true]
    by_cases h : n = k
    · simp [h]
    · simp [h]
      omega

/-- Settles O4: each flag stands at one place, and no flag stands at a place that is not listed. -/
theorem statusWordsHoldTheFlags : Obligations.StatusWordsHoldTheFlags := by
  intro s
  refine ⟨?_, ?_⟩
  · simp only [busRead, EFlags.word, BitVec.getLsbD_or]
    refine ⟨?_, ?_, ?_, ?_, ?_, ?_, ?_, ?_, ?_, ?_, ?_, ?_, fun n h1 h2 => ?_⟩
    iterate 12 simp (disch := omega) only [getLsbD_flagBit]; simp
    simp (disch := omega) only [getLsbD_flagBit]
    simp
    omega
  · simp only [busRead, DFlags.word, BitVec.getLsbD_or]
    refine ⟨?_, ?_, ?_, fun n h1 h2 => ?_⟩
    iterate 3 simp (disch := omega) only [getLsbD_flagBit]; simp
    simp (disch := omega) only [getLsbD_flagBit]
    simp
    omega

/-! ### The write table -/

/-- What a command of opcode `op` leaves of a register or memory with the writers listed: its value, or the type's
default where `op` is one of them. -/
def unlessWriter {α : Type} [Inhabited α] (op : Byte) (writers : List Byte) (x : α) : α :=
  if op ∈ writers then default else x

theorem eq_of_unlessWriter {α : Type} [Inhabited α] {op : Byte} {ws : List Byte} {x y : α} (h : op ∉ ws)
    (hxy : unlessWriter op ws x = unlessWriter op ws y) : x = y := by
  simpa [unlessWriter, h] using hxy

/-- The opcodes of the commands that set the whole encoder context up or back: RESET and CFG. -/
abbrev encSetup : List Byte := [0x01] ++ [0x10]

/-- The opcodes of the commands that set the whole decoder context up or back: RESET and DINIT. -/
abbrev decSetup : List Byte := [0x01] ++ [0x60]

/-- The commands that clear or set all candidate flags (R55, R56). -/
abbrev candWriters : List Byte :=
  encSetup ++ [0x11, 0x12, 0x13, 0x14, 0x22, 0x30, 0x31, 0x42, 0x50, 0x51, 0x52, 0x53, 0x54]

/-- The flags a command of opcode `op` leaves, by the table of R55.  EFAULT is set by faults only. -/
def EFlags.unwritten (op : Byte) (f : EFlags) : EFlags where
  cfgok := unlessWriter op encSetup f.cfgok
  hvalid := unlessWriter op (encSetup ++ [0x11, 0x12, 0x13, 0x31, 0x52, 0x53]) f.hvalid
  hit := unlessWriter op candWriters f.hit
  rej := unlessWriter op (candWriters ++ [0x32]) f.rej
  bvalid := unlessWriter op (candWriters ++ [0x32]) f.bvalid
  svalid := unlessWriter op (candWriters ++ [0x32] ++ [0x40]) f.svalid
  evalid := unlessWriter op (candWriters ++ [0x32] ++ [0x41]) f.evalid
  matched := unlessWriter op (encSetup ++ [0x30, 0x42, 0x50, 0x52]) f.matched
  lapped := unlessWriter op (encSetup ++ [0x53]) f.lapped
  cycopen := unlessWriter op (encSetup ++ [0x30, 0x53]) f.cycopen
  final := unlessWriter op (encSetup ++ [0x54]) f.final
  efault := unlessWriter op [0x01] f.efault

/-- The part of the encoder context a command of opcode `op` leaves, by the column "Written by" of R41 and by R60 and
R61 for BUF and HT. -/
def Enc.unwritten (op : Byte) (e : Enc) : Enc where
  cfgB := unlessWriter op [0x01] e.cfgB
  cfgM := unlessWriter op [0x01] e.cfgM
  cfgS := unlessWriter op [0x01] e.cfgS
  cfgD := unlessWriter op [0x01] e.cfgD
  cfgH := unlessWriter op [0x01] e.cfgH
  cfgA := unlessWriter op [0x01] e.cfgA
  drvL := unlessWriter op encSetup e.drvL
  drvK := unlessWriter op encSetup e.drvK
  drvTest := unlessWriter op encSetup e.drvTest
  drvHsize := unlessWriter op encSetup e.drvHsize
  drvHmask := unlessWriter op encSetup e.drvHmask
  drvKmask := unlessWriter op encSetup e.drvKmask
  drvPL := unlessWriter op encSetup e.drvPL
  hash := unlessWriter op (encSetup ++ [0x11, 0x12, 0x13, 0x14, 0x50, 0x51, 0x52]) e.hash
  i := unlessWriter op (encSetup ++ [0x31, 0x14, 0x50, 0x51, 0x52, 0x53]) e.i
  lastI := unlessWriter op (encSetup ++ [0x52, 0x53]) e.lastI
  lastMatch := unlessWriter op (encSetup ++ [0x42, 0x50, 0x52, 0x53, 0x54]) e.lastMatch
  base := unlessWriter op (encSetup ++ [0x53]) e.base
  size := unlessWriter op (encSetup ++ [0x30, 0x53]) e.size
  cand := unlessWriter op (encSetup ++ [0x22, 0x50, 0x52]) e.cand
  lowb := unlessWriter op (encSetup ++ [0x32, 0x50, 0x52]) e.lowb
  highb := unlessWriter op (encSetup ++ [0x32, 0x50, 0x52]) e.highb
  dist := unlessWriter op (encSetup ++ [0x32, 0x50, 0x52]) e.dist
  mstart := unlessWriter op (encSetup ++ [0x40, 0x50, 0x52]) e.mstart
  mend := unlessWriter op (encSetup ++ [0x41, 0x50, 0x52]) e.mend
  nrec := unlessWriter op (encSetup ++ [0x30, 0x42, 0x50, 0x52, 0x54]) e.nrec
  eerrinfo := unlessWriter op [0x01] e.eerrinfo
  flags := e.flags.unwritten op
  eerr := unlessWriter op [0x01] e.eerr
  lens := unlessWriter op (encSetup ++ [0x30, 0x42, 0x50, 0x52, 0x54]) e.lens
  offsets := unlessWriter op (encSetup ++ [0x30, 0x42, 0x50, 0x52, 0x54]) e.offsets
  datalens := unlessWriter op (encSetup ++ [0x30, 0x42, 0x50, 0x52, 0x53, 0x54]) e.datalens
  dataOffsets := unlessWriter op (encSetup ++ [0x30, 0x42, 0x50, 0x52, 0x53, 0x54]) e.dataOffsets
  buf := unlessWriter op (encSetup ++ [0x30]) e.buf
  ht := unlessWriter op (encSetup ++ [0x20, 0x21, 0x50, 0x51, 0x52]) e.ht

/-- The part of the decoder context a command of opcode `op` leaves, by R41, R63 and R111. -/
def Dec.unwritten (op : Byte) (d : Dec) : Dec where
  dB := unlessWriter op decSetup d.dB
  dSize0 := unlessWriter op decSetup d.dSize0
  dData := unlessWriter op (decSetup ++ [0x61, 0x62]) d.dData
  dLast := unlessWriter op (decSetup ++ [0x61, 0x62, 0x63]) d.dLast
  dFilled := unlessWriter op (decSetup ++ [0x61, 0x62]) d.dFilled
  derrinfo := unlessWriter op [0x01] d.derrinfo
  flags :=
    { dok := unlessWriter op decSetup d.flags.dok
      block0 := unlessWriter op (decSetup ++ [0x61, 0x62]) d.flags.block0
      dfault := unlessWriter op [0x01] d.flags.dfault }
  derr := unlessWriter op [0x01] d.derr
  seg0 := unlessWriter op (decSetup ++ [0x61, 0x62]) d.seg0
  seg1 := unlessWriter op (decSetup ++ [0x61, 0x62]) d.seg1

/-- The part of the ports a command of opcode `op` leaves (R116 to R119). -/
def Ports.unwritten (op : Byte) (p : Ports) : Ports where
  ein := unlessWriter op [0x30] p.ein
  din := unlessWriter op [0x61] p.din
  eoutAnswers := unlessWriter op [0x33] p.eoutAnswers
  doutAnswers := unlessWriter op [0x61, 0x62, 0x63] p.doutAnswers
  eout := unlessWriter op [0x33] p.eout
  dout := unlessWriter op [0x61, 0x62, 0x63] p.dout
  einUnoffered := unlessWriter op [0x30] p.einUnoffered
  dinUnoffered := unlessWriter op [0x61] p.dinUnoffered

/-- The part of the state a command of opcode `op` leaves. -/
def State.unwritten (op : Byte) (s : State) : State :=
  { s with
    enc := s.enc.unwritten op, dec := s.dec.unwritten op, ports := s.ports.unwritten op
    arg0 := unlessWriter op [0x01] s.arg0
    arg1 := unlessWriter op [0x01] s.arg1
    rIdx := unlessWriter op [0x01] s.rIdx }

/-! ### The lines of the encoder context -/

/-- HROLL's lines, in HROLL, STEP, SKIP and SCAN.  The values written are variables here, so that no check of a use of
this lemma evaluates a hash. -/
theorem Enc.unwritten_setHash {op : Byte} (hop : op ∈ [0x14, 0x50, 0x51, 0x52]) (hash i : Word) (e : Enc) :
    Enc.unwritten op { e with hash := hash, i := i, flags := e.flags.clearCand } = e.unwritten op := by
  simp only [List.mem_cons, List.not_mem_nil, or_false] at hop
  obtain rfl | rfl | rfl | rfl := hop <;> rfl

theorem hrollLines_unwritten {op : Byte} (hop : op ∈ [0x14, 0x50, 0x51, 0x52]) (e : Enc) :
    (hrollLines e).final.unwritten op = e.unwritten op := by
  obtain ⟨-, h⟩ | ⟨-, -, h⟩ | ⟨-, -, ⟨-, h⟩ | ⟨out, -, ⟨-, h⟩ | ⟨inn, -, h⟩⟩⟩ := hrollLines_cases e <;> rw [h]
  · rfl
  · rfl
  · rfl
  · rfl
  · exact Enc.unwritten_setHash hop _ _ e

theorem Enc.unwritten_clearCand {op : Byte} (hop : op ∈ candWriters) (e : Enc) :
    e.clearCand.unwritten op = e.unwritten op := by
  simp only [List.mem_cons, List.mem_append, List.not_mem_nil, or_false, or_assoc] at hop
  obtain rfl | rfl | rfl | rfl | rfl | rfl | rfl | rfl | rfl | rfl | rfl | rfl | rfl | rfl | rfl := hop <;> rfl

theorem cfgLines_unwritten (caps : Caps) (e : Enc) (hf : e.flags.efault = false) :
    (cfgLines caps e).final.unwritten 0x10 = e.unwritten 0x10 := by
  unfold cfgLines
  iterate 9 refine Run.final_guard (fun u : Enc => u.unwritten 0x10 = e.unwritten 0x10) rfl ?_
  simp [configured, Enc.unwritten, EFlags.unwritten, unlessWriter, hf]

theorem hclrLines_unwritten (e : Enc) : (hclrLines e).final.unwritten 0x11 = e.unwritten 0x11 := rfl

theorem Enc.unwritten_hupd (hash : Word) (e : Enc) :
    Enc.unwritten 0x12 { e with hash := hash, flags := e.flags.dropHash } = e.unwritten 0x12 := rfl

theorem hupdLines_unwritten (out inn : Nat) (e : Enc) :
    (hupdLines out inn e).final.unwritten 0x12 = e.unwritten 0x12 :=
  Enc.unwritten_hupd _ e

theorem Enc.unwritten_hinit {op : Byte} (hop : op ∈ [0x13, 0x52]) (hash : Word) (e : Enc) :
    Enc.unwritten op { e with hash := hash, flags := { e.flags.clearCand with hvalid := true } } = e.unwritten op := by
  simp only [List.mem_cons, List.not_mem_nil, or_false] at hop
  obtain rfl | rfl := hop <;> rfl

theorem hinitLines_unwritten {op : Byte} (hop : op ∈ [0x13, 0x52]) (e : Enc) :
    (hinitLines e).final.unwritten op = e.unwritten op := by
  obtain ⟨-, h⟩ | ⟨-, a, -, h⟩ | ⟨-, bs, -, h⟩ := hinitLines_cases e <;> rw [h]
  · rfl
  · rfl
  · exact Enc.unwritten_hinit hop _ e

theorem htclrLines_unwritten (e : Enc) : (htclrLines e).final.unwritten 0x20 = e.unwritten 0x20 := rfl

theorem Enc.unwritten_setHt {op : Byte} (hop : op ∈ [0x21, 0x50, 0x51, 0x52]) (t : Table) (e : Enc) :
    Enc.unwritten op { e with ht := t } = e.unwritten op := by
  simp only [List.mem_cons, List.not_mem_nil, or_false] at hop
  obtain rfl | rfl | rfl | rfl := hop <;> rfl

theorem insertLines_unwritten {op : Byte} (hop : op ∈ [0x21, 0x50, 0x51, 0x52]) (e : Enc) :
    (insertLines e).final.unwritten op = e.unwritten op := by
  obtain ⟨-, h⟩ | ⟨-, -, h⟩ | ⟨-, -, h⟩ := insertLines_cases e <;> rw [h]
  · rfl
  · rfl
  · exact Enc.unwritten_setHt hop _ e

theorem probeLines_unwritten {op : Byte} (hop : op ∈ [0x22, 0x50, 0x52]) (e : Enc) :
    (probeLines e).final.unwritten op = e.unwritten op := by
  simp only [List.mem_cons, List.not_mem_nil, or_false] at hop
  obtain ⟨-, h⟩ | ⟨-, -, h⟩ | ⟨-, -, h⟩ := probeLines_cases e <;> rw [h] <;> obtain rfl | rfl | rfl := hop <;> rfl

theorem seekLines_unwritten (p : Word) (e : Enc) : (seekLines p e).final.unwritten 0x31 = e.unwritten 0x31 := by
  obtain ⟨-, h⟩ | ⟨-, h⟩ := seekLines_cases p e <;> rw [h] <;> rfl

theorem boundsLines_unwritten {op : Byte} (hop : op ∈ [0x32, 0x50, 0x52]) (e : Enc) :
    (boundsLines e).final.unwritten op = e.unwritten op := by
  simp only [List.mem_cons, List.not_mem_nil, or_false] at hop
  obtain ⟨-, h⟩ | ⟨-, -, -, -, h⟩ | ⟨-, -, -, h⟩ := boundsLines_cases e <;> rw [h] <;>
    obtain rfl | rfl | rfl := hop <;> rfl

theorem extbLines_unwritten {op : Byte} (hop : op ∈ [0x40, 0x50, 0x52]) (e : Enc) :
    (extbLines e).final.unwritten op = e.unwritten op := by
  simp only [List.mem_cons, List.not_mem_nil, or_false] at hop
  obtain ⟨-, h⟩ | ⟨-, a, -, h⟩ | ⟨-, p, -, h⟩ := extbLines_cases e <;> rw [h] <;>
    obtain rfl | rfl | rfl := hop <;> rfl

theorem extfLines_unwritten {op : Byte} (hop : op ∈ [0x41, 0x50, 0x52]) (e : Enc) :
    (extfLines e).final.unwritten op = e.unwritten op := by
  simp only [List.mem_cons, List.not_mem_nil, or_false] at hop
  obtain ⟨-, h⟩ | ⟨-, a, -, h⟩ | ⟨-, q, -, h⟩ := extfLines_cases e <;> rw [h] <;>
    obtain rfl | rfl | rfl := hop <;> rfl

theorem commitLines_unwritten {op : Byte} (hop : op ∈ [0x42, 0x50, 0x52]) (recCap : Nat) (e : Enc) :
    (commitLines recCap e).final.unwritten op = e.unwritten op := by
  simp only [List.mem_cons, List.not_mem_nil, or_false] at hop
  obtain ⟨-, h⟩ | ⟨-, -, -, h⟩ | ⟨-, -, -, -, h⟩ | ⟨-, -, -, -, h⟩ := commitLines_cases recCap e <;> rw [h] <;>
    obtain rfl | rfl | rfl := hop <;> rfl

/-- What lines with a given write set leave: the relation the composite commands are proved with, kept from part to
part. -/
abbrev Enc.Leaves (op : Byte) (e₀ e : Enc) : Prop := e.unwritten op = e₀.unwritten op

section Composite

variable {op : Byte} {e₀ : Enc}

theorem verifyLines_unwritten (hop : op ∈ [0x50, 0x52]) (recCap : Nat) (e : Enc) (he : Enc.Leaves op e₀ e) :
    Enc.Leaves op e₀ (verifyLines recCap e).final := by
  have hb : op ∈ [0x32, 0x50, 0x52] := List.mem_cons_of_mem _ hop
  have hs : op ∈ [0x40, 0x50, 0x52] := List.mem_cons_of_mem _ hop
  have he' : op ∈ [0x41, 0x50, 0x52] := List.mem_cons_of_mem _ hop
  have hc : op ∈ [0x42, 0x50, 0x52] := List.mem_cons_of_mem _ hop
  refine Run.final_andThen (Enc.Leaves op e₀) _ _ ((boundsLines_unwritten hb e).trans he) fun e he => ?_
  split
  · refine Run.final_andThen (Enc.Leaves op e₀) _ _ (Run.final_andThen (Enc.Leaves op e₀) _ _ ?_ ?_) ?_
    · exact (extbLines_unwritten hs e).trans he
    · exact fun e he => (extfLines_unwritten he' e).trans he
    · exact fun e he => (commitLines_unwritten hc recCap e).trans he
  · exact he

theorem searchLines_unwritten (hop : op ∈ [0x50, 0x52]) (recCap : Nat) (e : Enc) (he : Enc.Leaves op e₀ e) :
    Enc.Leaves op e₀ (searchLines recCap e).final := by
  unfold searchLines
  split
  · refine Run.final_andThen (Enc.Leaves op e₀) _ _
      ((probeLines_unwritten (List.mem_cons_of_mem _ hop) e).trans he) fun e he => ?_
    split
    · exact verifyLines_unwritten hop recCap e he
    · exact he
  · exact he

theorem anchorLines_unwritten (hop : op ∈ [0x50, 0x51, 0x52]) (e : Enc) (he : Enc.Leaves op e₀ e) :
    Enc.Leaves op e₀ (anchorLines e).final := by
  unfold anchorLines
  split
  · exact (insertLines_unwritten (List.mem_cons_of_mem _ hop) e).trans he
  · exact he

theorem Enc.unwritten_clearMatched (hop : op ∈ [0x50, 0x52]) (e : Enc) :
    Enc.unwritten op { e with flags := { e.flags with matched := false } } = e.unwritten op := by
  simp only [List.mem_cons, List.not_mem_nil, or_false] at hop
  obtain rfl | rfl := hop <;> rfl

theorem stepLines_unwritten (hop : op ∈ [0x50, 0x52]) (recCap : Nat) (e : Enc) (he : Enc.Leaves op e₀ e) :
    Enc.Leaves op e₀ (stepLines recCap e).final := by
  have hop' : op ∈ [0x50, 0x51, 0x52] := by
    simp only [List.mem_cons] at hop ⊢
    tauto
  refine Run.final_guard (Enc.Leaves op e₀) he (Run.final_guard (Enc.Leaves op e₀) he ?_)
  refine Run.final_andThen (Enc.Leaves op e₀) _ _ (Run.final_andThen (Enc.Leaves op e₀) _ _ ?_ ?_) ?_
  · exact searchLines_unwritten hop recCap _ ((Enc.unwritten_clearMatched hop e).trans he)
  · exact fun e he => anchorLines_unwritten hop' e he
  · exact fun e he => (hrollLines_unwritten (List.mem_cons_of_mem _ hop') e).trans he

theorem skipLoop_unwritten (hop : op ∈ [0x51, 0x52]) : ∀ (n : Nat) (e : Enc), Enc.Leaves op e₀ e →
    Enc.Leaves op e₀ (skipLoop n e).final
  | 0, _, he => he
  | n + 1, e, he => by
    have hop' : op ∈ [0x50, 0x51, 0x52] := List.mem_cons_of_mem _ hop
    rw [skipLoop]
    split
    · exact he
    · refine Run.final_andThen (Enc.Leaves op e₀) _ _ (Run.final_andThen (Enc.Leaves op e₀) _ _ ?_ ?_)
        (skipLoop_unwritten hop n)
      · exact anchorLines_unwritten hop' e he
      · exact fun e he => (hrollLines_unwritten (List.mem_cons_of_mem _ hop') e).trans he

theorem skipLines_unwritten (hop : op ∈ [0x51, 0x52]) (e : Enc) (he : Enc.Leaves op e₀ e) :
    Enc.Leaves op e₀ (skipLines e).final := by
  have hc : op ∈ candWriters := by
    simp only [List.mem_cons, List.not_mem_nil, or_false] at hop
    obtain rfl | rfl := hop <;> decide
  exact Run.final_guard (Enc.Leaves op e₀) he
    (skipLoop_unwritten hop _ _ ((Enc.unwritten_clearCand hc e).trans he))

theorem rehashLines_unwritten (e : Enc) (he : Enc.Leaves 0x52 e₀ e) : Enc.Leaves 0x52 e₀ (rehashLines e).final := by
  unfold rehashLines
  split
  · exact he
  · exact (hinitLines_unwritten (by decide) e).trans he

theorem blockLines_unwritten (recCap : Nat) (e : Enc) (he : Enc.Leaves 0x52 e₀ e) :
    Enc.Leaves 0x52 e₀ (blockLines recCap e).final := by
  refine Run.final_andThen (Enc.Leaves 0x52 e₀) _ _
    (Run.final_andThen (Enc.Leaves 0x52 e₀) _ _ (rehashLines_unwritten e he) fun e he => ?_)
    (skipLines_unwritten (by decide))
  exact Run.final_times (Enc.Leaves 0x52 e₀) _ (stepLines_unwritten (by decide) recCap) _ e he

theorem scanLoop_unwritten (recCap : Nat) : ∀ (n : Nat) (e : Enc), Enc.Leaves 0x52 e₀ e →
    Enc.Leaves 0x52 e₀ (scanLoop recCap n e).final
  | 0, _, he => he
  | n + 1, e, he => by
    obtain ⟨-, h⟩ | ⟨-, h⟩ := scanLoop_succ recCap n e <;> rw [h]
    · exact he
    · exact Run.final_andThen (Enc.Leaves 0x52 e₀) _ _ (blockLines_unwritten recCap e he)
        (scanLoop_unwritten recCap n)

end Composite

theorem restart_unwritten (e : Enc) : (restart e).unwritten 0x52 = e.unwritten 0x52 := by
  unfold restart
  split <;> rfl

theorem scanLines_unwritten (recCap : Nat) (e : Enc) :
    (scanLines recCap e).final.unwritten 0x52 = e.unwritten 0x52 :=
  Run.final_guard (Enc.Leaves 0x52 e) rfl <|
    Run.final_andThen (Enc.Leaves 0x52 e) _ _ (scanLoop_unwritten recCap _ _ (restart_unwritten e)) fun _ he => he

theorem closeRun_unwritten (tail : Word) (e : Enc) : (closeRun tail e).unwritten 0x53 = e.unwritten 0x53 := by
  unfold closeRun
  split <;> rfl

theorem endcycLines_unwritten (recCap : Nat) (e : Enc) :
    (endcycLines recCap e).final.unwritten 0x53 = e.unwritten 0x53 := by
  refine Run.final_guard (Enc.Leaves 0x53 e) rfl (Run.final_guard (Enc.Leaves 0x53 e) rfl ?_)
  split
  · exact closeRun_unwritten e.cfgB e
  · exact closeRun_unwritten e.lastI e

theorem finalLines_unwritten (recCap : Nat) (e : Enc) :
    (finalLines recCap e).final.unwritten 0x54 = e.unwritten 0x54 := by
  unfold finalLines
  iterate 3 refine Run.final_guard (Enc.Leaves 0x54 e) rfl ?_
  rfl

/-! ### The lines of the decoder context -/

theorem dinitLines_unwritten (caps : Caps) (B s0 : Word) (d : Dec) (hf : d.flags.dfault = false) :
    (dinitLines caps B s0 d).final.unwritten 0x60 = d.unwritten 0x60 := by
  unfold dinitLines
  iterate 6 refine Run.final_guard (fun u : Dec => u.unwritten 0x60 = d.unwritten 0x60) rfl ?_
  simp [setUp, Dec.unwritten, unlessWriter, hf]

theorem Dec.setCur_unwritten {op : Byte} (hop : op ∈ [0x61, 0x62]) (m : Memory) (d : Dec) :
    (d.setCur m).unwritten op = d.unwritten op := by
  simp only [List.mem_cons, List.not_mem_nil, or_false] at hop
  unfold Dec.setCur
  split <;> obtain rfl | rfl := hop <;> rfl

theorem Dec.advance_unwritten {op : Byte} (hop : op ∈ [0x61, 0x62]) (c : Nat) (d : Dec) :
    (d.advance c).unwritten op = d.unwritten op := by
  simp only [List.mem_cons, List.not_mem_nil, or_false] at hop
  obtain rfl | rfl := hop <;> rfl

theorem Dec.switch_unwritten {op : Byte} (hop : op ∈ [0x61, 0x62]) (d : Dec) :
    d.switch.unwritten op = d.unwritten op := by
  simp only [List.mem_cons, List.not_mem_nil, or_false] at hop
  obtain rfl | rfl := hop <;> rfl

theorem Dec.markFlushed_unwritten {op : Byte} (hop : op ∈ [0x61, 0x62, 0x63]) (d : Dec) :
    d.markFlushed.unwritten op = d.unwritten op := by
  simp only [List.mem_cons, List.not_mem_nil, or_false] at hop
  obtain rfl | rfl | rfl := hop <;> rfl

theorem putBytes_unwritten (bs : List Byte) (d : Dec) : (putBytes bs d).unwritten 0x61 = d.unwritten 0x61 :=
  (Dec.advance_unwritten (by decide) _ _).trans (Dec.setCur_unwritten (by decide) _ d)

theorem copyBytes_unwritten : ∀ (c : Nat) (src : Bool) (so dst : Nat) (d : Dec),
    (copyBytes c src so dst d).final.unwritten 0x62 = d.unwritten 0x62
  | 0, _, _, _, _ => rfl
  | c + 1, src, so, dst, d => by
    rw [copyBytes]
    split
    next => rfl
    next b _ => exact (copyBytes_unwritten c src _ _ _).trans (Dec.setCur_unwritten (by decide) _ d)

theorem subCopy_unwritten (offset c : Nat) (d : Dec) :
    (subCopy offset c d).final.unwritten 0x62 = d.unwritten 0x62 :=
  Run.final_andThen (fun u : Dec => u.unwritten 0x62 = d.unwritten 0x62) _ _ (copyBytes_unwritten _ _ _ _ d)
    fun _ he => (Dec.advance_unwritten (by decide) _ _).trans he

/-! ### Lines of the whole state -/

/-- The relation of `Enc.Leaves` for whole states. -/
abbrev State.Leaves (op : Byte) (s₀ s : State) : Prop := s.unwritten op = s₀.unwritten op

theorem State.unwritten_setEnc {op : Byte} {e : Enc} (s : State) (he : e.unwritten op = s.enc.unwritten op) :
    State.unwritten op { s with enc := e } = s.unwritten op := by
  simp only [State.unwritten, he]

theorem State.unwritten_setDec {op : Byte} {d : Dec} (s : State) (hd : d.unwritten op = s.dec.unwritten op) :
    State.unwritten op { s with dec := d } = s.unwritten op := by
  simp only [State.unwritten, hd]

theorem onEnc_unwritten {op : Byte} {f : Enc → Run Enc} {s : State}
    (hf : (f s.enc).final.unwritten op = s.enc.unwritten op) : (onEnc f s).final.unwritten op = s.unwritten op := by
  rw [final_onEnc]
  exact State.unwritten_setEnc s hf

theorem onDec_unwritten {op : Byte} {f : Dec → Run Dec} {s : State}
    (hf : (f s.dec).final.unwritten op = s.dec.unwritten op) : (onDec f s).final.unwritten op = s.unwritten op := by
  rw [final_onDec]
  exact State.unwritten_setDec s hf

theorem fillLines_unwritten (s : State) : (fillLines s).final.unwritten 0x30 = s.unwritten 0x30 := by
  unfold fillLines
  iterate 5 refine Run.final_guard (State.Leaves 0x30 s) rfl ?_
  rfl

theorem eoutPut_unwritten (bytes : List Byte) (s : State) :
    (eoutPut bytes s).final.unwritten 0x33 = s.unwritten 0x33 := by
  obtain ⟨-, h⟩ | ⟨-, h⟩ := eoutPut_cases bytes s <;> rw [h] <;> rfl

theorem rdlitLines_unwritten (s : State) : (rdlitLines s).final.unwritten 0x33 = s.unwritten 0x33 := by
  refine Run.final_guard (State.Leaves 0x33 s) rfl ?_
  split
  · rfl
  split
  · rfl
  · exact eoutPut_unwritten _ s

theorem doutPut_unwritten {op : Byte} (hop : op ∈ [0x61, 0x62, 0x63]) (bytes : List Byte) (s : State) :
    (doutPut bytes s).final.unwritten op = s.unwritten op := by
  simp only [List.mem_cons, List.not_mem_nil, or_false] at hop
  obtain ⟨-, h⟩ | ⟨-, h⟩ := doutPut_cases bytes s <;> rw [h] <;> obtain rfl | rfl | rfl := hop <;> rfl

theorem flushLines_unwritten {op : Byte} (hop : op ∈ [0x61, 0x62, 0x63]) (s : State) :
    (flushLines s).final.unwritten op = s.unwritten op := by
  have hmark : ∀ u : State, State.unwritten op { u with dec := u.dec.markFlushed } = u.unwritten op := fun u =>
    State.unwritten_setDec u (Dec.markFlushed_unwritten hop u.dec)
  obtain ⟨-, h⟩ | ⟨-, ⟨a, -, h⟩ | ⟨bs, -, h⟩⟩ := flushLines_cases s <;> rw [h]
  · exact hmark s
  · rfl
  · exact Run.final_andThen (State.Leaves op s) _ _ (doutPut_unwritten hop bs s) fun u hu => (hmark u).trans hu

theorem makeRoom_unwritten {op : Byte} (hop : op ∈ [0x61, 0x62]) (s : State) :
    (makeRoom s).final.unwritten op = s.unwritten op := by
  have hop' : op ∈ [0x61, 0x62, 0x63] := by
    simp only [List.mem_cons] at hop ⊢
    tauto
  unfold makeRoom
  split
  · refine Run.final_andThen (State.Leaves op s) _ _ (flushLines_unwritten hop' s) fun u hu => ?_
    exact (State.unwritten_setDec u (Dec.switch_unwritten hop u.dec)).trans hu
  · rfl

/-- One sub-copy of DLIT: bytes from DIN to CUR. -/
theorem State.unwritten_subCopy (c : Nat) (s : State) :
    State.unwritten 0x61 { s with dec := putBytes (dinTake c s.ports).1 s.dec, ports := (dinTake c s.ports).2 } =
      s.unwritten 0x61 := by
  have hp : (dinTake c s.ports).2.unwritten 0x61 = s.ports.unwritten 0x61 := rfl
  simp only [State.unwritten, putBytes_unwritten, hp]

theorem dlitLoop_unwritten {s₀ : State} : ∀ (fuel n : Nat) (s : State), State.Leaves 0x61 s₀ s →
    State.Leaves 0x61 s₀ (dlitLoop fuel n s).final
  | 0, _, _, hs => hs
  | fuel + 1, n, s, hs => by
    rw [dlitLoop]
    split
    · exact hs
    · refine Run.final_andThen (State.Leaves 0x61 s₀) _ _ ((makeRoom_unwritten (by decide) s).trans hs) fun s hs => ?_
      exact dlitLoop_unwritten fuel _ _ ((State.unwritten_subCopy _ s).trans hs)

theorem dlitLines_unwritten (s : State) : (dlitLines s).final.unwritten 0x61 = s.unwritten 0x61 :=
  Run.final_guard (State.Leaves 0x61 s) rfl (dlitLoop_unwritten _ _ s rfl)

theorem dmatchLoop_unwritten {s₀ : State} (offset : Nat) : ∀ (fuel len : Nat) (s : State), State.Leaves 0x62 s₀ s →
    State.Leaves 0x62 s₀ (dmatchLoop offset fuel len s).final
  | 0, _, _, hs => hs
  | fuel + 1, len, s, hs => by
    rw [dmatchLoop]
    split
    · exact hs
    · refine Run.final_andThen (State.Leaves 0x62 s₀) _ _ ((makeRoom_unwritten (by decide) s).trans hs) fun s hs => ?_
      exact Run.final_andThen (State.Leaves 0x62 s₀) _ _ ((onDec_unwritten (subCopy_unwritten offset _ s.dec)).trans hs)
        (dmatchLoop_unwritten offset fuel _)

theorem dmatchLines_unwritten (s : State) : (dmatchLines s).final.unwritten 0x62 = s.unwritten 0x62 := by
  unfold dmatchLines
  iterate 3 refine Run.final_guard (State.Leaves 0x62 s) rfl ?_
  exact dmatchLoop_unwritten _ _ _ s rfl

end Sys2Proof.Machine
end

section
/-! PROOFS. What a command and a step can do, once: which part of the state a command leaves, what becomes of a context
that is not the command's own, and the operations of the host case by case; and the statements that follow register by
register. -/

namespace Sys2Proof.Machine

open Sys2Proof

/-! ### Taking a fault -/

/-- The encoder context without its error registers. -/
def Enc.unfault (e : Enc) : Enc := { e with eerr := 0, eerrinfo := 0, flags := { e.flags with efault := false } }

/-- The decoder context without its error registers. -/
def Dec.unfault (d : Dec) : Dec := { d with derr := 0, derrinfo := 0, flags := { d.flags with dfault := false } }

theorem default_word : (default : Word) = 0 := rfl

theorem Enc.unwritten_unfault (op : Byte) (e : Enc) : e.unfault.unwritten op = (e.unwritten op).unfault := by
  simp [Enc.unwritten, EFlags.unwritten, Enc.unfault, unlessWriter, default_word]

theorem Dec.unwritten_unfault (op : Byte) (d : Dec) : d.unfault.unwritten op = (d.unwritten op).unfault := by
  simp [Dec.unwritten, Dec.unfault, unlessWriter, default_word]

@[simp] theorem raise_enc_unfault (c : Ctx) (x : Exn) (n : Nat) (s : State) :
    (raise c x n s).enc.unfault = s.enc.unfault := by
  unfold raise
  split
  · rfl
  · cases c <;> rfl

@[simp] theorem raise_dec_unfault (c : Ctx) (x : Exn) (n : Nat) (s : State) :
    (raise c x n s).dec.unfault = s.dec.unfault := by
  unfold raise
  split
  · rfl
  · cases c <;> rfl

theorem raise_of_faulted {c : Ctx} {s : State} (h : faulted c s = true) (x : Exn) (n : Nat) : raise c x n s = s :=
  if_pos h

/-- Where the encoder context was faulted before, or is not faulted after, no fault was recorded in it. -/
theorem raise_enc_eq {c : Ctx} {x : Exn} {n : Nat} {s : State}
    (h : s.enc.flags.efault = true ∨ (raise c x n s).enc.flags.efault = false) : (raise c x n s).enc = s.enc := by
  cases c with
  | dec => exact raise_dec_enc x n s
  | enc =>
    have hf : (raise .enc x n s).enc.flags.efault = true := faulted_raise .enc x n s
    rw [raise_of_faulted (c := .enc) (h.resolve_right (by simp [hf]))]

/-- Where the decoder context was faulted before, or is not faulted after, no fault was recorded in it. -/
theorem raise_dec_eq {c : Ctx} {x : Exn} {n : Nat} {s : State}
    (h : s.dec.flags.dfault = true ∨ (raise c x n s).dec.flags.dfault = false) : (raise c x n s).dec = s.dec := by
  cases c with
  | enc => exact raise_enc_dec x n s
  | dec =>
    have hf : (raise .dec x n s).dec.flags.dfault = true := faulted_raise .dec x n s
    rw [raise_of_faulted (c := .dec) (h.resolve_right (by simp [hf]))]

/-! ### What a command leaves -/

/-- The context as the owner of commands. -/
def Ctx.owner : Ctx → Owner
  | .enc => .encoder
  | .dec => .decoder

/-- From `s` to `t` a command of opcode `op` has written no register but its own, and has then taken at most one fault,
in its own context. -/
def WritesWithin (op : Byte) (s t : State) : Prop :=
  ∃ u : State, u.unwritten op = s.unwritten op ∧
    (t = u ∨ ∃ c x n, contextOf op = Ctx.owner c ∧ t = raise c x n u)

theorem unlessFaulted_writesWithin {op : Byte} {c : Ctx} {body : State → Run State} {s t : State}
    (hc : contextOf op = c.owner) (hb : faulted c s = false → (body s).final.unwritten op = s.unwritten op)
    (h : unlessFaulted c body s = .next t) : WritesWithin op s t := by
  unfold unlessFaulted at h
  cases h
  split
  next => exact ⟨s, rfl, .inl rfl⟩
  next hf =>
    obtain ⟨u, hr, he⟩ | ⟨u, x, n, hr, he⟩ := finish_cases c (body s) <;>
      refine ⟨u, by simpa [hr] using hb (by simpa using hf), ?_⟩ <;> rw [he]
    · exact .inl rfl
    · exact .inr ⟨c, x, n, hc, rfl⟩

theorem encCommand_writesWithin {op : Byte} {body : State → Run State} {s t : State} (hc : contextOf op = .encoder)
    (hb : (body s).final.unwritten op = s.unwritten op) (h : encCommand op body s = .next t) : WritesWithin op s t := by
  refine unlessFaulted_writesWithin (c := .enc) hc (fun _ => ?_) h
  split
  · exact hb
  · rfl

theorem decCommand_writesWithin {op : Byte} {body : State → Run State} {s t : State} (hc : contextOf op = .decoder)
    (hb : (body s).final.unwritten op = s.unwritten op) (h : decCommand op body s = .next t) : WritesWithin op s t := by
  refine unlessFaulted_writesWithin (c := .dec) hc (fun _ => ?_) h
  split
  · exact hb
  · rfl

theorem resetContexts_unwritten (ctx : Nat) (s : State) : (resetContexts ctx s).unwritten 0x01 = s.unwritten 0x01 := by
  have henc : ∀ u : State, (if ctx.testBit 0 then resetEnc u else u).unwritten 0x01 = u.unwritten 0x01 := fun u => by
    split <;> rfl
  have hdec : ∀ u : State, (if ctx.testBit 1 then resetDec u else u).unwritten 0x01 = u.unwritten 0x01 := fun u => by
    split <;> rfl
  have hshared : ∀ u : State, (if ctx = 3 then resetShared u else u).unwritten 0x01 = u.unwritten 0x01 := fun u => by
    split <;> rfl
  exact (hshared _).trans ((hdec _).trans (henc s))

/-- Every command writes within its rows of the register map and the flag tables. -/
theorem exec_writesWithin {i : Instr} {s t : State} (h : exec i s = .next t) : WritesWithin (opcode i) s t := by
  cases i with
  | nop => cases h; exact ⟨s, rfl, .inl rfl⟩
  | reset ctx => cases h; exact ⟨_, resetContexts_unwritten ctx s, .inl rfl⟩
  | cfg =>
    exact unlessFaulted_writesWithin (c := .enc) rfl
      (fun hf => onEnc_unwritten (cfgLines_unwritten s.caps s.enc hf)) h
  | hclr => exact encCommand_writesWithin rfl (onEnc_unwritten (hclrLines_unwritten s.enc)) h
  | hupd out inn =>
    exact encCommand_writesWithin (op := 0x12) rfl (onEnc_unwritten (hupdLines_unwritten out inn s.enc)) h
  | hinit => exact encCommand_writesWithin rfl (onEnc_unwritten (hinitLines_unwritten (by decide) s.enc)) h
  | hroll => exact encCommand_writesWithin rfl (onEnc_unwritten (hrollLines_unwritten (by decide) s.enc)) h
  | htclr => exact encCommand_writesWithin rfl (onEnc_unwritten (htclrLines_unwritten s.enc)) h
  | insert => exact encCommand_writesWithin rfl (onEnc_unwritten (insertLines_unwritten (by decide) s.enc)) h
  | probe => exact encCommand_writesWithin rfl (onEnc_unwritten (probeLines_unwritten (by decide) s.enc)) h
  | fill => exact encCommand_writesWithin rfl (fillLines_unwritten s) h
  | seek => exact encCommand_writesWithin rfl (onEnc_unwritten (seekLines_unwritten s.arg0 s.enc)) h
  | bounds => exact encCommand_writesWithin rfl (onEnc_unwritten (boundsLines_unwritten (by decide) s.enc)) h
  | rdlit => exact encCommand_writesWithin rfl (rdlitLines_unwritten s) h
  | extb => exact encCommand_writesWithin rfl (onEnc_unwritten (extbLines_unwritten (by decide) s.enc)) h
  | extf => exact encCommand_writesWithin rfl (onEnc_unwritten (extfLines_unwritten (by decide) s.enc)) h
  | commit => exact encCommand_writesWithin rfl (onEnc_unwritten (commitLines_unwritten (by decide) _ s.enc)) h
  | step => exact encCommand_writesWithin rfl (onEnc_unwritten (stepLines_unwritten (by decide) _ s.enc rfl)) h
  | skip => exact encCommand_writesWithin rfl (onEnc_unwritten (skipLines_unwritten (by decide) s.enc rfl)) h
  | scan => exact encCommand_writesWithin rfl (onEnc_unwritten (scanLines_unwritten _ s.enc)) h
  | endcyc => exact encCommand_writesWithin rfl (onEnc_unwritten (endcycLines_unwritten _ s.enc)) h
  | final => exact encCommand_writesWithin rfl (onEnc_unwritten (finalLines_unwritten _ s.enc)) h
  | dinit =>
    exact unlessFaulted_writesWithin (c := .dec) rfl
      (fun hf => onDec_unwritten (dinitLines_unwritten s.caps _ _ s.dec hf)) h
  | dlit => exact decCommand_writesWithin rfl (dlitLines_unwritten s) h
  | dmatch => exact decCommand_writesWithin rfl (dmatchLines_unwritten s) h
  | dflush => exact decCommand_writesWithin rfl (flushLines_unwritten (by decide) s) h

section WritesWithin

variable {op : Byte} {s t : State}

theorem WritesWithin.enc (h : WritesWithin op s t) : t.enc.unfault.unwritten op = s.enc.unfault.unwritten op := by
  obtain ⟨u, hu, ht⟩ := h
  have he : u.enc.unwritten op = s.enc.unwritten op := congrArg State.enc hu
  have hf : t.enc.unfault = u.enc.unfault := by
    obtain rfl | ⟨c, x, n, -, rfl⟩ := ht
    · rfl
    · exact raise_enc_unfault c x n u
  rw [hf, Enc.unwritten_unfault, Enc.unwritten_unfault, he]

theorem WritesWithin.dec (h : WritesWithin op s t) : t.dec.unfault.unwritten op = s.dec.unfault.unwritten op := by
  obtain ⟨u, hu, ht⟩ := h
  have hd : u.dec.unwritten op = s.dec.unwritten op := congrArg State.dec hu
  have hf : t.dec.unfault = u.dec.unfault := by
    obtain rfl | ⟨c, x, n, -, rfl⟩ := ht
    · rfl
    · exact raise_dec_unfault c x n u
  rw [hf, Dec.unwritten_unfault, Dec.unwritten_unfault, hd]

/-- Outside the contexts a fault changes nothing. -/
theorem WritesWithin.shared (h : WritesWithin op s t) :
    t.ports.unwritten op = s.ports.unwritten op ∧ t.caps = s.caps ∧ t.bus = s.bus ∧ t.reads = s.reads ∧
      (op ∉ [0x01] → t.arg0 = s.arg0 ∧ t.arg1 = s.arg1 ∧ t.rIdx = s.rIdx) := by
  obtain ⟨u, hu, ht⟩ := h
  have hp : t.ports = u.ports := by obtain rfl | ⟨c, x, n, -, rfl⟩ := ht <;> simp
  have hc : t.caps = u.caps := by obtain rfl | ⟨c, x, n, -, rfl⟩ := ht <;> simp
  have hb : t.bus = u.bus := by obtain rfl | ⟨c, x, n, -, rfl⟩ := ht <;> simp
  have hr : t.reads = u.reads := by obtain rfl | ⟨c, x, n, -, rfl⟩ := ht <;> simp
  have h0 : t.arg0 = u.arg0 := by obtain rfl | ⟨c, x, n, -, rfl⟩ := ht <;> simp
  have h1 : t.arg1 = u.arg1 := by obtain rfl | ⟨c, x, n, -, rfl⟩ := ht <;> simp
  have hi : t.rIdx = u.rIdx := by obtain rfl | ⟨c, x, n, -, rfl⟩ := ht <;> simp
  rw [hp, hc, hb, hr, h0, h1, hi]
  refine ⟨congrArg State.ports hu, (congrArg State.caps hu :), (congrArg State.bus hu :), (congrArg State.reads hu :),
    fun hw => ?_⟩
  exact ⟨eq_of_unlessWriter hw (congrArg State.arg0 hu), eq_of_unlessWriter hw (congrArg State.arg1 hu),
    eq_of_unlessWriter hw (congrArg State.rIdx hu)⟩

/-- The error registers of the encoder context change by a fault there only. -/
theorem WritesWithin.encErrors (h : WritesWithin op s t) (hw : op ∉ [0x01])
    (hf : s.enc.flags.efault = true ∨ t.enc.flags.efault = false) :
    t.enc.flags.efault = s.enc.flags.efault ∧ t.enc.eerr = s.enc.eerr ∧ t.enc.eerrinfo = s.enc.eerrinfo := by
  obtain ⟨u, hu, ht⟩ := h
  have he : u.enc.flags.efault = s.enc.flags.efault :=
    eq_of_unlessWriter hw (congrArg (fun s : State => s.enc.flags.efault) hu)
  have htu : t.enc = u.enc := by
    obtain rfl | ⟨c, x, n, -, rfl⟩ := ht
    · rfl
    · exact raise_enc_eq (he ▸ hf)
  rw [htu]
  exact ⟨he, eq_of_unlessWriter hw (congrArg (fun s : State => s.enc.eerr) hu),
    eq_of_unlessWriter hw (congrArg (fun s : State => s.enc.eerrinfo) hu)⟩

/-- The error registers of the decoder context change by a fault there only. -/
theorem WritesWithin.decErrors (h : WritesWithin op s t) (hw : op ∉ [0x01])
    (hf : s.dec.flags.dfault = true ∨ t.dec.flags.dfault = false) :
    t.dec.flags.dfault = s.dec.flags.dfault ∧ t.dec.derr = s.dec.derr ∧ t.dec.derrinfo = s.dec.derrinfo := by
  obtain ⟨u, hu, ht⟩ := h
  have he : u.dec.flags.dfault = s.dec.flags.dfault :=
    eq_of_unlessWriter hw (congrArg (fun s : State => s.dec.flags.dfault) hu)
  have htu : t.dec = u.dec := by
    obtain rfl | ⟨c, x, n, -, rfl⟩ := ht
    · rfl
    · exact raise_dec_eq (he ▸ hf)
  rw [htu]
  exact ⟨he, eq_of_unlessWriter hw (congrArg (fun s : State => s.dec.derr) hu),
    eq_of_unlessWriter hw (congrArg (fun s : State => s.dec.derrinfo) hu)⟩

end WritesWithin

/-! ### The context that is not the command's own -/

theorem unlessFaulted_of_faulted {c : Ctx} {s : State} (h : faulted c s = true) (body : State → Run State) :
    unlessFaulted c body s = .next s := by
  simp [unlessFaulted, h]

theorem encCommand_of_faulted {s : State} (h : s.enc.flags.efault = true) (op : Byte) (body : State → Run State) :
    encCommand op body s = .next s := unlessFaulted_of_faulted (c := .enc) h _

theorem decCommand_of_faulted {s : State} (h : s.dec.flags.dfault = true) (op : Byte) (body : State → Run State) :
    decCommand op body s = .next s := unlessFaulted_of_faulted (c := .dec) h _

/-- Every encoder command begins with the first test of the preamble (R170). -/
theorem exec_of_efault {i : Instr} {s : State} (h : owner i = .encoder) (hf : s.enc.flags.efault = true) :
    exec i s = .next s := by
  cases i with
  | nop | dinit | dlit | dmatch | dflush => exact absurd h (by decide)
  | reset ctx => exact absurd h (by simp [owner, opcode, contextOf])
  | cfg => exact unlessFaulted_of_faulted (c := .enc) hf _
  | _ => exact encCommand_of_faulted hf _ _

/-- Every decoder command begins with the first test of the preamble (R265). -/
theorem exec_of_dfault {i : Instr} {s : State} (h : owner i = .decoder) (hf : s.dec.flags.dfault = true) :
    exec i s = .next s := by
  cases i with
  | dinit => exact unlessFaulted_of_faulted (c := .dec) hf _
  | dlit | dmatch | dflush => exact decCommand_of_faulted hf _ _
  | reset | hupd => exact absurd h (by simp [owner, opcode, contextOf])
  | _ => exact absurd h (by decide)

/-- A command of another owner has no row in the encoder's tables. -/
theorem Enc.unwritten_of_owner {i : Instr} (h : owner i ≠ .encoder) (hr : ∀ c, i ≠ .reset c) (e : Enc) :
    e.unwritten (opcode i) = e := by
  cases i with
  | nop | dinit | dlit | dmatch | dflush => rfl
  | reset ctx => exact absurd rfl (hr ctx)
  | hupd => exact absurd (by simp [owner, opcode, contextOf]) h
  | _ => exact absurd (by decide) h

/-- A command of another owner has no row in the decoder's tables. -/
theorem Dec.unwritten_of_owner {i : Instr} (h : owner i ≠ .decoder) (hr : ∀ c, i ≠ .reset c) (d : Dec) :
    d.unwritten (opcode i) = d := by
  cases i with
  | dinit | dlit | dmatch | dflush => exact absurd (by decide) h
  | reset ctx => exact absurd rfl (hr ctx)
  | _ => rfl

/-- A command of another owner leaves the encoder context as it is. -/
theorem exec_enc_eq {i : Instr} {s t : State} (h : exec i s = .next t) (ho : owner i ≠ .encoder)
    (hr : ∀ c, i ≠ .reset c) : t.enc = s.enc := by
  obtain ⟨u, hu, ht⟩ := exec_writesWithin h
  have he : u.enc.unwritten (opcode i) = s.enc.unwritten (opcode i) := congrArg State.enc hu
  rw [Enc.unwritten_of_owner ho hr, Enc.unwritten_of_owner ho hr] at he
  obtain rfl | ⟨c, x, n, hc, rfl⟩ := ht
  · exact he
  · cases c with
    | enc => exact absurd hc ho
    | dec => rw [raise_dec_enc, he]

/-- A command of another owner leaves the decoder context as it is. -/
theorem exec_dec_eq {i : Instr} {s t : State} (h : exec i s = .next t) (ho : owner i ≠ .decoder)
    (hr : ∀ c, i ≠ .reset c) : t.dec = s.dec := by
  obtain ⟨u, hu, ht⟩ := exec_writesWithin h
  have hd : u.dec.unwritten (opcode i) = s.dec.unwritten (opcode i) := congrArg State.dec hu
  rw [Dec.unwritten_of_owner ho hr, Dec.unwritten_of_owner ho hr] at hd
  obtain rfl | ⟨c, x, n, hc, rfl⟩ := ht
  · exact hd
  · cases c with
    | dec => exact absurd hc ho
    | enc => rw [raise_enc_dec, hd]

/-! ### RESET -/

theorem resetContexts_enc (ctx : Nat) (s : State) :
    (resetContexts ctx s).enc = if ctx.testBit 0 then {} else s.enc := by
  simp only [resetContexts]
  split_ifs <;> rfl

theorem resetContexts_dec (ctx : Nat) (s : State) :
    (resetContexts ctx s).dec = if ctx.testBit 1 then {} else s.dec := by
  simp only [resetContexts]
  split_ifs <;> rfl

/-- RESET leaves the shared registers unless it names both contexts (R292). -/
theorem resetContexts_shared {ctx : Nat} (h : ctx ≠ 3) (s : State) :
    (resetContexts ctx s).arg0 = s.arg0 ∧ (resetContexts ctx s).arg1 = s.arg1 ∧
      (resetContexts ctx s).rIdx = s.rIdx := by
  simp only [resetContexts, if_neg h]
  split_ifs <;> exact ⟨rfl, rfl, rfl⟩

/-! ### A step -/

/-- A step is idle or a read, a write to a register, a command, a reserved command word, or the hardware reset; `u` is
the state once the host's operation is taken from those pending. -/
theorem step_cases {s t : State} (h : step s = .next t) :
    ∃ u : State, u.enc = s.enc ∧ u.dec = s.dec ∧ u.caps = s.caps ∧
      ((t.enc = u.enc ∧ t.dec = u.dec ∧ t.caps = u.caps) ∨ (∃ n v, t = busWrite n v u) ∨
        (∃ i, exec i u = .next t) ∨ (∃ w, t = illegalCommand w u) ∨ t = hardwareReset u) := by
  unfold step at h
  split at h
  case h_1 => cases h; exact ⟨s, rfl, rfl, rfl, .inl ⟨rfl, rfl, rfl⟩⟩
  case h_2 => cases h; exact ⟨s, rfl, rfl, rfl, .inl ⟨rfl, rfl, rfl⟩⟩
  case h_3 n v rest _ =>
    refine ⟨{ s with bus := rest }, rfl, rfl, rfl, ?_⟩
    split at h
    next =>
      unfold runCommand at h
      split at h
      next => cases h; exact .inr (.inr (.inr (.inl ⟨v, rfl⟩)))
      next i _ => exact .inr (.inr (.inl ⟨i, h⟩))
    next => cases h; exact .inr (.inl ⟨n.toNat, v, rfl⟩)
  case h_4 rest _ =>
    cases h
    exact ⟨{ s with bus := rest }, rfl, rfl, rfl, .inr (.inr (.inr (.inr rfl)))⟩

/-- A write to a register changes no context, or a stream parameter of an encoder context that is not configured
(R50, R294). -/
theorem busWrite_cases (n : Nat) (v : Word) (s : State) :
    (busWrite n v s).dec = s.dec ∧ (busWrite n v s).caps = s.caps ∧
    ((busWrite n v s).enc = s.enc ∨ s.enc.flags.cfgok = false ∧
      ∃ B M S D H A, (busWrite n v s).enc =
        { s.enc with cfgB := B, cfgM := M, cfgS := S, cfgD := D, cfgH := H, cfgA := A }) := by
  cases hc : s.enc.flags.cfgok with
  | true =>
    unfold busWrite writeCfg
    split <;> simp [hc]
  | false =>
    unfold busWrite writeCfg
    split
    iterate 6
      simp only [hc]
      exact ⟨rfl, rfl, .inr ⟨trivial, _, _, _, _, _, _, rfl⟩⟩
    all_goals exact ⟨rfl, rfl, .inl rfl⟩

/-- A reserved word raises a fault in a context or changes nothing there; the capacities stay (R147). -/
theorem illegalCommand_cases (w : Word) (s : State) :
    (illegalCommand w s).caps = s.caps ∧
    ((illegalCommand w s).enc = s.enc ∨ (illegalCommand w s).enc = (raise .enc .illegalCmd w.toNat s).enc) ∧
    ((illegalCommand w s).dec = s.dec ∨ ∃ u : State, u.dec = s.dec ∧
      (illegalCommand w s).dec = (raise .dec .illegalCmd w.toNat u).dec) := by
  unfold illegalCommand
  split
  · exact ⟨by simp, .inr rfl, .inl (by simp)⟩
  · exact ⟨by simp, .inl (by simp), .inr ⟨s, rfl, rfl⟩⟩
  · exact ⟨by simp, .inr (by simp), .inr ⟨_, by simp, rfl⟩⟩

end Sys2Proof.Machine
end

section
/-! PROOFS. The statements of `10_state.md` that follow from what a command leaves: the error registers, the
configuration, the registers and flags by their writers, the memories and ports. -/

namespace Sys2Proof.Machine

open Sys2Proof

/-! ### The error registers of a faulted context (R53, R63) -/

/-- In a faulted encoder context a step leaves the error registers and the flags, or RESET has returned it to its reset
state: its own commands do nothing, the others do not reach it. -/
theorem step_of_efault {s t : State} (h : step s = .next t) (hf : s.enc.flags.efault = true) :
    (t.enc.eerr = s.enc.eerr ∧ t.enc.eerrinfo = s.enc.eerrinfo ∧ t.enc.flags = s.enc.flags) ∨ EncIsReset t.enc := by
  have hreset : EncIsReset ({} : Enc) := ⟨[], rfl⟩
  obtain ⟨u, hue, -, -, hu⟩ := step_cases h
  rw [← hue] at hf ⊢
  obtain ⟨he, -⟩ | ⟨n, v, rfl⟩ | ⟨i, hi⟩ | ⟨w, rfl⟩ | rfl := hu
  · simp [he]
  · obtain ⟨-, -, he | ⟨-, B, M, S, D, H, A, he⟩⟩ := busWrite_cases n v u <;> simp [he]
  · by_cases hr : ∃ c, i = .reset c
    · obtain ⟨c, rfl⟩ := hr
      cases hi
      rw [resetContexts_enc]
      split
      · exact .inr hreset
      · exact .inl ⟨rfl, rfl, rfl⟩
    · have he : t.enc = u.enc := by
        by_cases ho : owner i = .encoder
        · cases (exec_of_efault ho hf).symm.trans hi
          rfl
        · exact exec_enc_eq hi ho (not_exists.1 hr)
      simp [he]
  · obtain ⟨-, he | he, -⟩ := illegalCommand_cases w u
    · simp [he]
    · simp [he.trans (raise_enc_eq (.inl hf))]
  · exact .inr hreset

/-- A faulted decoder context is left as it is, or RESET has returned it to its reset state. -/
theorem step_of_dfault {s t : State} (h : step s = .next t) (hf : s.dec.flags.dfault = true) :
    t.dec = s.dec ∨ t.dec = State.reset.dec := by
  obtain ⟨u, -, hud, -, hu⟩ := step_cases h
  rw [← hud] at hf ⊢
  obtain ⟨-, hd, -⟩ | ⟨n, v, rfl⟩ | ⟨i, hi⟩ | ⟨w, rfl⟩ | rfl := hu
  · exact .inl hd
  · exact .inl (busWrite_cases n v u).1
  · by_cases hr : ∃ c, i = .reset c
    · obtain ⟨c, rfl⟩ := hr
      cases hi
      rw [resetContexts_dec]
      split
      · exact .inr rfl
      · exact .inl rfl
    · by_cases ho : owner i = .decoder
      · cases (exec_of_dfault ho hf).symm.trans hi
        exact .inl rfl
      · exact .inl (exec_dec_eq hi ho (not_exists.1 hr))
  · obtain ⟨-, -, hd | ⟨x, hx, hd⟩⟩ := illegalCommand_cases w u
    · exact .inl hd
    · exact .inl (hd.trans ((raise_dec_eq (.inl (hx ▸ hf))).trans hx))
  · exact .inr rfl

/-- Settles O14: no command of a faulted context runs, and no other operation but a reset reaches its flags. -/
theorem firstFaultIsKeptUntilReset : Obligations.FirstFaultIsKeptUntilReset :=
  fun _ _ h => ⟨step_of_efault h, step_of_dfault h⟩

/-! ### The opcodes of single commands -/

theorem opcode_not_mem_reset {i : Instr} (h : ∀ c, i ≠ .reset c) : opcode i ∉ [0x01] := by
  cases i with
  | reset c => exact absurd rfl (h c)
  | hupd => simp [opcode]
  | _ => decide

theorem opcode_not_mem_cfg {i : Instr} (h : i ≠ .cfg) : opcode i ∉ [0x10] := by
  cases i with
  | cfg => exact absurd rfl h
  | reset | hupd => simp [opcode]
  | _ => decide

theorem opcode_not_mem_dinit {i : Instr} (h : i ≠ .dinit) : opcode i ∉ [0x60] := by
  cases i with
  | dinit => exact absurd rfl h
  | reset | hupd => simp [opcode]
  | _ => decide

theorem opcode_not_mem_bounds {i : Instr} (h : i ≠ .bounds) : opcode i ∉ [0x32] := by
  cases i with
  | bounds => exact absurd rfl h
  | reset | hupd => simp [opcode]
  | _ => decide

theorem opcode_not_mem_extb {i : Instr} (h : i ≠ .extb) : opcode i ∉ [0x40] := by
  cases i with
  | extb => exact absurd rfl h
  | reset | hupd => simp [opcode]
  | _ => decide

theorem opcode_not_mem_extf {i : Instr} (h : i ≠ .extf) : opcode i ∉ [0x41] := by
  cases i with
  | extf => exact absurd rfl h
  | reset | hupd => simp [opcode]
  | _ => decide

/-! ### The configuration (R50, R51) -/

/-- CFG on a configured encoder context changes nothing but the error registers (R171). -/
theorem exec_cfg_of_cfgok {s t : State} (hc : s.enc.flags.cfgok = true) (h : exec .cfg s = .next t) :
    t.enc.unfault = s.enc.unfault := by
  have hl : onEnc (cfgLines s.caps) s = .raised s .state 0x10 := by simp [onEnc, cfgLines, hc, opcode]
  have ht : execCfg s = .next t := h
  simp only [execCfg, unlessFaulted, hl] at ht
  cases ht
  split
  · rfl
  · exact raise_enc_unfault ..

/-- From a configured encoder context a step leaves what a command that is not RESET or CFG leaves, or a reset has
happened. -/
theorem step_of_cfgok {s t : State} (h : step s = .next t) (hc : s.enc.flags.cfgok = true) :
    (∃ op, op ∉ encSetup ∧ t.enc.unfault.unwritten op = s.enc.unfault.unwritten op) ∨ EncIsReset t.enc := by
  have hsame : t.enc.unfault = s.enc.unfault →
      ∃ op, op ∉ encSetup ∧ t.enc.unfault.unwritten op = s.enc.unfault.unwritten op := fun he =>
    ⟨0x00, by decide, congrArg _ he⟩
  obtain ⟨u, hue, -, -, hu⟩ := step_cases h
  rw [← hue] at hc hsame ⊢
  obtain ⟨he, -⟩ | ⟨n, v, rfl⟩ | ⟨i, hi⟩ | ⟨w, rfl⟩ | rfl := hu
  · exact .inl (hsame (congrArg _ he))
  · obtain ⟨-, -, he | ⟨hn, -⟩⟩ := busWrite_cases n v u
    · exact .inl (hsame (congrArg _ he))
    · exact absurd (hc.symm.trans hn) (by decide)
  · by_cases hr : ∃ c, i = .reset c
    · obtain ⟨c, rfl⟩ := hr
      cases hi
      rw [resetContexts_enc]
      split
      · exact .inr ⟨[], rfl⟩
      · exact .inl ⟨0x00, by decide, rfl⟩
    by_cases hcfg : i = .cfg
    · subst hcfg
      exact .inl (hsame (exec_cfg_of_cfgok hc hi))
    · have hop : opcode i ∉ encSetup :=
        List.not_mem_append (opcode_not_mem_reset (not_exists.1 hr)) (opcode_not_mem_cfg hcfg)
      exact .inl ⟨opcode i, hop, (exec_writesWithin hi).enc⟩
  · obtain ⟨-, he | he, -⟩ := illegalCommand_cases w u
    · exact .inl (hsame (congrArg _ he))
    · exact .inl (hsame ((congrArg _ he).trans (raise_enc_unfault ..)))
  · exact .inr ⟨[], rfl⟩

/-- Settles O15: RESET and CFG are the only writers of these registers, and CFG does not run where CFGOK is 1. -/
theorem configurationIsFixedForTheStream : Obligations.ConfigurationIsFixedForTheStream := by
  intro s t h hc
  refine (step_of_cfgok h hc).imp_left fun ⟨op, hop, he⟩ => ?_
  have h1 : op ∉ [0x01] := fun hm => hop (List.mem_append_left _ hm)
  have hcfg : t.enc.flags.cfgok = s.enc.flags.cfgok :=
    eq_of_unlessWriter hop (congrArg (fun e : Enc => e.flags.cfgok) he)
  exact ⟨hcfg.trans hc,
    eq_of_unlessWriter h1 (congrArg Enc.cfgB he), eq_of_unlessWriter h1 (congrArg Enc.cfgM he),
    eq_of_unlessWriter h1 (congrArg Enc.cfgS he), eq_of_unlessWriter h1 (congrArg Enc.cfgD he),
    eq_of_unlessWriter h1 (congrArg Enc.cfgH he), eq_of_unlessWriter h1 (congrArg Enc.cfgA he),
    eq_of_unlessWriter hop (congrArg Enc.drvL he), eq_of_unlessWriter hop (congrArg Enc.drvK he),
    eq_of_unlessWriter hop (congrArg Enc.drvTest he), eq_of_unlessWriter hop (congrArg Enc.drvHsize he),
    eq_of_unlessWriter hop (congrArg Enc.drvHmask he), eq_of_unlessWriter hop (congrArg Enc.drvKmask he),
    eq_of_unlessWriter hop (congrArg Enc.drvPL he)⟩

/-! ### Registers, flags, memories and ports by their writers -/

theorem exec_shared {i : Instr} {s t : State} (h : exec i s = .next t) (hi : i ≠ .reset 3) :
    t.arg0 = s.arg0 ∧ t.arg1 = s.arg1 ∧ t.rIdx = s.rIdx := by
  by_cases hr : ∃ c, i = .reset c
  · obtain ⟨c, rfl⟩ := hr
    cases h
    exact resetContexts_shared (fun hc => hi (by rw [hc])) s
  · obtain ⟨-, -, -, -, h0⟩ := (exec_writesWithin h).shared
    exact h0 (opcode_not_mem_reset (not_exists.1 hr))

/-- Settles O16: each clause reads one register off the part of the state that the write table leaves. -/
theorem registersAreWrittenByTheirCommandsOnly : Obligations.RegistersAreWrittenByTheirCommandsOnly := by
  intro i s t h
  have hw := exec_writesWithin h
  obtain ⟨-, hcaps, hbus, hreads, -⟩ := hw.shared
  refine ⟨exec_shared h, ⟨hcaps, hbus, hreads⟩, fun hr => ?_⟩
  have h1 : opcode i ∉ [0x01] := opcode_not_mem_reset hr
  have he := hw.enc
  have hd := hw.dec
  refine ⟨?_, fun hcfg => ?_, hw.encErrors h1, hw.decErrors h1, fun hcfg hdin => ?_⟩
  · exact ⟨eq_of_unlessWriter h1 (congrArg Enc.cfgB he), eq_of_unlessWriter h1 (congrArg Enc.cfgM he),
      eq_of_unlessWriter h1 (congrArg Enc.cfgS he), eq_of_unlessWriter h1 (congrArg Enc.cfgD he),
      eq_of_unlessWriter h1 (congrArg Enc.cfgH he), eq_of_unlessWriter h1 (congrArg Enc.cfgA he)⟩
  · have hs : opcode i ∉ encSetup := List.not_mem_append h1 (opcode_not_mem_cfg hcfg)
    exact ⟨eq_of_unlessWriter hs (congrArg Enc.drvL he), eq_of_unlessWriter hs (congrArg Enc.drvK he),
      eq_of_unlessWriter hs (congrArg Enc.drvTest he), eq_of_unlessWriter hs (congrArg Enc.drvHsize he),
      eq_of_unlessWriter hs (congrArg Enc.drvHmask he), eq_of_unlessWriter hs (congrArg Enc.drvKmask he),
      eq_of_unlessWriter hs (congrArg Enc.drvPL he)⟩
  have hs : opcode i ∉ encSetup := List.not_mem_append h1 (opcode_not_mem_cfg hcfg)
  have hds : opcode i ∉ decSetup := List.not_mem_append h1 (opcode_not_mem_dinit hdin)
  have hE : ∀ {l : List Byte}, opcode i ∉ l → opcode i ∉ encSetup ++ l := fun hl =>
    List.not_mem_append hs hl
  have hD : ∀ {l : List Byte}, opcode i ∉ l → opcode i ∉ decSetup ++ l := fun hl =>
    List.not_mem_append hds hl
  refine ⟨⟨eq_of_unlessWriter hs (congrArg (fun e : Enc => e.flags.cfgok) he),
      eq_of_unlessWriter hds (congrArg (fun d : Dec => d.flags.dok) hd)⟩,
    fun hl => eq_of_unlessWriter (hE hl) (congrArg (fun e : Enc => e.flags.hvalid) he),
    fun hl => ⟨eq_of_unlessWriter (hE hl) (congrArg (fun e : Enc => e.flags.hit) he), fun hb => ?_, fun hb hx => ?_,
      fun hb hx => ?_⟩,
    fun hl => eq_of_unlessWriter (hE hl) (congrArg (fun e : Enc => e.flags.matched) he),
    fun hl => eq_of_unlessWriter (hE hl) (congrArg (fun e : Enc => e.flags.lapped) he),
    fun hl => eq_of_unlessWriter (hE hl) (congrArg (fun e : Enc => e.flags.cycopen) he),
    fun hl => eq_of_unlessWriter (hE hl) (congrArg (fun e : Enc => e.flags.final) he),
    fun hl => eq_of_unlessWriter (hE hl) (congrArg Enc.hash he),
    fun hl => eq_of_unlessWriter (hE hl) (congrArg Enc.i he),
    fun hl => eq_of_unlessWriter (hE hl) (congrArg Enc.lastI he),
    fun hl => eq_of_unlessWriter (hE hl) (congrArg Enc.lastMatch he),
    fun hl => eq_of_unlessWriter (hE hl) (congrArg Enc.base he),
    fun hl => eq_of_unlessWriter (hE hl) (congrArg Enc.size he),
    fun hl => eq_of_unlessWriter (hE hl) (congrArg Enc.cand he),
    fun hl => ⟨eq_of_unlessWriter (hE hl) (congrArg Enc.lowb he), eq_of_unlessWriter (hE hl) (congrArg Enc.highb he),
      eq_of_unlessWriter (hE hl) (congrArg Enc.dist he)⟩,
    fun hl => eq_of_unlessWriter (hE hl) (congrArg Enc.mstart he),
    fun hl => eq_of_unlessWriter (hE hl) (congrArg Enc.mend he),
    fun hl => ⟨eq_of_unlessWriter (hE hl) (congrArg Enc.nrec he), eq_of_unlessWriter (hE hl) (congrArg Enc.lens he),
      eq_of_unlessWriter (hE hl) (congrArg Enc.offsets he)⟩,
    fun hl => ⟨eq_of_unlessWriter (hE hl) (congrArg Enc.datalens he),
      eq_of_unlessWriter (hE hl) (congrArg Enc.dataOffsets he)⟩,
    ⟨eq_of_unlessWriter hds (congrArg Dec.dB hd), eq_of_unlessWriter hds (congrArg Dec.dSize0 hd)⟩,
    fun hl => ⟨eq_of_unlessWriter (hD hl) (congrArg Dec.dData hd), eq_of_unlessWriter (hD hl) (congrArg Dec.dFilled hd),
      eq_of_unlessWriter (hD hl) (congrArg (fun d : Dec => d.flags.block0) hd)⟩,
    fun hl => eq_of_unlessWriter (hD hl) (congrArg Dec.dLast hd)⟩
  · have hm : opcode i ∉ candWriters ++ [0x32] := List.not_mem_append (hE hl) (opcode_not_mem_bounds hb)
    exact ⟨eq_of_unlessWriter hm (congrArg (fun e : Enc => e.flags.rej) he),
      eq_of_unlessWriter hm (congrArg (fun e : Enc => e.flags.bvalid) he)⟩
  · have hm : opcode i ∉ candWriters ++ [0x32] ++ [0x40] :=
      List.not_mem_append (List.not_mem_append (hE hl) (opcode_not_mem_bounds hb)) (opcode_not_mem_extb hx)
    exact eq_of_unlessWriter hm (congrArg (fun e : Enc => e.flags.svalid) he)
  · have hm : opcode i ∉ candWriters ++ [0x32] ++ [0x41] :=
      List.not_mem_append (List.not_mem_append (hE hl) (opcode_not_mem_bounds hb)) (opcode_not_mem_extf hx)
    exact eq_of_unlessWriter hm (congrArg (fun e : Enc => e.flags.evalid) he)

/-- Settles O17: each clause reads one memory or port off the part of the state that the write table leaves. -/
theorem memoriesAndPortsChangeOnlyByTheirCommands : Obligations.MemoriesAndPortsChangeOnlyByTheirCommands := by
  intro i s t h
  have hw := exec_writesWithin h
  obtain ⟨hp, -⟩ := hw.shared
  have he := hw.enc
  have hd := hw.dec
  refine ⟨fun hl p => ?_, fun hl n => ?_, fun hl p => ?_,
    fun hl => eq_of_unlessWriter hl (congrArg Ports.ein hp),
    fun hl => eq_of_unlessWriter hl (congrArg Ports.din hp),
    fun hl => ⟨eq_of_unlessWriter hl (congrArg Ports.eout hp), eq_of_unlessWriter hl (congrArg Ports.eoutAnswers hp)⟩,
    fun hl => ⟨eq_of_unlessWriter hl (congrArg Ports.dout hp), eq_of_unlessWriter hl (congrArg Ports.doutAnswers hp)⟩⟩
  · have hb : t.enc.buf = s.enc.buf := eq_of_unlessWriter hl (congrArg Enc.buf he)
    rw [hb]
  · have ht : t.enc.ht = s.enc.ht := eq_of_unlessWriter hl (congrArg Enc.ht he)
    rw [ht]
  · have h0 : t.dec.seg0 = s.dec.seg0 := eq_of_unlessWriter hl (congrArg Dec.seg0 hd)
    have h1 : t.dec.seg1 = s.dec.seg1 := eq_of_unlessWriter hl (congrArg Dec.seg1 hd)
    rw [h0, h1]
    exact ⟨rfl, rfl⟩

end Sys2Proof.Machine
end

section
/-! PROOFS. Every step keeps the decoder invariants (R71, R112): a command that does not fault keeps them line by line,
and a faulted context claims nothing. -/

namespace Sys2Proof.Machine

open Sys2Proof

/-! ### Properties of a run that ended without a fault -/

/-- `P` of the state a run ended in, where it raised no fault. -/
def Run.OnDone {σ : Type} (P : σ → Prop) : Run σ → Prop
  | .done s => P s
  | .raised _ _ _ => True

theorem Run.OnDone.andThen {σ : Type} {P Q : σ → Prop} {r : Run σ} {f : σ → Run σ} (hr : r.OnDone P)
    (hf : ∀ s, P s → (f s).OnDone Q) : (r.andThen f).OnDone Q := by
  cases r with
  | done s => exact hf s hr
  | raised s x n => trivial

theorem Run.OnDone.times {σ : Type} {P : σ → Prop} {f : σ → Run σ} (hf : ∀ s, P s → (f s).OnDone P) :
    ∀ (n : Nat) (s : σ), P s → (Run.times f n s).OnDone P
  | 0, _, h => h
  | n + 1, s, h => (hf s h).andThen fun t ht => Run.OnDone.times hf n t ht

/-- A test at the head of a rule's lines: what follows may use that it failed. -/
theorem Run.OnDone.guard {σ : Type} {P : σ → Prop} {c : Prop} [Decidable c] {s : σ} {x : Exn} {n : Nat} {r : Run σ}
    (hr : ¬c → r.OnDone P) : (if c then Run.raised s x n else r).OnDone P := by
  split
  · trivial
  · exact hr ‹_›

theorem Run.OnDone.imp {σ : Type} {P Q : σ → Prop} {r : Run σ} (h : r.OnDone P) (hpq : ∀ s, P s → Q s) :
    r.OnDone Q := by
  cases r with
  | done s => exact hpq s h
  | raised s x n => trivial

theorem Run.OnDone.of_eq_done {σ : Type} {P : σ → Prop} {r : Run σ} {s : σ} (h : r.OnDone P) (hr : r = .done s) :
    P s := by
  subst hr
  exact h

theorem onEnc_onDone {P : Enc → Prop} {f : Enc → Run Enc} {s : State} (h : (f s.enc).OnDone P) :
    (onEnc f s).OnDone fun t => P t.enc := by
  unfold onEnc
  cases hf : f s.enc with
  | done e => exact h.of_eq_done hf
  | raised e x n => trivial

theorem onDec_onDone {P : Dec → Prop} {f : Dec → Run Dec} {s : State} (h : (f s.dec).OnDone P) :
    (onDec f s).OnDone fun t => P t.dec := by
  unfold onDec
  cases hf : f s.dec with
  | done d => exact h.of_eq_done hf
  | raised d x n => trivial

/-- A context that is not faulted after a command of its own was not faulted before, and the command ran to its end. -/
theorem unlessFaulted_done {c : Ctx} {body : State → Run State} {s t : State} (h : unlessFaulted c body s = .next t)
    (ht : faulted c t = false) : faulted c s = false ∧ body s = .done t := by
  unfold unlessFaulted at h
  cases h
  split at ht
  next hs => simp [hs] at ht
  next hs =>
    refine ⟨by simpa using hs, ?_⟩
    obtain ⟨u, hr, hf⟩ | ⟨u, x, n, hr, hf⟩ := finish_cases c (body s)
    · rw [if_neg hs, hf]
      exact hr
    · simp [hf, faulted_raise] at ht

theorem encCommand_done {op : Byte} {body : State → Run State} {s t : State} (h : encCommand op body s = .next t)
    (ht : t.enc.flags.efault = false) : EncReady s ∧ body s = .done t := by
  obtain ⟨hf, hb⟩ := unlessFaulted_done (c := .enc) h ht
  split at hb
  next hc => exact ⟨⟨hf, hc⟩, hb⟩
  next => cases hb

theorem decCommand_done {op : Byte} {body : State → Run State} {s t : State} (h : decCommand op body s = .next t)
    (ht : t.dec.flags.dfault = false) : DecReady s ∧ body s = .done t := by
  obtain ⟨hf, hb⟩ := unlessFaulted_done (c := .dec) h ht
  split at hb
  next hd => exact ⟨⟨hf, hd⟩, hb⟩
  next => cases hb

/-! ### The set-up and the cursors -/

theorem setUp_ring (B s0 : Word) (d : Dec) (p : Nat) : (setUp B s0 d).ring p = none := by
  unfold Dec.ring
  split <;> rfl

theorem dinitLines_decInv (caps : Caps) (B s0 : Word) (d : Dec) : (dinitLines caps B s0 d).OnDone DecInv := by
  refine .guard fun _ => .guard fun _ => .guard fun hB => .guard fun hs => .guard fun _ => .guard fun _ => ?_
  exact
    { size0Pos := by show 1 ≤ s0.toNat; omega
      size0Le := by show s0.toNat ≤ B.toNat; omega
      bLe := by show B.toNat ≤ 2 ^ 31; omega
      lastLe := Nat.le_refl _
      dataLe := Nat.zero_le _
      filledLe := Nat.zero_le _
      wholeSeg0 := fun _ => rfl
      firstLap := fun _ => rfl
      held := fun p _ => by
        rw [setUp_ring]
        exact ⟨fun hs => Bool.noConfusion hs, fun hp => absurd hp (Nat.not_lt_zero p)⟩ }

theorem DecInv.markFlushed {d : Dec} (h : DecInv d) : DecInv d.markFlushed :=
  { h with lastLe := Nat.le_refl _ }

/-- The switch from a full segment: the write position moves on by 0, from `B` to 0 at the end of the ring. -/
theorem DecInv.switch {d : Dec} (h : DecInv d) (hr : d.room = 0) : DecInv d.switch := by
  obtain ⟨hs, hsB, hB, hl, hd, hfB, hw, hfl, hheld⟩ := h
  refine ⟨hs, hsB, hB, Nat.le_refl _, Nat.zero_le _, hfB, fun he => ?_, fun hlt => ?_, hheld⟩
  · have he' : d.dSize0 = d.dB := he
    simp [he', hw he']
  · have hpos := hfl hlt
    have hlt' : d.dFilled.toNat < d.dB.toNat := hlt
    show d.switch.dataPos = d.dFilled.toNat
    cases hb : d.flags.block0 <;>
      simp only [Dec.dataPos, Dec.seglen, Dec.room, hb, if_true, Bool.false_eq_true, if_false, Dec.switch_block0,
        Dec.switch_dData, Dec.switch_dSize0] at *
    · omega
    · have hne : d.dSize0.toNat < d.dB.toNat := by omega
      simp [hne]
      omega

@[simp] theorem Dec.setCur_setCur (d : Dec) (m m' : Memory) : (d.setCur m).setCur m' = d.setCur m' := by
  unfold Dec.setCur
  cases hb : d.flags.block0 <;> simp [hb]

@[simp] theorem Dec.setCur_cur_self (d : Dec) : d.setCur d.cur = d := by
  unfold Dec.setCur Dec.cur
  cases hb : d.flags.block0 <;> rfl

/-- The positions of the ring that hold a value after `c` bytes were written at the write head of CUR. -/
theorem Dec.ring_setCur_isSome {d : Dec} {m : Memory} {c : Nat} (hc : d.dData.toNat + c ≤ d.seglen)
    (hm : ∀ q, (m.read q).isSome = true ↔
      (d.dData.toNat ≤ q ∧ q < d.dData.toNat + c) ∨ (d.cur.read q).isSome = true) (p : Nat) :
    ((d.setCur m).ring p).isSome = true ↔
      (d.dataPos ≤ p ∧ p < d.dataPos + c) ∨ (d.ring p).isSome = true := by
  cases hb : d.flags.block0 with
  | true =>
    simp only [Dec.seglen, Dec.cur, hb, if_true] at hc hm
    simp only [Dec.ring, Dec.setCur, Dec.dataPos, hb, if_true]
    split
    next => exact hm p
    next hp => exact ⟨.inr, fun h => h.resolve_left (by omega)⟩
  | false =>
    simp only [Dec.cur, hb, Bool.false_eq_true, if_false] at hm
    simp only [Dec.ring, Dec.setCur, Dec.dataPos, hb, Bool.false_eq_true, if_false]
    split
    next hp => exact ⟨.inr, fun h => h.resolve_left (by omega)⟩
    next hp =>
      rw [hm]
      have : (d.dData.toNat ≤ p - d.dSize0.toNat ∧ p - d.dSize0.toNat < d.dData.toNat + c) ↔
          (d.dData.toNat + d.dSize0.toNat ≤ p ∧ p < d.dData.toNat + d.dSize0.toNat + c) := by omega
      rw [this]

theorem Dec.seglen_le {d : Dec} (h : DecInv d) : d.seglen ≤ d.dB.toNat := by
  have := h.size0Le
  unfold Dec.seglen
  split <;> omega

/-- `c` bytes at the write head of CUR, with room for them, and the cursors moved up by `c` (R269, R271). -/
theorem DecInv.advance_setCur {d : Dec} {m : Memory} {c : Nat} (h : DecInv d) (hc : c ≤ d.room)
    (hm : ∀ q, (m.read q).isSome = true ↔
      (d.dData.toNat ≤ q ∧ q < d.dData.toNat + c) ∨ (d.cur.read q).isSome = true) :
    DecInv ((d.setCur m).advance c) := by
  have hlen := d.seglen_le h
  have hend : d.dData.toNat + c ≤ d.seglen := by
    have := h.dataLe
    unfold Dec.room at hc
    omega
  have hB := h.bLe
  have hdata : ((d.setCur m).advance c).dData.toNat = d.dData.toNat + c := by
    rw [Dec.advance_dData, Dec.setCur_dData, BitVec.toNat_ofNat, Nat.mod_eq_of_lt (by omega)]
  have hfilled : ((d.setCur m).advance c).dFilled.toNat = min d.dB.toNat (d.dFilled.toNat + c) := by
    rw [Dec.advance_dFilled, Dec.setCur_dFilled, Dec.setCur_dB, BitVec.toNat_ofNat, Nat.mod_eq_of_lt (by omega)]
  have hpos : ((d.setCur m).advance c).dataPos = d.dataPos + c := by
    unfold Dec.dataPos
    rw [hdata, Dec.advance_flags, Dec.setCur_flags, Dec.advance_dSize0, Dec.setCur_dSize0]
    split <;> omega
  have hseg : ((d.setCur m).advance c).seglen = d.seglen := by
    unfold Dec.seglen
    rw [Dec.advance_flags, Dec.setCur_flags, Dec.advance_dSize0, Dec.setCur_dSize0, Dec.advance_dB, Dec.setCur_dB]
  refine ⟨by simpa using h.size0Pos, by simpa using h.size0Le, by simpa using hB, ?_, ?_, ?_,
    by simpa using h.wholeSeg0, ?_, ?_⟩
  · rw [hdata, Dec.advance_dLast, Dec.setCur_dLast]
    exact Nat.le_add_right_of_le h.lastLe
  · rw [hdata, hseg]
    exact hend
  · rw [hfilled, Dec.advance_dB, Dec.setCur_dB]
    exact Nat.min_le_left _ _
  · rw [hfilled, Dec.advance_dB, Dec.setCur_dB, hpos]
    intro hlt
    have := h.firstLap (by omega)
    omega
  · intro p hp
    rw [Dec.advance_dB, Dec.setCur_dB] at hp
    have hring : ((d.setCur m).advance c).ring p = (d.setCur m).ring p := rfl
    rw [hring, Dec.ring_setCur_isSome hend hm, h.held p hp, hfilled]
    by_cases hlap : d.dFilled.toNat < d.dB.toNat
    · have := h.firstLap hlap
      omega
    · omega

/-! ### The lines of the decoder commands -/

theorem doutPut_onDone {P : Dec → Prop} (bytes : List Byte) {s : State} (h : P s.dec) :
    (doutPut bytes s).OnDone fun t => P t.dec := by
  obtain ⟨-, hd⟩ | ⟨-, hd⟩ := doutPut_cases bytes s <;> rw [hd]
  · exact h
  · trivial

/-- A flush that ran to its end has moved D_LAST to the write head and changed nothing else of the context. -/
theorem flushLines_onDone (s : State) : (flushLines s).OnDone fun t => t.dec = s.dec.markFlushed := by
  obtain ⟨-, h⟩ | ⟨-, ⟨a, -, h⟩ | ⟨bs, -, h⟩⟩ := flushLines_cases s <;> rw [h]
  · exact rfl
  · trivial
  · refine .andThen (doutPut_onDone (P := fun d => d = s.dec) bs rfl) fun t ht => ?_
    exact congrArg Dec.markFlushed ht

theorem makeRoom_decInv {s : State} (h : DecInv s.dec) : (makeRoom s).OnDone fun t => DecInv t.dec := by
  unfold makeRoom
  split
  next hr =>
    refine (flushLines_onDone s).andThen fun t ht => ?_
    show DecInv t.dec.switch
    rw [ht]
    exact h.markFlushed.switch hr
  next => exact h

theorem putBytes_decInv {bs : List Byte} {d : Dec} (h : DecInv d) (hc : bs.length ≤ d.room) :
    DecInv (putBytes bs d) := by
  refine h.advance_setCur hc fun q => ?_
  rw [Memory.read_writeRun]
  split
  next hq =>
    have : bs[q - d.dData.toNat]?.isSome = true := by simp; omega
    simp [this, hq]
  next hq => simp [hq]

/-- What a byte loop that met no byte without a value leaves: only CUR has changed, in the places written. -/
theorem copyBytes_onDone : ∀ (c : Nat) (src : Bool) (so dst : Nat) (d : Dec),
    (copyBytes c src so dst d).OnDone fun t => ∃ m, t = d.setCur m ∧
      ∀ q, (m.read q).isSome = true ↔ (dst ≤ q ∧ q < dst + c) ∨ (d.cur.read q).isSome = true
  | 0, src, so, dst, d => by
    refine ⟨d.cur, ?_, fun q => ?_⟩
    · exact d.setCur_cur_self.symm
    · constructor
      · exact .inr
      · exact fun h => h.resolve_left (by omega)
  | c + 1, src, so, dst, d => by
    rw [copyBytes]
    split
    next => trivial
    next b _ =>
      refine (copyBytes_onDone c src (so + 1) (dst + 1) (d.setCur (d.cur.write dst b))).imp ?_
      rintro _ ⟨m, rfl, hm⟩
      refine ⟨m, Dec.setCur_setCur .., fun q => ?_⟩
      rw [hm, Dec.setCur_cur, Memory.read_write]
      split
      next hq => subst hq; simp
      next hq =>
        have : (dst + 1 ≤ q ∧ q < dst + 1 + c) ↔ (dst ≤ q ∧ q < dst + (c + 1)) := by omega
        rw [this]

theorem subCopy_decInv {offset c : Nat} {d : Dec} (h : DecInv d) (hc : c ≤ d.room) :
    (subCopy offset c d).OnDone DecInv := by
  refine (copyBytes_onDone c _ _ _ d).andThen ?_
  rintro _ ⟨m, rfl, hm⟩
  exact h.advance_setCur hc hm

theorem dlitLoop_decInv : ∀ (fuel n : Nat) (s : State), DecInv s.dec →
    (dlitLoop fuel n s).OnDone fun t => DecInv t.dec
  | 0, _, _, h => h
  | fuel + 1, n, s, h => by
    rw [dlitLoop]
    split
    · exact h
    · refine (makeRoom_decInv h).andThen fun s h => dlitLoop_decInv fuel _ _ (putBytes_decInv h ?_)
      simp only [length_takeBytes]
      exact Nat.min_le_right _ _

theorem dlitLines_decInv {s : State} (h : DecInv s.dec) : (dlitLines s).OnDone fun t => DecInv t.dec :=
  .guard fun _ => dlitLoop_decInv _ _ s h

theorem dmatchLoop_decInv (offset : Nat) : ∀ (fuel len : Nat) (s : State), DecInv s.dec →
    (dmatchLoop offset fuel len s).OnDone fun t => DecInv t.dec
  | 0, _, _, h => h
  | fuel + 1, len, s, h => by
    rw [dmatchLoop]
    split
    · exact h
    · refine (makeRoom_decInv h).andThen fun s h => .andThen (onDec_onDone (subCopy_decInv h ?_)) ?_
      · exact (Nat.min_le_right _ _).trans (Nat.min_le_left _ _)
      · exact dmatchLoop_decInv offset fuel _

theorem dmatchLines_decInv {s : State} (h : DecInv s.dec) : (dmatchLines s).OnDone fun t => DecInv t.dec :=
  .guard fun _ => .guard fun _ => .guard fun _ => dmatchLoop_decInv _ _ _ s h

theorem flushLines_decInv {s : State} (h : DecInv s.dec) : (flushLines s).OnDone fun t => DecInv t.dec := by
  refine (flushLines_onDone s).imp fun t ht => ?_
  rw [ht]
  exact h.markFlushed

/-! ### Commands and a step -/

/-- A decoder command other than DINIT keeps the invariants where its lines do. -/
theorem decCommand_decOK {op : Byte} {body : State → Run State} {s t : State} (hs : DecOK s)
    (hb : DecInv s.dec → (body s).OnDone fun t => DecInv t.dec) (h : decCommand op body s = .next t) : DecOK t :=
  fun ⟨hf, _⟩ =>
    have ⟨hready, hd⟩ := decCommand_done h hf
    (hb (hs hready)).of_eq_done hd

theorem exec_decOK {i : Instr} {s t : State} (hs : DecOK s) (h : exec i s = .next t) : DecOK t := by
  by_cases hr : ∃ c, i = .reset c
  · obtain ⟨c, rfl⟩ := hr
    cases h
    unfold DecOK DecReady
    rw [resetContexts_dec]
    split
    · exact fun ⟨_, hok⟩ => Bool.noConfusion hok
    · exact hs
  by_cases ho : owner i = .decoder
  · cases i with
    | dinit =>
      intro ⟨hf, _⟩
      obtain ⟨-, hd⟩ := unlessFaulted_done (c := .dec) h hf
      exact (onDec_onDone (dinitLines_decInv s.caps s.arg0 s.arg1 s.dec)).of_eq_done hd
    | dlit => exact decCommand_decOK hs dlitLines_decInv h
    | dmatch => exact decCommand_decOK hs dmatchLines_decInv h
    | dflush => exact decCommand_decOK hs flushLines_decInv h
    | reset | hupd => exact absurd ho (by simp [owner, opcode, contextOf])
    | _ => exact absurd ho (by decide)
  · unfold DecOK DecReady
    rw [exec_dec_eq h ho (not_exists.1 hr)]
    exact hs

/-- Settles O53: each decoder command keeps the invariants or faults; what is not the decoder's leaves its context. -/
theorem decoderInvariantsAreKept : Obligations.DecoderInvariantsAreKept := by
  intro s t hs h
  obtain ⟨u, -, hud, -, hu⟩ := step_cases h
  have hus : DecOK u := by
    unfold DecOK DecReady
    rw [hud]
    exact hs
  have hsame : t.dec = u.dec → DecOK t := fun hd => by
    unfold DecOK DecReady
    rw [hd]
    exact hus
  obtain ⟨-, hd, -⟩ | ⟨n, v, rfl⟩ | ⟨i, hi⟩ | ⟨w, rfl⟩ | rfl := hu
  · exact hsame hd
  · exact hsame (busWrite_cases n v u).1
  · exact exec_decOK hus hi
  · obtain ⟨-, -, hd | ⟨x, hx, hd⟩⟩ := illegalCommand_cases w u
    · exact hsame hd
    · intro ⟨hf, _⟩
      have hxf : (raise .dec .illegalCmd w.toNat x).dec.flags.dfault = true := faulted_raise .dec _ _ x
      rw [hd, hxf] at hf
      cases hf
  · exact fun ⟨_, hok⟩ => Bool.noConfusion hok

end Sys2Proof.Machine
end

section
/-! PROOFS. The encoder invariants (R70), part by part: which registers each part reads, and what the single lines of
the commands do to it. -/

namespace Sys2Proof.Machine

open Sys2Proof

/-! ### Arithmetic of the parameters -/

theorem toNat_wordOf {n : Nat} (h : n < 2 ^ 32) : (wordOf n).toNat = n := by
  rw [BitVec.toNat_ofNat, Nat.mod_eq_of_lt h]

theorem exists_windowLen_eq_two_pow (S : Nat) : ∃ n, windowLen S = 2 ^ n := exists_rup2_eq_two_pow _

theorem windowLen_pos (S : Nat) : 1 ≤ windowLen S := by
  obtain ⟨n, hn⟩ := exists_windowLen_eq_two_pow S
  rw [hn]
  exact Nat.one_le_two_pow

theorem subsample_pos (L : Nat) : 1 ≤ subsample L := Nat.one_le_two_pow

theorem subsample_le {L : Nat} (hL : 1 ≤ L) : subsample L ≤ 2 * L :=
  calc 2 ^ (Nat.log2 (2 * L) / 2)
    _ ≤ 2 ^ Nat.log2 (2 * L) := Nat.pow_le_pow_right (by decide) (Nat.div_le_self _ _)
    _ ≤ 2 * L := Nat.log2_self_le (by omega)

theorem tableSize_pos (B H k : Nat) : 1 ≤ tableSize B H k := by
  unfold tableSize
  split
  · exact Nat.one_le_two_pow
  · obtain ⟨n, hn⟩ := exists_rup2_eq_two_pow (2 * B / 3 / max k divisorFloor)
    rw [hn]
    exact Nat.one_le_two_pow

theorem tableSize_le {B H k : Nat} (hB : B ≤ 2 ^ 31) (hH : H ≤ 31) : tableSize B H k ≤ 2 ^ 31 := by
  unfold tableSize
  split
  · exact Nat.pow_le_pow_right (by decide) hH
  · refine (rup2_le_two_pow_iff _ 31).2 ((Nat.div_le_self _ _).trans ?_)
    omega

theorem and_sub_one_eq_zero_iff {x y : Word} {n : Nat} (hy : y.toNat = 2 ^ n) :
    x &&& (y - 1) = 0 ↔ x.toNat % 2 ^ n = 0 := by
  have hpos : 1 ≤ 2 ^ n := Nat.one_le_two_pow
  have hlt : 2 ^ n < 2 ^ 32 := hy ▸ y.isLt
  have hsub : (y - 1).toNat = 2 ^ n - 1 := by
    rw [BitVec.toNat_sub_of_le (by rw [BitVec.le_def, hy]; exact hpos), hy]
    rfl
  rw [← BitVec.toNat_inj, BitVec.toNat_and, hsub, Nat.and_two_pow_sub_one_eq_mod]
  rfl

/-- The position bits of a table entry: the anchor, where the anchor has no bit in the checksum's place (R157). -/
theorem anchor_bits {i h k : Word} (hi : i &&& k = 0) : (i ||| h &&& k) &&& ~~~k = i := by
  apply BitVec.eq_of_getLsbD_eq
  intro n hn
  have hb : (i &&& k).getLsbD n = false := by rw [hi]; simp
  simp only [BitVec.getLsbD_and, BitVec.getLsbD_or, BitVec.getLsbD_not, hn, decide_true, Bool.true_and] at hb ⊢
  revert hb
  cases i.getLsbD n <;> cases k.getLsbD n <;> simp

/-! ### What the parts of the invariant read -/

/-- The registers the invariant of the staging arrays reads. -/
def Enc.stagingPart (e : Enc) : Enc where
  lens := e.lens
  offsets := e.offsets
  datalens := e.datalens
  dataOffsets := e.dataOffsets
  nrec := e.nrec
  lastMatch := e.lastMatch
  base := e.base
  size := e.size
  flags := { cycopen := e.flags.cycopen }

theorem EncChain.stagingPart_iff {c : Nat} {e : Enc} : EncChain c e.stagingPart ↔ EncChain c e :=
  ⟨fun h => { h with }, fun h => { h with }⟩

theorem EncChain.of_stagingPart {c : Nat} {e e' : Enc} (h : EncChain c e) (he : e'.stagingPart = e.stagingPart) :
    EncChain c e' :=
  EncChain.stagingPart_iff.1 (he ▸ EncChain.stagingPart_iff.2 h)

theorem EncStaging.stagingPart_iff {recCap : Nat} {e : Enc} :
    EncStaging recCap e.stagingPart ↔ EncStaging recCap e :=
  ⟨fun h => { h with chain := h.chain.imp fun _ => EncChain.stagingPart_iff.1 },
    fun h => { h with chain := h.chain.imp fun _ => EncChain.stagingPart_iff.2 }⟩

theorem EncStaging.of_stagingPart {recCap : Nat} {e e' : Enc} (h : EncStaging recCap e)
    (he : e'.stagingPart = e.stagingPart) : EncStaging recCap e' :=
  EncStaging.stagingPart_iff.1 (he ▸ EncStaging.stagingPart_iff.2 h)

/-- With the candidate flags cleared there is nothing they claim. -/
theorem EncCandidate.of_cleared {e : Enc} (hh : e.flags.hit = false) (hb : e.flags.bvalid = false)
    (hs : e.flags.svalid = false) (he : e.flags.evalid = false) : EncCandidate e := by
  constructor <;> simp [hh, hb, hs, he]

/-- With a candidate and no extension range there is nothing to claim but the candidate's place. -/
theorem EncCandidate.of_hit {e : Enc} (hv : e.flags.hit = true → e.flags.hvalid = true)
    (hc : e.flags.hit = true → e.cand.toNat < e.cfgB.toNat)
    (hf : e.flags.hit = true → e.flags.lapped = false → e.cand.toNat < e.filled) (hb : e.flags.bvalid = false)
    (hs : e.flags.svalid = false) (he : e.flags.evalid = false) : EncCandidate e := by
  constructor <;> simp_all

/-- With HVALID cleared only the table has an invariant. -/
theorem EncHash.of_dropped {e : Enc} (hv : e.flags.hvalid = false)
    (ha : ∀ c ∈ e.ht, (c.2 &&& ~~~e.drvKmask).toNat < e.cfgB.toNat)
    (hl : e.flags.lapped = false → ∀ c ∈ e.ht, (c.2 &&& ~~~e.drvKmask).toNat < e.filled) : EncHash e :=
  ⟨by simp [hv], by simp [hv], ha, hl⟩

section EncInv

variable {recCap : Nat} {e : Enc}

theorem EncInv.filled_le (h : EncInv recCap e) : e.filled ≤ 2 ^ 31 := h.cursors.inBuffer.trans h.config.bLe

theorem EncInv.drvL_pos (h : EncInv recCap e) : 1 ≤ e.drvL.toNat := by
  rw [h.config.windowLength]
  exact windowLen_pos _

theorem EncInv.blockAligned_iff (h : EncInv recCap e) :
    e.blockAligned = true ↔ e.i.toNat % windowLen e.cfgS.toNat = 0 := by
  obtain ⟨n, hn⟩ := exists_windowLen_eq_two_pow e.cfgS.toNat
  unfold Enc.blockAligned
  rw [beq_iff_eq, hn, and_sub_one_eq_zero_iff (h.config.windowLength.trans hn)]

/-! ### Lines that move no record -/

theorem EncInv.setMatched (h : EncInv recCap e) (b : Bool) :
    EncInv recCap { e with flags := { e.flags with matched := b } } :=
  ⟨{ h.config with }, { h.cursors with }, { h.hash with }, { h.candidate with }, h.staging.of_stagingPart rfl,
    h.buffer⟩

theorem EncInv.clearCand (h : EncInv recCap e) : EncInv recCap e.clearCand :=
  ⟨{ h.config with }, { h.cursors with }, { h.hash with }, .of_cleared rfl rfl rfl rfl,
    h.staging.of_stagingPart rfl, h.buffer⟩

/-- The cursor anywhere up to the end of the bytes read, with the hash dropped (R209, R248). -/
theorem EncInv.moveCursor (h : EncInv recCap e) {p hash : Word} (hp : p.toNat ≤ e.filled) :
    EncInv recCap { e with hash := hash, i := p, flags := e.flags.dropHash } :=
  ⟨{ h.config with }, { h.cursors with iLe := hp }, .of_dropped rfl h.hash.anchors h.hash.anchorsFirstLap,
    .of_cleared rfl rfl rfl rfl, h.staging.of_stagingPart rfl, h.buffer⟩

theorem hclrLines_encInv (h : EncInv recCap e) : (hclrLines e).OnDone (EncInv recCap) :=
  h.moveCursor (p := e.i) (hash := 0) h.cursors.iLe

theorem hupdLines_encInv (out inn : Nat) (h : EncInv recCap e) : (hupdLines out inn e).OnDone (EncInv recCap) :=
  h.moveCursor (p := e.i) h.cursors.iLe

theorem seekLines_encInv (p : Word) (h : EncInv recCap e) : (seekLines p e).OnDone (EncInv recCap) := by
  obtain ⟨-, hl⟩ | ⟨hp, hl⟩ := seekLines_cases p e <;> rw [hl]
  · trivial
  · exact h.moveCursor (hash := e.hash) hp

theorem restart_encInv (h : EncInv recCap e) : EncInv recCap (restart e) := by
  unfold restart
  split
  · exact h.clearCand
  · exact h.moveCursor (hash := e.hash) h.cursors.lastILe

theorem htclrLines_encInv (h : EncInv recCap e) : (htclrLines e).OnDone (EncInv recCap) :=
  ⟨{ h.config with }, { h.cursors with },
    { h.hash with anchors := fun _ hc => absurd hc List.not_mem_nil
                  anchorsFirstLap := fun _ _ hc => absurd hc List.not_mem_nil },
    { h.candidate with }, h.staging.of_stagingPart rfl, h.buffer⟩

/-! ### The hash -/

theorem hinitLines_encInv (h : EncInv recCap e) : (hinitLines e).OnDone (EncInv recCap) := by
  obtain ⟨-, hl⟩ | ⟨-, a, -, hl⟩ | ⟨hle, bs, hr, hl⟩ := hinitLines_cases e <;> rw [hl]
  · trivial
  · trivial
  · obtain ⟨hlen, hbytes⟩ := Memory.readRun_ok _ _ _ _ hr
    have hhash : ∀ cs : List Byte, cs.length = e.drvL.toNat → BytesAt e.buf e.i.toNat cs →
        hashBytes e.drvPL bs = polyhash cs := fun cs hcs hat => by
      have hbs : bs = cs := Memory.bytes_unique _ _ cs bs (hlen.trans hcs.symm) hat (hlen ▸ hbytes)
      rw [← hbs]
      exact foldl_updateHash_zero _ bs
    exact ⟨{ h.config with }, { h.cursors with },
      ⟨fun _ => hle, fun _ => hhash, h.hash.anchors, h.hash.anchorsFirstLap⟩,
      .of_cleared rfl rfl rfl rfl, h.staging.of_stagingPart rfl, h.buffer⟩

/-- The window one byte further on: the byte dropped and the byte taken in are the ends of the old and new window. -/
theorem EncInv.updateHash_slide (h : EncInv recCap e) (hv : e.flags.hvalid = true) {out inn : Byte}
    (ho : e.buf.read e.i.toNat = some out) (hi : e.buf.read (e.i.toNat + e.drvL.toNat) = some inn) {bs : List Byte}
    (hlen : bs.length = e.drvL.toNat) (hat : BytesAt e.buf (e.i.toNat + 1) bs) :
    updateHash e.drvPL e.hash out inn = polyhash bs := by
  obtain rfl | ⟨mid, last, rfl⟩ := List.eq_nil_or_concat' bs
  · have := h.drvL_pos
    simp at hlen
    omega
  have hL : e.drvL.toNat = mid.length + 1 := by simpa using hlen.symm
  have hlast : inn = last := by
    have := hat mid.length (by simp)
    rw [show e.i.toNat + 1 + mid.length = e.i.toNat + e.drvL.toNat by omega, hi] at this
    simpa using this
  have hold : e.hash = polyhash (out :: mid) := by
    refine h.hash.windowHash hv _ (by simp [hL]) fun t ht => ?_
    cases t with
    | zero => simpa using ho
    | succ t =>
      have hlt : t < mid.length := by simpa using ht
      have := hat t (by simp; omega)
      rw [List.getElem?_append_left hlt] at this
      rw [show e.i.toNat + (t + 1) = e.i.toNat + 1 + t by omega, this, List.getElem?_cons_succ]
  rw [hold, h.config.dropMult, ← h.config.windowLength, hL, hlast]
  exact updateHash_polyhash_cons out last mid

/-- The cursor moved with the hash of its new window.  The values written are variables here, so that no check of a use
of this lemma evaluates a hash. -/
theorem EncInv.rollCursor (h : EncInv recCap e) {hash i : Word} (hle : i.toNat + e.drvL.toNat ≤ e.filled)
    (hhash : ∀ bs : List Byte, bs.length = e.drvL.toNat → BytesAt e.buf i.toNat bs → hash = polyhash bs) :
    EncInv recCap { e with hash := hash, i := i, flags := e.flags.clearCand } :=
  ⟨{ h.config with }, { h.cursors with iLe := Nat.le_of_add_right_le hle },
    ⟨fun _ => hle, fun _ => hhash, h.hash.anchors, h.hash.anchorsFirstLap⟩,
    .of_cleared rfl rfl rfl rfl, h.staging.of_stagingPart rfl, h.buffer⟩

theorem Enc.filled_rollCursor (hash i : Word) (e : Enc) :
    Enc.filled { e with hash := hash, i := i, flags := e.flags.clearCand } = e.filled := rfl

/-- HROLL moves the cursor up by one and leaves the bytes read as they are. -/
theorem hrollLines_encInv (h : EncInv recCap e) : (hrollLines e).OnDone fun t =>
    EncInv recCap t ∧ t.i.toNat = e.i.toNat + 1 ∧ t.filled = e.filled := by
  obtain ⟨-, hl⟩ | ⟨-, -, hl⟩ | ⟨hv, hlt, ⟨-, hl⟩ | ⟨out, ho, ⟨-, hl⟩ | ⟨inn, hin, hl⟩⟩⟩ := hrollLines_cases e <;>
    rw [hl]
  · trivial
  · trivial
  · trivial
  · trivial
  · have hi : (wordOf (e.i.toNat + 1)).toNat = e.i.toNat + 1 := toNat_wordOf (by have := h.filled_le; omega)
    exact ⟨h.rollCursor (by omega) fun bs hlen hat => h.updateHash_slide hv ho hin hlen (hi ▸ hat), hi,
      Enc.filled_rollCursor _ _ e⟩

/-! ### The table and the candidate -/

/-- INSERT lists the cursor, which has a window of bytes behind it. -/
theorem insertLines_encInv (h : EncInv recCap e) : (insertLines e).OnDone (EncInv recCap) := by
  obtain ⟨-, hl⟩ | ⟨-, -, hl⟩ | ⟨hv, ha, hl⟩ := insertLines_cases e <;> rw [hl]
  · trivial
  · trivial
  · have hi : e.i.toNat < e.filled := by
      have := h.hash.windowRead hv
      have := h.drvL_pos
      omega
    have hentry : ((e.i ||| e.chksum e.hash) &&& ~~~e.drvKmask).toNat < e.filled := by
      unfold Enc.chksum
      rw [anchor_bits ha]
      exact hi
    refine ⟨{ h.config with }, { h.cursors with }, { h.hash with anchors := fun c hc => ?_
                                                                 anchorsFirstLap := fun hlap c hc => ?_ },
      { h.candidate with }, h.staging.of_stagingPart rfl, h.buffer⟩
    · obtain rfl | hc := Table.mem_write _ _ _ _ hc
      · exact hentry.trans_le h.cursors.inBuffer
      · exact h.hash.anchors c hc
    · obtain rfl | hc := Table.mem_write _ _ _ _ hc
      · exact hentry
      · exact h.hash.anchorsFirstLap hlap c hc

theorem probeLines_encInv (h : EncInv recCap e) : (probeLines e).OnDone (EncInv recCap) := by
  obtain ⟨-, hl⟩ | ⟨hv, hp, hl⟩ | ⟨-, -, hl⟩ := probeLines_cases e <;> rw [hl]
  · trivial
  · obtain ⟨hne, -⟩ := (probeHits_iff e).1 hp
    have hmem := Table.mem_of_read _ _ hne
    exact ⟨{ h.config with }, { h.cursors with }, { h.hash with },
      .of_hit (fun _ => hv) (fun _ => h.hash.anchors _ hmem)
        (fun _ hlap => h.hash.anchorsFirstLap hlap _ hmem) rfl rfl rfl,
      h.staging.of_stagingPart rfl, h.buffer⟩
  · exact h.clearCand

theorem boundsLines_encInv (h : EncInv recCap e) : (boundsLines e).OnDone (EncInv recCap) := by
  obtain ⟨-, hl⟩ | ⟨hh, hle, -, -, hl⟩ | ⟨hh, hle, hout, hl⟩ := boundsLines_cases e <;> rw [hl]
  · trivial
  · exact ⟨{ h.config with }, { h.cursors with }, { h.hash with },
      .of_hit h.candidate.hitHash h.candidate.hitCand h.candidate.hitFirstLap rfl rfl rfl,
      h.staging.of_stagingPart rfl, h.buffer⟩
  · exact ⟨{ h.config with }, { h.cursors with }, { h.hash with },
      ⟨h.candidate.hitHash, h.candidate.hitCand, h.candidate.hitFirstLap, fun _ => hh, fun _ => hle, fun _ => hout,
        fun _ => rfl, fun _ => rfl, fun _ => rfl, nofun, nofun, nofun, nofun⟩, h.staging.of_stagingPart rfl, h.buffer⟩

theorem extbLines_encInv (h : EncInv recCap e) : (extbLines e).OnDone (EncInv recCap) := by
  obtain ⟨-, hl⟩ | ⟨-, a, -, hl⟩ | ⟨hb, p, hr, hl⟩ := extbLines_cases e <;> rw [hl]
  · trivial
  · trivial
  · obtain ⟨hlo, hhi, -, -⟩ := extendBack_ok _ _ _ _ _ _ hr
    have hle := h.candidate.boundsCursor hb
    have hp : (wordOf p).toNat = p := toNat_wordOf (by have := e.i.isLt; omega)
    have hstart : e.lastMatch.toNat ≤ (wordOf p).toNat ∧ (wordOf p).toNat ≤ e.i.toNat := by
      unfold Enc.backLimit at hlo hhi
      omega
    exact ⟨{ h.config with }, { h.cursors with }, { h.hash with },
      { h.candidate with startBounds := fun _ => hb, startRange := fun _ => hstart },
      h.staging.of_stagingPart rfl, h.buffer⟩

theorem extfLines_encInv (h : EncInv recCap e) : (extfLines e).OnDone (EncInv recCap) := by
  obtain ⟨-, hl⟩ | ⟨-, a, -, hl⟩ | ⟨hb, q, hr, hl⟩ := extfLines_cases e <;> rw [hl]
  · trivial
  · trivial
  · obtain ⟨hlo, hhi, -, -⟩ := extendFwd_ok _ _ _ _ _ _ hr
    have hle := h.cursors.iLe
    have hend : e.i.toNat ≤ q ∧ q ≤ e.filled := by
      unfold Enc.fwdLimit at hhi
      omega
    have hq : (wordOf q).toNat = q := toNat_wordOf (by have := h.filled_le; omega)
    exact ⟨{ h.config with }, { h.cursors with }, { h.hash with },
      { h.candidate with endBounds := fun _ => hb, endRange := fun _ => by rw [hq]; exact hend },
      h.staging.of_stagingPart rfl, h.buffer⟩

end EncInv

end Sys2Proof.Machine
end

section
/-! PROOFS. The encoder invariants across the commands that move records: COMMIT, FILL, ENDCYC, FINAL, CFG. -/

namespace Sys2Proof.Machine

open Sys2Proof

/-! ### One more run at the end of a chain -/

/-- A run that begins at LAST_MATCH stands adjacent behind the runs staged; the matches between those stay. -/
theorem EncChain.push {c c' : Nat} {e e' : Enc} {len : Word} (h : EncChain c e) (hf : e.filled ≠ 0)
    (hcount : e.datalens.length = e.dataOffsets.length)
    (ho : e'.dataOffsets = e.dataOffsets ++ [e.lastMatch]) (hd : e'.datalens = e.datalens ++ [len])
    (hm : ∀ r, r < e.dataOffsets.length → e'.matchAfter c' r = e.matchAfter c r)
    (hbound : c' ≤ e'.nrec.toNat) (hopen : e'.flags.cycopen = true → c' = e'.nrec.toNat)
    (hempty : e'.filled = 0 → c' = e'.nrec.toNat)
    (hreach : e'.filled ≠ 0 →
      e'.lastMatch.toNat = e.lastMatch.toNat + len.toNat + e'.matchAfter c' e.dataOffsets.length) :
    EncChain c' e' := by
  have hold : ∀ r, r < e.dataOffsets.length → e'.runEnd r = e.runEnd r := fun r hr => by
    unfold Enc.runEnd
    rw [ho, hd, List.getD_append _ _ _ _ hr, List.getD_append _ _ _ _ (by omega)]
  have hnew : e'.runEnd e.dataOffsets.length = e.lastMatch.toNat + len.toNat := by
    unfold Enc.runEnd
    rw [ho, hd, List.getD_append_right _ _ _ _ le_rfl, List.getD_append_right _ _ _ _ (by omega), hcount]
    simp
  refine ⟨hbound, hopen, hempty, fun r hr => ?_, fun hf' r hr => ?_⟩
  · have hlen : r < e.dataOffsets.length := by
      rw [ho] at hr
      simpa using hr
    rw [hold r hlen, hm r hlen, ho]
    by_cases hlast : r + 1 < e.dataOffsets.length
    · rw [List.getD_append _ _ _ _ hlast]
      exact h.adjacent r hlast
    · have hr' : r + 1 = e.dataOffsets.length := by omega
      rw [hr', List.getD_append_right _ _ _ _ le_rfl, ← h.reaches hf r hr']
      simp
  · have hr' : r = e.dataOffsets.length := by
      rw [ho] at hr
      simpa using hr
    rw [hr', hnew]
    exact hreach hf'

section Records

variable {recCap : Nat} {e : Enc}

/-! ### COMMIT -/

/-- A record passes the length test only if its match has at least one byte (R10, R230). -/
theorem EncInv.required_pos (h : EncInv recCap e) (dist : Word) : 1 ≤ e.required dist := by
  have := h.config.sPos
  have := h.config.sLeM
  unfold Enc.required
  split <;> omega

/-- A candidate with an extension range has a window of bytes at the cursor. -/
theorem EncInv.filled_pos (h : EncInv recCap e) (hb : e.flags.bvalid = true) : 1 ≤ e.filled := by
  have := h.hash.windowRead (h.candidate.hitHash (h.candidate.boundsHit hb))
  have := h.drvL_pos
  omega

/-- The match behind run `r` of the old runs is not changed by a record more: a record staged in an open cycle stands
behind the closing run to come, one staged with no cycle open at the end of all. -/
theorem matchAfter_stageRecord {c r : Nat} (hlens : e.lens.length = e.nrec.toNat) (hc : c ≤ e.nrec.toNat)
    (hopen : e.flags.cycopen = true → r < c) (hr : r ≤ e.nrec.toNat) :
    (stageRecord e).matchAfter (if e.flags.cycopen then e.nrec.toNat + 1 else c) r = e.matchAfter c r := by
  unfold Enc.matchAfter stageRecord
  cases ho : e.flags.cycopen with
  | true =>
    have hrc := hopen ho
    simp only [if_true, hrc, List.getD_append _ _ _ _ (show r < e.lens.length by omega)]
    rw [if_pos (by omega)]
  | false =>
    simp only [Bool.false_eq_true, if_false]
    split
    next hrc => rw [List.getD_append _ _ _ _ (by omega)]
    next hrc =>
      split
      next => rfl
      next hne => rw [List.getD_append _ _ _ _ (by omega)]

/-- The new record's match stands behind the last run. -/
theorem matchAfter_stageRecord_last {c : Nat} (hlens : e.lens.length = e.nrec.toNat) (hc : c ≤ e.nrec.toNat)
    (hopen : e.flags.cycopen = true → e.dataOffsets.length = e.nrec.toNat)
    (hclosed : e.flags.cycopen = false → e.dataOffsets.length = e.nrec.toNat + 1) :
    (stageRecord e).matchAfter (if e.flags.cycopen then e.nrec.toNat + 1 else c) e.dataOffsets.length =
      (wordOf (e.mend.toNat - e.mstart.toNat)).toNat := by
  unfold Enc.matchAfter stageRecord
  cases ho : e.flags.cycopen with
  | true =>
    have hn := hopen ho
    simp only [if_true]
    rw [if_pos (by omega), List.getD_append_right _ _ _ _ (by omega),
      show e.dataOffsets.length - e.lens.length = 0 by omega, List.getD_cons_zero]
  | false =>
    have hn := hclosed ho
    simp only [Bool.false_eq_true, if_false]
    rw [if_neg (by omega), if_neg (by omega), List.getD_append_right _ _ _ _ (by omega),
      show e.dataOffsets.length - 1 - e.lens.length = 0 by omega, List.getD_cons_zero]

/-- While bytes are read and no cycle is open there is one run more than records. -/
theorem EncStaging.runs_closed (h : EncStaging recCap e) (hf : 1 ≤ e.filled) (hclosed : e.flags.cycopen = false) :
    e.dataOffsets.length = e.nrec.toNat + 1 :=
  h.sameRuns.symm.trans ((h.closedRuns hclosed).resolve_right (by omega))

/-- While bytes are read each record has taken a byte of its own, so NREC counts on without wrap. -/
theorem EncInv.nrec_stageRecord (h : EncInv recCap e) (hf : 1 ≤ e.filled) :
    (stageRecord e).nrec.toNat = e.nrec.toNat + 1 := by
  have hcount := h.staging.recordCount.resolve_right (by omega)
  have hlast := h.cursors.lastMatchLe
  have hle := h.filled_le
  exact toNat_wordOf (by omega)

theorem EncInv.chain_stageRecord (h : EncInv recCap e) (hf : 1 ≤ e.filled)
    (hstart : e.lastMatch.toNat ≤ e.mstart.toNat) (hle : e.mstart.toNat ≤ e.mend.toNat) :
    ∃ c, EncChain c (stageRecord e) := by
  obtain ⟨c, hc⟩ := h.staging.chain
  have hlens := h.staging.lensCount
  have hnrec := h.nrec_stageRecord hf
  have hopen : e.flags.cycopen = true → e.dataOffsets.length = e.nrec.toNat := fun ho =>
    h.staging.sameRuns.symm.trans (h.staging.openRuns ho)
  have hclosed := h.staging.runs_closed hf
  have hmend := e.mend.isLt
  have hrun : (wordOf (e.mstart.toNat - e.lastMatch.toNat)).toNat = e.mstart.toNat - e.lastMatch.toNat :=
    toNat_wordOf (by omega)
  have hmatch : (wordOf (e.mend.toNat - e.mstart.toNat)).toNat = e.mend.toNat - e.mstart.toNat :=
    toNat_wordOf (by omega)
  refine ⟨if e.flags.cycopen then e.nrec.toNat + 1 else c,
    hc.push (len := wordOf (e.mstart.toNat - e.lastMatch.toNat)) (by omega) h.staging.sameRuns rfl rfl
      (fun r hr => ?_) ?_ (fun ho => ?_) (fun h0 => ?_) fun _ => ?_⟩
  · refine matchAfter_stageRecord hlens hc.bound (fun ho => ?_) ?_
    · have := hopen ho
      have := hc.openAll ho
      omega
    · cases ho : e.flags.cycopen with
      | true => have := hopen ho; omega
      | false => have := hclosed ho; omega
  · have := hc.bound
    split <;> omega
  · have ho' : e.flags.cycopen = true := ho
    rw [if_pos ho', hnrec]
  · have h0' : e.filled = 0 := h0
    omega
  · rw [hrun, matchAfter_stageRecord_last hlens hc.bound hopen hclosed, hmatch]
    show e.mend.toNat = _
    omega

/-- The room that COMMIT tests is the room it uses. -/
theorem EncInv.staging_stageRecord (h : EncInv recCap e) (hf : 1 ≤ e.filled) (hroom : e.recordsFull recCap = false)
    (hstart : e.lastMatch.toNat ≤ e.mstart.toNat) (hlt : e.mstart.toNat < e.mend.toNat) :
    EncStaging recCap (stageRecord e) := by
  have hnrec := h.nrec_stageRecord hf
  have hcount := h.staging.recordCount.resolve_right (by omega)
  simp only [Enc.recordsFull, Enc.runsFull, Bool.or_eq_false_iff, decide_eq_false_iff_not] at hroom
  obtain ⟨⟨⟨⟨hne, -⟩, hruns⟩, -⟩, -⟩ := hroom
  have hrecords := h.staging.recordsFit
  refine ⟨?_, ?_, ?_, fun ho => ?_, fun hcl => .inl ?_, ?_, ?_, h.chain_stageRecord hf hstart hlt.le, .inl ?_⟩
  · rw [hnrec, ← h.staging.lensCount]
    exact List.length_append
  · rw [hnrec, ← h.staging.offsetsCount]
    exact List.length_append
  · show (e.datalens ++ [_]).length = (e.dataOffsets ++ [_]).length
    rw [List.length_append, List.length_append, h.staging.sameRuns]
    rfl
  · rw [hnrec, ← h.staging.openRuns ho]
    exact List.length_append
  · rw [hnrec, ← h.staging.runs_closed hf hcl, ← h.staging.sameRuns]
    exact List.length_append
  · rw [hnrec]
    omega
  · show (e.datalens ++ [_]).length ≤ recCap
    rw [List.length_append]
    exact Nat.lt_of_not_le hruns
  · rw [hnrec]
    show e.nrec.toNat + 1 ≤ e.mend.toNat
    omega

theorem EncInv.stageRecord (h : EncInv recCap e) (hs : e.flags.svalid = true) (he : e.flags.evalid = true)
    (hreq : e.required e.dist ≤ e.mend.toNat - e.mstart.toNat) (hroom : e.recordsFull recCap = false) :
    EncInv recCap (stageRecord e) := by
  obtain ⟨hstart, -⟩ := h.candidate.startRange hs
  obtain ⟨-, hend⟩ := h.candidate.endRange he
  have hreq1 := h.required_pos e.dist
  have hf := h.filled_pos (h.candidate.startBounds hs)
  exact ⟨{ h.config with }, { h.cursors with lastMatchLe := hend }, { h.hash with }, .of_cleared rfl rfl rfl rfl,
    h.staging_stageRecord hf hroom hstart (by omega), h.buffer⟩

theorem commitLines_encInv (h : EncInv recCap e) : (commitLines recCap e).OnDone (EncInv recCap) := by
  obtain ⟨-, hl⟩ | ⟨-, -, -, hl⟩ | ⟨-, -, -, -, hl⟩ | ⟨hs, he, hreq, hroom, hl⟩ := commitLines_cases recCap e <;>
    rw [hl]
  · trivial
  · exact h.clearCand.setMatched false
  · trivial
  · exact h.stageRecord hs he hreq hroom

/-! ### FILL -/

/-- Every cell of a memory after a run was written is in the run or was there before. -/
theorem Memory.mem_writeRun : ∀ (bs : List Byte) (m : Memory) (p : Nat) (c : Host.Cell),
    c ∈ m.writeRun p bs → (p ≤ c.1 ∧ c.1 < p + bs.length) ∨ c ∈ m
  | [], _, _, _, h => .inr h
  | b :: bs, m, p, c, h => by
    rw [List.length_cons]
    obtain hrun | hc := Memory.mem_writeRun bs (m.write p b) (p + 1) c h
    · exact .inl (by omega)
    · obtain rfl | hc := mem_cellPut m p b c hc
      · exact .inl (by simp)
      · exact .inr hc

/-- A run that closes the gap up to the new limit leaves the bytes below it held. -/
theorem HeldBelow.writeRun {m : Memory} {n k p : Nat} {bs : List Byte} (h : HeldBelow m n) (hn : n ≤ k)
    (hp : p ≤ n) (hend : p + bs.length ≤ k) (hk : k ≤ n ∨ k ≤ p + bs.length) : HeldBelow (m.writeRun p bs) k := by
  refine ⟨fun c hc => ?_, fun q hq => ?_⟩
  · obtain hrun | hc := Memory.mem_writeRun bs m p c hc
    · omega
    · exact (h.bound c hc).trans_le hn
  · rw [Memory.read_writeRun]
    split
    next hin => simp; omega
    next hin => exact h.held q (by omega)

theorem EncInv.fillWith (h : EncInv recCap e) {ds : List Byte} (hclosed : e.flags.cycopen = false)
    (hfinal : e.flags.final = false) (hds : 1 ≤ ds.length) (hB : e.base.toNat + ds.length ≤ e.cfgB.toNat) :
    EncInv recCap (fillWith ds e) := by
  have hbase : e.filled = e.base.toNat := by simp [Enc.filled, h.cursors.closedSize hclosed]
  have hBle := h.config.bLe
  have hsize : (Machine.fillWith ds e).size.toNat = ds.length := toNat_wordOf (by omega)
  have hfilled : (Machine.fillWith ds e).filled = e.base.toNat + ds.length := congrArg (e.base.toNat + ·) hsize
  have hgrow : e.filled ≤ (Machine.fillWith ds e).filled := by omega
  obtain ⟨-, hlastMatch, hlastI, hi, haligned, -, -, -⟩ := h.cursors
  have hcursors : EncCursors (Machine.fillWith ds e) :=
    { inBuffer := by rw [hfilled]; exact hB
      lastMatchLe := hlastMatch.trans hgrow
      lastILe := hlastI.trans hgrow
      iLe := hi.trans hgrow
      lastIAligned := haligned
      closedSize := fun hc => Bool.noConfusion hc
      openSize := fun _ => by rw [hsize]; exact hds
      finalClosed := fun hf => Bool.noConfusion (hfinal.symm.trans hf) }
  have hhash : EncHash (Machine.fillWith ds e) :=
    { windowRead := fun hv => (h.hash.windowRead hv).trans hgrow
      windowHash := fun hv bs hlen hat => by
        refine h.hash.windowHash hv bs hlen fun t ht => ?_
        have hlt : e.i.toNat + t < e.base.toNat := by
          have hw := h.hash.windowRead hv
          have hlen' : bs.length = e.drvL.toNat := hlen
          omega
        have hread : (e.buf.writeRun e.base.toNat ds).read (e.i.toNat + t) = bs[t]? := hat t ht
        rwa [Memory.read_writeRun, if_neg (by omega)] at hread
      anchors := h.hash.anchors
      anchorsFirstLap := fun hlap c hc => (h.hash.anchorsFirstLap hlap c hc).trans_le hgrow }
  have hchain : EncChain 0 (Machine.fillWith ds e) :=
    ⟨Nat.le_refl _, fun _ => rfl, fun _ => rfl, fun _ hr => absurd hr (Nat.not_lt_zero _),
      fun _ _ hr => absurd hr (Nat.succ_ne_zero _)⟩
  have hstaging : EncStaging recCap (Machine.fillWith ds e) :=
    ⟨rfl, rfl, rfl, fun _ => rfl, fun hc => Bool.noConfusion hc, Nat.zero_le _, Nat.zero_le _, ⟨0, hchain⟩,
      .inl (Nat.zero_le _)⟩
  have hbuffer : HeldBelow (e.buf.writeRun e.base.toNat ds) (Machine.fillWith ds e).heldLimit := by
    have hold := h.buffer
    have hlap : (Machine.fillWith ds e).heldLimit =
        if e.flags.lapped then e.cfgB.toNat else (Machine.fillWith ds e).filled := rfl
    unfold Enc.heldLimit at hold
    rw [hlap]
    split at hold
    next hl => rw [if_pos hl]; exact hold.writeRun le_rfl (by omega) hB (.inl le_rfl)
    next hl => rw [if_neg hl, hfilled]; exact hold.writeRun (by omega) (by omega) le_rfl (.inr le_rfl)
  exact ⟨{ h.config with }, hcursors, hhash, .of_cleared rfl rfl rfl rfl, hstaging, hbuffer⟩

theorem fillLines_encInv {s : State} (h : EncInv recCap s.enc) :
    (fillLines s).OnDone fun t => EncInv recCap t.enc := by
  refine .guard fun hopen => .guard fun hfinal => .guard fun _ => .guard fun hn => .guard fun hB => ?_
  have hlen : (einTake s.arg0.toNat s.ports).1.length = s.arg0.toNat := length_takeBytes _ _ _ _
  rw [← hlen] at hn hB
  exact h.fillWith (by simpa using hopen) (by simpa using hfinal) (Nat.one_le_iff_ne_zero.2 hn) (Nat.le_of_not_lt hB)

/-! ### ENDCYC -/

/-- What the closing run is: it begins at LAST_MATCH and ends at the new LAST_MATCH, the later of LAST_MATCH and the
tail (R252). -/
theorem closeRun_eq (tail : Word) (e : Enc) : ∃ len m : Word, closeRun tail e = { e with
      dataOffsets := e.dataOffsets ++ [e.lastMatch], datalens := e.datalens ++ [len], lastMatch := m } ∧
    m.toNat = e.lastMatch.toNat + len.toNat ∧ m.toNat = max e.lastMatch.toNat tail.toNat := by
  unfold closeRun
  split
  next h => exact ⟨0, e.lastMatch, rfl, by simp, by omega⟩
  next h =>
    have := tail.isLt
    exact ⟨_, tail, rfl, by rw [toNat_wordOf (by omega)]; omega, by omega⟩

/-- The closing run makes the staging arrays complete: one run more than records. -/
theorem EncStaging.closed {e' : Enc} {len : Word} (h : EncStaging recCap e) (hopen : e.flags.cycopen = true)
    (hroom : e.runsFull recCap = false) (hlens : e'.lens = e.lens) (hoffsets : e'.offsets = e.offsets)
    (hnrec : e'.nrec = e.nrec) (ho : e'.dataOffsets = e.dataOffsets ++ [e.lastMatch])
    (hd : e'.datalens = e.datalens ++ [len]) (hclosed : e'.flags.cycopen = false)
    (hchain : EncChain e'.nrec.toNat e') (hcount : e'.nrec.toNat ≤ e'.lastMatch.toNat ∨ e'.filled = 0) :
    EncStaging recCap e' := by
  have hruns := h.openRuns hopen
  simp only [Enc.runsFull, Bool.or_eq_false_iff, decide_eq_false_iff_not] at hroom
  obtain ⟨⟨-, -⟩, hfit⟩ := hroom
  refine ⟨?_, ?_, ?_, fun hop => ?_, fun _ => .inl ?_, ?_, ?_, ⟨_, hchain⟩, hcount⟩
  · rw [hlens, hnrec]
    exact h.lensCount
  · rw [hoffsets, hnrec]
    exact h.offsetsCount
  · rw [hd, ho]
    simp [h.sameRuns]
  · exact Bool.noConfusion (hclosed.symm.trans hop)
  · rw [hd, hnrec, ← hruns]
    exact List.length_append
  · rw [hnrec]
    exact h.recordsFit
  · rw [hd]
    simp
    omega

/-- With all records before the closing run, the closing run has no match behind it and none of the old ones changes. -/
theorem EncStaging.chain_closed {e' : Enc} {len : Word} (h : EncStaging recCap e) (hopen : e.flags.cycopen = true)
    (hf : e.filled ≠ 0) (hlens : e'.lens = e.lens) (hnrec : e'.nrec = e.nrec)
    (ho : e'.dataOffsets = e.dataOffsets ++ [e.lastMatch]) (hd : e'.datalens = e.datalens ++ [len])
    (hreach : e'.filled ≠ 0 → e'.lastMatch.toNat = e.lastMatch.toNat + len.toNat) : EncChain e'.nrec.toNat e' := by
  obtain ⟨c, hc⟩ := h.chain
  obtain rfl := hc.openAll hopen
  have hruns := h.openRuns hopen
  have hsame := h.sameRuns
  have hmatch : ∀ r, e'.matchAfter e'.nrec.toNat r = e.matchAfter e.nrec.toNat r := fun r => by
    unfold Enc.matchAfter
    rw [hlens, hnrec]
  refine hc.push hf hsame ho hd (fun r _ => hmatch r) le_rfl (fun _ => rfl) (fun _ => rfl) fun hf' => ?_
  have hnone : e.matchAfter e.nrec.toNat e.dataOffsets.length = 0 := by
    unfold Enc.matchAfter
    rw [if_neg (by omega), if_pos (by omega)]
  rw [hmatch, hnone]
  exact hreach hf'

theorem EncInv.closeLap (h : EncInv recCap e) (hopen : e.flags.cycopen = true) (hroom : e.runsFull recCap = false)
    (hends : e.filled = e.cfgB.toNat) : EncInv recCap (closeLap (closeRun e.cfgB e)) := by
  obtain ⟨len, m, hrun, -, -⟩ := closeRun_eq e.cfgB e
  rw [hrun]
  have hpos := h.cursors.openSize hopen
  have hfinal : e.flags.final = false := by
    cases hfin : e.flags.final with
    | false => rfl
    | true => exact absurd (h.cursors.finalClosed hfin) (by simp [hopen])
  refine ⟨{ h.config with }, ?_, .of_dropped rfl h.hash.anchors (fun hl => Bool.noConfusion hl),
    .of_cleared rfl rfl rfl rfl, ?_, ?_⟩
  · exact ⟨Nat.zero_le _, Nat.zero_le _, Nat.zero_le _, Nat.zero_le _, Nat.zero_mod _, fun _ => rfl,
      fun hc => Bool.noConfusion hc, fun _ => rfl⟩
  · refine h.staging.closed hopen hroom rfl rfl rfl rfl rfl rfl ?_ (.inr rfl)
    exact h.staging.chain_closed hopen (by unfold Enc.filled; omega) rfl rfl rfl rfl fun hf => absurd rfl hf
  · have hlimit : e.heldLimit = e.cfgB.toNat := by
      unfold Enc.heldLimit
      split
      · rfl
      · exact hends
    have hbuffer := h.buffer
    rw [hlimit] at hbuffer
    exact hbuffer

theorem closeCycle_filled {x : Enc} (h : x.filled < 2 ^ 32) : (closeCycle x).filled = x.filled := by
  show (wordOf x.filled).toNat + 0 = x.filled
  rw [toNat_wordOf h, Nat.add_zero]

theorem EncInv.closeCycle (h : EncInv recCap e) (hopen : e.flags.cycopen = true)
    (hroom : e.runsFull recCap = false) : EncInv recCap (closeCycle (closeRun e.lastI e)) ∧
      EncChain (closeCycle (closeRun e.lastI e)).nrec.toNat (closeCycle (closeRun e.lastI e)) := by
  obtain ⟨len, m, hrun, hlen, hmax⟩ := closeRun_eq e.lastI e
  have hpos := h.cursors.openSize hopen
  have hf0 : e.filled ≠ 0 := by unfold Enc.filled; omega
  have hlt : e.filled < 2 ^ 32 := by have := h.filled_le; omega
  have hfilled : (Machine.closeCycle (closeRun e.lastI e)).filled = e.filled := by
    rw [hrun]
    exact closeCycle_filled hlt
  have hchain : EncChain (Machine.closeCycle (closeRun e.lastI e)).nrec.toNat
      (Machine.closeCycle (closeRun e.lastI e)) := by
    rw [hrun]
    exact h.staging.chain_closed hopen hf0 rfl rfl rfl rfl fun _ => hlen
  obtain ⟨hin, hlastMatch, hlastI, hi, haligned, -, -, -⟩ := h.cursors
  have hm : m.toNat ≤ e.filled := by omega
  have hcount : e.nrec.toNat ≤ m.toNat := by
    have := h.staging.recordCount.resolve_right hf0
    omega
  rw [hrun] at hfilled hchain ⊢
  refine ⟨⟨{ h.config with }, ?_, ?_, .of_cleared rfl rfl rfl rfl,
    h.staging.closed hopen hroom rfl rfl rfl rfl rfl rfl hchain (.inl hcount), ?_⟩, hchain⟩
  · constructor
    case inBuffer => rw [hfilled]; exact hin
    case lastMatchLe => rw [hfilled]; exact hm
    case lastILe => rw [hfilled]; exact hlastI
    case iLe => rw [hfilled]; exact hi
    case lastIAligned => exact haligned
    case closedSize => exact fun _ => rfl
    case openSize => exact fun hc => Bool.noConfusion hc
    case finalClosed => exact fun _ => rfl
  · refine ⟨fun hv => ?_, h.hash.windowHash, h.hash.anchors, fun hl c hc => ?_⟩ <;> rw [hfilled]
    · exact h.hash.windowRead hv
    · exact h.hash.anchorsFirstLap hl c hc
  · have hbuffer := h.buffer
    unfold Enc.heldLimit at hbuffer ⊢
    rw [hfilled]
    exact hbuffer

theorem endcycLines_encInv (h : EncInv recCap e) :
    (endcycLines recCap e).OnDone fun t => EncInv recCap t ∧ EncChain t.nrec.toNat t := by
  refine .guard fun hopen => .guard fun hroom => ?_
  have hopen' : e.flags.cycopen = true := by simpa using hopen
  have hroom' : e.runsFull recCap = false := by simpa using hroom
  split
  next hends =>
    have ht := h.closeLap hopen' hroom' (by simpa [Enc.lapEnds] using hends)
    obtain ⟨c, hc⟩ := ht.staging.chain
    exact ⟨ht, hc.emptyAll rfl ▸ hc⟩
  next => exact h.closeCycle hopen' hroom'

/-! ### FINAL -/

theorem finalLines_encInv (h : EncInv recCap e) : (finalLines recCap e).OnDone (EncInv recCap) := by
  refine .guard fun hopen => .guard fun _ => .guard fun hcap => ?_
  have hclosed : e.flags.cycopen = false := by simpa using hopen
  have hbase : e.filled = e.base.toNat := by simp [Enc.filled, h.cursors.closedSize hclosed]
  have hlast := h.cursors.lastMatchLe
  have htail : (wordOf (e.base.toNat - e.lastMatch.toNat)).toNat = e.base.toNat - e.lastMatch.toNat :=
    toNat_wordOf (by have := e.base.isLt; omega)
  have hcap' : 1 ≤ recCap := Nat.one_le_iff_ne_zero.2 hcap
  refine ⟨{ h.config with },
    { h.cursors with lastMatchLe := hbase.ge, finalClosed := fun _ => hclosed }, { h.hash with },
    .of_cleared rfl rfl rfl rfl,
    ⟨rfl, rfl, rfl, fun hc => ?_, fun _ => .inl rfl, Nat.zero_le _, hcap', ⟨0, ?_⟩, .inl (Nat.zero_le _)⟩, h.buffer⟩
  · exact Bool.noConfusion (hclosed.symm.trans hc)
  · refine ⟨Nat.le_refl _, fun _ => rfl, fun _ => rfl, fun r hr => ?_, fun _ r hr => ?_⟩
    · exact absurd (Nat.lt_of_succ_lt_succ hr) (Nat.not_lt_zero r)
    · obtain rfl : r = 0 := Nat.succ.inj hr
      show e.base.toNat = e.lastMatch.toNat + (wordOf (e.base.toNat - e.lastMatch.toNat)).toNat + 0
      omega

/-! ### CFG -/

theorem configured_encConfigured (hS : 1 ≤ e.cfgS.toNat) (hM : e.cfgS.toNat ≤ e.cfgM.toNat) (hA : 1 ≤ e.cfgA.toNat)
    (hH : e.cfgH.toNat ≤ 31) (hB : e.cfgB.toNat ≤ 2 ^ 31) (hL : 2 * windowLen e.cfgS.toNat ≤ e.cfgB.toNat) :
    EncConfigured (configured e) := by
  have hpos := windowLen_pos e.cfgS.toNat
  have hk := subsample_le hpos
  have hk1 := subsample_pos (windowLen e.cfgS.toNat)
  have hsize := tableSize_le (k := subsample (windowLen e.cfgS.toNat)) hB hH
  have hsize1 := tableSize_pos e.cfgB.toNat e.cfgH.toNat (subsample (windowLen e.cfgS.toNat))
  have htest : probesPerBlock (subsample (windowLen e.cfgS.toNat)) e.cfgA.toNat (windowLen e.cfgS.toNat) ≤
      windowLen e.cfgS.toNat := Nat.min_le_right _ _
  have hk' : (configured e).drvK.toNat = subsample (windowLen e.cfgS.toNat) := toNat_wordOf (by omega)
  have hsize' : (configured e).drvHsize.toNat =
      tableSize e.cfgB.toNat e.cfgH.toNat (subsample (windowLen e.cfgS.toNat)) := toNat_wordOf (by omega)
  refine ⟨hS, hM, hA, hH, hB, hL, toNat_wordOf (by omega), hk', toNat_wordOf (by omega), hsize', ?_, ?_, ?_⟩
  · rw [hsize']
    exact toNat_wordOf (by omega)
  · rw [hk']
    exact toNat_wordOf (by omega)
  · obtain ⟨n, hn⟩ := exists_windowLen_eq_two_pow e.cfgS.toNat
    show primePow (windowLen e.cfgS.toNat) = wordOf (prime ^ windowLen e.cfgS.toNat)
    rw [hn]
    exact primePow_two_pow n

theorem cfgLines_encInv (recCap : Nat) (caps : Caps) (e : Enc) : (cfgLines caps e).OnDone (EncInv recCap) := by
  refine .guard fun _ => .guard fun hS => .guard fun hM => .guard fun hA => .guard fun hH => .guard fun hB =>
    .guard fun hL => .guard fun _ => .guard fun _ => ?_
  refine ⟨configured_encConfigured (by omega) (by omega) (by omega) (by omega) (by omega) (by omega), ?_, ?_,
    .of_cleared rfl rfl rfl rfl, ?_, ?_⟩
  · exact ⟨Nat.zero_le _, Nat.le_refl _, Nat.le_refl _, Nat.le_refl _, Nat.zero_mod _, fun _ => rfl,
      fun hc => Bool.noConfusion hc, fun _ => rfl⟩
  · exact .of_dropped rfl (fun _ hc => absurd hc List.not_mem_nil) (fun _ _ hc => absurd hc List.not_mem_nil)
  · exact ⟨rfl, rfl, rfl, fun _ => rfl, fun _ => .inr ⟨rfl, rfl, rfl⟩, Nat.zero_le _, Nat.zero_le _,
      ⟨0, Nat.le_refl _, fun _ => rfl, fun _ => rfl, fun _ hr => absurd hr (Nat.not_lt_zero _),
        fun hf => absurd rfl hf⟩, .inl (Nat.zero_le _)⟩
  · exact ⟨fun _ hc => absurd hc List.not_mem_nil, fun _ hp => absurd hp (Nat.not_lt_zero _)⟩

end Records

end Sys2Proof.Machine
end

section
/-! PROOFS. The encoder invariants across the scan commands, which are made of the lines of the others, and across every
step; and R70 (g) in full, which a step keeps unless it stages a record with no cycle open. -/

namespace Sys2Proof.Machine

open Sys2Proof

section Scan

variable {recCap : Nat} {e : Enc}

/-! ### STEP -/

theorem verifyLines_encInv (h : EncInv recCap e) : (verifyLines recCap e).OnDone (EncInv recCap) := by
  refine (boundsLines_encInv h).andThen fun e h => ?_
  split
  · exact ((extbLines_encInv h).andThen fun _ h => extfLines_encInv h).andThen fun _ h => commitLines_encInv h
  · exact h

theorem searchLines_encInv (h : EncInv recCap e) : (searchLines recCap e).OnDone (EncInv recCap) := by
  unfold searchLines
  split
  · refine (probeLines_encInv h).andThen fun e h => ?_
    split
    · exact verifyLines_encInv h
    · exact h
  · exact h

/-- The INSERT of the scan commands moves no cursor. -/
theorem anchorLines_encInv (h : EncInv recCap e) :
    (anchorLines e).OnDone fun t => EncInv recCap t ∧ t.i = e.i ∧ t.filled = e.filled := by
  unfold anchorLines
  split
  · have hinv := insertLines_encInv h
    obtain ⟨-, hl⟩ | ⟨-, -, hl⟩ | ⟨-, -, hl⟩ := insertLines_cases e <;> rw [hl] at hinv ⊢
    · trivial
    · trivial
    · exact ⟨hinv, rfl, rfl⟩
  · exact ⟨h, rfl, rfl⟩

/-- The end of every turn of STEP and SKIP: index the cursor, then move it up by one. -/
theorem anchorRoll_encInv (h : EncInv recCap e) : ((anchorLines e).andThen hrollLines).OnDone fun t =>
    EncInv recCap t ∧ t.i.toNat = e.i.toNat + 1 ∧ t.filled = e.filled := by
  refine (anchorLines_encInv h).andThen ?_
  rintro a ⟨ha, hi, hf⟩
  rw [← hi, ← hf]
  exact hrollLines_encInv ha

theorem stepLines_encInv (h : EncInv recCap e) : (stepLines recCap e).OnDone (EncInv recCap) := by
  refine .guard fun _ => .guard fun _ => ?_
  rw [Run.andThen_assoc]
  exact (searchLines_encInv (h.setMatched false)).andThen fun a ha => (anchorRoll_encInv ha).imp fun _ ht => ht.1

/-! ### SKIP -/

/-- The loop of SKIP ends at a multiple of `L`: each turn moves the cursor up by one inside the bytes read, so the bound
on the turns is not used up. -/
theorem skipLoop_encInv : ∀ (n : Nat) (e : Enc), EncInv recCap e → e.filled - e.i.toNat < n →
    (skipLoop n e).OnDone fun t => EncInv recCap t ∧ t.blockAligned = true
  | 0, _, _, hn => absurd hn (Nat.not_lt_zero _)
  | n + 1, e, h, hn => by
    rw [skipLoop]
    split
    next ha => exact ⟨h, ha⟩
    next =>
      refine (anchorRoll_encInv h).andThen ?_
      rintro t ⟨ht, hi, hf⟩
      have hle := ht.cursors.iLe
      exact skipLoop_encInv n t ht (by omega)

theorem skipLines_encInv (h : EncInv recCap e) :
    (skipLines e).OnDone fun t => EncInv recCap t ∧ t.blockAligned = true :=
  .guard fun _ => skipLoop_encInv _ _ h.clearCand (Nat.lt_succ_self _)

/-! ### SCAN -/

theorem rehashLines_encInv (h : EncInv recCap e) : (rehashLines e).OnDone (EncInv recCap) := by
  unfold rehashLines
  split
  · exact h
  · exact hinitLines_encInv h

theorem blockLines_encInv (h : EncInv recCap e) :
    (blockLines recCap e).OnDone fun t => EncInv recCap t ∧ t.blockAligned = true :=
  ((rehashLines_encInv h).andThen fun _ h => Run.OnDone.times (fun _ h => stepLines_encInv h) _ _ h).andThen
    fun _ h => skipLines_encInv h

theorem scanLoop_encInv : ∀ (n : Nat) (e : Enc), EncInv recCap e ∧ e.blockAligned = true →
    (scanLoop recCap n e).OnDone fun t => EncInv recCap t ∧ t.blockAligned = true
  | 0, _, h => h
  | n + 1, e, h => by
    obtain ⟨-, hl⟩ | ⟨-, hl⟩ := scanLoop_succ recCap n e <;> rw [hl]
    · exact h
    · exact (blockLines_encInv h.1).andThen (scanLoop_encInv n)

theorem restart_i (e : Enc) : (restart e).i = e.lastI := by
  unfold restart
  split
  · assumption
  · rfl

theorem restart_blockAligned (h : EncInv recCap e) : (restart e).blockAligned = true := by
  rw [(restart_encInv h).blockAligned_iff, restart_i]
  have hS : (restart e).cfgS = e.cfgS := by
    unfold restart
    split <;> rfl
  rw [hS]
  exact h.cursors.lastIAligned

/-- LAST_I takes over the cursor, which stands at a multiple of `L` at the end of a block (R250). -/
theorem scanLines_encInv (h : EncInv recCap e) : (scanLines recCap e).OnDone (EncInv recCap) := by
  refine .guard fun _ =>
    (scanLoop_encInv _ _ ⟨restart_encInv h, restart_blockAligned h⟩).andThen fun t ⟨ht, ha⟩ => ?_
  exact ⟨{ ht.config with }, { ht.cursors with lastILe := ht.cursors.iLe, lastIAligned := ht.blockAligned_iff.1 ha },
    { ht.hash with }, { ht.candidate with }, ht.staging.of_stagingPart rfl, ht.buffer⟩

end Scan

/-! ### Commands -/

theorem eoutPut_onDone {P : Enc → Prop} (bytes : List Byte) {s : State} (h : P s.enc) :
    (eoutPut bytes s).OnDone fun t => P t.enc := by
  obtain ⟨-, hd⟩ | ⟨-, hd⟩ := eoutPut_cases bytes s <;> rw [hd]
  · exact h
  · trivial

theorem rdlitLines_encInv {recCap : Nat} {s : State} (h : EncInv recCap s.enc) :
    (rdlitLines s).OnDone fun t => EncInv recCap t.enc := by
  refine .guard fun _ => ?_
  split
  · trivial
  split
  · exact h
  · exact eoutPut_onDone _ h

section Commands

variable {op : Byte} {s t : State}

/-- An encoder command other than CFG keeps the invariants where its lines do. -/
theorem encCommand_encOK {body : State → Run State} (hs : EncOK s) (hcaps : t.caps = s.caps)
    (hb : EncInv s.caps.recCap s.enc → (body s).OnDone fun t => EncInv s.caps.recCap t.enc)
    (h : encCommand op body s = .next t) : EncOK t := fun ⟨hf, _⟩ => by
  obtain ⟨hready, hd⟩ := encCommand_done h hf
  rw [hcaps]
  exact (hb (hs hready)).of_eq_done hd

theorem onEnc_encOK {f : Enc → Run Enc} (hs : EncOK s) (hcaps : t.caps = s.caps)
    (hf : EncInv s.caps.recCap s.enc → (f s.enc).OnDone (EncInv s.caps.recCap))
    (h : encCommand op (onEnc f) s = .next t) : EncOK t :=
  encCommand_encOK hs hcaps (fun hi => onEnc_onDone (hf hi)) h

end Commands

/-- Every command keeps the encoder invariants. -/
theorem exec_encOK {i : Instr} {s t : State} (hs : EncOK s) (h : exec i s = .next t) : EncOK t := by
  obtain ⟨-, hcaps, -⟩ := (exec_writesWithin h).shared
  have hsame : t.enc = s.enc → EncOK t := fun he => by
    unfold EncOK EncReady
    rw [he, hcaps]
    exact hs
  cases i with
  | nop => cases h; exact hs
  | reset ctx =>
    cases h
    unfold EncOK EncReady
    rw [resetContexts_enc, hcaps]
    split
    · exact fun ⟨_, hok⟩ => Bool.noConfusion hok
    · exact hs
  | cfg =>
    intro ⟨hf, _⟩
    obtain ⟨-, hd⟩ := unlessFaulted_done (c := .enc) h hf
    exact (onEnc_onDone (cfgLines_encInv t.caps.recCap s.caps s.enc)).of_eq_done hd
  | hclr => exact onEnc_encOK hs hcaps hclrLines_encInv h
  | hupd out inn => exact onEnc_encOK hs hcaps (hupdLines_encInv out inn) h
  | hinit => exact onEnc_encOK hs hcaps hinitLines_encInv h
  | hroll => exact onEnc_encOK hs hcaps (fun hi => (hrollLines_encInv hi).imp fun _ ht => ht.1) h
  | htclr => exact onEnc_encOK hs hcaps htclrLines_encInv h
  | insert => exact onEnc_encOK hs hcaps insertLines_encInv h
  | probe => exact onEnc_encOK hs hcaps probeLines_encInv h
  | fill => exact encCommand_encOK hs hcaps fillLines_encInv h
  | seek => exact onEnc_encOK hs hcaps (seekLines_encInv s.arg0) h
  | bounds => exact onEnc_encOK hs hcaps boundsLines_encInv h
  | rdlit => exact encCommand_encOK hs hcaps rdlitLines_encInv h
  | extb => exact onEnc_encOK hs hcaps extbLines_encInv h
  | extf => exact onEnc_encOK hs hcaps extfLines_encInv h
  | commit => exact onEnc_encOK hs hcaps commitLines_encInv h
  | step => exact onEnc_encOK hs hcaps stepLines_encInv h
  | skip => exact onEnc_encOK hs hcaps (fun hi => (skipLines_encInv hi).imp fun _ ht => ht.1) h
  | scan => exact onEnc_encOK hs hcaps scanLines_encInv h
  | endcyc => exact onEnc_encOK hs hcaps (fun hi => (endcycLines_encInv hi).imp fun _ ht => ht.1) h
  | final => exact onEnc_encOK hs hcaps finalLines_encInv h
  | dinit | dlit | dmatch | dflush => exact hsame (exec_enc_eq h (by decide) nofun)

/-! ### R70 (g) in full -/

/-- A chain with no record staged, with a cycle open, or at the end of a lap, has all its records before the closing
run. -/
theorem EncChain.all {c : Nat} {e : Enc} (h : EncChain c e)
    (hall : e.nrec.toNat = 0 ∨ e.flags.cycopen = true ∨ e.filled = 0) : EncChain e.nrec.toNat e := by
  have hc : c = e.nrec.toNat := by
    obtain h0 | hopen | hempty := hall
    · have := h.bound
      omega
    · exact h.openAll hopen
    · exact h.emptyAll hempty
  exact hc ▸ h

/-- The commands that write a staging array or a register that says where the runs are. -/
abbrev stagingWriters : List Byte := encSetup ++ [0x30, 0x42, 0x50, 0x52, 0x53, 0x54]

theorem Enc.stagingPart_of_unwritten {op : Byte} {e e' : Enc} (hop : op ∉ stagingWriters)
    (h : e'.unwritten op = e.unwritten op) : e'.stagingPart = e.stagingPart := by
  have hrec : op ∉ encSetup ++ [0x30, 0x42, 0x50, 0x52, 0x54] := fun hm =>
    hop ((by decide : encSetup ++ [0x30, 0x42, 0x50, 0x52, 0x54] ⊆ stagingWriters) hm)
  have hlast : op ∉ encSetup ++ [0x42, 0x50, 0x52, 0x53, 0x54] := fun hm =>
    hop ((by decide : encSetup ++ [0x42, 0x50, 0x52, 0x53, 0x54] ⊆ stagingWriters) hm)
  have hbase : op ∉ encSetup ++ [0x53] := fun hm => hop ((by decide : encSetup ++ [0x53] ⊆ stagingWriters) hm)
  have hsize : op ∉ encSetup ++ [0x30, 0x53] := fun hm =>
    hop ((by decide : encSetup ++ [0x30, 0x53] ⊆ stagingWriters) hm)
  have hcyc : e'.flags.cycopen = e.flags.cycopen :=
    eq_of_unlessWriter hsize (congrArg (fun e : Enc => e.flags.cycopen) h)
  unfold Enc.stagingPart
  rw [hcyc, eq_of_unlessWriter hrec (congrArg Enc.lens h), eq_of_unlessWriter hrec (congrArg Enc.offsets h),
    eq_of_unlessWriter hrec (congrArg Enc.nrec h), eq_of_unlessWriter hop (congrArg Enc.datalens h),
    eq_of_unlessWriter hop (congrArg Enc.dataOffsets h), eq_of_unlessWriter hlast (congrArg Enc.lastMatch h),
    eq_of_unlessWriter hbase (congrArg Enc.base h), eq_of_unlessWriter hsize (congrArg Enc.size h)]

theorem EncChain.full_of_stagingPart {e e' : Enc} (h : EncChain e.nrec.toNat e)
    (he : e'.stagingPart = e.stagingPart) : EncChain e'.nrec.toNat e' := by
  have hnrec : e'.nrec = e.nrec := (congrArg Enc.nrec he :)
  rw [hnrec]
  exact h.of_stagingPart he

/-- From `e₀` to `e` nothing was staged and no run moved, or a record was staged. -/
def Enc.StagedFrom (e₀ e : Enc) : Prop := e.stagingPart = e₀.stagingPart ∨ e₀.lens.length < e.lens.length

section StagedFrom

variable {e₀ e e' : Enc}

theorem Enc.StagedFrom.of_same (h : e₀.StagedFrom e) (he : e'.stagingPart = e.stagingPart) : e₀.StagedFrom e' :=
  h.imp he.trans fun hlt => by
    have hlens : e'.lens = e.lens := (congrArg Enc.lens he :)
    rwa [hlens]

theorem Enc.StagedFrom.of_unwritten (h : e₀.StagedFrom e) {op : Byte} (hop : op ∉ stagingWriters)
    (he : e'.unwritten op = e.unwritten op) : e₀.StagedFrom e' :=
  h.of_same (Enc.stagingPart_of_unwritten hop he)

theorem Enc.StagedFrom.lens_le (h : e₀.StagedFrom e) : e₀.lens.length ≤ e.lens.length := by
  obtain he | hlt := h
  · have hlens : e.lens = e₀.lens := (congrArg Enc.lens he :)
    rw [hlens]
  · exact hlt.le

theorem commitLines_stagedFrom (recCap : Nat) (h : e₀.StagedFrom e) : e₀.StagedFrom (commitLines recCap e).final := by
  obtain ⟨-, hl⟩ | ⟨-, -, -, hl⟩ | ⟨-, -, -, -, hl⟩ | ⟨-, -, -, -, hl⟩ := commitLines_cases recCap e <;> rw [hl]
  · exact h
  · exact h.of_same rfl
  · exact h
  · right
    show e₀.lens.length < (e.lens ++ [_]).length
    rw [List.length_append]
    exact Nat.lt_succ_of_le h.lens_le

theorem verifyLines_stagedFrom (recCap : Nat) (h : e₀.StagedFrom e) : e₀.StagedFrom (verifyLines recCap e).final := by
  have hbounds := h.of_unwritten (op := 0x32) (by decide) (boundsLines_unwritten (by decide) e)
  refine Run.final_andThen e₀.StagedFrom _ _ hbounds fun e h => ?_
  split
  · have hextb := h.of_unwritten (op := 0x40) (by decide) (extbLines_unwritten (by decide) e)
    refine Run.final_andThen e₀.StagedFrom _ _ (Run.final_andThen e₀.StagedFrom _ _ hextb fun e h => ?_) fun e h => ?_
    · exact h.of_unwritten (op := 0x41) (by decide) (extfLines_unwritten (by decide) e)
    · exact commitLines_stagedFrom recCap h
  · exact h

theorem searchLines_stagedFrom (recCap : Nat) (h : e₀.StagedFrom e) : e₀.StagedFrom (searchLines recCap e).final := by
  unfold searchLines
  split
  · have hprobe := h.of_unwritten (op := 0x22) (by decide) (probeLines_unwritten (by decide) e)
    refine Run.final_andThen e₀.StagedFrom _ _ hprobe fun e h => ?_
    split
    · exact verifyLines_stagedFrom recCap h
    · exact h
  · exact h

theorem anchorLines_stagedFrom (h : e₀.StagedFrom e) : e₀.StagedFrom (anchorLines e).final := by
  unfold anchorLines
  split
  · exact h.of_unwritten (op := 0x21) (by decide) (insertLines_unwritten (by decide) e)
  · exact h

theorem stepLines_stagedFrom (recCap : Nat) (h : e₀.StagedFrom e) : e₀.StagedFrom (stepLines recCap e).final := by
  refine Run.final_guard e₀.StagedFrom h (Run.final_guard e₀.StagedFrom h ?_)
  refine Run.final_andThen e₀.StagedFrom _ _ (Run.final_andThen e₀.StagedFrom _ _ ?_ ?_) fun e h => ?_
  · exact searchLines_stagedFrom recCap (h.of_same rfl)
  · exact fun e h => anchorLines_stagedFrom h
  · exact h.of_unwritten (op := 0x14) (by decide) (hrollLines_unwritten (by decide) e)

end StagedFrom

/-! ### Commands that begin a new staging -/

theorem cfgLines_nrec (caps : Caps) (e : Enc) : (cfgLines caps e).OnDone fun t => t.nrec.toNat = 0 := by
  unfold cfgLines
  iterate 9 refine .guard fun _ => ?_
  rfl

theorem fillLines_nrec (s : State) : (fillLines s).OnDone fun t => t.enc.nrec.toNat = 0 := by
  unfold fillLines
  iterate 5 refine .guard fun _ => ?_
  rfl

theorem finalLines_nrec (recCap : Nat) (e : Enc) : (finalLines recCap e).OnDone fun t => t.nrec.toNat = 0 := by
  unfold finalLines
  iterate 3 refine .guard fun _ => ?_
  rfl

/-! ### Commands and steps -/

theorem onEnc_done {f : Enc → Run Enc} {s t : State} (h : onEnc f s = .done t) : f s.enc = .done t.enc := by
  unfold onEnc at h
  cases hf : f s.enc with
  | done e => rw [hf] at h; cases h; rfl
  | raised e x n => rw [hf] at h; cases h

section FullChain

variable {s t : State}

/-- Where the staging arrays and their cursors are left, R70 (g) is. -/
theorem exec_chain_of_unwritten {i : Instr} (h : exec i s = .next t) (hop : opcode i ∉ stagingWriters)
    (hc : EncReady s → EncChain s.enc.nrec.toNat s.enc) (ht : EncReady t) : EncChain t.enc.nrec.toNat t.enc := by
  have hw := exec_writesWithin h
  have hset : opcode i ∉ encSetup := fun hm => hop (List.mem_append_left _ hm)
  obtain ⟨hf, -, -⟩ := hw.encErrors (fun hm => hset (List.mem_append_left _ hm)) (.inr ht.1)
  have hok : t.enc.flags.cfgok = s.enc.flags.cfgok :=
    eq_of_unlessWriter hset (congrArg (fun e : Enc => e.flags.cfgok) hw.enc)
  have hpart : t.enc.unfault.stagingPart = s.enc.unfault.stagingPart :=
    Enc.stagingPart_of_unwritten hop hw.enc
  exact (hc ⟨hf.symm.trans ht.1, hok.symm.trans ht.2⟩).full_of_stagingPart hpart

theorem exec_cycopen {i : Instr} (h : exec i s = .next t) (hop : opcode i ∉ encSetup ++ [0x30, 0x53]) :
    t.enc.flags.cycopen = s.enc.flags.cycopen :=
  eq_of_unlessWriter hop (congrArg (fun e : Enc => e.flags.cycopen) (exec_writesWithin h).enc)

/-- COMMIT and STEP in a cycle leave it open; outside one they keep R70 (g) where they stage no record. -/
theorem chain_of_stagedFrom (hc : EncChain s.enc.nrec.toNat s.enc) (hinv : ∃ c, EncChain c t.enc)
    (hcyc : t.enc.flags.cycopen = s.enc.flags.cycopen) (hstaged : s.enc.StagedFrom t.enc)
    (hone : s.enc.flags.cycopen = true ∨ t.enc.lens.length ≤ s.enc.lens.length) :
    EncChain t.enc.nrec.toNat t.enc := by
  obtain ⟨c, hct⟩ := hinv
  obtain hopen | hle := hone
  · exact hct.all (.inr (.inl (hcyc.trans hopen)))
  · exact hc.full_of_stagingPart (hstaged.resolve_right (Nat.not_lt.2 hle))

/-- Every command keeps R70 (g) in full but one that stages a record with no cycle open. -/
theorem exec_chain {i : Instr} (hs : EncOK s) (h : exec i s = .next t)
    (hc : EncReady s → EncChain s.enc.nrec.toNat s.enc)
    (hone : s.enc.flags.cycopen = true ∨ t.enc.lens.length ≤ s.enc.lens.length) (ht : EncReady t) :
    EncChain t.enc.nrec.toNat t.enc := by
  have hinv := (exec_encOK hs h ht).staging.chain
  obtain ⟨c, hct⟩ := hinv
  have hempty : t.enc.nrec.toNat = 0 → EncChain t.enc.nrec.toNat t.enc := fun h0 => hct.all (.inl h0)
  cases i with
  | reset ctx =>
    cases h
    unfold EncReady at ht
    rw [resetContexts_enc] at ht ⊢
    split at ht
    · exact Bool.noConfusion ht.2
    · rw [if_neg ‹_›]
      exact hc ht
  | cfg =>
    obtain ⟨-, hd⟩ := unlessFaulted_done (c := .enc) h ht.1
    exact hempty ((onEnc_onDone (cfgLines_nrec s.caps s.enc)).of_eq_done hd)
  | fill =>
    obtain ⟨-, hd⟩ := encCommand_done h ht.1
    exact hempty ((fillLines_nrec s).of_eq_done hd)
  | final =>
    obtain ⟨-, hd⟩ := encCommand_done h ht.1
    exact hempty ((onEnc_onDone (finalLines_nrec s.caps.recCap s.enc)).of_eq_done hd)
  | commit =>
    obtain ⟨hready, hd⟩ := encCommand_done h ht.1
    have hl := onEnc_done hd
    have hstaged := commitLines_stagedFrom s.caps.recCap (e₀ := s.enc) (.inl rfl)
    rw [hl] at hstaged
    have hcyc := exec_cycopen h (by decide)
    exact chain_of_stagedFrom (hc hready) ⟨c, hct⟩ hcyc hstaged hone
  | step =>
    obtain ⟨hready, hd⟩ := encCommand_done h ht.1
    have hl := onEnc_done hd
    have hstaged := stepLines_stagedFrom s.caps.recCap (e₀ := s.enc) (.inl rfl)
    rw [hl] at hstaged
    have hcyc := exec_cycopen h (by decide)
    exact chain_of_stagedFrom (hc hready) ⟨c, hct⟩ hcyc hstaged hone
  | scan =>
    obtain ⟨-, hd⟩ := encCommand_done h ht.1
    have hopen : s.enc.flags.cycopen = true := by
      have hl := onEnc_done hd
      unfold scanLines at hl
      split at hl
      next => cases hl
      next hopen => simpa using hopen
    have hcyc := exec_cycopen h (by decide)
    exact hct.all (.inr (.inl (hcyc.trans hopen)))
  | endcyc =>
    obtain ⟨hready, hd⟩ := encCommand_done h ht.1
    exact ((endcycLines_encInv (hs hready)).of_eq_done (onEnc_done hd)).2
  | hupd => exact exec_chain_of_unwritten h (by simp [opcode]) hc ht
  | _ => exact exec_chain_of_unwritten h (by decide) hc ht

/-- A step that is no command leaves the encoder context, or leaves it not configured or faulted. -/
theorem step_enc_cases (h : step s = .next t) :
    ∃ u : State, u.enc = s.enc ∧ u.caps = s.caps ∧
      ((t.enc = u.enc ∧ t.caps = u.caps) ∨ ¬EncReady t ∨ ∃ i, exec i u = .next t) := by
  obtain ⟨u, hue, -, huc, hu⟩ := step_cases h
  refine ⟨u, hue, huc, ?_⟩
  obtain ⟨he, -, hcaps⟩ | ⟨n, v, rfl⟩ | hi | ⟨w, rfl⟩ | rfl := hu
  · exact .inl ⟨he, hcaps⟩
  · obtain ⟨-, hcaps, he | ⟨hcfg, B, M, S, D, H, A, he⟩⟩ := busWrite_cases n v u
    · exact .inl ⟨he, hcaps⟩
    · refine .inr (.inl fun ⟨_, hok⟩ => ?_)
      rw [he] at hok
      exact Bool.noConfusion (hcfg.symm.trans hok)
  · exact .inr (.inr hi)
  · obtain ⟨hcaps, he | he, -⟩ := illegalCommand_cases w u
    · exact .inl ⟨he, hcaps⟩
    · refine .inr (.inl fun ⟨hf, _⟩ => ?_)
      have hfaulted : (raise .enc .illegalCmd w.toNat u).enc.flags.efault = true := faulted_raise .enc _ _ u
      rw [he, hfaulted] at hf
      exact Bool.noConfusion hf
  · exact .inr (.inl fun ⟨_, hok⟩ => Bool.noConfusion hok)

theorem encOK_congr (he : t.enc = s.enc) (hcaps : t.caps = s.caps) : EncOK t ↔ EncOK s := by
  unfold EncOK EncReady
  rw [he, hcaps]

end FullChain

/-- Settles O52: the commands keep the invariants or fault, and what is no command of the encoder leaves its context; a
record staged with no cycle open is the only thing that takes R70 (g) away. -/
theorem encoderInvariantsAreKept : Obligations.EncoderInvariantsAreKept := by
  intro s t hs h
  obtain ⟨u, hue, huc, hu⟩ := step_enc_cases h
  have hus : EncOK u := (encOK_congr hue huc).2 hs
  rw [EncReady, ← hue]
  obtain ⟨he, hcaps⟩ | hn | ⟨i, hi⟩ := hu
  · refine ⟨(encOK_congr he hcaps).2 hus, fun hc _ ht => ?_⟩
    rw [EncReady, he] at ht
    rw [he]
    exact hc ht
  · exact ⟨fun ht => absurd ht hn, fun _ _ ht => absurd ht hn⟩
  · exact ⟨exec_encOK hus hi, exec_chain hus hi⟩

end Sys2Proof.Machine
end

section
/-! PROOFS. The two contexts share no state (R16, R122): a command of one runs the same whatever stands on the other's
side of the state, its context and its two ports, and leaves that side as it is. -/

namespace Sys2Proof.Machine

open Sys2Proof

/-! ### The two sides of the state -/

/-- `s` with the decoder's side of `u`: its context, DIN and DOUT. -/
def State.withDecSide (s u : State) : State :=
  { s with
    dec := u.dec
    ports := { s.ports with
      din := u.ports.din, doutAnswers := u.ports.doutAnswers, dout := u.ports.dout
      dinUnoffered := u.ports.dinUnoffered } }

/-- `s` with the encoder's side of `u`: its context, EIN and EOUT. -/
def State.withEncSide (s u : State) : State :=
  { s with
    enc := u.enc
    ports := { s.ports with
      ein := u.ports.ein, eoutAnswers := u.ports.eoutAnswers, eout := u.ports.eout
      einUnoffered := u.ports.einUnoffered } }

theorem withDecSide_self (s : State) : s.withDecSide s = s := rfl

theorem withEncSide_self (s : State) : s.withEncSide s = s := rfl

/-- Where `t` differs from `s` in the encoder's side only, exchanging that side of `s` gives `t`. -/
theorem withEncSide_of_withDecSide {s t : State} (ht : t.withDecSide s = t) (hcaps : t.caps = s.caps)
    (hbus : t.bus = s.bus) (hreads : t.reads = s.reads) (h0 : t.arg0 = s.arg0) (h1 : t.arg1 = s.arg1)
    (hidx : t.rIdx = s.rIdx) : s.withEncSide t = t := by
  rw [← ht]
  simp only [State.withEncSide, State.withDecSide, hcaps, hbus, hreads, h0, h1, hidx]

/-- Where `t` differs from `s` in the decoder's side only, exchanging that side of `s` gives `t`. -/
theorem withDecSide_of_withEncSide {s t : State} (ht : t.withEncSide s = t) (hcaps : t.caps = s.caps)
    (hbus : t.bus = s.bus) (hreads : t.reads = s.reads) (h0 : t.arg0 = s.arg0) (h1 : t.arg1 = s.arg1)
    (hidx : t.rIdx = s.rIdx) : s.withDecSide t = t := by
  rw [← ht]
  simp only [State.withEncSide, State.withDecSide, hcaps, hbus, hreads, h0, h1, hidx]

/-! ### Lines that do not see a change of the state -/

/-- The run with `F` applied to the state it ended in. -/
def Run.map {σ : Type} (F : σ → σ) : Run σ → Run σ
  | .done s => .done (F s)
  | .raised s x n => .raised (F s) x n

theorem Run.map_andThen {σ : Type} {F : σ → σ} {r r' : Run σ} {f g : σ → Run σ} (hr : r' = r.map F)
    (hf : ∀ s, g (F s) = (f s).map F) : r'.andThen g = (r.andThen f).map F := by
  subst hr
  cases r with
  | done s => exact hf s
  | raised s x n => rfl

theorem Run.map_ite {σ : Type} (F : σ → σ) (c : Prop) [Decidable c] (r r' : Run σ) :
    (if c then r else r').map F = if c then r.map F else r'.map F :=
  apply_ite (Run.map F) c r r'

section Command

variable {F : State → State} {s t : State} {body body' : State → Run State}

/-- A command whose lines do not see `F` does not see it, where its preamble and a fault do not (R170, R265, R341). -/
theorem unlessFaulted_map {c : Ctx} (hf : faulted c (F s) = faulted c s)
    (hr : ∀ u x n, raise c x n (F u) = F (raise c x n u)) (hb : body' (F s) = (body s).map F)
    (h : unlessFaulted c body s = .next t) : unlessFaulted c body' (F s) = .next (F t) := by
  unfold unlessFaulted at h ⊢
  cases h
  rw [hf, hb]
  split
  · rfl
  · obtain ⟨u, he, hfin⟩ | ⟨u, x, n, he, hfin⟩ := finish_cases c (body s) <;> rw [hfin, he]
    · rfl
    · exact congrArg _ (hr u x n)

end Command

/-! ### The encoder's commands -/

section EncSide

variable {op : Byte} {s t : State} {body body' : State → Run State} (u : State)

theorem raise_enc_withDecSide (s : State) (x : Exn) (n : Nat) :
    raise .enc x n (s.withDecSide u) = (raise .enc x n s).withDecSide u := by
  simp only [raise, apply_ite (State.withDecSide · u)]
  rfl

theorem encCommand_withDecSide (hb : body' (s.withDecSide u) = (body s).map (State.withDecSide · u))
    (h : encCommand op body s = .next t) : encCommand op body' (s.withDecSide u) = .next (t.withDecSide u) := by
  refine unlessFaulted_map (F := (State.withDecSide · u)) (c := .enc) rfl (raise_enc_withDecSide u) ?_ h
  rw [Run.map_ite, ← hb]
  rfl

theorem onEnc_withDecSide (f : Enc → Run Enc) (s : State) :
    onEnc f (s.withDecSide u) = (onEnc f s).map (State.withDecSide · u) := by
  have he : (s.withDecSide u).enc = s.enc := rfl
  unfold onEnc
  rw [he]
  cases f s.enc <;> rfl

theorem fillLines_withDecSide (s : State) :
    fillLines (s.withDecSide u) = (fillLines s).map (State.withDecSide · u) := by
  simp only [fillLines, Run.map_ite]
  rfl

theorem eoutPut_withDecSide (bytes : List Byte) (s : State) :
    eoutPut bytes (s.withDecSide u) = (eoutPut bytes s).map (State.withDecSide · u) := by
  simp only [eoutPut, Run.map_ite]
  rfl

theorem rdlitLines_withDecSide (s : State) :
    rdlitLines (s.withDecSide u) = (rdlitLines s).map (State.withDecSide · u) := by
  simp only [rdlitLines, Run.map_ite]
  congr 1
  have hbuf : (s.withDecSide u).enc.buf = s.enc.buf := rfl
  have h0 : (s.withDecSide u).arg0 = s.arg0 := rfl
  have h1 : (s.withDecSide u).arg1 = s.arg1 := rfl
  rw [hbuf, h0, h1]
  cases s.enc.buf.readRun s.arg0.toNat s.arg1.toNat with
  | error a => rfl
  | ok bytes =>
    simp only [Run.map_ite, ← eoutPut_withDecSide]
    rfl

/-- A command of the encoder runs the same with any decoder's side. -/
theorem exec_withDecSide {i : Instr} (ho : owner i = .encoder) (h : exec i s = .next t) :
    exec i (s.withDecSide u) = .next (t.withDecSide u) := by
  cases i with
  | nop | dinit | dlit | dmatch | dflush => exact absurd ho (by decide)
  | reset ctx => exact absurd ho (by simp [owner, opcode, contextOf])
  | cfg =>
    exact unlessFaulted_map (F := (State.withDecSide · u)) (c := .enc) rfl (raise_enc_withDecSide u)
      (onEnc_withDecSide u _ s) h
  | fill => exact encCommand_withDecSide u (fillLines_withDecSide u s) h
  | rdlit => exact encCommand_withDecSide u (rdlitLines_withDecSide u s) h
  | _ => exact encCommand_withDecSide u (onEnc_withDecSide u _ s) h

end EncSide

/-! ### The decoder's commands -/

/-- The state after one sub-copy of DLIT: `c` bytes of DIN put at the write head (R269). -/
def dlitTurn (c : Nat) (s : State) : State :=
  { s with dec := putBytes (dinTake c s.ports).1 s.dec, ports := (dinTake c s.ports).2 }

theorem dlitLoop_succ (fuel n : Nat) (s : State) : dlitLoop (fuel + 1) n s =
    if n = 0 then .done s
    else (makeRoom s).andThen fun s =>
      dlitLoop fuel (n - min n s.dec.room) (dlitTurn (min n s.dec.room) s) := rfl

section DecSide

variable {op : Byte} {s t : State} {body body' : State → Run State} (u : State)

theorem raise_dec_withEncSide (s : State) (x : Exn) (n : Nat) :
    raise .dec x n (s.withEncSide u) = (raise .dec x n s).withEncSide u := by
  simp only [raise, apply_ite (State.withEncSide · u)]
  rfl

theorem decCommand_withEncSide (hb : body' (s.withEncSide u) = (body s).map (State.withEncSide · u))
    (h : decCommand op body s = .next t) : decCommand op body' (s.withEncSide u) = .next (t.withEncSide u) := by
  refine unlessFaulted_map (F := (State.withEncSide · u)) (c := .dec) rfl (raise_dec_withEncSide u) ?_ h
  rw [Run.map_ite, ← hb]
  rfl

theorem onDec_withEncSide (f : Dec → Run Dec) (s : State) :
    onDec f (s.withEncSide u) = (onDec f s).map (State.withEncSide · u) := by
  have hd : (s.withEncSide u).dec = s.dec := rfl
  unfold onDec
  rw [hd]
  cases f s.dec <;> rfl

theorem doutPut_withEncSide (bytes : List Byte) (s : State) :
    doutPut bytes (s.withEncSide u) = (doutPut bytes s).map (State.withEncSide · u) := by
  simp only [doutPut, Run.map_ite]
  rfl

theorem flushLines_withEncSide (s : State) :
    flushLines (s.withEncSide u) = (flushLines s).map (State.withEncSide · u) := by
  have hd : (s.withEncSide u).dec = s.dec := rfl
  simp only [flushLines, Run.map_ite, hd]
  congr 1
  cases s.dec.cur.readRun s.dec.dLast.toNat (s.dec.dData.toNat - s.dec.dLast.toNat) with
  | error a => rfl
  | ok bytes => exact Run.map_andThen (doutPut_withEncSide u bytes s) fun _ => rfl

theorem makeRoom_withEncSide (s : State) :
    makeRoom (s.withEncSide u) = (makeRoom s).map (State.withEncSide · u) := by
  simp only [makeRoom, Run.map_ite]
  congr 1
  exact Run.map_andThen (flushLines_withEncSide u s) fun _ => rfl

theorem dlitLoop_withEncSide : ∀ (fuel n : Nat) (s : State),
    dlitLoop fuel n (s.withEncSide u) = (dlitLoop fuel n s).map (State.withEncSide · u)
  | 0, _, _ => rfl
  | fuel + 1, n, s => by
    simp only [dlitLoop_succ, Run.map_ite]
    congr 1
    exact Run.map_andThen (makeRoom_withEncSide u s) fun s => dlitLoop_withEncSide fuel _ (dlitTurn _ s)

theorem dlitLines_withEncSide (s : State) :
    dlitLines (s.withEncSide u) = (dlitLines s).map (State.withEncSide · u) := by
  simp only [dlitLines, Run.map_ite, ← dlitLoop_withEncSide]
  rfl

theorem dmatchLoop_withEncSide (offset : Nat) : ∀ (fuel len : Nat) (s : State),
    dmatchLoop offset fuel len (s.withEncSide u) = (dmatchLoop offset fuel len s).map (State.withEncSide · u)
  | 0, _, _ => rfl
  | fuel + 1, len, s => by
    simp only [dmatchLoop, Run.map_ite]
    congr 1
    exact Run.map_andThen (makeRoom_withEncSide u s) fun s =>
      Run.map_andThen (onDec_withEncSide u _ s) fun s => dmatchLoop_withEncSide offset fuel _ s

theorem dmatchLines_withEncSide (s : State) :
    dmatchLines (s.withEncSide u) = (dmatchLines s).map (State.withEncSide · u) := by
  simp only [dmatchLines, Run.map_ite, ← dmatchLoop_withEncSide]
  rfl

/-- A command of the decoder runs the same with any encoder's side. -/
theorem exec_withEncSide {i : Instr} (ho : owner i = .decoder) (h : exec i s = .next t) :
    exec i (s.withEncSide u) = .next (t.withEncSide u) := by
  cases i with
  | dinit =>
    exact unlessFaulted_map (F := (State.withEncSide · u)) (c := .dec) rfl (raise_dec_withEncSide u)
      (onDec_withEncSide u _ s) h
  | dlit => exact decCommand_withEncSide u (dlitLines_withEncSide u s) h
  | dmatch => exact decCommand_withEncSide u (dmatchLines_withEncSide u s) h
  | dflush => exact decCommand_withEncSide u (flushLines_withEncSide u s) h
  | reset | hupd => exact absurd ho (by simp [owner, opcode, contextOf])
  | _ => exact absurd ho (by decide)

end DecSide

/-! ### What a command leaves, and the order of two commands -/

section Order

variable {i j : Instr} {s t : State}

theorem withDecSide_of_exec (ho : owner i = .encoder) (h : exec i s = .next t) : t.withDecSide s = t := by
  have hs := exec_withDecSide s ho h
  rw [withDecSide_self, h] at hs
  exact (Host.Outcome.next.inj hs).symm

theorem withEncSide_of_exec (ho : owner i = .decoder) (h : exec i s = .next t) : t.withEncSide s = t := by
  have hs := exec_withEncSide s ho h
  rw [withEncSide_self, h] at hs
  exact (Host.Outcome.next.inj hs).symm

theorem ne_reset_of_owner (ho : owner i ≠ .neither) (c : Nat) : i ≠ .reset c := by
  rintro rfl
  exact ho (by simp [owner, opcode, contextOf])

/-- A command of the encoder exchanges the encoder's side only. -/
theorem withEncSide_of_exec_encoder (ho : owner i = .encoder) (h : exec i s = .next t) : s.withEncSide t = t := by
  obtain ⟨-, hcaps, hbus, hreads, hargs⟩ := (exec_writesWithin h).shared
  obtain ⟨h0, h1, hidx⟩ := hargs (opcode_not_mem_reset (ne_reset_of_owner (by simp [ho])))
  exact withEncSide_of_withDecSide (withDecSide_of_exec ho h) hcaps hbus hreads h0 h1 hidx

/-- A command of the decoder exchanges the decoder's side only. -/
theorem withDecSide_of_exec_decoder (ho : owner i = .decoder) (h : exec i s = .next t) : s.withDecSide t = t := by
  obtain ⟨-, hcaps, hbus, hreads, hargs⟩ := (exec_writesWithin h).shared
  obtain ⟨h0, h1, hidx⟩ := hargs (opcode_not_mem_reset (ne_reset_of_owner (by simp [ho])))
  exact withDecSide_of_withEncSide (withEncSide_of_exec ho h) hcaps hbus hreads h0 h1 hidx

theorem exec_with_dec (ho : owner i = .encoder) (h : exec i s = .next t) (d : Dec) :
    exec i { s with dec := d } = .next { t with dec := d } := by
  have hd := exec_withDecSide { s with dec := d } ho h
  rw [← withDecSide_of_exec ho h]
  exact hd

theorem exec_with_enc (ho : owner i = .decoder) (h : exec i s = .next t) (e : Enc) :
    exec i { s with enc := e } = .next { t with enc := e } := by
  have he := exec_withEncSide { s with enc := e } ho h
  rw [← withEncSide_of_exec ho h]
  exact he

/-- A command of each context, in either order, ends in the state with each one's own side exchanged. -/
theorem exec_comm {u v : State} (hi : owner i = .encoder) (hj : owner j = .decoder) (ht : exec i s = .next t)
    (hu : exec j s = .next u) (hv : exec j t = .next v) : exec i u = .next v := by
  have hts : s.withEncSide t = t := withEncSide_of_exec_encoder hi ht
  have hus : s.withDecSide u = u := withDecSide_of_exec_decoder hj hu
  have hiu : exec i u = .next (t.withDecSide u) := hus ▸ exec_withDecSide u hi ht
  have hjt : exec j t = .next (u.withEncSide t) := hts ▸ exec_withEncSide t hj hu
  have hjoin : t.withDecSide u = u.withEncSide t := by
    calc t.withDecSide u = (s.withEncSide t).withDecSide u := by rw [hts]
      _ = (s.withDecSide u).withEncSide t := rfl
      _ = u.withEncSide t := by rw [hus]
  rw [hiu, hjoin, ← hjt, hv]

end Order

/-- Settles O12: a command of one context neither sees nor changes the other's side of the state, so two commands of
different contexts exchange two different sides, in either order. -/
theorem contextsAreIndependent : Obligations.ContextsAreIndependent := fun _ _ _ h =>
  ⟨fun ho => ⟨exec_dec_eq h (by simp [ho]) (ne_reset_of_owner (by simp [ho])), exec_with_dec ho h⟩,
    fun ho => ⟨exec_enc_eq h (by simp [ho]) (ne_reset_of_owner (by simp [ho])), exec_with_enc ho h⟩,
    fun _ _ _ hi hj hu hv => exec_comm hi hj h hu hv⟩

end Sys2Proof.Machine
end

section
/-! PROOFS. The decoder's logical ring (R65, R113): what appending bytes at the write head does to it, however the
segments are split; a sub-copy of DLIT or DMATCH appends its bytes one by one, and a flush or a switch none. -/

namespace Sys2Proof.Machine

open Sys2Proof

/-! ### Appending to a ring -/

/-- The ring of size `B` after the bytes `bs` were written at `P` and up. -/
def ringAfter (B : Nat) : List Byte → Nat → (Nat → Option Byte) → Nat → Option Byte
  | [], _, r => r
  | b :: bs, P, r => ringAfter B bs ((P + 1) % B) (Function.update r P (some b))

/-- Each byte of `bs`, written at `P` and up, is the byte `offset` positions before it in the ring as it then stands
(R271, R272). -/
def Repeats (B offset : Nat) : List Byte → Nat → (Nat → Option Byte) → Prop
  | [], _, _ => True
  | b :: bs, P, r =>
    r ((P + B - offset) % B) = some b ∧ Repeats B offset bs ((P + 1) % B) (Function.update r P (some b))

section Ring

variable {B offset : Nat}

theorem ringAfter_append : ∀ (bs cs : List Byte) (P : Nat) (r : Nat → Option Byte), P < B →
    ringAfter B (bs ++ cs) P r = ringAfter B cs ((P + bs.length) % B) (ringAfter B bs P r)
  | [], cs, P, r, hP => by simp [ringAfter, Nat.mod_eq_of_lt hP]
  | b :: bs, cs, P, r, hP => by
    rw [List.cons_append, ringAfter, ringAfter_append bs cs _ _ (Nat.mod_lt _ (by omega)), Nat.mod_add_mod,
      List.length_cons, ringAfter, Nat.add_assoc, Nat.add_comm 1]

theorem repeats_append : ∀ (bs cs : List Byte) (P : Nat) (r : Nat → Option Byte), P < B → Repeats B offset bs P r →
    Repeats B offset cs ((P + bs.length) % B) (ringAfter B bs P r) → Repeats B offset (bs ++ cs) P r
  | [], cs, P, r, hP, _, hc => by simpa [ringAfter, Nat.mod_eq_of_lt hP] using hc
  | b :: bs, cs, P, r, hP, hb, hc => by
    refine ⟨hb.1, repeats_append bs cs _ _ (Nat.mod_lt _ (by omega)) hb.2 ?_⟩
    rwa [Nat.mod_add_mod, Nat.add_assoc, Nat.add_comm 1]

theorem update_congr {r r' : Nat → Option Byte} (h : ∀ p, p < B → r p = r' p) (P : Nat) (v : Option Byte) :
    ∀ p, p < B → Function.update r P v p = Function.update r' P v p := fun p hp => by
  simp only [Function.update_apply, h p hp]

theorem ringAfter_congr : ∀ (bs : List Byte) (P : Nat) (r r' : Nat → Option Byte), (∀ p, p < B → r p = r' p) →
    ∀ p, p < B → ringAfter B bs P r p = ringAfter B bs P r' p
  | [], _, _, _, h => h
  | _ :: bs, _, _, _, h => ringAfter_congr bs _ _ _ (update_congr h _ _)

/-- What DMATCH copies is determined by the ring, the write head and the length. -/
theorem repeats_unique (hB : 0 < B) : ∀ (bs cs : List Byte) (P : Nat) (r r' : Nat → Option Byte),
    (∀ p, p < B → r p = r' p) → bs.length = cs.length → Repeats B offset bs P r → Repeats B offset cs P r' → bs = cs
  | [], [], _, _, _, _, _, _, _ => rfl
  | b :: bs, c :: cs, P, r, r', h, hl, hb, hc => by
    obtain rfl : b = c := Option.some.inj (by rw [← hb.1, ← hc.1, h _ (Nat.mod_lt _ hB)])
    rw [repeats_unique hB bs cs _ _ _ (update_congr h _ _) (Nat.succ.inj hl) hb.2 hc.2]

end Ring

/-! ### Where the decoder's bytes hold values -/

section DecInv

variable {d : Dec}

/-- The bytes of CUR below the write head hold values (R112). -/
theorem DecInv.cur_isSome (h : DecInv d) {q : Nat} (hq : q < d.dData.toNat) : (d.cur.read q).isSome := by
  have hlen := d.seglen_le h
  have hdata := h.dataLe
  have hfilled : d.dFilled.toNat < d.dB.toNat → d.dataPos = d.dFilled.toNat := h.firstLap
  have hle := h.filledLe
  have hsize := h.size0Le
  cases hb : d.flags.block0 with
  | true =>
    simp only [Dec.seglen, Dec.dataPos, hb, if_true] at hdata hfilled
    have := (h.held q (by omega)).2 (by omega)
    unfold Dec.ring at this
    rw [if_pos (by omega)] at this
    simpa [Dec.cur, hb] using this
  | false =>
    simp only [Dec.seglen, Dec.dataPos, hb, Bool.false_eq_true, if_false] at hdata hfilled
    have := (h.held (q + d.dSize0.toNat) (by omega)).2 (by omega)
    unfold Dec.ring at this
    rw [if_neg (by omega), Nat.add_sub_cancel] at this
    simpa [Dec.cur, hb] using this

/-- The source of a legal offset lies in the bytes written (R112, R271). -/
theorem DecInv.source_isSome (h : DecInv d) {offset : Nat} (hpos : 1 ≤ offset) (hB : offset < d.dB.toNat)
    (hfilled : offset ≤ d.dFilled.toNat) : (d.ring (d.fromPos offset)).isSome := by
  have hlt : d.fromPos offset < d.dB.toNat := Nat.mod_lt _ (by omega)
  refine (h.held _ hlt).2 ?_
  by_cases hlap : d.dFilled.toNat < d.dB.toNat
  · have hdata := h.firstLap hlap
    unfold Dec.fromPos
    rw [show d.dataPos + d.dB.toNat - offset = d.dataPos - offset + d.dB.toNat by omega, Nat.add_mod_right,
      Nat.mod_eq_of_lt (by omega)]
    omega
  · exact hlt.trans_le (by omega)

end DecInv

/-! ### Appending to a decoder context -/

/-- `d'` is `d` with the bytes `bs` appended to the logical ring, in whatever segments they came to lie. -/
structure Extends (bs : List Byte) (d d' : Dec) : Prop where
  inv : DecInv d'
  size : d'.dB = d.dB
  dok : d'.flags.dok = d.flags.dok
  dfault : d'.flags.dfault = d.flags.dfault
  filled : d'.dFilled.toNat = min d.dB.toNat (d.dFilled.toNat + bs.length)
  head : d'.head = (d.head + bs.length) % d.dB.toNat
  ring : d'.ring = ringAfter d.dB.toNat bs d.head d.ring

theorem DecInv.size_pos {d : Dec} (h : DecInv d) : 0 < d.dB.toNat := h.size0Pos.trans h.size0Le

theorem DecInv.head_lt {d : Dec} (h : DecInv d) : d.head < d.dB.toNat := Nat.mod_lt _ h.size_pos

theorem Extends.trans {bs cs : List Byte} {d d' d'' : Dec} (h : DecInv d) (hb : Extends bs d d')
    (hc : Extends cs d' d'') : Extends (bs ++ cs) d d'' where
  inv := hc.inv
  size := hc.size.trans hb.size
  dok := hc.dok.trans hb.dok
  dfault := hc.dfault.trans hb.dfault
  filled := by
    rw [hc.filled, hb.size, hb.filled, List.length_append]
    omega
  head := by rw [hc.head, hb.size, hb.head, Nat.mod_add_mod, List.length_append, Nat.add_assoc]
  ring := by rw [hc.ring, hb.size, hb.head, hb.ring, ringAfter_append _ _ _ _ h.head_lt]

/-- A change that moves neither the head nor the ring appends nothing. -/
theorem Extends.of_same {d d' : Dec} (h : DecInv d) (hinv : DecInv d') (hsize : d'.dB = d.dB)
    (hdok : d'.flags.dok = d.flags.dok) (hdfault : d'.flags.dfault = d.flags.dfault) (hfilled : d'.dFilled = d.dFilled)
    (hhead : d'.head = d.head) (hring : d'.ring = d.ring) : Extends [] d d' where
  inv := hinv
  size := hsize
  dok := hdok
  dfault := hdfault
  filled := by rw [hfilled]; exact (Nat.min_eq_right h.filledLe).symm
  head := by rw [hhead]; exact (Nat.mod_eq_of_lt h.head_lt).symm
  ring := hring

theorem Extends.refl {d : Dec} (h : DecInv d) : Extends [] d d := .of_same h h rfl rfl rfl rfl rfl rfl

/-- Where nothing was appended neither the head nor the ring has moved. -/
theorem Extends.of_nil {d d' : Dec} (h : DecInv d) (he : Extends [] d d') :
    d'.dB = d.dB ∧ d'.head = d.head ∧ d'.ring = d.ring :=
  ⟨he.size, he.head.trans (Nat.mod_eq_of_lt h.head_lt), he.ring⟩

/-- Decoders that agree on the ring agree again after the same bytes were appended to both. -/
theorem SameRing.of_extends {bs : List Byte} {d₁ d₂ e₁ e₂ : Dec} (h : SameRing d₁ d₂) (h₁ : Extends bs d₁ e₁)
    (h₂ : Extends bs d₂ e₂) : SameRing e₁ e₂ where
  size := h₁.size.trans (h.size.trans h₂.size.symm)
  filled := by rw [← BitVec.toNat_inj, h₁.filled, h₂.filled, h.size, h.filled]
  head := by rw [h₁.head, h₂.head, h.size, h.head]
  ring := fun p hp => by
    rw [h₁.size] at hp
    rw [h₁.ring, h₂.ring, ← h.size, ← h.head, ringAfter_congr bs _ _ _ h.ring p hp]

/-! ### The cursors -/

@[simp] theorem Dec.advance_cur (d : Dec) (c : Nat) : (d.advance c).cur = d.cur := rfl

theorem Dec.advance_setCur (d : Dec) (c : Nat) (m : Memory) : (d.advance c).setCur m = (d.setCur m).advance c := by
  unfold Dec.setCur
  cases hb : d.flags.block0 <;> simp [hb, Dec.advance]

theorem Dec.advance_advance (d : Dec) (a b : Nat) : (d.advance a).advance b = d.advance (a + b) := by
  have hdata : wordOf ((wordOf (d.dData.toNat + a)).toNat + b) = wordOf (d.dData.toNat + (a + b)) := by
    apply BitVec.eq_of_toNat_eq
    simp only [BitVec.toNat_ofNat, Nat.mod_add_mod, Nat.add_assoc]
  have hfilled : min d.dB.toNat ((wordOf (min d.dB.toNat (d.dFilled.toNat + a))).toNat + b) =
      min d.dB.toNat (d.dFilled.toNat + (a + b)) := by
    have := d.dB.isLt
    rw [toNat_wordOf (by omega)]
    omega
  simp only [Dec.advance, hdata, hfilled]

theorem DecInv.advance_zero {d : Dec} (h : DecInv d) : d.advance 0 = d := by
  unfold Dec.advance
  rw [Nat.add_zero, Nat.add_zero, Nat.min_eq_right h.filledLe, wordOf, wordOf, BitVec.ofNat_toNat, BitVec.ofNat_toNat,
    BitVec.setWidth_eq, BitVec.setWidth_eq]

/-- Where there is room the write head is below the end of the ring. -/
theorem DecInv.dataPos_lt {d : Dec} (h : DecInv d) (hroom : 0 < d.room) : d.dataPos < d.dB.toNat := by
  have := h.size0Le
  unfold Dec.room Dec.seglen at hroom
  unfold Dec.dataPos
  split_ifs at hroom ⊢ <;> omega

theorem DecInv.head_eq {d : Dec} (h : DecInv d) (hroom : 0 < d.room) : d.head = d.dataPos :=
  Nat.mod_eq_of_lt (h.dataPos_lt hroom)

/-- The write head after `c` bytes for which there is room: no register wraps. -/
theorem DecInv.dData_advance {d : Dec} {c : Nat} (h : DecInv d) (hc : c ≤ d.room) :
    (wordOf (d.dData.toNat + c)).toNat = d.dData.toNat + c := by
  have hlen := d.seglen_le h
  have hB := h.bLe
  have hdata := h.dataLe
  unfold Dec.room at hc
  exact toNat_wordOf (by omega)

/-! ### One byte at the write head -/

section PutByte

variable {d : Dec} (b : Byte)

theorem putBytes_nil (h : DecInv d) : putBytes [] d = d := by
  show (d.setCur d.cur).advance 0 = d
  rw [Dec.setCur_cur_self, h.advance_zero]

theorem putBytes_cons (h : DecInv d) (hroom : 0 < d.room) (bs : List Byte) :
    putBytes (b :: bs) d = putBytes bs (putBytes [b] d) := by
  have hdata : (putBytes [b] d).dData.toNat = d.dData.toNat + 1 := by
    simpa [putBytes] using h.dData_advance hroom
  have hcur : (putBytes [b] d).cur = d.cur.write d.dData.toNat b := by simp [putBytes, Memory.writeRun]
  calc putBytes (b :: bs) d
    _ = (d.setCur ((d.cur.write d.dData.toNat b).writeRun (d.dData.toNat + 1) bs)).advance (1 + bs.length) := by
      rw [Nat.add_comm 1]; rfl
    _ = putBytes bs (putBytes [b] d) := by
      rw [putBytes, hdata, hcur, putBytes, Dec.advance_setCur, Dec.setCur_setCur, Dec.advance_advance]
      rfl

theorem dataPos_putByte (h : DecInv d) (hroom : 0 < d.room) : (putBytes [b] d).dataPos = d.dataPos + 1 := by
  have hdata := h.dData_advance hroom
  simp only [Dec.dataPos, putBytes, Dec.advance_flags, Dec.setCur_flags, Dec.advance_dData, Dec.setCur_dData,
    Dec.advance_dSize0, Dec.setCur_dSize0, List.length_singleton, hdata]
  split_ifs <;> omega

theorem room_putByte (h : DecInv d) (hroom : 0 < d.room) : (putBytes [b] d).room = d.room - 1 := by
  have hdata := h.dData_advance hroom
  simp only [Dec.room, Dec.seglen, putBytes, Dec.advance_flags, Dec.setCur_flags, Dec.advance_dData, Dec.setCur_dData,
    Dec.advance_dSize0, Dec.setCur_dSize0, Dec.advance_dB, Dec.setCur_dB, List.length_singleton, hdata]
  omega

/-- The byte lies at the write head of the ring, in whichever segment that is (R113). -/
theorem ring_putByte (hroom : 0 < d.room) :
    (putBytes [b] d).ring = Function.update d.ring d.dataPos (some b) := by
  funext p
  rw [Function.update_apply]
  unfold Dec.room Dec.seglen at hroom
  cases hb : d.flags.block0 with
  | true =>
    simp only [hb, if_true] at hroom
    simp only [Dec.ring, Dec.dataPos, putBytes, Dec.setCur, Dec.cur, hb, if_true, Dec.advance_dSize0,
      Dec.advance_seg0, Dec.advance_seg1, Memory.writeRun, Memory.read_write]
    by_cases hp : p < d.dSize0.toNat
    · simp only [hp, if_true]
    · have hne : p ≠ d.dData.toNat := by omega
      simp only [hp, hne, if_false]
  | false =>
    simp only [Dec.ring, Dec.dataPos, putBytes, Dec.setCur, Dec.cur, hb, Bool.false_eq_true, if_false,
      Dec.advance_dSize0, Dec.advance_seg0, Dec.advance_seg1, Memory.writeRun, Memory.read_write]
    by_cases hp : p < d.dSize0.toNat
    · have hne : p ≠ d.dData.toNat + d.dSize0.toNat := by omega
      simp only [hp, hne, if_true, if_false]
    · have hiff : p - d.dSize0.toNat = d.dData.toNat ↔ p = d.dData.toNat + d.dSize0.toNat := by omega
      simp only [hp, hiff, if_false]

theorem extends_putByte (h : DecInv d) (hroom : 0 < d.room) : Extends [b] d (putBytes [b] d) where
  inv := putBytes_decInv h hroom
  size := by simp [putBytes]
  dok := by simp [putBytes]
  dfault := by simp [putBytes]
  filled := by
    have := h.bLe
    simp only [putBytes, Dec.advance_dFilled, Dec.setCur_dB, Dec.setCur_dFilled]
    exact toNat_wordOf (by omega)
  head := by
    rw [h.head_eq hroom, Dec.head, dataPos_putByte b h hroom]
    simp [putBytes]
  ring := by rw [h.head_eq hroom, ring_putByte b hroom]; rfl

end PutByte

/-! ### A sub-copy -/

/-- A sub-copy for which there is room appends its bytes. -/
theorem extends_putBytes : ∀ (bs : List Byte) (d : Dec), DecInv d → bs.length ≤ d.room → Extends bs d (putBytes bs d)
  | [], d, h, _ => by
    rw [putBytes_nil h]
    exact .refl h
  | b :: bs, d, h, hroom => by
    have hpos : 0 < d.room := Nat.zero_lt_of_lt hroom
    have hb := extends_putByte b h hpos
    rw [putBytes_cons b h hpos]
    refine hb.trans h (extends_putBytes bs _ hb.inv ?_)
    rw [room_putByte b h hpos]
    exact Nat.le_sub_one_of_lt hroom

/-- An offset DMATCH does not refuse (R271). -/
structure LegalOffset (offset : Nat) (d : Dec) : Prop where
  pos : 1 ≤ offset
  lt : offset < d.dB.toNat
  le : offset ≤ d.dFilled.toNat

theorem LegalOffset.of_extends {offset : Nat} {bs : List Byte} {d d' : Dec} (h : LegalOffset offset d)
    (he : Extends bs d d') : LegalOffset offset d' where
  pos := h.pos
  lt := he.size ▸ h.lt
  le := by
    have hlt := h.lt
    have hle := h.le
    rw [he.filled]
    omega

theorem copyBytes_advance (k : Nat) : ∀ (c : Nat) (src : Bool) (so dst : Nat) (d : Dec),
    copyBytes c src so dst (d.advance k) = (copyBytes c src so dst d).map (Dec.advance · k)
  | 0, _, _, _, _ => rfl
  | c + 1, src, so, dst, d => by
    have hbyte : (d.advance k).segByte src so = d.segByte src so := rfl
    rw [copyBytes, copyBytes, hbyte]
    cases d.segByte src so with
    | none => rfl
    | some b =>
      show copyBytes c src (so + 1) (dst + 1) ((d.advance k).setCur (d.cur.write dst b)) = _
      rw [Dec.advance_setCur, copyBytes_advance k c]

theorem Dec.locate_succ {d : Dec} {p : Nat} (h : 1 < (d.locate p).2.2) :
    d.locate (p + 1) = ((d.locate p).1, (d.locate p).2.1 + 1, (d.locate p).2.2 - 1) := by
  unfold Dec.locate at h ⊢
  by_cases hp : p < d.dSize0.toNat
  · simp only [hp, if_true] at h ⊢
    rw [if_pos (by omega), Nat.sub_sub]
  · simp only [hp, if_false] at h ⊢
    rw [if_neg (by omega), Nat.sub_sub, Nat.sub_add_comm (by omega)]

theorem Dec.locate_congr {d d' : Dec} (hB : d'.dB = d.dB) (hs : d'.dSize0 = d.dSize0) (p : Nat) :
    d'.locate p = d.locate p := by
  unfold Dec.locate
  rw [hB, hs]

/-- The bytes from a position of the ring to the end of its segment end below `B`. -/
theorem Dec.locate_end_le {d : Dec} (h : DecInv d) (p : Nat) (hp : p < d.dB.toNat) :
    0 < (d.locate p).2.2 ∧ p + (d.locate p).2.2 ≤ d.dB.toNat := by
  have := h.size0Le
  unfold Dec.locate
  split <;> simp <;> omega

section SubCopy

variable {d : Dec} {offset c : Nat}

/-- The source moves up with the write head. -/
theorem fromPos_putByte (h : DecInv d) (ho : LegalOffset offset d) (hroom : 0 < d.room)
    (hnext : d.fromPos offset + 1 < d.dB.toNat) (b : Byte) :
    (putBytes [b] d).fromPos offset = d.fromPos offset + 1 := by
  have hlt := ho.lt
  have hB : (putBytes [b] d).dB = d.dB := by simp [putBytes]
  unfold Dec.fromPos at hnext ⊢
  have hsum : d.dataPos + 1 + d.dB.toNat - offset = d.dataPos + d.dB.toNat - offset + 1 := by omega
  rw [dataPos_putByte b h hroom, hB, hsum, ← Nat.mod_add_mod, Nat.mod_eq_of_lt hnext]

/-- The place the source moves up to: the next address of the same segment. -/
theorem locate_putByte (h : DecInv d) (ho : LegalOffset offset d) (hroom : 0 < d.room)
    (hsrc : 1 < (d.locate (d.fromPos offset)).2.2) (b : Byte) :
    (putBytes [b] d).locate ((putBytes [b] d).fromPos offset) =
      ((d.locate (d.fromPos offset)).1, (d.locate (d.fromPos offset)).2.1 + 1,
        (d.locate (d.fromPos offset)).2.2 - 1) := by
  obtain ⟨-, hend⟩ := d.locate_end_le h _ (Nat.mod_lt (d.dataPos + d.dB.toNat - offset) h.size_pos)
  have hnext : d.fromPos offset + 1 < d.dB.toNat := by
    unfold Dec.fromPos at hsrc ⊢
    omega
  rw [fromPos_putByte h ho hroom hnext b, Dec.locate_congr (d := d) (by simp [putBytes]) (by simp [putBytes]),
    Dec.locate_succ hsrc]

/-- A sub-copy is one byte and then the rest of it, from the next position: the byte written can be read by a later
turn (R272). -/
theorem subCopy_succ (h : DecInv d) (ho : LegalOffset offset d) (hroom : 0 < d.room)
    (hsrc : c < (d.locate (d.fromPos offset)).2.2) {b : Byte} (hb : d.ring (d.fromPos offset) = some b) {t : Dec}
    (ht : subCopy offset c (putBytes [b] d) = .done t) : subCopy offset (c + 1) d = .done t := by
  have hdata : (putBytes [b] d).dData.toNat = d.dData.toNat + 1 := by
    simpa [putBytes] using h.dData_advance hroom
  have hcopy : copyBytes c (d.locate (d.fromPos offset)).1 ((d.locate (d.fromPos offset)).2.1 + 1) (d.dData.toNat + 1)
      (putBytes [b] d) = copyBytes c ((putBytes [b] d).locate ((putBytes [b] d).fromPos offset)).1
        ((putBytes [b] d).locate ((putBytes [b] d).fromPos offset)).2.1 (putBytes [b] d).dData.toNat
        (putBytes [b] d) := by
    cases c with
    | zero => rfl
    | succ c => rw [locate_putByte h ho hroom (by omega) b, hdata]
  have hput : putBytes [b] d = (d.setCur (d.cur.write d.dData.toNat b)).advance 1 := rfl
  simp only [subCopy, ← hcopy] at ht
  rw [hput, copyBytes_advance] at ht
  simp only [subCopy]
  rw [copyBytes, Dec.segByte_locate, hb]
  show (copyBytes c _ _ _ (d.setCur (d.cur.write d.dData.toNat b))).andThen _ = _
  cases hrest : copyBytes c (d.locate (d.fromPos offset)).1 ((d.locate (d.fromPos offset)).2.1 + 1)
      (d.dData.toNat + 1) (d.setCur (d.cur.write d.dData.toNat b)) with
  | raised e x n => rw [hrest] at ht; cases ht
  | done e =>
    rw [hrest] at ht
    rw [← ht]
    show Run.done (e.advance (c + 1)) = Run.done ((e.advance 1).advance c)
    rw [Dec.advance_advance, Nat.add_comm 1]

end SubCopy

/-- A sub-copy of DMATCH is a sub-copy of DLIT with the bytes of its source. -/
theorem subCopy_eq_putBytes (offset : Nat) : ∀ (c : Nat) (d : Dec), DecInv d → LegalOffset offset d → c ≤ d.room →
    (0 < c → c ≤ (d.locate (d.fromPos offset)).2.2) →
    ∃ bs : List Byte, bs.length = c ∧ subCopy offset c d = .done (putBytes bs d) ∧
      Repeats d.dB.toNat offset bs d.head d.ring
  | 0, d, h, _, _, _ => ⟨[], rfl, by rw [putBytes_nil h]; exact congrArg Run.done h.advance_zero, trivial⟩
  | c + 1, d, h, ho, hroom, hsrc => by
    have hpos : 0 < d.room := Nat.zero_lt_of_lt hroom
    obtain ⟨b, hb⟩ := Option.isSome_iff_exists.1 (h.source_isSome ho.pos ho.lt ho.le)
    have he := extends_putByte b h hpos
    have hroom' : c ≤ (putBytes [b] d).room := by
      rw [room_putByte b h hpos]
      exact Nat.le_sub_one_of_lt hroom
    have hsrc' : 0 < c → c ≤ ((putBytes [b] d).locate ((putBytes [b] d).fromPos offset)).2.2 := fun hc => by
      have := hsrc (Nat.succ_pos c)
      rw [locate_putByte h ho hpos (by omega) b]
      exact Nat.le_sub_one_of_lt this
    obtain ⟨bs, hlen, hcopy, hrep⟩ := subCopy_eq_putBytes offset c _ he.inv (ho.of_extends he) hroom' hsrc'
    refine ⟨b :: bs, congrArg Nat.succ hlen, ?_, ?_, ?_⟩
    · rw [putBytes_cons b h hpos]
      exact subCopy_succ h ho hpos (hsrc (Nat.succ_pos c)) hb hcopy
    · rwa [h.head_eq hpos]
    · rwa [he.size, he.head, he.ring] at hrep

/-- A turn of DMATCH's loop: some of the bytes to go, for which there is room, appended (R271, R273). -/
theorem subCopy_turn {offset len : Nat} {d : Dec} (h : DecInv d) (ho : LegalOffset offset d) (hroom : 0 < d.room)
    (hlen : len ≠ 0) :
    ∃ bs : List Byte, bs.length = subCopyLen offset len d ∧ 0 < bs.length ∧ bs.length ≤ len ∧ bs.length ≤ d.room ∧
      subCopy offset (subCopyLen offset len d) d = .done (putBytes bs d) ∧
      Repeats d.dB.toNat offset bs d.head d.ring := by
  obtain ⟨hseg, -⟩ := d.locate_end_le h (d.fromPos offset) (Nat.mod_lt _ h.size_pos)
  have hcount : subCopyLen offset len d = min len (min d.room (d.locate (d.fromPos offset)).2.2) := rfl
  obtain ⟨bs, hbs, hcopy, hrep⟩ :=
    subCopy_eq_putBytes offset (subCopyLen offset len d) d h ho (by omega) fun _ => by omega
  exact ⟨bs, hbs, by omega, by omega, by omega, hcopy, hrep⟩

/-- The loop of DMATCH, one turn of it written out. -/
theorem dmatchLoop_succ {offset fuel len : Nat} {s r : State} {bs : List Byte} (hlen : len ≠ 0)
    (hr : makeRoom s = .done r) (hbs : bs.length = subCopyLen offset len r.dec)
    (hcopy : subCopy offset (subCopyLen offset len r.dec) r.dec = .done (putBytes bs r.dec)) :
    dmatchLoop offset (fuel + 1) len s =
      dmatchLoop offset fuel (len - bs.length) { r with dec := putBytes bs r.dec } := by
  have hturn : onDec (subCopy offset (subCopyLen offset len r.dec)) r = .done { r with dec := putBytes bs r.dec } := by
    simp only [onDec, hcopy]
  rw [dmatchLoop, if_neg hlen, hr, Run.andThen_done]
  simp only [hturn, Run.andThen_done, hbs]

/-! ### Flush and switch -/

theorem extends_markFlushed {d : Dec} (h : DecInv d) : Extends [] d d.markFlushed :=
  .of_same h h.markFlushed rfl rfl rfl rfl rfl rfl

/-- The start of the other segment is the same ring position as the end of a full one (R268). -/
theorem head_switch {d : Dec} (h : DecInv d) (hroom : d.room = 0) : d.switch.head = d.head := by
  have hs := h.size0Pos
  have hle := h.size0Le
  have hdata := h.dataLe
  have hwhole : d.dSize0.toNat = d.dB.toNat → d.flags.block0 = true := fun he => h.wholeSeg0 (BitVec.eq_of_toNat_eq he)
  have hzero : (0 : Word).toNat = 0 := rfl
  unfold Dec.head Dec.dataPos
  unfold Dec.room Dec.seglen at hroom
  unfold Dec.seglen at hdata
  rw [Dec.switch_block0, Dec.switch_dData, Dec.switch_dSize0, Dec.switch_dB, hzero]
  cases hb : d.flags.block0 with
  | true =>
    simp only [hb, if_true] at hroom hdata ⊢
    by_cases hlt : d.dSize0.toNat < d.dB.toNat
    · simp only [hlt, if_true, Bool.not_true, Bool.false_eq_true, if_false]
      congr 1
      omega
    · simp only [hlt, if_false, if_true]
      rw [show d.dData.toNat = d.dB.toNat by omega, Nat.mod_self, Nat.zero_mod]
  | false =>
    simp only [hb, Bool.false_eq_true, if_false] at hroom hdata hwhole ⊢
    have hlt : d.dSize0.toNat < d.dB.toNat := Nat.lt_of_le_of_ne hle hwhole
    simp only [hlt, if_true, Bool.not_false]
    rw [show d.dData.toNat + d.dSize0.toNat = d.dB.toNat by omega, Nat.mod_self, Nat.zero_mod]

theorem extends_switch {d : Dec} (h : DecInv d) (hroom : d.room = 0) : Extends [] d d.switch :=
  .of_same h (h.switch hroom) rfl rfl rfl rfl (head_switch h hroom) rfl

/-- Both segments there are have room for a byte. -/
theorem room_switch_pos {d : Dec} (h : DecInv d) : 0 < d.switch.room := by
  have hs := h.size0Pos
  have hle := h.size0Le
  have hwhole : d.dSize0.toNat = d.dB.toNat → d.flags.block0 = true := fun he => h.wholeSeg0 (BitVec.eq_of_toNat_eq he)
  have hzero : (0 : Word).toNat = 0 := rfl
  unfold Dec.room Dec.seglen
  rw [Dec.switch_block0, Dec.switch_dData, Dec.switch_dSize0, Dec.switch_dB, hzero]
  by_cases hlt : d.dSize0.toNat < d.dB.toNat
  · simp only [hlt, if_true, Nat.sub_zero]
    split <;> omega
  · have hb := hwhole (by omega)
    simp only [hlt, hb, if_true, if_false, Nat.sub_zero]
    exact hs

/-- After `makeRoom` there is room, and nothing was appended. -/
theorem makeRoom_extends {s : State} (h : DecInv s.dec) :
    (makeRoom s).OnDone fun t => Extends [] s.dec t.dec ∧ 0 < t.dec.room := by
  unfold makeRoom
  split
  next hroom =>
    refine (flushLines_onDone s).andThen fun t ht => ?_
    show Extends [] s.dec t.dec.switch ∧ 0 < t.dec.switch.room
    rw [ht]
    exact ⟨(extends_markFlushed h).trans h (extends_switch h.markFlushed hroom), room_switch_pos h.markFlushed⟩
  next hroom => exact ⟨.refl h, Nat.pos_of_ne_zero hroom⟩

end Sys2Proof.Machine
end

section
/-! PROOFS. The logical output of the decoder (R275, R276): DLIT, DMATCH and DFLUSH append to it what they append to the
ring. The statements about bytes the host did not offer (log entry 5) and about the split point (R114) follow. -/

namespace Sys2Proof.Machine

open Sys2Proof

/-! ### The pending output -/

/-- A list element by element. -/
theorem map_some_eq_range {α : Type} {l : List α} {n : Nat} {f : Nat → Option α} (hl : l.length = n)
    (hf : ∀ j, j < n → f j = l[j]?) : l.map some = (List.range n).map f := by
  subst hl
  refine List.ext_getElem (by simp) fun j hj _ => ?_
  have hlt : j < l.length := by simpa using hj
  simp [hf j hlt, List.getElem?_eq_getElem hlt]

theorem pending_of_flushed {d : Dec} (h : d.dData.toNat ≤ d.dLast.toNat) : d.pending = [] := by
  simp [Dec.pending, Nat.sub_eq_zero_of_le h]

/-- What a flush reads is the pending output. -/
theorem pending_of_readRun {d : Dec} {bs : List Byte}
    (h : d.cur.readRun d.dLast.toNat (d.dData.toNat - d.dLast.toNat) = .ok bs) : d.pending = bs.map some := by
  obtain ⟨hlen, hbytes⟩ := Memory.readRun_ok _ _ _ _ h
  exact (map_some_eq_range hlen hbytes).symm

/-- Bytes put in CUR at the write head are pending after those that were. -/
theorem pending_putBytes {d : Dec} {bs : List Byte} (h : DecInv d) (hroom : bs.length ≤ d.room) :
    (putBytes bs d).pending = d.pending ++ bs.map some := by
  have hlast := h.lastLe
  have hdata : (putBytes bs d).dData.toNat - (putBytes bs d).dLast.toNat =
      d.dData.toNat - d.dLast.toNat + bs.length := by
    have := h.dData_advance hroom
    simp only [putBytes, Dec.advance_dData, Dec.setCur_dData, Dec.advance_dLast, Dec.setCur_dLast]
    omega
  have hcur : (putBytes bs d).cur = d.cur.writeRun d.dData.toNat bs := by simp [putBytes]
  have hlast' : (putBytes bs d).dLast = d.dLast := by simp [putBytes]
  rw [Dec.pending, hdata, hcur, hlast', List.range_add, List.map_append, List.map_map]
  congr 1
  · refine List.map_congr_left fun j hj => ?_
    have := List.mem_range.1 hj
    rw [Memory.read_writeRun, if_neg (by omega)]
  · refine (map_some_eq_range rfl fun j hj => ?_).symm
    rw [Function.comp_apply, Memory.read_writeRun, if_pos (by omega)]
    congr 1
    omega

/-! ### Appending to the output -/

/-- From `s` to `t` the decoder took `n` bytes from DIN and appended `bs` to its ring and to its output, and the sink
refused nothing. -/
structure Appends (n : Nat) (bs : List Byte) (s t : State) : Prop where
  ring : Extends bs s.dec t.dec
  output : written t = written s ++ bs.map some
  accepts : DoutAccepts t
  din : t.ports.din = s.ports.din.drop n
  unoffered : t.ports.dinUnoffered = s.ports.dinUnoffered + (n - s.ports.din.length)

theorem Appends.trans {n m : Nat} {bs cs : List Byte} {s t u : State} (h : DecInv s.dec) (hb : Appends n bs s t)
    (hc : Appends m cs t u) : Appends (n + m) (bs ++ cs) s u where
  ring := hb.ring.trans h hc.ring
  output := by rw [hc.output, hb.output, List.map_append, List.append_assoc]
  accepts := hc.accepts
  din := by rw [hc.din, hb.din, List.drop_drop]
  unoffered := by
    rw [hc.unoffered, hb.unoffered, hb.din, List.length_drop]
    omega

theorem Appends.refl {s : State} (h : DecInv s.dec) (ha : DoutAccepts s) : Appends 0 [] s s :=
  ⟨.refl h, (List.append_nil _).symm, ha, rfl, by simp⟩

theorem takeBytes_add (free : Nat → Byte) (n m : Nat) (offered : List Byte) (k : Nat) :
    takeBytes free (n + m) offered k =
      takeBytes free n offered k ++ takeBytes free m (offered.drop n) (k + (n - offered.length)) := by
  refine List.ext_getElem (by simp [length_takeBytes]) fun j hj _ => ?_
  rw [length_takeBytes] at hj
  rw [← Option.some.injEq, ← List.getElem?_eq_getElem, ← List.getElem?_eq_getElem, getElem?_takeBytes _ _ _ _ _ hj]
  by_cases hn : j < n
  · rw [List.getElem?_append_left (by rwa [length_takeBytes]), getElem?_takeBytes _ _ _ _ _ hn]
  · rw [List.getElem?_append_right (by rw [length_takeBytes]; omega), length_takeBytes,
      getElem?_takeBytes _ _ _ _ _ (by omega), List.length_drop, List.getElem?_drop]
    by_cases ho : j < offered.length
    · rw [if_pos ho, if_pos (by omega)]
      congr 1
      omega
    · rw [if_neg ho, if_neg (by omega)]
      congr 2
      omega

/-! ### The lines of the decoder -/

section Lines

variable {s : State}

theorem flushLines_appends (h : DecInv s.dec) (ha : DoutAccepts s) :
    ∃ t, flushLines s = .done t ∧ Appends 0 [] s t ∧ t.dec = s.dec.markFlushed := by
  have hflushed : s.dec.markFlushed.pending = [] := pending_of_flushed le_rfl
  obtain ⟨hle, hl⟩ | ⟨-, ⟨a, hr, -⟩ | ⟨bs, hr, hl⟩⟩ := flushLines_cases s
  · refine ⟨_, hl, ⟨extends_markFlushed h, ?_, ha, rfl, by simp⟩, rfl⟩
    simp [written, eventBytes, hflushed, pending_of_flushed hle]
  · obtain ⟨-, hlt, hnone, -⟩ := Memory.readRun_error _ _ _ _ hr
    have hlast := h.lastLe
    have := h.cur_isSome (q := a) (by omega)
    simp [hnone] at this
  · have haccept := negative_nextAnswer _ ha
    obtain ⟨-, hput⟩ | ⟨hneg, -⟩ := doutPut_cases bs s
    · rw [hput] at hl
      refine ⟨_, hl, ⟨extends_markFlushed h, ?_, fun c hc => ha c (List.mem_of_mem_tail hc), rfl, by simp⟩, rfl⟩
      simp [written, eventBytes, hflushed, pending_of_readRun hr]
    · rw [haccept] at hneg
      cases hneg

theorem makeRoom_appends (h : DecInv s.dec) (ha : DoutAccepts s) :
    ∃ t, makeRoom s = .done t ∧ Appends 0 [] s t ∧ 0 < t.dec.room := by
  by_cases hroom : s.dec.room = 0
  · obtain ⟨t, hl, happ, hdec⟩ := flushLines_appends h ha
    have hl' : makeRoom s = .done { t with dec := t.dec.switch } := by
      rw [makeRoom, if_pos hroom, hl, Run.andThen_done]
    obtain ⟨hext, hpos⟩ := (makeRoom_extends h).of_eq_done hl'
    refine ⟨_, hl', ⟨hext, ?_, happ.accepts, happ.din, happ.unoffered⟩, hpos⟩
    have hpending : t.dec.switch.pending = t.dec.pending := by
      rw [pending_of_flushed le_rfl, hdec, pending_of_flushed le_rfl]
    rw [← happ.output]
    exact congrArg ((eventBytes t).map some ++ ·) hpending
  · exact ⟨s, if_neg hroom, .refl h ha, Nat.pos_of_ne_zero hroom⟩

/-- A sub-copy appends its bytes to the output: they are pending (R275). -/
theorem putBytes_appends {n : Nat} {bs : List Byte} {p : Ports} (h : DecInv s.dec) (ha : DoutAccepts s)
    (hroom : bs.length ≤ s.dec.room) (hdout : p.dout = s.ports.dout) (hans : p.doutAnswers = s.ports.doutAnswers)
    (hdin : p.din = s.ports.din.drop n)
    (hun : p.dinUnoffered = s.ports.dinUnoffered + (n - s.ports.din.length)) :
    Appends n bs s { s with dec := putBytes bs s.dec, ports := p } where
  ring := extends_putBytes bs s.dec h hroom
  output := by
    have hevents : eventBytes { s with dec := putBytes bs s.dec, ports := p } = eventBytes s := by
      unfold eventBytes
      rw [hdout]
    rw [written, hevents, pending_putBytes h hroom, ← List.append_assoc]
    rfl
  accepts := by
    show ∀ c ∈ p.doutAnswers, negative c = false
    rw [hans]
    exact ha
  din := hdin
  unoffered := hun

theorem length_dinTake (n : Nat) (p : Ports) : (dinTake n p).1.length = n := length_takeBytes _ _ _ _

theorem dinTake_zero (p : Ports) : (dinTake 0 p).1 = [] := List.eq_nil_of_length_eq_zero (length_dinTake 0 p)

theorem dlitTurn_appends {c : Nat} (h : DecInv s.dec) (ha : DoutAccepts s) (hroom : c ≤ s.dec.room) :
    Appends c (dinTake c s.ports).1 s (dlitTurn c s) :=
  putBytes_appends h ha (by rwa [length_dinTake]) rfl rfl rfl rfl

/-- DLIT appends the next `n` bytes of DIN, offered or free (R269). -/
theorem dlitLoop_appends : ∀ (fuel n : Nat) (s : State), DecInv s.dec → DoutAccepts s → n ≤ fuel →
    ∃ t, dlitLoop fuel n s = .done t ∧ Appends n (dinTake n s.ports).1 s t
  | 0, n, s, h, ha, hn => by
    obtain rfl : n = 0 := Nat.le_zero.1 hn
    exact ⟨s, rfl, by rw [dinTake_zero]; exact .refl h ha⟩
  | fuel + 1, n, s, h, ha, hn => by
    rw [dlitLoop_succ]
    split
    next h0 => subst h0; exact ⟨s, rfl, by rw [dinTake_zero]; exact .refl h ha⟩
    next h0 =>
      obtain ⟨r, hr, happ, hpos⟩ := makeRoom_appends h ha
      have hturn := dlitTurn_appends happ.ring.inv happ.accepts (Nat.min_le_right n r.dec.room)
      obtain ⟨t, ht, hrest⟩ := dlitLoop_appends fuel (n - min n r.dec.room) _ hturn.ring.inv hturn.accepts (by omega)
      refine ⟨t, by rw [hr, Run.andThen_done, ht], ?_⟩
      have hall := (happ.trans h hturn).trans h hrest
      have hbytes : (dinTake n s.ports).1 = [] ++ (dinTake (min n r.dec.room) r.ports).1 ++
          (dinTake (n - min n r.dec.room) (dlitTurn (min n r.dec.room) r).ports).1 := by
        have hsum : n = min n r.dec.room + (n - min n r.dec.room) := by omega
        have hdin : r.ports.din = s.ports.din := happ.din
        have hun : r.ports.dinUnoffered = s.ports.dinUnoffered := by simpa using happ.unoffered
        conv_lhs => rw [hsum, dinTake, takeBytes_add]
        simp only [dinTake, dlitTurn, hdin, hun, List.nil_append]
      rw [hbytes]
      have hn' : 0 + min n r.dec.room + (n - min n r.dec.room) = n := by omega
      rwa [hn'] at hall

/-- DMATCH appends as many bytes as asked for, each the byte `offset` before it in the output (R271). -/
theorem dmatchLoop_appends (offset : Nat) : ∀ (fuel len : Nat) (s : State), DecInv s.dec → DoutAccepts s →
    LegalOffset offset s.dec → len ≤ fuel →
    ∃ (t : State) (bs : List Byte), dmatchLoop offset fuel len s = .done t ∧ bs.length = len ∧ Appends 0 bs s t ∧
      Repeats s.dec.dB.toNat offset bs s.dec.head s.dec.ring
  | 0, len, s, h, ha, _, hlen => by
    obtain rfl : len = 0 := Nat.le_zero.1 hlen
    exact ⟨s, [], rfl, rfl, .refl h ha, trivial⟩
  | fuel + 1, len, s, h, ha, ho, hlen => by
    by_cases h0 : len = 0
    · subst h0
      exact ⟨s, [], rfl, rfl, .refl h ha, trivial⟩
    · obtain ⟨r, hr, happ, hpos⟩ := makeRoom_appends h ha
      have hinv := happ.ring.inv
      have hor := ho.of_extends happ.ring
      obtain ⟨bs, hbs, hbspos, hle, hroom, hcopy, hrep⟩ := subCopy_turn hinv hor hpos h0
      have hturn : Appends 0 bs r { r with dec := putBytes bs r.dec } :=
        putBytes_appends hinv happ.accepts hroom rfl rfl rfl (by simp)
      have hfuel : len - bs.length ≤ fuel := by omega
      obtain ⟨t, cs, ht, hcs, hrest, hrepcs⟩ := dmatchLoop_appends offset fuel _ _ hturn.ring.inv hturn.accepts
        (hor.of_extends hturn.ring) hfuel
      refine ⟨t, bs ++ cs, ?_, ?_, (happ.trans h hturn).trans h hrest, ?_⟩
      · rw [dmatchLoop_succ h0 hr hbs hcopy, ht]
      · rw [List.length_append, hcs]
        omega
      · obtain ⟨hsize, hhead, hring⟩ := happ.ring.of_nil h
        rw [hturn.ring.size, hturn.ring.head, hturn.ring.ring] at hrepcs
        rw [← hsize, ← hhead, ← hring]
        exact repeats_append bs cs _ _ hinv.head_lt hrep hrepcs

end Lines

/-! ### The commands of the decoder -/

section Commands

variable {s : State}

theorem dlitLines_of_abort (h : abortForm s = true) : dlitLines s = .raised s .io s.arg1.toNat := if_pos h

theorem abortForm_eq_false (h : s.arg0 ≠ 0xFFFFFFFF) : abortForm s = false := beq_eq_false_iff_ne.2 h

theorem exec_dlit_appends (hr : DecReady s) (h : DecInv s.dec) (ha : DoutAccepts s) (hform : abortForm s = false) :
    ∃ t, exec .dlit s = .next t ∧ Appends s.arg0.toNat (dinTake s.arg0.toNat s.ports).1 s t := by
  obtain ⟨t, ht, happ⟩ := dlitLoop_appends s.arg0.toNat s.arg0.toNat s h ha le_rfl
  have hlines : dlitLines s = .done t := by rw [dlitLines, if_neg (by simp [hform]), ht]
  refine ⟨t, ?_, happ⟩
  show decCommand _ dlitLines s = _
  rw [decCommand_ready _ _ _ hr.1 hr.2, hlines]
  rfl

theorem exec_dmatch_appends (hr : DecReady s) (h : DecInv s.dec) (ha : DoutAccepts s)
    (ho : LegalOffset s.arg0.toNat s.dec) :
    ∃ (t : State) (bs : List Byte), exec .dmatch s = .next t ∧ bs.length = s.arg1.toNat ∧ Appends 0 bs s t ∧
      Repeats s.dec.dB.toNat s.arg0.toNat bs s.dec.head s.dec.ring := by
  obtain ⟨t, bs, ht, hlen, happ, hrep⟩ := dmatchLoop_appends s.arg0.toNat s.arg1.toNat s.arg1.toNat s h ha ho le_rfl
  obtain ⟨hpos, hlt, hle⟩ := ho
  have hlines : dmatchLines s = .done t := by
    simp only [dmatchLines]
    rw [if_neg (by omega), if_neg (by omega), if_neg (by omega), ht]
  refine ⟨t, bs, ?_, hlen, happ, hrep⟩
  show decCommand _ dmatchLines s = _
  rw [decCommand_ready _ _ _ hr.1 hr.2, hlines]
  rfl

theorem dmatchLines_of_illegal (ho : ¬LegalOffset s.arg0.toNat s.dec) :
    dmatchLines s = .raised s .corrupt s.arg0.toNat := by
  simp only [dmatchLines]
  split_ifs with h0 hB hf
  · rfl
  · rfl
  · rfl
  · exact absurd ⟨by omega, by omega, by omega⟩ ho

theorem exec_dflush_appends (hr : DecReady s) (h : DecInv s.dec) (ha : DoutAccepts s) :
    ∃ t, exec .dflush s = .next t ∧ Appends 0 [] s t := by
  obtain ⟨t, ht, happ, -⟩ := flushLines_appends h ha
  refine ⟨t, ?_, happ⟩
  show decCommand _ flushLines s = _
  rw [decCommand_ready _ _ _ hr.1 hr.2, ht]
  rfl

end Commands

/-! ### Bytes the host did not offer (log entry 5) -/

theorem takeBytes_some_eq (free : Nat → Byte) (n : Nat) (offered : List Byte) (k : Nat) :
    (takeBytes free n offered k).map some = (List.range n).map fun j =>
      if j < offered.length then offered[j]? else some (free (k + (j - offered.length))) :=
  map_some_eq_range (length_takeBytes _ _ _ _) fun j hj => (getElem?_takeBytes _ _ _ _ j hj).symm

/-- FILL with its tests passed takes `n` bytes, offered or free (R207). -/
theorem exec_fill_of_tests {s : State} (hr : EncReady s) (hcyc : s.enc.flags.cycopen = false)
    (hfin : s.enc.flags.final = false) (hform : s.arg0 ≠ 0xFFFFFFFF) (hn : s.arg0.toNat ≠ 0)
    (hfits : s.enc.base.toNat + s.arg0.toNat ≤ s.enc.cfgB.toNat) :
    exec .fill s = .next { s with
      enc := fillWith (einTake s.arg0.toNat s.ports).1 s.enc, ports := (einTake s.arg0.toNat s.ports).2 } := by
  show encCommand _ fillLines s = _
  rw [encCommand_ready _ _ _ hr.1 hr.2]
  simp only [fillLines]
  rw [hcyc, hfin, abortForm_eq_false hform, if_neg (by simp), if_neg (by simp), if_neg (by simp), if_neg hn,
    if_neg (by omega)]
  rfl

/-- Settles O29: FILL and DLIT put down what `takeBytes` gives, which is the offered byte or a free value. -/
theorem missingPortBytesAreFreeValues : Obligations.MissingPortBytesAreFreeValues := by
  refine ⟨fun s hr hcyc hfin hform hn hfits => ?_, fun s hr h hform ha => ?_⟩
  · have hlen : (einTake s.arg0.toNat s.ports).1.length = s.arg0.toNat := length_takeBytes _ _ _ _
    refine ⟨_, exec_fill_of_tests hr hcyc hfin hform hn hfits, hr.1, ?_, fun j hj => ?_⟩
    · show wordOf (einTake s.arg0.toNat s.ports).1.length = s.arg0
      rw [hlen, wordOf, BitVec.ofNat_toNat, BitVec.setWidth_eq]
    · show (s.enc.buf.writeRun s.enc.base.toNat (einTake s.arg0.toNat s.ports).1).read (s.enc.base.toNat + j) = _
      rw [Memory.read_writeRun, if_pos (by omega), Nat.add_sub_cancel_left]
      exact getElem?_takeBytes _ _ _ _ j hj
  · obtain ⟨t, ht, happ⟩ := exec_dlit_appends hr h ha (abortForm_eq_false hform)
    refine ⟨t, ht, happ.ring.dfault.trans hr.1, ?_⟩
    rw [happ.output]
    exact congrArg (written s ++ ·) (takeBytes_some_eq _ _ _ _)

/-! ### The split point (R114) -/

/-- The command `i` makes the same bytes of `s₁` and of `s₂` and leaves them alike but for the split point. -/
def SameOutput (i : Instr) (s₁ s₂ : State) : Prop :=
  ∃ (t₁ t₂ : State) (out : List (Option Byte)),
    exec i s₁ = .next t₁ ∧ exec i s₂ = .next t₂ ∧ SameRing t₁.dec t₂.dec ∧
    written t₁ = written s₁ ++ out ∧ written t₂ = written s₂ ++ out ∧
    t₁.ports.din = t₂.ports.din ∧ t₁.ports.dinUnoffered = t₂.ports.dinUnoffered ∧
    DoutAccepts t₁ ∧ DoutAccepts t₂ ∧ t₁.dec.flags.dok = true ∧ t₂.dec.flags.dok = true ∧
    t₁.dec.flags.dfault = t₂.dec.flags.dfault

section SameOutput

variable {i : Instr} {s₁ s₂ : State}

theorem sameOutput_of_appends {t₁ t₂ : State} {n : Nat} {bs : List Byte} (hr₁ : DecReady s₁) (hr₂ : DecReady s₂)
    (hs : SameRing s₁.dec s₂.dec) (hdin : s₁.ports.din = s₂.ports.din)
    (hun : s₁.ports.dinUnoffered = s₂.ports.dinUnoffered) (he₁ : exec i s₁ = .next t₁) (he₂ : exec i s₂ = .next t₂)
    (h₁ : Appends n bs s₁ t₁) (h₂ : Appends n bs s₂ t₂) : SameOutput i s₁ s₂ := by
  refine ⟨t₁, t₂, bs.map some, he₁, he₂, hs.of_extends h₁.ring h₂.ring, h₁.output, h₂.output, ?_, ?_, h₁.accepts,
    h₂.accepts, h₁.ring.dok.trans hr₁.2, h₂.ring.dok.trans hr₂.2, ?_⟩
  · rw [h₁.din, h₂.din, hdin]
  · rw [h₁.unoffered, h₂.unoffered, hdin, hun]
  · rw [h₁.ring.dfault, h₂.ring.dfault, hr₁.1, hr₂.1]

theorem exec_of_raised {i : Instr} {op : Byte} {body : State → Run State} {s : State} {x : Exn} {n : Nat}
    (hi : exec i = decCommand op body) (hr : DecReady s) (hb : body s = .raised s x n) :
    exec i s = .next { s with dec := { s.dec with
      derr := x.code, derrinfo := wordOf n, flags := { s.dec.flags with dfault := true } } } := by
  rw [hi, decCommand_ready _ _ _ hr.1 hr.2, hb]
  exact congrArg _ (if_neg (by simp [faulted, hr.1]))

/-- A fault raised before any byte was made: the output and the ring stay. -/
theorem sameOutput_of_raised {op : Byte} {body : State → Run State} {x : Exn} {n₁ n₂ : Nat}
    (hi : exec i = decCommand op body) (hr₁ : DecReady s₁) (hr₂ : DecReady s₂) (hs : SameRing s₁.dec s₂.dec)
    (hdin : s₁.ports.din = s₂.ports.din) (hun : s₁.ports.dinUnoffered = s₂.ports.dinUnoffered)
    (ha₁ : DoutAccepts s₁) (ha₂ : DoutAccepts s₂) (h₁ : body s₁ = .raised s₁ x n₁) (h₂ : body s₂ = .raised s₂ x n₂) :
    SameOutput i s₁ s₂ :=
  ⟨_, _, [], exec_of_raised hi hr₁ h₁, exec_of_raised hi hr₂ h₂, ⟨hs.size, hs.filled, hs.head, hs.ring⟩,
    (List.append_nil _).symm, (List.append_nil _).symm, hdin, hun, ha₁, ha₂, hr₁.2, hr₂.2, rfl⟩

end SameOutput

theorem LegalOffset.of_sameRing {offset : Nat} {d₁ d₂ : Dec} (h : SameRing d₁ d₂) (ho : LegalOffset offset d₁) :
    LegalOffset offset d₂ :=
  ⟨ho.pos, h.size ▸ ho.lt, h.filled ▸ ho.le⟩

theorem SameRing.symm {d₁ d₂ : Dec} (h : SameRing d₁ d₂) : SameRing d₂ d₁ :=
  ⟨h.size.symm, h.filled.symm, h.head.symm, fun p hp => (h.ring p (h.size ▸ hp)).symm⟩

/-- Settles O50: what a command appends is a function of the bytes of DIN, or of the ring, the head and the operands,
and appending it to two rings that agree leaves them in agreement. -/
theorem splitPointChangesNoOutputByte : Obligations.SplitPointChangesNoOutputByte := by
  intro i s₁ s₂ hi hr₁ hr₂ h₁ h₂ hs h0 h1 hdin hun ha₁ ha₂
  show SameOutput i s₁ s₂
  obtain rfl | rfl | rfl := hi
  · cases hform : abortForm s₁ with
    | true =>
      have hform₂ : abortForm s₂ = true := by rwa [abortForm, ← h0]
      exact sameOutput_of_raised rfl hr₁ hr₂ hs hdin hun ha₁ ha₂ (dlitLines_of_abort hform) (dlitLines_of_abort hform₂)
    | false =>
      have hform₂ : abortForm s₂ = false := by rwa [abortForm, ← h0]
      obtain ⟨t₁, he₁, happ₁⟩ := exec_dlit_appends hr₁ h₁ ha₁ hform
      obtain ⟨t₂, he₂, happ₂⟩ := exec_dlit_appends hr₂ h₂ ha₂ hform₂
      have hbytes : (dinTake s₂.arg0.toNat s₂.ports).1 = (dinTake s₁.arg0.toNat s₁.ports).1 := by
        simp only [dinTake, h0, hdin, hun]
      rw [hbytes, ← h0] at happ₂
      exact sameOutput_of_appends hr₁ hr₂ hs hdin hun he₁ he₂ happ₁ happ₂
  · by_cases ho : LegalOffset s₁.arg0.toNat s₁.dec
    · have ho₂ : LegalOffset s₂.arg0.toNat s₂.dec := h0 ▸ ho.of_sameRing hs
      obtain ⟨t₁, bs₁, he₁, hlen₁, happ₁, hrep₁⟩ := exec_dmatch_appends hr₁ h₁ ha₁ ho
      obtain ⟨t₂, bs₂, he₂, hlen₂, happ₂, hrep₂⟩ := exec_dmatch_appends hr₂ h₂ ha₂ ho₂
      rw [← h0, ← hs.size, ← hs.head] at hrep₂
      have hbytes : bs₁ = bs₂ :=
        repeats_unique h₁.size_pos bs₁ bs₂ _ _ _ hs.ring (by rw [hlen₁, hlen₂, h1]) hrep₁ hrep₂
      exact sameOutput_of_appends hr₁ hr₂ hs hdin hun he₁ he₂ happ₁ (hbytes ▸ happ₂)
    · have ho₂ : ¬LegalOffset s₂.arg0.toNat s₂.dec := fun ho₂ => ho (h0 ▸ ho₂.of_sameRing hs.symm)
      exact sameOutput_of_raised rfl hr₁ hr₂ hs hdin hun ha₁ ha₂ (dmatchLines_of_illegal ho)
        (dmatchLines_of_illegal ho₂)
  · obtain ⟨t₁, he₁, happ₁⟩ := exec_dflush_appends hr₁ h₁ ha₁
    obtain ⟨t₂, he₂, happ₂⟩ := exec_dflush_appends hr₂ h₂ ha₂
    exact sameOutput_of_appends hr₁ hr₂ hs hdin hun he₁ he₂ happ₁ happ₂

end Sys2Proof.Machine
end

section
/-! PROOFS. Where the invariants hold every byte a command reads holds a value, but for RDLIT, whose run is the host's
(R104, R214): no other command raises `Uninit`. -/

namespace Sys2Proof.Machine

open Sys2Proof

/-! ### Runs that do not raise `Uninit` -/

/-- The run did not end with `Uninit`. -/
def Run.NoUninit {σ : Type} : Run σ → Prop
  | .done _ => True
  | .raised _ x _ => x ≠ .uninit

/-- What follows may use what holds where the first part ran to its end. -/
theorem Run.NoUninit.andThen {σ : Type} {P : σ → Prop} {r : Run σ} {f : σ → Run σ} (hr : r.NoUninit) (hp : r.OnDone P)
    (hf : ∀ s, P s → (f s).NoUninit) : (r.andThen f).NoUninit := by
  cases r with
  | done s => exact hf s hp
  | raised s x n => exact hr

theorem Run.NoUninit.andThen_done {σ : Type} {r : Run σ} {f : σ → σ} (hr : r.NoUninit) :
    (r.andThen fun s => .done (f s)).NoUninit :=
  hr.andThen (P := fun _ => True) (by cases r <;> trivial) fun _ _ => trivial

theorem Run.NoUninit.times {σ : Type} {P : σ → Prop} {f : σ → Run σ} (hf : ∀ s, P s → (f s).NoUninit)
    (hp : ∀ s, P s → (f s).OnDone P) : ∀ (n : Nat) (s : σ), P s → (Run.times f n s).NoUninit
  | 0, _, _ => trivial
  | n + 1, s, h => (hf s h).andThen (hp s h) fun t ht => Run.NoUninit.times hf hp n t ht

/-- A test at the head of a rule's lines raises another fault; what follows may use that it failed. -/
theorem Run.NoUninit.guard {σ : Type} {c : Prop} [Decidable c] {s : σ} {x : Exn} {n : Nat} {r : Run σ}
    (hx : x ≠ .uninit) (hr : ¬c → r.NoUninit) : (if c then Run.raised s x n else r).NoUninit := by
  split
  · exact hx
  · exact hr ‹_›

theorem onEnc_noUninit {f : Enc → Run Enc} {s : State} (h : (f s.enc).NoUninit) : (onEnc f s).NoUninit := by
  unfold onEnc
  cases hf : f s.enc <;> rw [hf] at h <;> exact h

theorem onDec_noUninit {f : Dec → Run Dec} {s : State} (h : (f s.dec).NoUninit) : (onDec f s).NoUninit := by
  unfold onDec
  cases hf : f s.dec <;> rw [hf] at h <;> exact h

/-! ### The bytes the encoder reads -/

section EncInv

variable {recCap : Nat} {e : Enc}

theorem EncInv.filled_le_heldLimit (h : EncInv recCap e) : e.filled ≤ e.heldLimit := by
  unfold Enc.heldLimit
  split
  · exact h.cursors.inBuffer
  · exact le_rfl

/-- Every byte read in this lap holds a value (R103). -/
theorem EncInv.read_isSome (h : EncInv recCap e) {p : Nat} (hp : p < e.filled) : (e.buf.read p).isSome :=
  h.buffer.held p (hp.trans_le h.filled_le_heldLimit)

/-- A candidate outside the bytes read so far lies in the previous lap, all of which holds values (R105). -/
theorem EncInv.heldLimit_of_cand (h : EncInv recCap e) (hb : e.flags.bvalid = true) (hm : e.filled ≤ e.cand.toNat) :
    e.heldLimit = e.cfgB.toNat := by
  have hlapped : e.flags.lapped = true := by
    by_contra hl
    have := h.candidate.hitFirstLap (h.candidate.boundsHit hb) (by simpa using hl)
    omega
  exact if_pos hlapped

theorem toNat_wordOf_le (n : Nat) : (wordOf n).toNat ≤ n := Nat.mod_le _ _

/-- Going back within the range of BOUNDS both sides hold values; the match side stays at or above 0, and in the
previous lap at or above `BASE + SIZE` (R212, R214). -/
theorem EncInv.backward_readable (h : EncInv recCap e) (hb : e.flags.bvalid = true) {p : Nat} (hp : e.backLimit ≤ p)
    (hpi : p < e.i.toNat) :
    (e.buf.read p).isSome ∧ e.i.toNat - p ≤ e.cand.toNat ∧ (e.buf.read (e.cand.toNat - (e.i.toNat - p))).isSome ∧
      (e.i.toNat < e.cand.toNat → e.filled ≤ e.cand.toNat - (e.i.toNat - p)) := by
  have hi := h.cursors.iLe
  have hlow : lowBound e.i.toNat e.cand.toNat e.filled ≤ p := by
    have hword : (wordOf (lowBound e.i.toNat e.cand.toNat e.filled)).toNat = _ :=
      toNat_wordOf (by unfold lowBound; have := e.i.isLt; split_ifs <;> omega)
    rw [← h.candidate.boundsLow hb] at hword
    exact hword ▸ (le_max_right _ _).trans hp
  refine ⟨h.read_isSome (by omega), ?_⟩
  unfold lowBound at hlow
  obtain hm | hm := h.candidate.boundsOutside hb
  · rw [if_pos hm] at hlow
    exact ⟨by omega, h.read_isSome (by omega), by omega⟩
  · have hge : e.i.toNat - p ≤ e.cand.toNat - e.filled := by
      split_ifs at hlow <;> omega
    refine ⟨by omega, h.buffer.held _ ?_, by omega⟩
    have := h.candidate.hitCand (h.candidate.boundsHit hb)
    rw [h.heldLimit_of_cand hb hm]
    omega

/-- Going forward within the range of BOUNDS both sides hold values; the match side stays below `B` (R213, R214). -/
theorem EncInv.forward_readable (h : EncInv recCap e) (hb : e.flags.bvalid = true) {q : Nat} (hiq : e.i.toNat ≤ q)
    (hq : q < e.fwdLimit) :
    (e.buf.read q).isSome ∧ e.cand.toNat + (q - e.i.toNat) < e.cfgB.toNat ∧
      (e.buf.read (e.cand.toNat + (q - e.i.toNat))).isSome := by
  have hhigh : q < highBound e.i.toNat e.cand.toNat e.cfgB.toNat := by
    have := toNat_wordOf_le (highBound e.i.toNat e.cand.toNat e.cfgB.toNat)
    rw [← h.candidate.boundsHigh hb] at this
    exact (hq.trans_le (min_le_right _ _)).trans_le this
  have hfilled : q < e.filled := hq.trans_le (min_le_left _ _)
  have hcand := h.candidate.hitCand (h.candidate.boundsHit hb)
  have hlt : e.cand.toNat + (q - e.i.toNat) < e.cfgB.toNat := by
    unfold highBound at hhigh
    omega
  refine ⟨h.read_isSome hfilled, hlt, ?_⟩
  obtain hm | hm := h.candidate.boundsOutside hb
  · exact h.read_isSome (by omega)
  · refine h.buffer.held _ ?_
    rw [h.heldLimit_of_cand hb hm]
    exact hlt

/-! ### The lines of the encoder -/

theorem hinitLines_noUninit (h : EncInv recCap e) : (hinitLines e).NoUninit := by
  obtain ⟨-, hl⟩ | ⟨hle, a, hr, -⟩ | ⟨-, bs, -, hl⟩ := hinitLines_cases e
  · rw [hl]; exact nofun
  · obtain ⟨-, hlt, hnone, -⟩ := Memory.readRun_error _ _ _ _ hr
    have := h.read_isSome (hlt.trans_le hle)
    simp [hnone] at this
  · rw [hl]; trivial

theorem hrollLines_noUninit (h : EncInv recCap e) : (hrollLines e).NoUninit := by
  obtain ⟨-, hl⟩ | ⟨-, -, hl⟩ | ⟨-, hlt, ⟨hnone, -⟩ | ⟨out, -, ⟨hnone, -⟩ | ⟨inn, -, hl⟩⟩⟩ := hrollLines_cases e
  · rw [hl]; exact nofun
  · rw [hl]; exact nofun
  · have := h.read_isSome (p := e.i.toNat) (by omega)
    simp [hnone] at this
  · have := h.read_isSome hlt
    simp [hnone] at this
  · rw [hl]; trivial

theorem insertLines_noUninit (e : Enc) : (insertLines e).NoUninit := by
  obtain ⟨-, hl⟩ | ⟨-, -, hl⟩ | ⟨-, -, hl⟩ := insertLines_cases e <;> rw [hl]
  · exact nofun
  · exact nofun
  · trivial

theorem probeLines_noUninit (e : Enc) : (probeLines e).NoUninit := by
  obtain ⟨-, hl⟩ | ⟨-, -, hl⟩ | ⟨-, -, hl⟩ := probeLines_cases e <;> rw [hl]
  · exact nofun
  · trivial
  · trivial

theorem seekLines_noUninit (p : Word) (e : Enc) : (seekLines p e).NoUninit := .guard nofun fun _ => trivial

theorem boundsLines_noUninit (e : Enc) : (boundsLines e).NoUninit := by
  obtain ⟨-, hl⟩ | ⟨-, -, -, -, hl⟩ | ⟨-, -, -, hl⟩ := boundsLines_cases e <;> rw [hl]
  · exact nofun
  · trivial
  · trivial

theorem extbLines_noUninit (h : EncInv recCap e) : (extbLines e).NoUninit := by
  obtain ⟨-, hl⟩ | ⟨hb, a, hr, -⟩ | ⟨-, p, -, hl⟩ := extbLines_cases e
  · rw [hl]; exact nofun
  · have hle := h.candidate.boundsCursor hb
    obtain ⟨p, hp⟩ := extendBack_runs (e.i.toNat - e.backLimit) e.buf e.i.toNat e.cand.toNat
      (min e.backLimit e.i.toNat) fun q hlo hhi => by
        obtain ⟨hq, hback, hm, -⟩ := h.backward_readable hb (p := q) (by omega) (by omega)
        refine ⟨hq, ?_⟩
        rwa [show e.cand.toNat - (e.i.toNat - (q + 1)) - 1 = e.cand.toNat - (e.i.toNat - q) by omega]
    cases hp.symm.trans hr
  · rw [hl]; trivial

theorem extfLines_noUninit (h : EncInv recCap e) : (extfLines e).NoUninit := by
  obtain ⟨-, hl⟩ | ⟨hb, a, hr, -⟩ | ⟨-, q, -, hl⟩ := extfLines_cases e
  · rw [hl]; exact nofun
  · obtain ⟨q, hq⟩ := extendFwd_runs (e.fwdLimit - e.i.toNat) e.buf e.i.toNat e.cand.toNat e.i.toNat
      fun p hlo hhi => by
        obtain ⟨hp, -, hm⟩ := h.forward_readable hb hlo (by omega)
        exact ⟨hp, hm⟩
    cases hq.symm.trans hr
  · rw [hl]; trivial

theorem commitLines_noUninit (recCap : Nat) (e : Enc) : (commitLines recCap e).NoUninit := by
  obtain ⟨-, hl⟩ | ⟨-, -, -, hl⟩ | ⟨-, -, -, -, hl⟩ | ⟨-, -, -, -, hl⟩ := commitLines_cases recCap e <;> rw [hl]
  · exact nofun
  · trivial
  · exact nofun
  · trivial

theorem verifyLines_noUninit (h : EncInv recCap e) : (verifyLines recCap e).NoUninit := by
  refine (boundsLines_noUninit e).andThen (boundsLines_encInv h) fun e h => ?_
  split
  · have hextf := (extbLines_noUninit h).andThen (extbLines_encInv h) fun _ h => extfLines_noUninit h
    have hinv := (extbLines_encInv h).andThen fun _ h => extfLines_encInv h
    exact hextf.andThen hinv fun e _ => commitLines_noUninit recCap e
  · trivial

theorem searchLines_noUninit (h : EncInv recCap e) : (searchLines recCap e).NoUninit := by
  unfold searchLines
  split
  · refine (probeLines_noUninit e).andThen (probeLines_encInv h) fun e h => ?_
    split
    · exact verifyLines_noUninit h
    · trivial
  · trivial

theorem anchorRoll_noUninit (h : EncInv recCap e) : ((anchorLines e).andThen hrollLines).NoUninit := by
  have hanchor : (anchorLines e).NoUninit := by
    unfold anchorLines
    split
    · exact insertLines_noUninit e
    · trivial
  exact hanchor.andThen (anchorLines_encInv h) fun _ ht => hrollLines_noUninit ht.1

theorem stepLines_noUninit (h : EncInv recCap e) : (stepLines recCap e).NoUninit := by
  refine .guard nofun fun _ => .guard nofun fun _ => ?_
  rw [Run.andThen_assoc]
  exact (searchLines_noUninit (h.setMatched false)).andThen (searchLines_encInv (h.setMatched false))
    fun _ h => anchorRoll_noUninit h

theorem skipLoop_noUninit : ∀ (n : Nat) (e : Enc), EncInv recCap e → (skipLoop n e).NoUninit
  | 0, _, _ => trivial
  | n + 1, e, h => by
    rw [skipLoop]
    split
    · trivial
    · exact (anchorRoll_noUninit h).andThen (anchorRoll_encInv h) fun t ht => skipLoop_noUninit n t ht.1

theorem skipLines_noUninit (h : EncInv recCap e) : (skipLines e).NoUninit :=
  .guard nofun fun _ => skipLoop_noUninit _ _ h.clearCand

theorem blockLines_noUninit (h : EncInv recCap e) : (blockLines recCap e).NoUninit := by
  have hrehash : (rehashLines e).NoUninit := by
    unfold rehashLines
    split
    · trivial
    · exact hinitLines_noUninit h
  have hsteps := hrehash.andThen (rehashLines_encInv h) fun e h =>
    .times (fun _ h => stepLines_noUninit h) (fun _ h => stepLines_encInv h) e.drvTest.toNat e h
  have hinv := (rehashLines_encInv h).andThen fun e h =>
    .times (fun _ h => stepLines_encInv h) e.drvTest.toNat e h
  exact hsteps.andThen hinv fun _ h => skipLines_noUninit h

theorem scanLoop_noUninit : ∀ (n : Nat) (e : Enc), EncInv recCap e → (scanLoop recCap n e).NoUninit
  | 0, _, _ => trivial
  | n + 1, e, h => by
    obtain ⟨-, hl⟩ | ⟨-, hl⟩ := scanLoop_succ recCap n e <;> rw [hl]
    · trivial
    · exact (blockLines_noUninit h).andThen (blockLines_encInv h) fun t ht => scanLoop_noUninit n t ht.1

theorem scanLines_noUninit (h : EncInv recCap e) : (scanLines recCap e).NoUninit :=
  .guard nofun fun _ => (scanLoop_noUninit _ _ (restart_encInv h)).andThen_done

theorem endcycLines_noUninit (recCap : Nat) (e : Enc) : (endcycLines recCap e).NoUninit := by
  refine .guard nofun fun _ => .guard nofun fun _ => ?_
  split <;> trivial

theorem finalLines_noUninit (recCap : Nat) (e : Enc) : (finalLines recCap e).NoUninit :=
  .guard nofun fun _ => .guard nofun fun _ => .guard nofun fun _ => trivial

theorem cfgLines_noUninit (caps : Caps) (e : Enc) : (cfgLines caps e).NoUninit := by
  unfold cfgLines
  iterate 9 refine .guard nofun fun _ => ?_
  trivial

theorem fillLines_noUninit (s : State) : (fillLines s).NoUninit := by
  unfold fillLines
  iterate 5 refine .guard nofun fun _ => ?_
  trivial

end EncInv

/-! ### The lines of the decoder -/

section DecLines

variable {s : State}

theorem doutPut_noUninit (bytes : List Byte) (s : State) : (doutPut bytes s).NoUninit := by
  obtain ⟨-, hl⟩ | ⟨-, hl⟩ := doutPut_cases bytes s <;> rw [hl]
  · trivial
  · exact nofun

theorem flushLines_noUninit (h : DecInv s.dec) : (flushLines s).NoUninit := by
  obtain ⟨-, hl⟩ | ⟨-, ⟨a, hr, -⟩ | ⟨bs, -, hl⟩⟩ := flushLines_cases s
  · rw [hl]; trivial
  · obtain ⟨-, hlt, hnone, -⟩ := Memory.readRun_error _ _ _ _ hr
    have hlast := h.lastLe
    have := h.cur_isSome (q := a) (by omega)
    simp [hnone] at this
  · rw [hl]
    exact (doutPut_noUninit bs s).andThen_done

theorem makeRoom_noUninit (h : DecInv s.dec) : (makeRoom s).NoUninit := by
  unfold makeRoom
  split
  · exact (flushLines_noUninit h).andThen_done
  · trivial

theorem dlitLoop_noUninit : ∀ (fuel n : Nat) (s : State), DecInv s.dec → (dlitLoop fuel n s).NoUninit
  | 0, _, _, _ => trivial
  | fuel + 1, n, s, h => by
    rw [dlitLoop_succ]
    split
    · trivial
    · refine (makeRoom_noUninit h).andThen (makeRoom_decInv h) fun r hr => dlitLoop_noUninit fuel _ _ ?_
      exact putBytes_decInv hr ((length_dinTake _ _).trans_le (Nat.min_le_right _ _))

theorem dlitLines_noUninit (h : DecInv s.dec) : (dlitLines s).NoUninit :=
  .guard nofun fun _ => dlitLoop_noUninit _ _ s h

/-- Where the offset is legal, the source of every turn lies in the bytes written. -/
theorem dmatchLoop_noUninit (offset : Nat) : ∀ (fuel len : Nat) (s : State), DecInv s.dec → LegalOffset offset s.dec →
    (dmatchLoop offset fuel len s).NoUninit
  | 0, _, _, _, _ => trivial
  | fuel + 1, len, s, h, ho => by
    by_cases h0 : len = 0
    · subst h0
      trivial
    have hroom := makeRoom_extends h
    cases hr : makeRoom s with
    | raised r x n =>
      have hno := makeRoom_noUninit h
      rw [hr] at hno
      rw [dmatchLoop, if_neg h0, hr]
      exact hno
    | done r =>
      obtain ⟨hext, hpos⟩ := hroom.of_eq_done hr
      obtain ⟨bs, hbs, -, -, hle, hcopy, -⟩ := subCopy_turn hext.inv (ho.of_extends hext) hpos h0
      have hput := extends_putBytes bs r.dec hext.inv hle
      rw [dmatchLoop_succ h0 hr hbs hcopy]
      exact dmatchLoop_noUninit offset fuel _ _ hput.inv ((ho.of_extends hext).of_extends hput)

theorem dmatchLines_noUninit (h : DecInv s.dec) : (dmatchLines s).NoUninit :=
  .guard nofun fun h0 => .guard nofun fun hB => .guard nofun fun hf =>
    dmatchLoop_noUninit _ _ _ s h ⟨Nat.pos_of_ne_zero h0, Nat.lt_of_not_le hB, Nat.le_of_not_lt hf⟩

theorem dinitLines_noUninit (caps : Caps) (B s0 : Word) (d : Dec) : (dinitLines caps B s0 d).NoUninit := by
  unfold dinitLines
  iterate 6 refine .guard nofun fun _ => ?_
  trivial

end DecLines

/-! ### Commands -/

/-- The error register of a context: EERR or DERR. -/
def errorCode (c : Ctx) (s : State) : Word :=
  match c with
  | .enc => s.enc.eerr
  | .dec => s.dec.derr

theorem errorCode_raise {c : Ctx} {s : State} (h : faulted c s = false) (x : Exn) (n : Nat) :
    errorCode c (raise c x n s) = x.code := by
  unfold raise
  rw [if_neg (by simp [h])]
  cases c <;> rfl

theorem Exn.eq_uninit_of_code {x : Exn} (h : x.code = Exn.uninit.code) : x = .uninit := by
  cases x with
  | uninit => rfl
  | _ => exact absurd h (by decide)

section Commands

variable {op : Byte} {body : State → Run State} {s t : State}

/-- The fault a command takes is the one its lines raised (R341): these leave the fault flag to it. -/
theorem unlessFaulted_errorCode_ne {c : Ctx} (hkeep : faulted c (body s).final = false) (hno : (body s).NoUninit)
    (h : unlessFaulted c body s = .next t) (hs : faulted c s = false) (ht : faulted c t = true) :
    errorCode c t ≠ Exn.uninit.code := by
  unfold unlessFaulted at h
  rw [if_neg (by simp [hs])] at h
  cases h
  obtain ⟨u, hr, hf⟩ | ⟨u, x, n, hr, hf⟩ := finish_cases c (body s)
  · rw [hr] at hkeep
    rw [hf] at ht
    exact absurd (hkeep.symm.trans ht) (by simp)
  · rw [hr] at hkeep hno
    rw [hf, errorCode_raise (s := u) hkeep]
    exact fun hx => hno (Exn.eq_uninit_of_code hx)

theorem efault_of_unwritten (hop : op ∉ [0x01]) (h : t.unwritten op = s.unwritten op) :
    t.enc.flags.efault = s.enc.flags.efault :=
  eq_of_unlessWriter hop (congrArg (fun s : State => s.enc.flags.efault) h)

theorem dfault_of_unwritten (hop : op ∉ [0x01]) (h : t.unwritten op = s.unwritten op) :
    t.dec.flags.dfault = s.dec.flags.dfault :=
  eq_of_unlessWriter hop (congrArg (fun s : State => s.dec.flags.dfault) h)

theorem encCommand_eerr_ne (hop : op ∉ [0x01]) (hunw : (body s).final.unwritten op = s.unwritten op)
    (hno : EncInv s.caps.recCap s.enc → (body s).NoUninit) (hok : EncOK s) (h : encCommand op body s = .next t)
    (hs : s.enc.flags.efault = false) (ht : t.enc.flags.efault = true) : t.enc.eerr ≠ Exn.uninit.code := by
  have hkeep := efault_of_unwritten hop hunw
  refine unlessFaulted_errorCode_ne (c := .enc) ?_ ?_ h hs ht
  · split
    · exact hkeep.trans hs
    · exact hs
  · split
    next hc => exact hno (hok ⟨hs, hc⟩)
    next => exact nofun

theorem onEnc_eerr_ne {f : Enc → Run Enc} (hop : op ∉ [0x01]) (hunw : (f s.enc).final.unwritten op = s.enc.unwritten op)
    (hno : EncInv s.caps.recCap s.enc → (f s.enc).NoUninit) (hok : EncOK s) (h : encCommand op (onEnc f) s = .next t)
    (hs : s.enc.flags.efault = false) (ht : t.enc.flags.efault = true) : t.enc.eerr ≠ Exn.uninit.code :=
  encCommand_eerr_ne hop (onEnc_unwritten hunw) (fun hi => onEnc_noUninit (hno hi)) hok h hs ht

theorem decCommand_derr_ne (hop : op ∉ [0x01]) (hunw : (body s).final.unwritten op = s.unwritten op)
    (hno : DecInv s.dec → (body s).NoUninit) (hok : DecOK s) (h : decCommand op body s = .next t)
    (hs : s.dec.flags.dfault = false) (ht : t.dec.flags.dfault = true) : t.dec.derr ≠ Exn.uninit.code := by
  have hkeep := dfault_of_unwritten hop hunw
  refine unlessFaulted_errorCode_ne (c := .dec) ?_ ?_ h hs ht
  · split
    · exact hkeep.trans hs
    · exact hs
  · split
    next hd => exact hno (hok ⟨hs, hd⟩)
    next => exact nofun

end Commands

section Exec

variable {i : Instr} {s t : State}

/-- A fault a command of the encoder takes is not `Uninit`, unless it is RDLIT. -/
theorem exec_eerr_ne (hok : EncOK s) (h : exec i s = .next t) (ho : owner i = .encoder) (hi : i ≠ .rdlit)
    (hs : s.enc.flags.efault = false) (ht : t.enc.flags.efault = true) : t.enc.eerr ≠ Exn.uninit.code := by
  cases i with
  | nop | dinit | dlit | dmatch | dflush => exact absurd ho (by decide)
  | reset ctx => exact absurd ho (by simp [owner, opcode, contextOf])
  | rdlit => exact absurd rfl hi
  | cfg =>
    have hunw := onEnc_unwritten (cfgLines_unwritten s.caps s.enc hs)
    have hkeep := efault_of_unwritten (by decide) hunw
    exact unlessFaulted_errorCode_ne (c := .enc) (hkeep.trans hs) (onEnc_noUninit (cfgLines_noUninit _ _)) h hs ht
  | hclr => exact onEnc_eerr_ne (by decide) (hclrLines_unwritten _) (fun _ => trivial) hok h hs ht
  | hupd out inn =>
    exact onEnc_eerr_ne (op := 0x12) (by decide) (hupdLines_unwritten out inn _) (fun _ => trivial) hok h hs ht
  | hinit => exact onEnc_eerr_ne (by decide) (hinitLines_unwritten (by decide) _) hinitLines_noUninit hok h hs ht
  | hroll => exact onEnc_eerr_ne (by decide) (hrollLines_unwritten (by decide) _) hrollLines_noUninit hok h hs ht
  | htclr => exact onEnc_eerr_ne (by decide) (htclrLines_unwritten _) (fun _ => trivial) hok h hs ht
  | insert =>
    exact onEnc_eerr_ne (by decide) (insertLines_unwritten (by decide) _) (fun _ => insertLines_noUninit _) hok h hs ht
  | probe =>
    exact onEnc_eerr_ne (by decide) (probeLines_unwritten (by decide) _) (fun _ => probeLines_noUninit _) hok h hs ht
  | fill => exact encCommand_eerr_ne (by decide) (fillLines_unwritten s) (fun _ => fillLines_noUninit s) hok h hs ht
  | seek =>
    exact onEnc_eerr_ne (by decide) (seekLines_unwritten s.arg0 _) (fun _ => seekLines_noUninit _ _) hok h hs ht
  | bounds =>
    exact onEnc_eerr_ne (by decide) (boundsLines_unwritten (by decide) _) (fun _ => boundsLines_noUninit _) hok h hs ht
  | extb => exact onEnc_eerr_ne (by decide) (extbLines_unwritten (by decide) _) extbLines_noUninit hok h hs ht
  | extf => exact onEnc_eerr_ne (by decide) (extfLines_unwritten (by decide) _) extfLines_noUninit hok h hs ht
  | commit =>
    exact onEnc_eerr_ne (by decide) (commitLines_unwritten (by decide) _ _) (fun _ => commitLines_noUninit _ _) hok h
      hs ht
  | step => exact onEnc_eerr_ne (by decide) (stepLines_unwritten (by decide) _ _ rfl) stepLines_noUninit hok h hs ht
  | skip => exact onEnc_eerr_ne (by decide) (skipLines_unwritten (by decide) _ rfl) skipLines_noUninit hok h hs ht
  | scan => exact onEnc_eerr_ne (by decide) (scanLines_unwritten _ _) scanLines_noUninit hok h hs ht
  | endcyc =>
    exact onEnc_eerr_ne (by decide) (endcycLines_unwritten _ _) (fun _ => endcycLines_noUninit _ _) hok h hs ht
  | final => exact onEnc_eerr_ne (by decide) (finalLines_unwritten _ _) (fun _ => finalLines_noUninit _ _) hok h hs ht

/-- A fault a command of the decoder takes is not `Uninit`. -/
theorem exec_derr_ne (hok : DecOK s) (h : exec i s = .next t) (ho : owner i = .decoder)
    (hs : s.dec.flags.dfault = false) (ht : t.dec.flags.dfault = true) : t.dec.derr ≠ Exn.uninit.code := by
  cases i with
  | dinit =>
    have hunw := onDec_unwritten (dinitLines_unwritten s.caps s.arg0 s.arg1 s.dec hs)
    have hkeep := dfault_of_unwritten (by decide) hunw
    exact unlessFaulted_errorCode_ne (c := .dec) (hkeep.trans hs) (onDec_noUninit (dinitLines_noUninit _ _ _ _)) h hs ht
  | dlit => exact decCommand_derr_ne (by decide) (dlitLines_unwritten s) dlitLines_noUninit hok h hs ht
  | dmatch => exact decCommand_derr_ne (by decide) (dmatchLines_unwritten s) dmatchLines_noUninit hok h hs ht
  | dflush => exact decCommand_derr_ne (by decide) (flushLines_unwritten (by decide) s) flushLines_noUninit hok h hs ht
  | reset | hupd => exact absurd ho (by simp [owner, opcode, contextOf])
  | _ => exact absurd ho (by decide)

/-- Only a command of the encoder takes a fault there. -/
theorem owner_of_efault (h : exec i s = .next t) (hs : s.enc.flags.efault = false) (ht : t.enc.flags.efault = true) :
    owner i = .encoder := by
  by_contra ho
  by_cases hr : ∃ c, i = .reset c
  · obtain ⟨c, rfl⟩ := hr
    cases h
    rw [resetContexts_enc] at ht
    split at ht
    · cases ht
    · exact absurd (hs.symm.trans ht) (by decide)
  · rw [exec_enc_eq h ho (not_exists.1 hr), hs] at ht
    cases ht

/-- Only a command of the decoder takes a fault there. -/
theorem owner_of_dfault (h : exec i s = .next t) (hs : s.dec.flags.dfault = false) (ht : t.dec.flags.dfault = true) :
    owner i = .decoder := by
  by_contra ho
  by_cases hr : ∃ c, i = .reset c
  · obtain ⟨c, rfl⟩ := hr
    cases h
    rw [resetContexts_dec] at ht
    split at ht
    · cases ht
    · exact absurd (hs.symm.trans ht) (by decide)
  · rw [exec_dec_eq h ho (not_exists.1 hr), hs] at ht
    cases ht

end Exec

/-- Settles O55: every byte the lines of a command read is below the limit of the bytes that hold a value, RDLIT's run
excepted. -/
theorem onlyRdlitCanRaiseUninit : Obligations.OnlyRdlitCanRaiseUninit := by
  intro i s t he hd h
  refine ⟨fun hs ht hcode => ?_, fun hs ht => exec_derr_ne hd h (owner_of_dfault h hs ht) hs ht⟩
  by_contra hi
  exact exec_eerr_ne he h (owner_of_efault h hs ht) hi hs ht hcode

end Sys2Proof.Machine
end

section
/-! PROOFS. The statements of `30_encoding.md`: what each format of R141 accepts and which words the commands have, both
as sums of the fields; that decoding and encoding are inverse; and where a reserved word raises its fault (R147). -/

namespace Sys2Proof.Machine

open Sys2Proof Sys2Proof.Laws

/-! ### The formats of a command word (R141) -/

/-- A field of a word is a quotient and a remainder of its number. -/
theorem toNat_field (w : Word) (start len : Nat) : (w.extractLsb' start len).toNat = w.toNat / 2 ^ start % 2 ^ len := by
  rw [BitVec.extractLsb'_toNat, Nat.shiftRight_eq_div_pow]

/-- The topmost field of a word is 0 where the word is below that field's lowest bit. -/
theorem topField_eq_zero_iff {w : Word} {start len : Nat} (h : start + len = 32) :
    w.extractLsb' start len = 0#len ↔ w.toNat < 2 ^ start := by
  have hlt : w.toNat / 2 ^ start < 2 ^ len := Nat.div_lt_of_lt_mul (by rw [← pow_add, h]; exact w.isLt)
  rw [← BitVec.toNat_inj, toNat_field, BitVec.toNat_zero, Nat.mod_eq_of_lt hlt, Nat.div_eq_zero_iff_lt (by positivity)]

theorem toNat_opField (w : Word) : (opField w).toNat = w.toNat % 2 ^ 8 := by
  rw [opField, toNat_field, pow_zero, Nat.div_one]

/-- A format accepts a word where its zero field is 0. -/
theorem ite_ok_eq_ok_iff {c : Prop} [Decidable c] {i j : Instr} {x : Reserved} :
    (if c then .ok j else .error x : Except Reserved Instr) = .ok i ↔ c ∧ j = i := by
  split
  next hc => simp [hc]
  next hc => simp [hc]

/-- A word of format N has no field but the opcode. -/
theorem formatN_eq_ok_iff {w : Word} {i j : Instr} :
    formatN w j = .ok i ↔ w.toNat = (opField w).toNat ∧ j = i := by
  rw [formatN, ite_ok_eq_ok_iff, topField_eq_zero_iff (by decide), toNat_opField, eq_comm (a := w.toNat),
    Nat.mod_eq_iff_lt (by decide)]

/-- A word of format I has `ctx` above the opcode. -/
theorem formatI_eq_ok_iff {w : Word} {i : Instr} {f : Nat → Instr} :
    formatI w f = .ok i ↔ ∃ ctx < 4, w.toNat = 2 ^ 8 * ctx + (opField w).toNat ∧ f ctx = i := by
  rw [formatI, ite_ok_eq_ok_iff, topField_eq_zero_iff (by decide), toNat_field, toNat_opField]
  constructor
  · rintro ⟨hw, rfl⟩
    exact ⟨w.toNat / 2 ^ 8 % 2 ^ 2, by omega, by omega, rfl⟩
  · rintro ⟨ctx, hctx, hw, rfl⟩
    exact ⟨by omega, congrArg f (by omega)⟩

/-- A word of format BB has `in` above `out` above the opcode. -/
theorem formatBB_eq_ok_iff {w : Word} {i : Instr} {f : Nat → Nat → Instr} :
    formatBB w f = .ok i ↔
      ∃ out < 256, ∃ inn < 256, w.toNat = 2 ^ 16 * inn + (2 ^ 8 * out + (opField w).toNat) ∧ f out inn = i := by
  rw [formatBB, ite_ok_eq_ok_iff, topField_eq_zero_iff (by decide), toNat_field, toNat_field, toNat_opField]
  constructor
  · rintro ⟨hw, rfl⟩
    exact ⟨w.toNat / 2 ^ 8 % 2 ^ 8, by omega, w.toNat / 2 ^ 16 % 2 ^ 8, by omega, by omega, rfl⟩
  · rintro ⟨out, hout, inn, hinn, hw, rfl⟩
    exact ⟨by omega, congrArg₂ f (by omega) (by omega)⟩

/-! ### The words of the commands -/

theorem wellFormed_reset {ctx : Nat} : (Instr.reset ctx).WellFormed ↔ ctx < 4 := by
  simp [Instr.WellFormed, Instr.wellFormed]

theorem wellFormed_hupd {out inn : Nat} : (Instr.hupd out inn).WellFormed ↔ out < 256 ∧ inn < 256 := by
  simp [Instr.WellFormed, Instr.wellFormed]

/-- Fields that do not overlap add up: `or` of the shifted fields is their sum. -/
theorem toNat_orFields {inn out : Nat} (op : Byte) (hinn : inn < 256) (hout : out < 256) :
    ((wordOf inn <<< 16) ||| (wordOf out <<< 8) ||| op.setWidth 32).toNat = 2 ^ 16 * inn + (2 ^ 8 * out + op.toNat) := by
  have hop := op.isLt
  have hlow : 2 ^ 8 * out + op.toNat < 2 ^ 16 := by omega
  rw [Nat.two_pow_add_eq_or_of_lt hlow, Nat.two_pow_add_eq_or_of_lt hop]
  simp (disch := omega) only [BitVec.toNat_or, BitVec.toNat_shiftLeft, BitVec.toNat_ofNat, BitVec.toNat_setWidth,
    Nat.shiftLeft_eq, Nat.mod_eq_of_lt, Nat.mul_comm, Nat.lor_assoc]

theorem toNat_encode_reset {ctx : Nat} (h : ctx < 4) : (encode (.reset ctx)).toNat = 2 ^ 8 * ctx + 0x01 := by
  simpa [encode] using toNat_orFields 0x01 (inn := 0) (by decide) (show ctx < 256 by omega)

theorem toNat_encode_hupd {out inn : Nat} (hout : out < 256) (hinn : inn < 256) :
    (encode (.hupd out inn)).toNat = 2 ^ 16 * inn + (2 ^ 8 * out + 0x12) :=
  toNat_orFields 0x12 hinn hout

/-! ### Decoding inverts encoding -/

theorem decode_of_opField_reset {w : Word} (h : opField w = opcode (.reset 0)) : decode w = formatI w .reset := by
  rw [decode, h]
  rfl

theorem decode_of_opField_hupd {w : Word} (h : opField w = opcode (.hupd 0 0)) : decode w = formatBB w .hupd := by
  rw [decode, h]
  rfl

/-- A command without immediates has one word; RESET and HUPD have one for each value of their fields. -/
theorem decode_encode {i : Instr} (h : i.WellFormed) : decode (encode i) = .ok i := by
  cases i with
  | reset ctx =>
    have hctx := wellFormed_reset.1 h
    have hop := EncodedOpcode.reset ctx h
    rw [decode_of_opField_reset hop, formatI_eq_ok_iff, hop]
    exact ⟨ctx, hctx, toNat_encode_reset hctx, rfl⟩
  | hupd out inn =>
    obtain ⟨hout, hinn⟩ := wellFormed_hupd.1 h
    have hop := EncodedOpcode.hupd out inn h
    rw [decode_of_opField_hupd hop, formatBB_eq_ok_iff, hop]
    exact ⟨out, hout, inn, hinn, toNat_encode_hupd hout hinn, rfl⟩
  | _ => rfl

/-- Settles O56: the word is the sum of the fields, and the format of its opcode reads each of them back. -/
theorem decodeInvertsEncode : Obligations.DecodeInvertsEncode := fun _ h => decode_encode h

/-! ### Encoding inverts decoding -/

/-- What the row of a command `j` without immediates accepts is the one word of `j`. -/
theorem encode_of_formatN {w : Word} {i j : Instr} (hwf : j.WellFormed) (hj : encode j = (opcode j).setWidth 32)
    (hop : (opField w).toNat = (opcode j).toNat) (h : formatN w j = .ok i) : i.WellFormed ∧ encode i = w := by
  obtain ⟨hw, rfl⟩ := formatN_eq_ok_iff.1 h
  refine ⟨hwf, BitVec.eq_of_toNat_eq ?_⟩
  rw [hj, BitVec.toNat_setWidth_of_le (by decide), hw, hop]

theorem encode_of_formatI {w : Word} {i : Instr} (hop : (opField w).toNat = 0x01) (h : formatI w .reset = .ok i) :
    i.WellFormed ∧ encode i = w := by
  obtain ⟨ctx, hctx, hw, rfl⟩ := formatI_eq_ok_iff.1 h
  exact ⟨wellFormed_reset.2 hctx, BitVec.eq_of_toNat_eq (by rw [toNat_encode_reset hctx, hw, hop])⟩

theorem encode_of_formatBB {w : Word} {i : Instr} (hop : (opField w).toNat = 0x12) (h : formatBB w .hupd = .ok i) :
    i.WellFormed ∧ encode i = w := by
  obtain ⟨out, hout, inn, hinn, hw, rfl⟩ := formatBB_eq_ok_iff.1 h
  exact ⟨wellFormed_hupd.2 ⟨hout, hinn⟩,
    BitVec.eq_of_toNat_eq (by rw [toNat_encode_hupd hout hinn, hw, hop])⟩

/-- Settles O57: the rows of the opcode map, each by what its format accepts. -/
theorem encodeInvertsDecode : Obligations.EncodeInvertsDecode := by
  intro w i h
  unfold decode at h
  split at h
  case h_2 hop => exact encode_of_formatI hop h
  case h_5 hop => exact encode_of_formatBB hop h
  case h_27 => cases h
  all_goals exact encode_of_formatN rfl rfl ‹_› h

/-! ### Reserved words -/

/-- The bits 7:4 of the word name the context (R146). -/
theorem contextOf_opField (w : Word) : contextOf (opField w) =
    if 1 ≤ w.toNat / 16 % 16 ∧ w.toNat / 16 % 16 ≤ 5 then .encoder
    else if w.toNat / 16 % 16 = 6 then .decoder
    else .neither := by
  have hnibble : (opField w).toNat / 16 = w.toNat / 16 % 16 := by
    rw [toNat_opField]
    omega
  rw [contextOf, hnibble]

/-- A write to CMD is a command (R295). -/
theorem step_wr_cmd {s : State} {w : Word} {rest : List HostOp} (h : s.bus = .wr 0x3F w :: rest) :
    step s = runCommand w { s with bus := rest } := by
  rw [step, h]
  rfl

theorem runCommand_of_reserved {w : Word} {x : Reserved} (h : decode w = .error x) (s : State) :
    runCommand w s = .next (illegalCommand w s) := by
  rw [runCommand, h]

/-- Settles O7: the step is `illegalCommand`, and the high nibble of the opcode is bits 7:4 of the word. -/
theorem reservedWordRaisesIllegalCmd : Obligations.ReservedWordRaisesIllegalCmd := by
  intro s w x rest hbus hres s' hi
  rw [step_wr_cmd hbus, runCommand_of_reserved hres, illegalCommand, contextOf_opField]
  refine ⟨fun h1 h5 => ?_, fun h6 => ?_, fun h => ?_⟩
  · rw [if_pos ⟨h1, h5⟩]
  · rw [if_neg (by omega), if_pos h6]
  · rw [if_neg (by omega), if_neg (by omega)]

/-- Settles O58: each word is evaluated. -/
theorem sampleWordsDecode : Obligations.SampleWordsDecode :=
  ⟨rfl, rfl, rfl, rfl, rfl, rfl, rfl, rfl, rfl, rfl, rfl, rfl, rfl, rfl⟩

end Sys2Proof.Machine
end

section
/-! PROOFS. The statements of `40_config_rolling_hash.md`: what an encoder command does, read off the end of its lines,
and the ends of CFG, HCLR, HUPD, HINIT and HROLL, fault by fault in the order of their tests. -/

namespace Sys2Proof.Machine

open Sys2Proof

/-! ### A command by the end of its lines -/

theorem after_of_exec {i : Instr} {s t : State} (h : exec i s = .next t) : after i s = t := by
  rw [exec_eq_next] at h
  exact Host.Outcome.next.inj h

section Commands

variable {i : Instr} {op : Byte} {f : Enc → Run Enc} {s : State}

theorem onEnc_of_done {e : Enc} (hl : f s.enc = .done e) : onEnc f s = .done { s with enc := e } := by
  rw [onEnc, hl]

/-- A fault raised before the lines changed anything. -/
theorem onEnc_of_raised {x : Exn} {n : Nat} (hl : f s.enc = .raised s.enc x n) : onEnc f s = .raised s x n := by
  rw [onEnc, hl]

theorem exec_of_enc_done {e : Enc} (hi : exec i = encCommand op (onEnc f)) (hr : EncReady s)
    (hl : f s.enc = .done e) : exec i s = .next { s with enc := e } := by
  rw [hi, encCommand_ready _ _ _ hr.1 hr.2, onEnc_of_done hl]
  rfl

theorem exec_of_enc_raised {x : Exn} {n : Nat} (hi : exec i = encCommand op (onEnc f)) (hr : EncReady s)
    (hl : f s.enc = .raised s.enc x n) : exec i s = .next (raise .enc x n s) := by
  rw [hi, encCommand_ready _ _ _ hr.1 hr.2, onEnc_of_raised hl]
  rfl

end Commands

/-! ### The preambles (R170, R265) -/

theorem encCommand_of_unconfigured {s : State} (hf : s.enc.flags.efault = false) (hc : s.enc.flags.cfgok = false)
    (op : Byte) (body : State → Run State) : encCommand op body s = .next (raise .enc .state op.toNat s) := by
  simp [encCommand, unlessFaulted, faulted, finish, hf, hc]

theorem decCommand_of_not_set_up {s : State} (hf : s.dec.flags.dfault = false) (hd : s.dec.flags.dok = false)
    (op : Byte) (body : State → Run State) : decCommand op body s = .next (raise .dec .state op.toNat s) := by
  simp [decCommand, unlessFaulted, faulted, finish, hf, hd]

/-- Every encoder command but CFG makes the second test of the preamble (R170). -/
theorem exec_of_unconfigured {i : Instr} {s : State} (h : owner i = .encoder) (hf : s.enc.flags.efault = false)
    (hc : s.enc.flags.cfgok = false) (hi : i ≠ .cfg) :
    exec i s = .next (raise .enc .state (opcode i).toNat s) := by
  cases i with
  | nop | dinit | dlit | dmatch | dflush => exact absurd h (by decide)
  | reset ctx => exact absurd h (by simp [owner, opcode, contextOf])
  | cfg => exact absurd rfl hi
  | _ => exact encCommand_of_unconfigured hf hc _ _

/-- Every decoder command but DINIT makes the second test of the preamble (R265). -/
theorem exec_of_not_set_up {i : Instr} {s : State} (h : owner i = .decoder) (hf : s.dec.flags.dfault = false)
    (hd : s.dec.flags.dok = false) (hi : i ≠ .dinit) :
    exec i s = .next (raise .dec .state (opcode i).toNat s) := by
  cases i with
  | dinit => exact absurd rfl hi
  | dlit | dmatch | dflush => exact decCommand_of_not_set_up hf hd _ _
  | reset | hupd => exact absurd h (by simp [owner, opcode, contextOf])
  | _ => exact absurd h (by decide)

/-- Settles O11: each command of a context stands in the frame that makes the two tests. -/
theorem preamblesComeFirst : Obligations.PreamblesComeFirst := fun _ _ =>
  ⟨fun h => ⟨exec_of_efault h, exec_of_unconfigured h⟩, fun h => ⟨exec_of_dfault h, exec_of_not_set_up h⟩⟩

/-! ### CFG (R171) -/

theorem exec_cfg_of_done {s : State} {e : Enc} (hf : s.enc.flags.efault = false)
    (hl : cfgLines s.caps s.enc = .done e) : exec .cfg s = .next { s with enc := e } := by
  show unlessFaulted .enc (fun s => onEnc (cfgLines s.caps) s) s = _
  rw [unlessFaulted, if_neg (by simp [faulted, hf]), onEnc_of_done hl]
  rfl

theorem exec_cfg_of_raised {s : State} {x : Exn} {n : Nat} (hf : s.enc.flags.efault = false)
    (hl : cfgLines s.caps s.enc = .raised s.enc x n) : exec .cfg s = .next (raise .enc x n s) := by
  show unlessFaulted .enc (fun s => onEnc (cfgLines s.caps) s) s = _
  rw [unlessFaulted, if_neg (by simp [faulted, hf]), onEnc_of_raised hl]
  rfl

/-- The window length is a power of two, so squaring gives its power of `PRIME`. -/
theorem primePow_windowLen (S : Nat) : primePow (windowLen S) = wordOf (prime ^ windowLen S) := by
  obtain ⟨n, hn⟩ := exists_windowLen_eq_two_pow S
  rw [hn, primePow_two_pow]

/-- The state of a CFG whose tests all pass. -/
theorem exec_cfg_configured {s : State} (hf : s.enc.flags.efault = false)
    (hl : cfgLines s.caps s.enc = .done (configured s.enc)) :
    ∃ (ht : Table) (buf : Memory), (∀ n, ht.read n = 0) ∧ (∀ p, buf.read p = none) ∧
      exec .cfg s = .next { s with enc := { configured s.enc with
        ht := ht, buf := buf, drvPL := wordOf (prime ^ windowLen s.enc.cfgS.toNat) } } := by
  refine ⟨[], [], Table.read_nil, Memory.read_nil, ?_⟩
  rw [exec_cfg_of_done hf hl, ← primePow_windowLen]
  rfl

/-- Settles O19: `passed` says what is left of the lines once the tests so far have passed; the next test raises its
fault, or passes too. -/
theorem cfgValidatesDerivesAndClears : Obligations.CfgValidatesDerivesAndClears := by
  intro s hf B S L k hsize stops
  have stop {x : Exn} {n : Nat} (hl : cfgLines s.caps s.enc = .raised s.enc x n) : stops x n :=
    exec_cfg_of_raised hf hl
  refine ⟨fun hok => stop (if_pos hok), fun hok => ?_⟩
  have passed : cfgLines s.caps s.enc = _ := if_neg (ne_true_of_eq_false hok)
  refine ⟨fun hS => stop (passed.trans (if_pos hS)),
    fun hS hM => stop (passed.trans ((if_neg hS).trans (if_pos hM))), fun hS hM => ?_⟩
  replace passed := passed.trans ((if_neg hS).trans (if_neg hM.not_gt))
  refine ⟨fun hA => stop (passed.trans (if_pos hA)),
    fun hA hH => stop (passed.trans ((if_neg hA).trans (if_pos hH))), fun hA hH => ?_⟩
  replace passed := passed.trans ((if_neg hA).trans (if_neg hH.not_gt))
  refine ⟨fun hB => stop (passed.trans (if_pos hB)),
    fun hB hL => stop (passed.trans ((if_neg hB.not_gt).trans (if_pos hL))), fun hB hL => ?_⟩
  replace passed := passed.trans ((if_neg hB.not_gt).trans (if_neg hL.not_gt))
  exact ⟨fun hbuf => stop (passed.trans (if_pos hbuf)),
    fun hbuf hht => stop (passed.trans ((if_neg hbuf.not_gt).trans (if_pos hht))),
    fun hbuf hht => exec_cfg_configured hf (passed.trans ((if_neg hbuf.not_gt).trans (if_neg hht.not_gt)))⟩

/-! ### HCLR, HUPD (R173, R174) -/

theorem zext_ofNat {n : Nat} (h : n < 256) : zext (BitVec.ofNat 8 n) = wordOf n :=
  BitVec.setWidth_ofNat_of_le_of_lt (by decide) h

/-- Settles O21: the lines of both raise no fault; the immediates are below 256, so their words are their values. -/
theorem hclrAndHupdSetTheHash : Obligations.HclrAndHupdSetTheHash := by
  intro s out inn hr hout hinn dropped
  refine ⟨exec_of_enc_done rfl hr rfl, ?_⟩
  rw [← zext_ofNat hout, ← zext_ofNat hinn]
  exact exec_of_enc_done rfl hr rfl

/-! ### HINIT (R175) -/

/-- A run stops at the first of its bytes that holds no value. -/
theorem Memory.readRun_of_first_none {m : Memory} {p n t : Nat} (ht : t < n)
    (hheld : ∀ u, u < t → (m.read (p + u)).isSome) (hnone : m.read (p + t) = none) :
    m.readRun p n = .error (p + t) := by
  cases hr : m.readRun p n with
  | ok bs =>
    obtain ⟨hlen, hbytes⟩ := Memory.readRun_ok n m p bs hr
    have := hbytes t ht
    rw [hnone, List.getElem?_eq_getElem (by omega)] at this
    cases this
  | error a =>
    obtain ⟨hpa, -, hna, hbelow⟩ := Memory.readRun_error n m p a hr
    congr 1
    obtain hlt | heq | hgt := Nat.lt_trichotomy a (p + t)
    · have := hheld (a - p) (by omega)
      rw [Nat.add_sub_cancel' hpa, hna] at this
      cases this
    · exact heq
    · have := hbelow (p + t) (by omega) hgt
      rw [hnone] at this
      cases this

theorem hinitLines_of_error {e : Enc} {a : Nat} (hle : e.i.toNat + e.drvL.toNat ≤ e.filled)
    (hr : e.buf.readRun e.i.toNat e.drvL.toNat = .error a) : hinitLines e = .raised e .uninit a := by
  rw [hinitLines, if_neg (by omega), hr]

theorem hinitLines_of_ok {e : Enc} {bs : List Byte} (hle : e.i.toNat + e.drvL.toNat ≤ e.filled)
    (hr : e.buf.readRun e.i.toNat e.drvL.toNat = .ok bs) :
    hinitLines e = .done { e with hash := polyhash bs, flags := { e.flags.clearCand with hvalid := true } } := by
  rw [hinitLines, if_neg (by omega), hr, ← foldl_updateHash_zero e.drvPL]
  rfl

/-- Settles O22: the run of the window answers its bytes, or the first position with no value. -/
theorem hinitHashesTheWindow : Obligations.HinitHashesTheWindow := by
  intro s hr p L
  refine ⟨fun hlt => exec_of_enc_raised rfl hr (if_pos hlt), fun hle => ⟨fun bs hlen hat => ?_,
    fun t ht hheld hnone => ?_⟩⟩
  · have hrun : s.enc.buf.readRun p L = .ok bs := hlen ▸ Memory.readRun_of_bytes bs _ p hat
    exact exec_of_enc_done rfl hr (hinitLines_of_ok hle hrun)
  · exact exec_of_enc_raised rfl hr (hinitLines_of_error hle (Memory.readRun_of_first_none ht hheld hnone))

/-! ### HROLL (R176) -/

theorem wordOf_toNat_add_one (w : Word) : wordOf (w.toNat + 1) = w + 1 := by
  rw [wordOf, BitVec.ofNat_add, BitVec.ofNat_toNat, BitVec.setWidth_eq]
  rfl

section Hroll

variable {e : Enc}

theorem hrollLines_of_invalid (hv : e.flags.hvalid = false) : hrollLines e = .raised e .state 0x14 := by
  simp [hrollLines, hv, opcode]

theorem hrollLines_of_window_end (hv : e.flags.hvalid = true) (hle : e.filled ≤ e.i.toNat + e.drvL.toNat) :
    hrollLines e = .raised e .range (e.i.toNat + e.drvL.toNat) := by
  simp [hrollLines, hv, hle]

theorem hrollLines_of_dropped_none (hv : e.flags.hvalid = true) (hlt : e.i.toNat + e.drvL.toNat < e.filled)
    (ho : e.buf.read e.i.toNat = none) : hrollLines e = .raised e .uninit e.i.toNat := by
  simp [hrollLines, hv, hlt.not_ge, ho]

theorem hrollLines_of_added_none {out : Byte} (hv : e.flags.hvalid = true)
    (hlt : e.i.toNat + e.drvL.toNat < e.filled) (ho : e.buf.read e.i.toNat = some out)
    (hi : e.buf.read (e.i.toNat + e.drvL.toNat) = none) :
    hrollLines e = .raised e .uninit (e.i.toNat + e.drvL.toNat) := by
  simp [hrollLines, hv, hlt.not_ge, ho, hi]

theorem hrollLines_of_bytes {out inn : Byte} (hv : e.flags.hvalid = true)
    (hlt : e.i.toNat + e.drvL.toNat < e.filled) (ho : e.buf.read e.i.toNat = some out)
    (hi : e.buf.read (e.i.toNat + e.drvL.toNat) = some inn) :
    hrollLines e = .done { e with
      hash := updateHash e.drvPL e.hash out inn, i := e.i + 1, flags := e.flags.clearCand } := by
  simp [hrollLines, hv, hlt.not_ge, ho, hi, wordOf_toNat_add_one]

end Hroll

/-- Settles O23: the lines end test by test, and the update they make slides the `polyhash` by one byte. -/
theorem hrollSlidesTheWindow : Obligations.HrollSlidesTheWindow := by
  intro s hr p L filled
  have stop {x : Exn} {n : Nat} (hl : hrollLines s.enc = .raised s.enc x n) :
      exec .hroll s = .next (raise .enc x n s) := exec_of_enc_raised rfl hr hl
  refine ⟨fun hv => stop (hrollLines_of_invalid hv), fun hv =>
    ⟨fun hle => stop (hrollLines_of_window_end hv hle), fun hlt =>
      ⟨fun ho => stop (hrollLines_of_dropped_none hv hlt ho), fun out ho =>
        ⟨fun hi => stop (hrollLines_of_added_none hv hlt ho hi), fun inn hi => ?_⟩⟩⟩⟩
  have hexec := exec_of_enc_done (i := .hroll) rfl hr (hrollLines_of_bytes hv hlt ho hi)
  refine ⟨hexec, fun bs hlen hhash hPL => ?_⟩
  rw [after_of_exec hexec]
  show updateHash s.enc.drvPL s.enc.hash out inn = _
  rw [hPL, hhash, ← hlen]
  exact updateHash_polyhash_cons out inn bs

end Sys2Proof.Machine
end

section
/-! PROOFS. The statements of `41_hash_table.md`: the ends of HTCLR, INSERT and PROBE, and the anchor an INSERT leaves
for the PROBE behind it. -/

namespace Sys2Proof.Machine

open Sys2Proof

/-! ### HTCLR (R191) -/

/-- Settles O24: the lines raise no fault and leave the table with no slot listed. -/
theorem htclrEmptiesEverySlot : Obligations.HtclrEmptiesEverySlot := fun _ hr =>
  ⟨[], exec_of_enc_done rfl hr rfl, Table.read_nil⟩

section TableLines

variable {e : Enc}

/-! ### INSERT (R193) -/

theorem insertLines_of_invalid (hv : e.flags.hvalid = false) : insertLines e = .raised e .state 0x21 := by
  simp [insertLines, hv, opcode]

theorem insertLines_of_misaligned (hv : e.flags.hvalid = true) (ha : e.i &&& e.drvKmask ≠ 0) :
    insertLines e = .raised e .align e.i.toNat := by
  rw [insertLines, if_neg (by simp [hv]), if_pos ha]

theorem insertLines_of_aligned (hv : e.flags.hvalid = true) (ha : e.i &&& e.drvKmask = 0) :
    insertLines e = .done { e with ht := e.ht.write (e.slot e.hash) (e.i ||| e.chksum e.hash) } := by
  rw [insertLines, if_neg (by simp [hv]), if_neg (not_not_intro ha)]

/-! ### PROBE (R195) -/

theorem probeLines_of_invalid (hv : e.flags.hvalid = false) : probeLines e = .raised e .state 0x22 := by
  simp [probeLines, hv, opcode]

theorem probeLines_of_hit (hv : e.flags.hvalid = true) (hp : e.probeHits = true) :
    probeLines e = .done { e with
      cand := e.ht.read (e.slot e.hash) &&& ~~~e.drvKmask, flags := { e.flags.clearCand with hit := true } } := by
  rw [probeLines, if_neg (by simp [hv]), if_pos hp]

theorem probeLines_of_miss (hv : e.flags.hvalid = true) (hp : ¬ e.probeHits = true) :
    probeLines e = .done e.clearCand := by
  rw [probeLines, if_neg (by simp [hv]), if_neg hp]

end TableLines

/-- Settles O25: the two tests fail in their order, or the slot of HASH is written. -/
theorem insertRecordsTheAnchor : Obligations.InsertRecordsTheAnchor := by
  intro s hr hwf h slot
  refine ⟨fun hv => exec_of_enc_raised rfl hr (insertLines_of_invalid hv),
    fun hv ha => exec_of_enc_raised rfl hr (insertLines_of_misaligned hv ha),
    fun hv ha => ⟨_, exec_of_enc_done rfl hr (insertLines_of_aligned hv ha), ?_, fun n hn => ?_⟩⟩
  · exact (Table.read_write _ _ _ _ hwf).trans (if_pos rfl)
  · exact (Table.read_write _ _ _ _ hwf).trans (if_neg hn)

/-- Settles O26: `probeHits` is the test of the slot's entry. -/
theorem probeAnswersTheSlot : Obligations.ProbeAnswersTheSlot := by
  intro s hr h v cleared
  refine ⟨fun hv => exec_of_enc_raised rfl hr (probeLines_of_invalid hv), fun hv =>
    ⟨fun hne hsum => ?_, fun hmiss => ?_⟩⟩
  · exact exec_of_enc_done rfl hr (probeLines_of_hit hv ((probeHits_iff _).2 ⟨hne, hsum⟩))
  · refine exec_of_enc_done rfl hr (probeLines_of_miss hv fun hp => ?_)
    obtain ⟨hne, hsum⟩ := (probeHits_iff _).1 hp
    exact hmiss.elim hne fun hdiff => hdiff hsum

/-! ### PROBE after INSERT (R158) -/

/-- An anchor's checksum bits are the checksum: the position has none there. -/
theorem anchor_chksum {i h k : Word} (hi : i &&& k = 0) : (i ||| h &&& k) &&& k = h &&& k := by
  rw [BitVec.and_or_distrib_right, hi, BitVec.and_assoc, BitVec.and_self]
  exact BitVec.zero_or

/-- Settles O27: INSERT leaves the anchor in the slot that PROBE reads; its bits are those of the position and of the
checksum, and it reads as the empty slot only where both are 0. -/
theorem probeFindsTheAnchorJustInserted : Obligations.ProbeFindsTheAnchorJustInserted := by
  intro s hr hwf hv ha t lost
  obtain ⟨ht, hinsert, hread, -⟩ := (insertRecordsTheAnchor s hr hwf).2.2 hv ha
  have hprobe := (probeAnswersTheSlot { s with enc := { s.enc with ht := ht } } hr).2 hv
  simp only [hread, anchor_chksum ha, anchor_bits ha] at hprobe
  obtain ⟨hfound, hmissed⟩ := hprobe
  have hempty : s.enc.i ||| (s.enc.hash >>> 28) &&& s.enc.drvKmask = 0 ↔ lost := BitVec.or_eq_zero_iff
  simp only [t, after_of_exec hinsert]
  constructor
  · intro hlost
    rw [after_of_exec (hfound (mt hempty.1 hlost) trivial)]
    exact ⟨rfl, rfl⟩
  · intro hlost
    rw [after_of_exec (hmissed (.inl (hempty.2 hlost)))]
    exact ⟨rfl, rfl⟩

end Sys2Proof.Machine
end

section
/-! PROOFS. The statements of `42_ring_bounds.md`: the ends of FILL, SEEK, BOUNDS and RDLIT, fault by fault in the order
of their tests, and the bytes that an accepted range lets EXTB and EXTF compare. -/

namespace Sys2Proof.Machine

open Sys2Proof

/-! ### A command by the end of its lines -/

section Commands

variable {i : Instr} {op : Byte} {body : State → Run State} {s t : State}

/-- As `exec_of_enc_done`, for lines that read the operands or touch the ports. -/
theorem exec_of_lines_done (hi : exec i s = encCommand op body s) (hr : EncReady s) (hl : body s = .done t) :
    exec i s = .next t := by
  rw [hi, encCommand_ready _ _ _ hr.1 hr.2, hl]
  rfl

theorem exec_of_lines_raised {x : Exn} {n : Nat} (hi : exec i s = encCommand op body s) (hr : EncReady s)
    (hl : body s = .raised t x n) : exec i s = .next (raise .enc x n t) := by
  rw [hi, encCommand_ready _ _ _ hr.1 hr.2, hl]
  rfl

end Commands

/-! ### FILL (R207, R208) -/

section FillLines

variable {s : State}

theorem fillLines_of_open_or_final (h : s.enc.flags.cycopen = true ∨ s.enc.flags.final = true) :
    fillLines s = .raised s .state 0x30 := by
  obtain h | h := h <;> simp [fillLines, h, opcode]

theorem fillLines_of_abort (hc : s.enc.flags.cycopen = false) (hf : s.enc.flags.final = false)
    (ha : s.arg0 = 0xFFFFFFFF) : fillLines s = .raised s .io s.arg1.toNat := by
  simp [fillLines, hc, hf, abortForm, ha]

/-- What is left of the lines of FILL once the first three tests have passed. -/
theorem fillLines_of_closed (hc : s.enc.flags.cycopen = false) (hf : s.enc.flags.final = false)
    (ha : s.arg0 ≠ 0xFFFFFFFF) : fillLines s =
      if s.arg0.toNat = 0 then .raised s .range 0
      else if s.enc.cfgB.toNat < s.enc.base.toNat + s.arg0.toNat then
        .raised s .range (s.enc.base.toNat + s.arg0.toNat)
      else .done { s with
        enc := fillWith (einTake s.arg0.toNat s.ports).1 s.enc, ports := (einTake s.arg0.toNat s.ports).2 } := by
  simp [fillLines, hc, hf, abortForm_eq_false ha]

end FillLines

/-- Where the host offers enough, FILL takes offered bytes only. -/
theorem einTake_offered {n : Nat} {p : Ports} (h : n ≤ p.ein.length) :
    einTake n p = (p.ein.take n, { p with ein := p.ein.drop n }) := by
  rw [einTake, takeBytes_offered _ _ _ _ h, Nat.sub_eq_zero_of_le h, Nat.add_zero]

/-- A run of bytes put at `p` is read back there in order, and every other position reads as before. -/
theorem Memory.read_writeRun_take (m : Memory) (p n : Nat) {bs : List Byte} (h : n ≤ bs.length) :
    (∀ t, t < n → (m.writeRun p (bs.take n)).read (p + t) = bs[t]?) ∧
      ∀ q, q < p ∨ p + n ≤ q → (m.writeRun p (bs.take n)).read q = m.read q := by
  have hlen : (bs.take n).length = n := List.length_take_of_le h
  refine ⟨fun t ht => ?_, fun q hq => ?_⟩
  · rw [Memory.read_writeRun, if_pos (by omega), Nat.add_sub_cancel_left, List.getElem?_take_of_lt ht]
  · rw [Memory.read_writeRun, if_neg (by omega)]

/-- Settles O28: the tests of R207 in their order; where they pass, the run written is the offered one. -/
theorem fillAppendsTheBytesOfOneRead : Obligations.FillAppendsTheBytesOfOneRead := by
  intro s hr n base stops
  have stop {x : Exn} {v : Nat} (hl : fillLines s = .raised s x v) : stops x v := exec_of_lines_raised rfl hr hl
  refine ⟨fun h => stop (fillLines_of_open_or_final h), fun hc hf =>
    ⟨fun ha => stop (fillLines_of_abort hc hf ha), fun ha => ?_⟩⟩
  have passed := fillLines_of_closed hc hf ha
  refine ⟨fun h0 => stop (passed.trans (if_pos h0)),
    fun h0 hB => stop (passed.trans ((if_neg h0).trans (if_pos hB))), fun h0 hB hoffered => ?_⟩
  have hexec := exec_fill_of_tests hr hc hf ha h0 hB
  have hsize : wordOf (s.ports.ein.take n).length = s.arg0 := by
    rw [List.length_take_of_le hoffered, wordOf, BitVec.ofNat_toNat, BitVec.setWidth_eq]
  rw [einTake_offered hoffered, fillWith, hsize] at hexec
  exact ⟨_, hexec, Memory.read_writeRun_take _ _ _ hoffered⟩

/-! ### SEEK (R209) -/

theorem seekLines_of_beyond {p : Word} {e : Enc} (h : e.filled < p.toNat) :
    seekLines p e = .raised e .range p.toNat := if_pos h

theorem seekLines_of_within {p : Word} {e : Enc} (h : p.toNat ≤ e.filled) :
    seekLines p e = .done { e with i := p, flags := e.flags.dropHash } := if_neg h.not_gt

/-- Settles O30: the one test of SEEK, and what is left where it passes. -/
theorem seekSetsTheCursor : Obligations.SeekSetsTheCursor := fun _ hr =>
  ⟨fun hlt => exec_of_lines_raised rfl hr (onEnc_of_raised (seekLines_of_beyond hlt)),
    fun hle => exec_of_lines_done rfl hr (onEnc_of_done (seekLines_of_within hle))⟩

/-! ### BOUNDS (R211) -/

theorem lowBound_of_behind {i m : Nat} (bs : Nat) (h : m < i) : lowBound i m bs = i - m := if_pos h

/-- The candidate of the previous lap is too far from `BASE + SIZE` to limit the way back. -/
theorem lowBound_of_far {i m bs : Nat} (h : i ≤ m) (hfar : i < m - bs) : lowBound i m bs = 0 := by
  rw [lowBound, if_neg h.not_gt, if_pos hfar]

theorem lowBound_of_near {i m bs : Nat} (h : i ≤ m) (hnear : m - bs ≤ i) : lowBound i m bs = i - (m - bs) := by
  rw [lowBound, if_neg h.not_gt, if_neg hnear.not_gt]

section BoundsLines

variable {e : Enc}

theorem boundsLines_of_no_candidate (h : e.flags.hit = false ∨ e.i.toNat < e.lastMatch.toNat) :
    boundsLines e = .raised e .state 0x32 := by
  obtain ⟨-, hl⟩ | ⟨hh, hle, -⟩ | ⟨hh, hle, -⟩ := boundsLines_cases e
  · exact hl
  all_goals exact absurd h (by simp [hh, hle])

theorem boundsLines_of_inFlight (hh : e.flags.hit = true) (hle : e.lastMatch.toNat ≤ e.i.toNat)
    (him : e.i.toNat ≤ e.cand.toNat) (hm : e.cand.toNat < e.filled) : boundsLines e = .done { e with
      flags := { e.flags with rej := true, bvalid := false, svalid := false, evalid := false } } := by
  obtain ⟨h, -⟩ | ⟨-, -, -, -, hl⟩ | ⟨-, -, hout, -⟩ := boundsLines_cases e
  · exact absurd h (by simp [hh, hle])
  · exact hl
  · omega

theorem boundsLines_of_outside (hh : e.flags.hit = true) (hle : e.lastMatch.toNat ≤ e.i.toNat)
    (hout : e.cand.toNat < e.i.toNat ∨ e.filled ≤ e.cand.toNat) : boundsLines e = .done { e with
      lowb := wordOf (lowBound e.i.toNat e.cand.toNat e.filled)
      highb := wordOf (highBound e.i.toNat e.cand.toNat e.cfgB.toNat)
      dist := wordOf (ringDist e.i.toNat e.cand.toNat e.cfgB.toNat)
      flags := { e.flags with rej := false, bvalid := true, svalid := false, evalid := false } } := by
  obtain ⟨h, -⟩ | ⟨-, -, him, hm, -⟩ | ⟨-, -, -, hl⟩ := boundsLines_cases e
  · exact absurd h (by simp [hh, hle])
  · omega
  · exact hl

end BoundsLines

/-- Settles O31: the three ends of the lines; an accepted candidate has the low bound of its branch. -/
theorem boundsRejectsOrComputesTheRange : Obligations.BoundsRejectsOrComputesTheRange := by
  intro s hr i m bs B accepts
  refine ⟨fun h => exec_of_enc_raised rfl hr (boundsLines_of_no_candidate h), fun hh hle => ?_⟩
  have accept {low : Nat} (hout : m < i ∨ bs ≤ m) (hlow : lowBound i m bs = low) : accepts low := by
    subst hlow
    exact exec_of_enc_done rfl hr (boundsLines_of_outside hh hle hout)
  exact ⟨fun him hm => exec_of_enc_done rfl hr (boundsLines_of_inFlight hh hle him hm),
    fun hm => accept (.inl hm) (lowBound_of_behind bs hm),
    fun him hm hfar => accept (.inr hm) (lowBound_of_far him hfar),
    fun him hm hnear => accept (.inr hm) (lowBound_of_near him hnear)⟩

/-! ### The bytes compared (R212, R213, R214) -/

/-- Settles O32: the range of BOUNDS keeps both sides of both extensions below the limit of the bytes held. -/
theorem boundsKeepEveryComparedByteReadable : Obligations.BoundsKeepEveryComparedByteReadable :=
  fun _ _ h hb => ⟨fun _ => h.backward_readable hb, fun _ => h.forward_readable hb⟩

/-! ### RDLIT (R215) -/

/-- A sink's answer is negative from bit 31 on (R349). -/
theorem negative_iff (c : Word) : negative c = true ↔ 2 ^ 31 ≤ c.toNat := by
  rw [negative, BitVec.msb_eq_decide, decide_eq_true_iff]

section RdlitLines

variable {s : State}

theorem rdlitLines_of_beyond (h : s.enc.cfgB.toNat < s.arg0.toNat + s.arg1.toNat) :
    rdlitLines s = .raised s .range (s.arg0.toNat + s.arg1.toNat) := if_pos h

/-- A run of no byte makes no write event. -/
theorem rdlitLines_of_empty (hB : s.arg0.toNat + s.arg1.toNat ≤ s.enc.cfgB.toNat) (h0 : s.arg1.toNat = 0) :
    rdlitLines s = .done s := by
  simp only [rdlitLines]
  rw [if_neg hB.not_gt, h0]
  rfl

theorem rdlitLines_of_error {a : Nat} (hB : s.arg0.toNat + s.arg1.toNat ≤ s.enc.cfgB.toNat)
    (hrun : s.enc.buf.readRun s.arg0.toNat s.arg1.toNat = .error a) : rdlitLines s = .raised s .uninit a := by
  simp only [rdlitLines]
  rw [if_neg hB.not_gt, hrun]

theorem rdlitLines_of_ok {bs : List Byte} (hB : s.arg0.toNat + s.arg1.toNat ≤ s.enc.cfgB.toNat)
    (h0 : s.arg1.toNat ≠ 0) (hrun : s.enc.buf.readRun s.arg0.toNat s.arg1.toNat = .ok bs) :
    rdlitLines s = eoutPut bs s := by
  simp only [rdlitLines]
  rw [if_neg hB.not_gt, hrun]
  exact if_neg h0

end RdlitLines

/-- Settles O33: the run read through is one write event, which the sink accepts or refuses. -/
theorem rdlitHandsOutOneRun : Obligations.RdlitHandsOutOneRun := by
  intro s hr off len
  refine ⟨fun hlt => exec_of_lines_raised rfl hr (rdlitLines_of_beyond hlt), fun hB =>
    ⟨fun h0 => exec_of_lines_done rfl hr (rdlitLines_of_empty hB h0), fun t ht hheld hnone => ?_, ?_⟩⟩
  · exact exec_of_lines_raised rfl hr (rdlitLines_of_error hB (Memory.readRun_of_first_none ht hheld hnone))
  · intro bs h0 hlen hat c t
    have hrun : s.enc.buf.readRun off len = .ok bs := hlen ▸ Memory.readRun_of_bytes bs _ off hat
    have hl := rdlitLines_of_ok hB h0 hrun
    exact ⟨fun hc => exec_of_lines_done rfl hr (hl.trans (if_neg (mt (negative_iff c).1 hc.not_ge))),
      fun hc => exec_of_lines_raised rfl hr (hl.trans (if_pos ((negative_iff c).2 hc)))⟩

end Sys2Proof.Machine
end

section
/-! PROOFS. The statements of `43_match_extent.md`: where the two extension loops stop, and the ends of EXTB, EXTF and
COMMIT, fault by fault in the order of their tests. -/

namespace Sys2Proof.Machine

open Sys2Proof

/-! ### One pair of bytes -/

section Pairs

variable {buf : Memory} {p m : Nat}

theorem sameByte_of_equal (h : ∃ b, buf.read p = some b ∧ buf.read m = some b) : sameByte buf p m = .ok true := by
  obtain ⟨b, hp, hm⟩ := h
  simp [sameByte, hp, hm]

theorem sameByte_of_unequal {a b : Byte} (hp : buf.read p = some a) (hm : buf.read m = some b) (hne : a ≠ b) :
    sameByte buf p m = .ok false := by
  simp [sameByte, hp, hm, hne]

theorem sameByte_of_scan_none (hp : buf.read p = none) : sameByte buf p m = .error p := by
  simp [sameByte, hp]

theorem sameByte_of_match_none {a : Byte} (hp : buf.read p = some a) (hm : buf.read m = none) :
    sameByte buf p m = .error m := by
  simp [sameByte, hp, hm]

end Pairs

/-! ### The backward loop (R226) -/

section ExtendBack

variable {buf : Memory} {i m lo p : Nat}

/-- One turn of the loop compares the pair below the present position. -/
theorem extendBack_succ {n : Nat} (h : lo + n < i) : extendBack buf i m lo (n + 1) =
    (sameByte buf (lo + n) (m - (i - (lo + n)))).bind fun same =>
      if same then extendBack buf i m lo n else .ok (lo + n + 1) := by
  have hm : m - (i - (lo + (n + 1))) - 1 = m - (i - (lo + n)) := by omega
  have hp : lo + (n + 1) - 1 = lo + n := by omega
  rw [extendBack, hm, hp]
  cases sameByte buf (lo + n) (m - (i - (lo + n))) with
  | error a => rfl
  | ok same => cases same <;> rfl

/-- The loop goes on from `lo + (n + d)` down to `lo + n` over equal pairs. -/
theorem extendBack_of_equal_above {n : Nat} : ∀ d : Nat, lo + (n + d) ≤ i →
    (∀ q, lo + n ≤ q → q < lo + (n + d) → sameByte buf q (m - (i - q)) = .ok true) →
    extendBack buf i m lo (n + d) = extendBack buf i m lo n
  | 0, _, _ => rfl
  | d + 1, hi, heq => by
    rw [← Nat.add_assoc, extendBack_succ (by omega), heq _ (by omega) (by omega)]
    exact extendBack_of_equal_above d (by omega) fun q h1 h2 => heq q h1 (by omega)

/-- Over equal pairs from the cursor down to `p` the loop is left with the positions below `p`. -/
theorem extendBack_to (hlo : lo ≤ p) (hpi : p ≤ i)
    (heq : ∀ q, p ≤ q → q < i → sameByte buf q (m - (i - q)) = .ok true) :
    extendBack buf i m lo (i - lo) = extendBack buf i m lo (p - lo) := by
  have h := extendBack_of_equal_above (buf := buf) (m := m) (lo := lo) (n := p - lo) (i - p) (by omega)
    fun q h1 h2 => heq q (by omega) (by omega)
  rwa [show p - lo + (i - p) = i - lo by omega] at h

/-- Equal pairs down to `p`, and the pair below `p` compared. -/
theorem extendBack_below (hlo : lo < p) (hpi : p ≤ i)
    (heq : ∀ q, p ≤ q → q < i → sameByte buf q (m - (i - q)) = .ok true) :
    extendBack buf i m lo (i - lo) = (sameByte buf (p - 1) (m - (i - (p - 1)))).bind fun same =>
      if same then extendBack buf i m lo (p - 1 - lo) else .ok p := by
  rw [extendBack_to hlo.le hpi heq]
  obtain ⟨n, rfl⟩ : ∃ n, p = lo + n + 1 := ⟨p - 1 - lo, by omega⟩
  rw [show lo + n + 1 - lo = n + 1 by omega, extendBack_succ (by omega), Nat.add_sub_cancel, Nat.add_sub_cancel_left]

end ExtendBack

/-! ### The forward loop (R228) -/

section ExtendFwd

variable {buf : Memory} {i m q hi : Nat}

/-- Over equal pairs from `p` to `p + d` the loop is left with the positions from there on. -/
theorem extendFwd_of_equal_below {n : Nat} : ∀ d p : Nat,
    (∀ r, p ≤ r → r < p + d → sameByte buf r (m + (r - i)) = .ok true) →
    extendFwd buf i m p (d + n) = extendFwd buf i m (p + d) n
  | 0, p, _ => by rw [Nat.zero_add, Nat.add_zero]
  | d + 1, p, heq => by
    rw [Nat.succ_add, extendFwd, heq p le_rfl (by omega)]
    have h := extendFwd_of_equal_below (n := n) d (p + 1) fun r h1 h2 => heq r (by omega) (by omega)
    rwa [Nat.add_right_comm] at h

/-- Over equal pairs from the cursor up to `q` the loop is left with the positions from `q` on. -/
theorem extendFwd_to (hiq : i ≤ q) (hq : q ≤ hi)
    (heq : ∀ p, i ≤ p → p < q → sameByte buf p (m + (p - i)) = .ok true) :
    extendFwd buf i m i (hi - i) = extendFwd buf i m q (hi - q) := by
  have h := extendFwd_of_equal_below (buf := buf) (i := i) (m := m) (n := hi - q) (q - i) i
    fun r h1 h2 => heq r h1 (by omega)
  rwa [show q - i + (hi - q) = hi - i by omega, Nat.add_sub_cancel' hiq] at h

/-- Equal pairs up to `q`, and the pair at `q` compared. -/
theorem extendFwd_at (hiq : i ≤ q) (hq : q < hi)
    (heq : ∀ p, i ≤ p → p < q → sameByte buf p (m + (p - i)) = .ok true) :
    extendFwd buf i m i (hi - i) = (sameByte buf q (m + (q - i))).bind fun same =>
      if same then extendFwd buf i m (q + 1) (hi - (q + 1)) else .ok q := by
  rw [extendFwd_to hiq hq.le heq, show hi - q = hi - (q + 1) + 1 by omega, extendFwd]
  cases sameByte buf q (m + (q - i)) with
  | error a => rfl
  | ok same => cases same <;> rfl

end ExtendFwd

/-! ### EXTB (R226) -/

section ExtbLines

variable {e : Enc}

theorem extbLines_of_no_range (hb : e.flags.bvalid = false) : extbLines e = .raised e .state 0x40 := by
  simp [extbLines, hb, opcode]

/-- Where the bound is not below the cursor no byte is read. -/
theorem extbLines_of_bound_above (hb : e.flags.bvalid = true) (h : e.i.toNat ≤ e.backLimit) :
    extbLines e = .done { e with mstart := wordOf e.i.toNat, flags := { e.flags with svalid := true } } := by
  simp [extbLines, hb, Nat.min_eq_right h, Nat.sub_eq_zero_of_le h, extendBack]

theorem extbLines_of_ok {p : Nat} (hb : e.flags.bvalid = true) (h : e.backLimit ≤ e.i.toNat)
    (hr : extendBack e.buf e.i.toNat e.cand.toNat e.backLimit (e.i.toNat - e.backLimit) = .ok p) :
    extbLines e = .done { e with mstart := wordOf p, flags := { e.flags with svalid := true } } := by
  simp [extbLines, hb, Nat.min_eq_left h, hr]

theorem extbLines_of_error {a : Nat} (hb : e.flags.bvalid = true) (h : e.backLimit ≤ e.i.toNat)
    (hr : extendBack e.buf e.i.toNat e.cand.toNat e.backLimit (e.i.toNat - e.backLimit) = .error a) :
    extbLines e = .raised e .uninit a := by
  simp [extbLines, hb, Nat.min_eq_left h, hr]

end ExtbLines

/-- Settles O34: the loop passes the equal pairs, and the pair below them ends it or is the fault's. -/
theorem extbFindsTheStartOfTheMatch : Obligations.ExtbFindsTheStartOfTheMatch := by
  intro s hr i m lo equalFrom starts
  refine ⟨fun hb => exec_of_enc_raised rfl hr (extbLines_of_no_range hb), fun hb => ⟨fun hle => ?_, fun hle heq => ?_,
    fun p hlo hpi heq => ?_⟩⟩
  · exact exec_of_enc_done rfl hr (extbLines_of_bound_above hb hle)
  · have hrun : extendBack s.enc.buf i m lo (i - lo) = .ok lo := by
      rw [extendBack_to le_rfl hle fun q h1 h2 => sameByte_of_equal (heq q h1 h2), Nat.sub_self]
      rfl
    exact exec_of_enc_done rfl hr (extbLines_of_ok hb hle hrun)
  · have hle : lo ≤ i := hlo.le.trans hpi
    have hrun := extendBack_below hlo hpi fun q h1 h2 => sameByte_of_equal (heq q h1 h2)
    refine ⟨fun a b ha hm hne => ?_, fun hnone => ?_, fun a ha hnone => ?_⟩
    · rw [sameByte_of_unequal ha hm hne] at hrun
      exact exec_of_enc_done rfl hr (extbLines_of_ok hb hle hrun)
    · rw [sameByte_of_scan_none hnone] at hrun
      exact exec_of_enc_raised rfl hr (extbLines_of_error hb hle hrun)
    · rw [sameByte_of_match_none ha hnone] at hrun
      exact exec_of_enc_raised rfl hr (extbLines_of_error hb hle hrun)

/-! ### EXTF (R228) -/

section ExtfLines

variable {e : Enc}

theorem extfLines_of_no_range (hb : e.flags.bvalid = false) : extfLines e = .raised e .state 0x41 := by
  simp [extfLines, hb, opcode]

/-- Where the bound is not above the cursor no byte is read. -/
theorem extfLines_of_bound_below (hb : e.flags.bvalid = true) (h : e.fwdLimit ≤ e.i.toNat) :
    extfLines e = .done { e with mend := wordOf e.i.toNat, flags := { e.flags with evalid := true } } := by
  simp [extfLines, hb, Nat.sub_eq_zero_of_le h, extendFwd]

theorem extfLines_of_ok {q : Nat} (hb : e.flags.bvalid = true)
    (hr : extendFwd e.buf e.i.toNat e.cand.toNat e.i.toNat (e.fwdLimit - e.i.toNat) = .ok q) :
    extfLines e = .done { e with mend := wordOf q, flags := { e.flags with evalid := true } } := by
  simp [extfLines, hb, hr]

theorem extfLines_of_error {a : Nat} (hb : e.flags.bvalid = true)
    (hr : extendFwd e.buf e.i.toNat e.cand.toNat e.i.toNat (e.fwdLimit - e.i.toNat) = .error a) :
    extfLines e = .raised e .uninit a := by
  simp [extfLines, hb, hr]

end ExtfLines

/-- Settles O35: the loop passes the equal pairs, and the pair behind them ends it or is the fault's. -/
theorem extfFindsTheEndOfTheMatch : Obligations.ExtfFindsTheEndOfTheMatch := by
  intro s hr i m hi equalTo ends
  refine ⟨fun hb => exec_of_enc_raised rfl hr (extfLines_of_no_range hb), fun hb => ⟨fun hle => ?_, fun hle heq => ?_,
    fun q hiq hq heq => ?_⟩⟩
  · exact exec_of_enc_done rfl hr (extfLines_of_bound_below hb hle)
  · have hrun : extendFwd s.enc.buf i m i (hi - i) = .ok hi := by
      rw [extendFwd_to hle le_rfl fun p h1 h2 => sameByte_of_equal (heq p h1 h2), Nat.sub_self]
      rfl
    exact exec_of_enc_done rfl hr (extfLines_of_ok hb hrun)
  · have hrun := extendFwd_at hiq hq fun p h1 h2 => sameByte_of_equal (heq p h1 h2)
    refine ⟨fun a b ha hm hne => ?_, fun hnone => ?_, fun a ha hnone => ?_⟩
    · rw [sameByte_of_unequal ha hm hne] at hrun
      exact exec_of_enc_done rfl hr (extfLines_of_ok hb hrun)
    · rw [sameByte_of_scan_none hnone] at hrun
      exact exec_of_enc_raised rfl hr (extfLines_of_error hb hrun)
    · rw [sameByte_of_match_none ha hnone] at hrun
      exact exec_of_enc_raised rfl hr (extfLines_of_error hb hrun)

/-! ### COMMIT (R230) -/

section CommitLines

variable {recCap : Nat} {e : Enc}

theorem recordsFull_iff : e.recordsFull recCap = true ↔ e.nrec.toNat = recCap ∨ recCap ≤ e.dataOffsets.length ∨
    recCap ≤ e.datalens.length ∨ recCap ≤ e.offsets.length ∨ recCap ≤ e.lens.length := by
  simp [Enc.recordsFull, Enc.runsFull, or_assoc]

theorem commitLines_of_no_extent (h : e.flags.svalid = false ∨ e.flags.evalid = false) :
    commitLines recCap e = .raised e .state 0x42 := by
  obtain h | h := h <;> simp [commitLines, h, opcode]

theorem commitLines_of_short (hs : e.flags.svalid = true) (he : e.flags.evalid = true)
    (h : e.mend.toNat - e.mstart.toNat < e.required e.dist) :
    commitLines recCap e = .done { e with flags := { e.flags.clearCand with matched := false } } := by
  simp [commitLines, Enc.passes, hs, he, h.not_ge]

theorem commitLines_of_full (hs : e.flags.svalid = true) (he : e.flags.evalid = true)
    (h : e.required e.dist ≤ e.mend.toNat - e.mstart.toNat) (hfull : e.recordsFull recCap = true) :
    commitLines recCap e = .raised e .stageOvf e.nrec.toNat := by
  simp [commitLines, Enc.passes, hs, he, h, hfull]

theorem commitLines_of_room (hs : e.flags.svalid = true) (he : e.flags.evalid = true)
    (h : e.required e.dist ≤ e.mend.toNat - e.mstart.toNat) (hroom : ¬ e.recordsFull recCap = true) :
    commitLines recCap e = .done (stageRecord e) := by
  simp [commitLines, Enc.passes, hs, he, h, hroom]

end CommitLines

/-- Settles O36: `required` is the length the test asks for and `recordsFull` the guard of `push`. -/
theorem commitTestsAndStagesTheExtent : Obligations.CommitTestsAndStagesTheExtent := by
  intro s hr required extent cleared full
  have hfull : s.enc.recordsFull s.caps.recCap = true ↔ full := recordsFull_iff
  refine ⟨fun h => exec_of_lines_raised rfl hr (onEnc_of_raised (commitLines_of_no_extent h)), fun hs he =>
    ⟨fun hlt => ?_, fun hle hf => ?_, fun hle hroom => ?_⟩⟩
  · exact exec_of_lines_done rfl hr (onEnc_of_done (commitLines_of_short hs he hlt))
  · exact exec_of_lines_raised rfl hr (onEnc_of_raised (commitLines_of_full hs he hle (hfull.2 hf)))
  · have hl := commitLines_of_room hs he hle (mt hfull.1 hroom)
    rw [stageRecord, wordOf_toNat_add_one] at hl
    exact exec_of_lines_done rfl hr (onEnc_of_done hl)

end Sys2Proof.Machine
end

section
/-! PROOFS. The length law of the staged records (R231, R159): only COMMIT stages a record, of an extent and a
distance that the invariants bound; every other line leaves the records or empties the staging, also where it raises a fault. -/

namespace Sys2Proof.Machine

open Sys2Proof

/-! ### The law and what it reads -/

/-- The length law as a step keeps it: every record is legal, and none is shorter than `S`, which is at least 1. -/
def Enc.LengthLaw (e : Enc) : Prop :=
  RecordsLegal e ∧ ∀ l ∈ e.lens, 1 ≤ e.cfgS.toNat ∧ e.cfgS.toNat ≤ l.toNat

/-- Both lengths the law asks for are at least `S` (R10), so of legal records none is shorter. -/
theorem EncConfigured.lengthLaw {e : Enc} (h : EncConfigured e) (hl : RecordsLegal e) : e.LengthLaw := by
  refine ⟨hl, fun l hmem => ⟨h.sPos, ?_⟩⟩
  obtain ⟨j, hj, rfl⟩ := List.getElem_of_mem hmem
  obtain ⟨hM, hS, -, -⟩ := hl j hj
  rw [List.getD_eq_getElem _ _ hj] at hM hS
  obtain hlt | hge := Nat.lt_or_ge (e.offsets.getD j 0).toNat e.cfgD.toNat
  · exact h.sLeM.trans (hM hlt)
  · exact hS hge

theorem Enc.LengthLaw.of_lens_nil {e : Enc} (h : e.lens = []) : e.LengthLaw := by
  simp [Enc.LengthLaw, RecordsLegal, h]

/-- The commands that write the records or the parameters the law reads. -/
abbrev recordWriters : List Byte := encSetup ++ [0x30, 0x42, 0x50, 0x52, 0x54]

theorem Enc.LengthLaw.of_unwritten {op : Byte} {e e' : Enc} (h : e.LengthLaw) (hop : op ∉ recordWriters)
    (he : e'.unwritten op = e.unwritten op) : e'.LengthLaw := by
  have hcfg : op ∉ [0x01] := fun hm => hop ((by decide : [0x01] ⊆ recordWriters) hm)
  unfold Enc.LengthLaw RecordsLegal
  rw [eq_of_unlessWriter hop (congrArg Enc.lens he), eq_of_unlessWriter hop (congrArg Enc.offsets he),
    eq_of_unlessWriter hcfg (congrArg Enc.cfgB he), eq_of_unlessWriter hcfg (congrArg Enc.cfgM he),
    eq_of_unlessWriter hcfg (congrArg Enc.cfgS he), eq_of_unlessWriter hcfg (congrArg Enc.cfgD he)]
  exact h

/-! ### Runs under an invariant -/

/-- A property of the final state that each part of a sequence keeps, where the later part may use an invariant of the
earlier one's proper end. -/
theorem Run.final_andThen_of_onDone {σ : Type} {P I : σ → Prop} {r : Run σ} {f : σ → Run σ} (hr : P r.final)
    (hi : r.OnDone I) (hf : ∀ s, I s → P s → P (f s).final) : P (r.andThen f).final := by
  cases r with
  | done s => exact hf s hi hr
  | raised s x n => exact hr

theorem Run.final_times_of_onDone {σ : Type} {P I : σ → Prop} {f : σ → Run σ} (hi : ∀ s, I s → (f s).OnDone I)
    (hf : ∀ s, I s → P s → P (f s).final) : ∀ (n : Nat) (s : σ), I s → P s → P (Run.times f n s).final
  | 0, _, _, h => h
  | n + 1, s, hs, h => Run.final_andThen_of_onDone (hf s hs h) (hi s hs) (Run.final_times_of_onDone hi hf n)

section Lines

variable {recCap : Nat} {e : Enc}

/-! ### COMMIT -/

/-- Two different positions of a ring of `B` bytes are `1 .. B − 1` apart (R159). -/
theorem ringDist_range {i m B : Nat} (hi : i < B) (hm : m < B) (hne : m ≠ i) :
    1 ≤ ringDist i m B ∧ ringDist i m B < B := by
  unfold ringDist
  refine ⟨?_, Nat.mod_lt _ (by omega)⟩
  obtain hlt | hgt := Nat.lt_or_gt_of_ne hne
  · rw [show i + B - m = i - m + B by omega, Nat.add_mod_right, Nat.mod_eq_of_lt (by omega)]
    omega
  · rw [Nat.mod_eq_of_lt (by omega)]
    omega

/-- An accepted candidate is not the cursor, and both lie in the ring. -/
theorem EncInv.dist_range (h : EncInv recCap e) (hb : e.flags.bvalid = true) :
    1 ≤ e.dist.toNat ∧ e.dist.toNat < e.cfgB.toNat := by
  have hhit := h.candidate.boundsHit hb
  have hwindow := h.hash.windowRead (h.candidate.hitHash hhit)
  have hL := h.drvL_pos
  have hin := h.cursors.inBuffer
  have hB := h.config.bLe
  have hout := h.candidate.boundsOutside hb
  have hrange := ringDist_range (i := e.i.toNat) (by omega) (h.candidate.hitCand hhit) (by omega)
  rw [h.candidate.boundsDist hb, toNat_wordOf (by omega)]
  exact hrange

/-- One record more at the end of the arrays, which has the length required of its distance. -/
theorem RecordsLegal.append {e' : Enc} {dist len : Word} (h : RecordsLegal e)
    (hcount : e.offsets.length = e.lens.length) (ho : e'.offsets = e.offsets ++ [dist])
    (hl : e'.lens = e.lens ++ [len]) (hB : e'.cfgB = e.cfgB) (hM : e'.cfgM = e.cfgM) (hS : e'.cfgS = e.cfgS)
    (hD : e'.cfgD = e.cfgD) (hreq : e.required dist ≤ len.toNat) (hpos : 1 ≤ dist.toNat)
    (hlt : dist.toNat < e.cfgB.toNat) : RecordsLegal e' := by
  unfold RecordsLegal
  rw [ho, hl, hB, hM, hS, hD]
  intro j hj
  obtain hold | hnew : j < e.lens.length ∨ j = e.lens.length := by
    rw [List.length_append, List.length_singleton] at hj
    omega
  · rw [List.getD_append _ _ _ _ hold, List.getD_append _ _ _ _ (by omega)]
    exact h j hold
  · subst hnew
    rw [List.getD_append_right _ _ _ _ le_rfl, List.getD_append_right _ _ _ _ (by omega), hcount, Nat.sub_self,
      List.getD_cons_zero, List.getD_cons_zero]
    unfold Enc.required at hreq
    refine ⟨fun hnear => ?_, fun hfar => ?_, hpos, hlt⟩
    · rwa [if_pos hnear] at hreq
    · rwa [if_neg hfar.not_gt] at hreq

theorem EncInv.lengthLaw_stageRecord (h : EncInv recCap e) (hl : e.LengthLaw) (hs : e.flags.svalid = true)
    (he : e.flags.evalid = true) (hreq : e.required e.dist ≤ e.mend.toNat - e.mstart.toNat)
    (hroom : e.recordsFull recCap = false) : (Machine.stageRecord e).LengthLaw := by
  obtain ⟨hpos, hlt⟩ := h.dist_range (h.candidate.startBounds hs)
  have hlen : (wordOf (e.mend.toNat - e.mstart.toNat)).toNat = e.mend.toNat - e.mstart.toNat :=
    toNat_wordOf (by have := e.mend.isLt; omega)
  have hcount : e.offsets.length = e.lens.length := h.staging.offsetsCount.trans h.staging.lensCount.symm
  exact (h.stageRecord hs he hreq hroom).config.lengthLaw
    (hl.1.append hcount rfl rfl rfl rfl rfl rfl (hlen.symm ▸ hreq) hpos hlt)

theorem commitLines_lengthLaw (h : EncInv recCap e) (hl : e.LengthLaw) : (commitLines recCap e).final.LengthLaw := by
  obtain ⟨-, hc⟩ | ⟨-, -, -, hc⟩ | ⟨-, -, -, -, hc⟩ | ⟨hs, he, hreq, hroom, hc⟩ := commitLines_cases recCap e <;>
    rw [hc]
  · exact hl
  · exact hl
  · exact hl
  · exact h.lengthLaw_stageRecord hl hs he hreq hroom

/-! ### STEP and SCAN -/

theorem verifyLines_lengthLaw (h : EncInv recCap e) (hl : e.LengthLaw) : (verifyLines recCap e).final.LengthLaw := by
  have hbounds := hl.of_unwritten (op := 0x32) (by decide) (boundsLines_unwritten (by decide) e)
  refine Run.final_andThen_of_onDone hbounds (boundsLines_encInv h) fun e h hl => ?_
  split
  · have hextb := hl.of_unwritten (op := 0x40) (by decide) (extbLines_unwritten (by decide) e)
    refine Run.final_andThen_of_onDone (Run.final_andThen _ _ _ hextb fun e hl => ?_)
      ((extbLines_encInv h).andThen fun _ h => extfLines_encInv h) fun e h hl => commitLines_lengthLaw h hl
    exact hl.of_unwritten (op := 0x41) (by decide) (extfLines_unwritten (by decide) e)
  · exact hl

theorem searchLines_lengthLaw (h : EncInv recCap e) (hl : e.LengthLaw) : (searchLines recCap e).final.LengthLaw := by
  unfold searchLines
  split
  · have hprobe := hl.of_unwritten (op := 0x22) (by decide) (probeLines_unwritten (by decide) e)
    refine Run.final_andThen_of_onDone hprobe (probeLines_encInv h) fun e h hl => ?_
    split
    · exact verifyLines_lengthLaw h hl
    · exact hl
  · exact hl

theorem stepLines_lengthLaw (h : EncInv recCap e) (hl : e.LengthLaw) : (stepLines recCap e).final.LengthLaw := by
  refine Run.final_guard _ hl (Run.final_guard _ hl ?_)
  refine Run.final_andThen _ _ _ (Run.final_andThen _ _ _ ?_ fun e hl => ?_) fun e hl => ?_
  · exact searchLines_lengthLaw (h.setMatched false) hl
  · exact hl.of_unwritten (op := 0x51) (by decide) (anchorLines_unwritten (by decide) e rfl)
  · exact hl.of_unwritten (op := 0x14) (by decide) (hrollLines_unwritten (by decide) e)

theorem rehashLines_lengthLaw (hl : e.LengthLaw) : (rehashLines e).final.LengthLaw := by
  unfold rehashLines
  split
  · exact hl
  · exact hl.of_unwritten (op := 0x13) (by decide) (hinitLines_unwritten (by decide) e)

theorem blockLines_lengthLaw (h : EncInv recCap e) (hl : e.LengthLaw) : (blockLines recCap e).final.LengthLaw := by
  refine Run.final_andThen _ _ _ (Run.final_andThen_of_onDone (rehashLines_lengthLaw hl) (rehashLines_encInv h)
    fun e h hl => ?_) fun e hl => ?_
  · exact Run.final_times_of_onDone (fun _ h => stepLines_encInv h) (fun _ h hl => stepLines_lengthLaw h hl) _ e h hl
  · exact hl.of_unwritten (op := 0x51) (by decide) (skipLines_unwritten (by decide) e rfl)

theorem scanLoop_lengthLaw : ∀ (n : Nat) (e : Enc), EncInv recCap e → e.LengthLaw →
    (scanLoop recCap n e).final.LengthLaw
  | 0, _, _, hl => hl
  | n + 1, e, h, hl => by
    obtain ⟨-, hloop⟩ | ⟨-, hloop⟩ := scanLoop_succ recCap n e <;> rw [hloop]
    · exact hl
    · exact Run.final_andThen_of_onDone (blockLines_lengthLaw h hl) ((blockLines_encInv h).imp fun _ ht => ht.1)
        (scanLoop_lengthLaw n)

theorem restart_lengthLaw (hl : e.LengthLaw) : (restart e).LengthLaw := by
  unfold restart
  split <;> exact hl

theorem scanLines_lengthLaw (h : EncInv recCap e) (hl : e.LengthLaw) : (scanLines recCap e).final.LengthLaw :=
  Run.final_guard _ hl <| Run.final_andThen _ _ _
    (scanLoop_lengthLaw _ _ (restart_encInv h) (restart_lengthLaw hl)) fun _ hl => hl

/-! ### Lines that begin a new staging -/

theorem cfgLines_lengthLaw (caps : Caps) (hl : e.LengthLaw) : (cfgLines caps e).final.LengthLaw := by
  unfold cfgLines
  iterate 9 refine Run.final_guard _ hl ?_
  exact .of_lens_nil rfl

theorem finalLines_lengthLaw (recCap : Nat) (hl : e.LengthLaw) : (finalLines recCap e).final.LengthLaw := by
  unfold finalLines
  iterate 3 refine Run.final_guard _ hl ?_
  exact .of_lens_nil rfl

theorem fillLines_lengthLaw {s : State} (hl : s.enc.LengthLaw) : (fillLines s).final.enc.LengthLaw := by
  unfold fillLines
  iterate 5 refine Run.final_guard (fun t : State => t.enc.LengthLaw) hl ?_
  exact .of_lens_nil rfl

end Lines

/-! ### Commands and steps -/

/-- The law does not read the error registers. -/
theorem Enc.lengthLaw_unfault_iff (e : Enc) : e.unfault.LengthLaw ↔ e.LengthLaw := Iff.rfl

theorem raise_lengthLaw_iff (c : Ctx) (x : Exn) (n : Nat) (s : State) :
    (raise c x n s).enc.LengthLaw ↔ s.enc.LengthLaw := by
  rw [← Enc.lengthLaw_unfault_iff, raise_enc_unfault, Enc.lengthLaw_unfault_iff]

section Commands

variable {op : Byte} {s t : State}

/-- A command keeps the law where its lines do, however they end. -/
theorem unlessFaulted_lengthLaw {body : State → Run State} (hl : s.enc.LengthLaw)
    (hb : (body s).final.enc.LengthLaw) (h : unlessFaulted .enc body s = .next t) : t.enc.LengthLaw := by
  unfold unlessFaulted at h
  cases h
  split
  · exact hl
  · obtain ⟨u, hr, hu⟩ | ⟨u, x, n, hr, hu⟩ := finish_cases .enc (body s) <;> rw [hr] at hb <;> rw [hu]
    · exact hb
    · exact (raise_lengthLaw_iff .enc x n u).2 hb

theorem encCommand_lengthLaw {body : State → Run State} (hl : s.enc.LengthLaw)
    (hb : (body s).final.enc.LengthLaw) (h : encCommand op body s = .next t) : t.enc.LengthLaw := by
  refine unlessFaulted_lengthLaw hl ?_ h
  split
  · exact hb
  · exact hl

theorem onEnc_lengthLaw {f : Enc → Run Enc} (hf : (f s.enc).final.LengthLaw) :
    (onEnc f s).final.enc.LengthLaw := by
  rw [final_onEnc]
  exact hf

/-- Every command of a context with the invariants keeps the law. -/
theorem exec_lengthLaw {i : Instr} (hi : EncInv s.caps.recCap s.enc) (hl : s.enc.LengthLaw)
    (h : exec i s = .next t) : t.enc.LengthLaw := by
  have hkept : opcode i ∉ recordWriters → t.enc.LengthLaw := fun hop =>
    (Enc.lengthLaw_unfault_iff _).1 <|
      ((Enc.lengthLaw_unfault_iff _).2 hl).of_unwritten hop (exec_writesWithin h).enc
  cases i with
  | reset ctx =>
    cases h
    rw [resetContexts_enc]
    split
    · exact .of_lens_nil rfl
    · exact hl
  | cfg => exact unlessFaulted_lengthLaw hl (onEnc_lengthLaw (cfgLines_lengthLaw s.caps hl)) h
  | fill => exact encCommand_lengthLaw hl (fillLines_lengthLaw hl) h
  | commit => exact encCommand_lengthLaw hl (onEnc_lengthLaw (commitLines_lengthLaw hi hl)) h
  | step => exact encCommand_lengthLaw hl (onEnc_lengthLaw (stepLines_lengthLaw hi hl)) h
  | scan => exact encCommand_lengthLaw hl (onEnc_lengthLaw (scanLines_lengthLaw hi hl)) h
  | final => exact encCommand_lengthLaw hl (onEnc_lengthLaw (finalLines_lengthLaw s.caps.recCap hl)) h
  | hupd => exact hkept (by simp [opcode])
  | _ => exact hkept (by decide)

theorem cfgLines_lens (caps : Caps) (e : Enc) : (cfgLines caps e).OnDone fun t => t.lens = [] := by
  unfold cfgLines
  iterate 9 refine .guard fun _ => ?_
  rfl

/-- A context is ready after a command only if it was before, or CFG has just emptied the staging. -/
theorem exec_ready {i : Instr} (h : exec i s = .next t) (ht : EncReady t) : EncReady s ∨ t.enc.lens = [] := by
  have hkept : opcode i ∉ encSetup → EncReady s := fun hop => by
    have hw := exec_writesWithin h
    obtain ⟨hf, -, -⟩ := hw.encErrors (fun hm => hop (List.mem_append_left _ hm)) (.inr ht.1)
    have hok : t.enc.flags.cfgok = s.enc.flags.cfgok :=
      eq_of_unlessWriter hop (congrArg (fun e : Enc => e.flags.cfgok) hw.enc)
    exact ⟨hf.symm.trans ht.1, hok.symm.trans ht.2⟩
  cases i with
  | reset ctx =>
    cases h
    unfold EncReady at ht
    rw [resetContexts_enc] at ht
    split at ht
    · exact Bool.noConfusion ht.2
    · exact .inl ht
  | cfg =>
    obtain ⟨-, hd⟩ := unlessFaulted_done (c := .enc) h ht.1
    exact .inr ((cfgLines_lens s.caps s.enc).of_eq_done (onEnc_done hd))
  | hupd => exact .inl (hkept (by simp [opcode]))
  | _ => exact .inl (hkept (by decide))

/-- Every step from a ready context with the invariants keeps the law. -/
theorem step_lengthLaw (hr : EncReady s) (hi : EncInv s.caps.recCap s.enc) (hl : s.enc.LengthLaw)
    (h : step s = .next t) : t.enc.LengthLaw := by
  obtain ⟨u, hue, -, huc, hu⟩ := step_cases h
  rw [← hue] at hl
  obtain ⟨he, -⟩ | ⟨n, v, rfl⟩ | ⟨i, hexec⟩ | ⟨w, rfl⟩ | rfl := hu
  · rwa [he]
  · obtain ⟨-, -, he | ⟨hcfg, -⟩⟩ := busWrite_cases n v u
    · rwa [he]
    · exact Bool.noConfusion (hcfg.symm.trans (hue ▸ hr.2))
  · rw [← hue, ← huc] at hi
    exact exec_lengthLaw hi hl hexec
  · obtain ⟨-, he | he, -⟩ := illegalCommand_cases w u <;> rw [he]
    · exact hl
    · exact (raise_lengthLaw_iff .enc _ _ u).2 hl
  · exact .of_lens_nil rfl

/-- A step that makes a context ready is a CFG, which leaves no record staged. -/
theorem step_ready (h : step s = .next t) (ht : EncReady t) : EncReady s ∨ t.enc.lens = [] := by
  obtain ⟨u, hue, -, ⟨he, -⟩ | hn | ⟨i, hexec⟩⟩ := step_enc_cases h
  · unfold EncReady at ht ⊢
    rw [he, hue] at ht
    exact .inl ht
  · exact absurd ht hn
  · have hready := exec_ready hexec ht
    unfold EncReady at hready
    rwa [hue] at hready

end Commands

/-- Settles O37: from a ready context every step keeps the law; from any other, one that makes it ready leaves no
record. -/
theorem stagedRecordsObeyTheLengthLaw : Obligations.StagedRecordsObeyTheLengthLaw := by
  intro s t hs hlegal h hready
  obtain hr | hnil : EncReady s ∨ t.enc.lens = [] := hready.elim .inl (step_ready h)
  · have hi := hs hr
    exact step_lengthLaw hr hi (hi.config.lengthLaw (hlegal hr)) h
  · exact Enc.LengthLaw.of_lens_nil hnil

end Sys2Proof.Machine
end

section
/-! PROOFS. STEP is the unit commands a host could issue itself (R242): lines in sequence, under a condition and
repeated are the operations that perform them in sequence, under the condition and repeated, since a faulted context
does nothing. -/

namespace Sys2Proof.Machine

open Sys2Proof

/-! ### Lines and the commands that perform them -/

/-- The encoder context accepts its commands (R170). -/
abbrev Enc.Ready (e : Enc) : Prop := e.flags.efault = false ∧ e.flags.cfgok = true

theorem Enc.Ready.of_unwritten {op : Byte} {e e' : Enc} (h : e.Ready) (hop : op ∉ encSetup)
    (he : e'.unwritten op = e.unwritten op) : e'.Ready := by
  have hreset : op ∉ [0x01] := fun hm => hop (List.mem_append_left _ hm)
  refine ⟨?_, ?_⟩
  · rw [eq_of_unlessWriter hreset (congrArg (fun e : Enc => e.flags.efault) he)]
    exact h.1
  · rw [eq_of_unlessWriter hop (congrArg (fun e : Enc => e.flags.cfgok) he)]
    exact h.2

theorem Run.onDone_of_final {σ : Type} {P : σ → Prop} {r : Run σ} (h : P r.final) : r.OnDone P := by
  cases r with
  | done s => exact h
  | raised s x n => trivial

/-- The state a command of the encoder leaves whose lines ended so. -/
def endIn (s : State) : Run Enc → State
  | .done e => { s with enc := e }
  | .raised e x n => raise .enc x n { s with enc := e }

theorem finish_onEnc (f : Enc → Run Enc) (s : State) : finish .enc (onEnc f s) = endIn s (f s.enc) := by
  unfold onEnc
  cases f s.enc <;> rfl

theorem exec_endIn {i : Instr} {op : Byte} {f : Enc → Run Enc} {s : State} (hi : exec i s = encCommand op (onEnc f) s)
    (hr : EncReady s) : exec i s = .next (endIn s (f s.enc)) := by
  rw [hi, encCommand_ready _ _ _ hr.1 hr.2, finish_onEnc]

/-- The operation `F` does what a command with the lines `f` does: nothing in a faulted context (R345); in a ready one
the lines run, and a fault they raise is taken.  `recCap` is the capacity the lines know. -/
structure Performs (recCap : Nat) (F : State → State) (f : Enc → Run Enc) : Prop where
  faulted : ∀ s : State, s.enc.flags.efault = true → F s = s
  ready : ∀ s : State, EncReady s → s.caps.recCap = recCap → F s = endIn s (f s.enc)
  keeps : ∀ e : Enc, e.Ready → (f e).OnDone Enc.Ready

section Performs

variable {recCap : Nat} {F G : State → State} {f g : Enc → Run Enc}

theorem performs_after {i : Instr} {op : Byte} {f : Nat → Enc → Run Enc} (hown : owner i = .encoder)
    (hop : op ∉ encSetup) (hi : ∀ s, exec i s = encCommand op (onEnc (f s.caps.recCap)) s)
    (hw : ∀ e, (f recCap e).final.unwritten op = e.unwritten op) : Performs recCap (after i) (f recCap) where
  faulted _ hf := after_of_exec (exec_of_efault hown hf)
  ready s hr hcap := after_of_exec (hcap ▸ exec_endIn (hi s) hr)
  keeps e hr := Run.onDone_of_final (hr.of_unwritten hop (hw e))

/-- After lines that ran to their end the operation runs its own; after a fault it does nothing (R240). -/
theorem Performs.endIn_andThen (hG : Performs recCap G g) {s : State} (hcap : s.caps.recCap = recCap) {r : Run Enc}
    (hr : r.OnDone Enc.Ready) : endIn s (r.andThen g) = G (endIn s r) := by
  cases r with
  | done e => exact (hG.ready { s with enc := e } hr hcap).symm
  | raised e x n => exact (hG.faulted _ (faulted_raise .enc x n _)).symm

theorem Performs.andThen (hF : Performs recCap F f) (hG : Performs recCap G g) :
    Performs recCap (fun s => G (F s)) (fun e => (f e).andThen g) where
  faulted s hf := by rw [hF.faulted s hf, hG.faulted s hf]
  ready s hr hcap := by rw [hF.ready s hr hcap, hG.endIn_andThen hcap (hF.keeps _ hr)]
  keeps e hr := (hF.keeps e hr).andThen hG.keeps

/-- Lines under a condition are the operation under the condition. -/
theorem Performs.ite (hF : Performs recCap F f) (c : Enc → Prop) [DecidablePred c] :
    Performs recCap (fun s => if c s.enc then F s else s) (fun e => if c e then f e else .done e) where
  faulted s hf := by
    rw [hF.faulted s hf, ite_self]
  ready s hr hcap := by
    split
    · exact hF.ready s hr hcap
    · rfl
  keeps e hr := by
    split
    · exact hF.keeps e hr
    · exact hr

theorem Performs.iterate (hF : Performs recCap F f) : ∀ n : Nat, Performs recCap F^[n] (Run.times f n)
  | 0 => ⟨fun _ _ => rfl, fun _ _ _ => rfl, fun _ hr => hr⟩
  | n + 1 => hF.andThen (hF.iterate n)

end Performs

/-! ### STEP as a sequence of commands (R242) -/

section Step

variable (recCap : Nat)

theorem performs_step : Performs recCap (after .step) (stepLines recCap) :=
  performs_after rfl (by decide) (fun _ => rfl) fun e => stepLines_unwritten (by decide) recCap e rfl

theorem performs_hinit : Performs recCap (after .hinit) hinitLines :=
  performs_after (f := fun _ => hinitLines) rfl (by decide) (fun _ => rfl) (hinitLines_unwritten (by decide))

theorem performs_hroll : Performs recCap (after .hroll) hrollLines :=
  performs_after (f := fun _ => hrollLines) rfl (by decide) (fun _ => rfl) (hrollLines_unwritten (by decide))

theorem performs_skip : Performs recCap (after .skip) skipLines :=
  performs_after (f := fun _ => skipLines) rfl (by decide) (fun _ => rfl) fun e => skipLines_unwritten (by decide) e rfl

theorem performs_anchor :
    Performs recCap (fun s => if s.enc.i &&& s.enc.drvKmask = 0 then after .insert s else s) anchorLines :=
  (performs_after (f := fun _ => insertLines) rfl (by decide) (fun _ => rfl) (insertLines_unwritten (by decide))).ite
    fun e => e.i &&& e.drvKmask = 0

/-- EXTB, EXTF and COMMIT, on an accepted candidate. -/
def verified (s : State) : State :=
  if s.enc.flags.bvalid = true then after .commit (after .extf (after .extb s)) else s

/-- BOUNDS and what follows it, on a hit. -/
def bounded (s : State) : State := if s.enc.flags.hit = true then verified (after .bounds s) else s

/-- The search part of STEP: PROBE and what follows it, unless the cursor lies in an emitted match. -/
def searched (s : State) : State := if s.enc.lastMatch.toNat ≤ s.enc.i.toNat then bounded (after .probe s) else s

theorem performs_verified : Performs recCap (fun s => verified (after .bounds s)) (verifyLines recCap) :=
  have hbounds : Performs recCap (after .bounds) boundsLines :=
    performs_after (f := fun _ => boundsLines) rfl (by decide) (fun _ => rfl) (boundsLines_unwritten (by decide))
  have hextb : Performs recCap (after .extb) extbLines :=
    performs_after (f := fun _ => extbLines) rfl (by decide) (fun _ => rfl) (extbLines_unwritten (by decide))
  have hextf : Performs recCap (after .extf) extfLines :=
    performs_after (f := fun _ => extfLines) rfl (by decide) (fun _ => rfl) (extfLines_unwritten (by decide))
  have hcommit : Performs recCap (after .commit) (commitLines recCap) :=
    performs_after rfl (by decide) (fun _ => rfl) (commitLines_unwritten (by decide) recCap)
  hbounds.andThen (((hextb.andThen hextf).andThen hcommit).ite fun e => e.flags.bvalid = true)

theorem performs_searched : Performs recCap searched (searchLines recCap) :=
  have hprobe : Performs recCap (after .probe) probeLines :=
    performs_after (f := fun _ => probeLines) rfl (by decide) (fun _ => rfl) (probeLines_unwritten (by decide))
  (hprobe.andThen ((performs_verified recCap).ite fun e => e.flags.hit = true)).ite fun e =>
    e.lastMatch.toNat ≤ e.i.toNat

end Step

/-! ### The search and the cursor -/

/-- The commands that move the cursor. -/
abbrev cursorWriters : List Byte := encSetup ++ [0x31, 0x14, 0x50, 0x51, 0x52, 0x53]

theorem Enc.i_of_unwritten {op : Byte} {e e' : Enc} (hop : op ∉ cursorWriters)
    (h : e'.unwritten op = e.unwritten op) : e'.i = e.i :=
  eq_of_unlessWriter hop (congrArg Enc.i h)

/-- The cursor stands at `p`, as it does throughout the search of a STEP. -/
abbrev Enc.At (p : Word) (e : Enc) : Prop := e.i = p

section Cursor

variable {p : Word} {e : Enc}

theorem Enc.At.of_unwritten {op : Byte} {e' : Enc} (h : e.At p) (hop : op ∉ cursorWriters)
    (hw : e'.unwritten op = e.unwritten op) : e'.At p := (Enc.i_of_unwritten hop hw).trans h

theorem verifyLines_at (recCap : Nat) (h : e.At p) : (verifyLines recCap e).final.At p := by
  have hbounds := h.of_unwritten (op := 0x32) (by decide) (boundsLines_unwritten (by decide) e)
  refine Run.final_andThen (Enc.At p) _ _ hbounds fun e h => ?_
  split
  · have hextb := h.of_unwritten (op := 0x40) (by decide) (extbLines_unwritten (by decide) e)
    refine Run.final_andThen (Enc.At p) _ _ (Run.final_andThen (Enc.At p) _ _ hextb fun e h => ?_) fun e h => ?_
    · exact h.of_unwritten (op := 0x41) (by decide) (extfLines_unwritten (by decide) e)
    · exact h.of_unwritten (op := 0x42) (by decide) (commitLines_unwritten (by decide) recCap e)
  · exact h

theorem searchLines_at (recCap : Nat) (h : e.At p) : (searchLines recCap e).final.At p := by
  unfold searchLines
  split
  · have hprobe := h.of_unwritten (op := 0x22) (by decide) (probeLines_unwritten (by decide) e)
    refine Run.final_andThen (Enc.At p) _ _ hprobe fun e h => ?_
    split
    · exact verifyLines_at recCap h
    · exact h
  · exact h

end Cursor

/-- The search leaves the cursor where it is. -/
theorem searchLines_i (recCap : Nat) (e : Enc) : (searchLines recCap e).final.i = e.i := searchLines_at recCap rfl

theorem searchLines_drvKmask (recCap : Nat) (e : Enc) : (searchLines recCap e).final.drvKmask = e.drvKmask :=
  eq_of_unlessWriter (op := 0x50) (by decide) (congrArg Enc.drvKmask (searchLines_unwritten (by decide) recCap e rfl))

/-- A fault taken changes no register but the error registers. -/
theorem endIn_unfault (s : State) (r : Run Enc) : (endIn s r).enc.unfault = r.final.unfault := by
  cases r with
  | done e => rfl
  | raised e x n => exact raise_enc_unfault .enc x n _

theorem endIn_i (s : State) (r : Run Enc) : (endIn s r).enc.i = r.final.i :=
  (congrArg Enc.i (endIn_unfault s r) :)

theorem endIn_drvKmask (s : State) (r : Run Enc) : (endIn s r).enc.drvKmask = r.final.drvKmask :=
  (congrArg Enc.drvKmask (endIn_unfault s r) :)

/-! ### STEP's own tests -/

theorem stepLines_of_invalid {recCap : Nat} {e : Enc} (hv : e.flags.hvalid = false) :
    stepLines recCap e = .raised e .state 0x50 := by
  simp [stepLines, hv, opcode]

theorem stepLines_of_window_end {recCap : Nat} {e : Enc} (hv : e.flags.hvalid = true)
    (hle : e.filled ≤ e.i.toNat + e.drvL.toNat) : stepLines recCap e = .raised e .range (e.i.toNat + e.drvL.toNat) := by
  simp [stepLines, hv, hle]

theorem stepLines_of_window {recCap : Nat} {e : Enc} (hv : e.flags.hvalid = true)
    (hlt : e.i.toNat + e.drvL.toNat < e.filled) : stepLines recCap e =
      ((searchLines recCap { e with flags := { e.flags with matched := false } }).andThen anchorLines).andThen
        hrollLines := by
  simp [stepLines, hv, hlt.not_ge]

/-- Settles O38: STEP's own two tests end it unchanged; behind them each part of its lines is performed by its
commands, and the search leaves the cursor, so INSERT's condition may be read before it. -/
theorem stepEqualsTheUnitCommands : Obligations.StepEqualsTheUnitCommands := by
  intro s hr q filled
  refine ⟨fun hv => exec_of_lines_raised rfl hr (onEnc_of_raised (stepLines_of_invalid hv)),
    fun hv hle => exec_of_lines_raised rfl hr (onEnc_of_raised (stepLines_of_window_end hv hle)),
    fun hv hlt => ?_⟩
  intro s0 verified bounded searched indexed
  have hsearch := performs_searched s.caps.recCap
  have hi : (Machine.searched s0).enc.i &&& (Machine.searched s0).enc.drvKmask = s.enc.i &&& s.enc.drvKmask := by
    rw [hsearch.ready s0 hr rfl, endIn_i, endIn_drvKmask, searchLines_i, searchLines_drvKmask]
  have hall := ((hsearch.andThen (performs_anchor _)).andThen (performs_hroll _)).ready s0 hr rfl
  simp only [hi] at hall
  have hexec := exec_endIn (i := .step) (f := stepLines s.caps.recCap) rfl hr
  rw [stepLines_of_window hv hlt] at hexec
  exact hexec.trans (congrArg _ hall.symm)

end Sys2Proof.Machine
end

section
/-! PROOFS. STEP under the encoder invariants (R241): its search ends with at most one record more or with `StageOvf`
before any push, and its end moves the cursor up by one byte. -/

namespace Sys2Proof.Machine

open Sys2Proof

/-! ### Both ends of a run -/

/-- `P` of the state a run ended in, or `Q` of the state and the fault it raised. -/
def Run.Ends {σ : Type} (P : σ → Prop) (Q : σ → Exn → Nat → Prop) : Run σ → Prop
  | .done s => P s
  | .raised s x n => Q s x n

theorem Run.Ends.andThen {σ : Type} {P P' : σ → Prop} {Q : σ → Exn → Nat → Prop} {r : Run σ} {f : σ → Run σ}
    (hr : r.Ends P Q) (hf : ∀ s, P s → (f s).Ends P' Q) : (r.andThen f).Ends P' Q := by
  cases r with
  | done s => exact hf s hr
  | raised s x n => exact hr

theorem Run.Ends.imp {σ : Type} {P P' : σ → Prop} {Q Q' : σ → Exn → Nat → Prop} {r : Run σ} (h : r.Ends P Q)
    (hP : ∀ s, P s → P' s) (hQ : ∀ s x n, Q s x n → Q' s x n) : r.Ends P' Q' := by
  cases r with
  | done s => exact hP s h
  | raised s x n => exact hQ s x n h

theorem Run.NoUninit.ne_raised {σ : Type} {r : Run σ} (h : r.NoUninit) {s : σ} {n : Nat} : r ≠ .raised s .uninit n := by
  rintro rfl
  exact h rfl

/-! ### What the scan commands do not write -/

theorem Enc.filled_of_unwritten {op : Byte} {e₀ e : Enc} (hop : op ∉ encSetup ++ [0x30, 0x53])
    (h : e.unwritten op = e₀.unwritten op) : e.filled = e₀.filled := by
  have hbase : op ∉ encSetup ++ [0x53] := fun hm =>
    hop ((by decide : encSetup ++ [0x53] ⊆ encSetup ++ [0x30, 0x53]) hm)
  unfold Enc.filled
  rw [eq_of_unlessWriter hbase (congrArg Enc.base h), eq_of_unlessWriter hop (congrArg Enc.size h)]

theorem Enc.drvL_of_unwritten {op : Byte} {e₀ e : Enc} (hop : op ∉ encSetup)
    (h : e.unwritten op = e₀.unwritten op) : e.drvL = e₀.drvL :=
  eq_of_unlessWriter hop (congrArg Enc.drvL h)

theorem Enc.drvTest_of_unwritten {op : Byte} {e₀ e : Enc} (hop : op ∉ encSetup)
    (h : e.unwritten op = e₀.unwritten op) : e.drvTest = e₀.drvTest :=
  eq_of_unlessWriter hop (congrArg Enc.drvTest h)

theorem Enc.hvalid_of_unwritten {op : Byte} {e₀ e : Enc} (hop : op ∉ encSetup ++ [0x11, 0x12, 0x13, 0x31, 0x52, 0x53])
    (h : e.unwritten op = e₀.unwritten op) : e.flags.hvalid = e₀.flags.hvalid :=
  eq_of_unlessWriter hop (congrArg (fun e : Enc => e.flags.hvalid) h)

theorem Enc.lastI_of_unwritten {op : Byte} {e₀ e : Enc} (hop : op ∉ encSetup ++ [0x52, 0x53])
    (h : e.unwritten op = e₀.unwritten op) : e.lastI = e₀.lastI :=
  eq_of_unlessWriter hop (congrArg Enc.lastI h)

theorem EFlags.eq_of_unwritten_scan {f₀ f : EFlags} (h : f.unwritten 0x52 = f₀.unwritten 0x52) : f = { f₀ with
    hvalid := f.hvalid, hit := f.hit, rej := f.rej, bvalid := f.bvalid, svalid := f.svalid, evalid := f.evalid
    matched := f.matched } := by
  cases f
  cases f₀
  simp_all [EFlags.unwritten, unlessWriter]

/-- What STEP and SCAN write, LAST_I apart: the column "Written by" of R41 and the flag table of R55. -/
theorem Enc.eq_of_leaves {e₀ e : Enc} (h : Enc.Leaves 0x52 e₀ e) (hlast : e.lastI = e₀.lastI) : e = { e₀ with
    hash := e.hash, i := e.i, lastMatch := e.lastMatch, cand := e.cand, lowb := e.lowb, highb := e.highb
    dist := e.dist, mstart := e.mstart, mend := e.mend, nrec := e.nrec, lens := e.lens, offsets := e.offsets
    datalens := e.datalens, dataOffsets := e.dataOffsets, ht := e.ht
    flags := { e₀.flags with
      hvalid := e.flags.hvalid, hit := e.flags.hit, rej := e.flags.rej, bvalid := e.flags.bvalid
      svalid := e.flags.svalid, evalid := e.flags.evalid, matched := e.flags.matched } } := by
  have hflags : e.flags.unwritten 0x52 = e₀.flags.unwritten 0x52 := congrArg Enc.flags h
  rw [← EFlags.eq_of_unwritten_scan hflags]
  cases e
  cases e₀
  simp_all [Enc.Leaves, Enc.unwritten, unlessWriter]

/-- With no candidate, HVALID and MATCHED are the flags that can differ. -/
theorem Enc.eq_of_leaves_of_cleared {e₀ e : Enc} (h : Enc.Leaves 0x52 e₀ e) (hlast : e.lastI = e₀.lastI)
    (hc : e.flags.clearCand = e.flags) : e = { e₀ with
      hash := e.hash, i := e.i, lastMatch := e.lastMatch, cand := e.cand, lowb := e.lowb, highb := e.highb
      dist := e.dist, mstart := e.mstart, mend := e.mend, nrec := e.nrec, lens := e.lens, offsets := e.offsets
      datalens := e.datalens, dataOffsets := e.dataOffsets, ht := e.ht
      flags := { e₀.flags.clearCand with hvalid := e.flags.hvalid, matched := e.flags.matched } } := by
  have hframe := Enc.eq_of_leaves h hlast
  rw [← hc] at hframe
  exact hframe

/-! ### What a scan command does to the staging -/

/-- The records and runs staged before stay (R249). -/
structure Enc.RecordsKept (e₀ e : Enc) : Prop where
  lens : e₀.lens <+: e.lens
  offsets : e₀.offsets <+: e.offsets
  datalens : e₀.datalens <+: e.datalens
  dataOffsets : e₀.dataOffsets <+: e.dataOffsets

theorem Enc.RecordsKept.trans {e₀ e₁ e : Enc} (h : e₀.RecordsKept e₁) (h' : e₁.RecordsKept e) : e₀.RecordsKept e :=
  ⟨h.lens.trans h'.lens, h.offsets.trans h'.offsets, h.datalens.trans h'.datalens,
    h.dataOffsets.trans h'.dataOffsets⟩

theorem Enc.RecordsKept.of_stagingPart {e₀ e : Enc} (h : e.stagingPart = e₀.stagingPart) : e₀.RecordsKept e := by
  have hlens : e.lens = e₀.lens := (congrArg Enc.lens h :)
  have hoffsets : e.offsets = e₀.offsets := (congrArg Enc.offsets h :)
  have hdatalens : e.datalens = e₀.datalens := (congrArg Enc.datalens h :)
  have hdataOffsets : e.dataOffsets = e₀.dataOffsets := (congrArg Enc.dataOffsets h :)
  exact ⟨hlens ▸ List.prefix_rfl, hoffsets ▸ List.prefix_rfl, hdatalens ▸ List.prefix_rfl,
    hdataOffsets ▸ List.prefix_rfl⟩

/-- What one STEP stages: nothing, or one record where the cursor is in no match already emitted (R241). -/
inductive Enc.StepStages (e₀ e : Enc) : Prop where
  | nothing (matched : e.flags.matched = false) (same : e.stagingPart = e₀.stagingPart)
  | record (matched : e.flags.matched = true) (count : e.nrec.toNat = e₀.nrec.toNat + 1)
      (outside : e₀.lastMatch.toNat ≤ e₀.i.toNat) (kept : e₀.RecordsKept e)

theorem Enc.StepStages.of_start {e₀ e₁ e : Enc} (h : e₁.StepStages e) (hp : e₁.stagingPart = e₀.stagingPart)
    (hi : e₁.i = e₀.i) : e₀.StepStages e := by
  obtain ⟨hm, hsame⟩ | ⟨hm, hcount, hout, hkept⟩ := h
  · exact .nothing hm (hsame.trans hp)
  · have hnrec : e₁.nrec = e₀.nrec := (congrArg Enc.nrec hp :)
    have hlast : e₁.lastMatch = e₀.lastMatch := (congrArg Enc.lastMatch hp :)
    exact .record hm (hnrec ▸ hcount) (hlast ▸ hi ▸ hout) ((Enc.RecordsKept.of_stagingPart hp).trans hkept)

theorem Enc.StepStages.of_end {e₀ e e' : Enc} (h : e₀.StepStages e) (hm : e'.flags.matched = e.flags.matched)
    (hp : e'.stagingPart = e.stagingPart) : e₀.StepStages e' := by
  obtain ⟨hm', hsame⟩ | ⟨hm', hcount, hout, hkept⟩ := h
  · exact .nothing (hm.trans hm') (hp.trans hsame)
  · have hnrec : e'.nrec = e.nrec := (congrArg Enc.nrec hp :)
    exact .record (hm.trans hm') (hnrec ▸ hcount) hout (hkept.trans (.of_stagingPart hp))

/-- The staging is full where a record is due: `StageOvf(NREC)`, before any push and with the invariants. -/
structure Overflow (recCap : Nat) (e : Enc) (x : Exn) (n : Nat) : Prop where
  code : x = .stageOvf
  info : n = e.nrec.toNat
  inv : EncInv recCap e
  full : recCap ≤ e.dataOffsets.length
  tail : e.lastMatch.toNat < e.filled

/-- Overflow in a STEP that began in `e₀`. -/
def StepOverflows (recCap : Nat) (e₀ e : Enc) (x : Exn) (n : Nat) : Prop :=
  Overflow recCap e x n ∧ e.stagingPart = e₀.stagingPart

/-- The two ends of the lines of the search. -/
def SearchEnds (recCap : Nat) (e₀ : Enc) (r : Run Enc) : Prop :=
  r.Ends (fun e => EncInv recCap e ∧ e₀.StepStages e) (StepOverflows recCap e₀)

theorem SearchEnds.of_start {recCap : Nat} {e₀ e₁ : Enc} {r : Run Enc} (h : SearchEnds recCap e₁ r)
    (hp : e₁.stagingPart = e₀.stagingPart) (hi : e₁.i = e₀.i) : SearchEnds recCap e₀ r :=
  h.imp (fun _ ⟨hinv, hstages⟩ => ⟨hinv, hstages.of_start hp hi⟩) fun _ _ _ ⟨hover, hsame⟩ => ⟨hover, hsame.trans hp⟩

section Lines

variable {recCap : Nat} {e : Enc}

/-! ### The search -/

/-- While bytes are read no array is full before `dataOffsets` is: of the runs there are not fewer than records. -/
theorem EncInv.full_of_recordsFull (h : EncInv recCap e) (hf : 1 ≤ e.filled) (hfull : e.recordsFull recCap = true) :
    recCap ≤ e.dataOffsets.length := by
  have hlens := h.staging.lensCount
  have hoffsets := h.staging.offsetsCount
  have hsame := h.staging.sameRuns
  have hruns : e.nrec.toNat ≤ e.dataOffsets.length := by
    cases hc : e.flags.cycopen with
    | true => rw [← hsame, h.staging.openRuns hc]
    | false => rw [h.staging.runs_closed hf hc]; omega
  have := recordsFull_iff.1 hfull
  omega

theorem recordsKept_stageRecord (e : Enc) : e.RecordsKept (stageRecord e) :=
  ⟨List.prefix_append _ _, List.prefix_append _ _, List.prefix_append _ _, List.prefix_append _ _⟩

theorem commitLines_ends (h : EncInv recCap e) (hs : e.flags.svalid = true) (he : e.flags.evalid = true) :
    SearchEnds recCap e (commitLines recCap e) := by
  have hinv := commitLines_encInv h
  have hb := h.candidate.startBounds hs
  have hf := h.filled_pos hb
  obtain ⟨hno, -⟩ | ⟨-, -, -, hl⟩ | ⟨-, -, -, hfull, hl⟩ | ⟨-, -, -, -, hl⟩ := commitLines_cases recCap e
  · simp [hs, he] at hno
  · rw [hl] at hinv ⊢
    exact ⟨hinv, .nothing rfl rfl⟩
  · have hwindow := h.hash.windowRead (h.candidate.hitHash (h.candidate.boundsHit hb))
    have hL := h.drvL_pos
    have hcursor := h.candidate.boundsCursor hb
    rw [hl]
    exact ⟨⟨rfl, rfl, h, h.full_of_recordsFull hf hfull, by omega⟩, rfl⟩
  · rw [hl] at hinv ⊢
    exact ⟨hinv, .record rfl (h.nrec_stageRecord hf) (h.candidate.boundsCursor hb) (recordsKept_stageRecord e)⟩

theorem extbLines_runs (h : EncInv recCap e) (hb : e.flags.bvalid = true) :
    ∃ p : Word, extbLines e = .done { e with mstart := p, flags := { e.flags with svalid := true } } := by
  obtain ⟨hno, -⟩ | ⟨-, a, -, hl⟩ | ⟨-, p, -, hl⟩ := extbLines_cases e
  · simp [hb] at hno
  · exact absurd hl (extbLines_noUninit h).ne_raised
  · exact ⟨_, hl⟩

theorem extfLines_runs (h : EncInv recCap e) (hb : e.flags.bvalid = true) :
    ∃ q : Word, extfLines e = .done { e with mend := q, flags := { e.flags with evalid := true } } := by
  obtain ⟨hno, -⟩ | ⟨-, a, -, hl⟩ | ⟨-, q, -, hl⟩ := extfLines_cases e
  · simp [hb] at hno
  · exact absurd hl (extfLines_noUninit h).ne_raised
  · exact ⟨_, hl⟩

/-- On an accepted candidate EXTB and EXTF run, and COMMIT decides. -/
theorem extendLines_ends (h : EncInv recCap e) (hb : e.flags.bvalid = true) :
    SearchEnds recCap e (((extbLines e).andThen extfLines).andThen (commitLines recCap)) := by
  obtain ⟨p, hextb⟩ := extbLines_runs h hb
  have h₁ := (extbLines_encInv h).of_eq_done hextb
  obtain ⟨q, hextf⟩ := extfLines_runs h₁ hb
  have h₂ := (extfLines_encInv h₁).of_eq_done hextf
  rw [hextb, Run.andThen_done, hextf, Run.andThen_done]
  exact (commitLines_ends h₂ rfl rfl).of_start rfl rfl

theorem verifyLines_ends (h : EncInv recCap e) (hm : e.flags.matched = false) (hh : e.flags.hit = true)
    (hle : e.lastMatch.toNat ≤ e.i.toNat) : SearchEnds recCap e (verifyLines recCap e) := by
  have hinv := boundsLines_encInv h
  unfold verifyLines
  obtain ⟨hno, -⟩ | ⟨-, -, -, -, hl⟩ | ⟨-, -, -, hl⟩ := boundsLines_cases e
  · simp [hh, hle.not_gt] at hno
  · rw [hl] at hinv ⊢
    exact ⟨hinv, .nothing hm rfl⟩
  · rw [hl] at hinv ⊢
    exact (extendLines_ends hinv rfl).of_start rfl rfl

theorem searchLines_ends (h : EncInv recCap e) (hm : e.flags.matched = false) (hv : e.flags.hvalid = true) :
    SearchEnds recCap e (searchLines recCap e) := by
  have hinv := probeLines_encInv h
  unfold searchLines
  split
  next hle =>
    obtain ⟨hno, -⟩ | ⟨-, -, hl⟩ | ⟨-, -, hl⟩ := probeLines_cases e
    · simp [hv] at hno
    · rw [hl] at hinv ⊢
      exact (verifyLines_ends hinv hm rfl hle).of_start rfl rfl
    · rw [hl] at hinv ⊢
      exact ⟨hinv, .nothing hm rfl⟩
  next => exact ⟨h, .nothing hm rfl⟩

/-! ### The end of every turn of STEP and SKIP -/

theorem anchorLines_runs (hv : e.flags.hvalid = true) : ∃ ht : Table, anchorLines e = .done { e with ht := ht } := by
  obtain ⟨-, hl⟩ | ⟨-, hl⟩ := anchorLines_cases e hv
  · exact ⟨_, hl⟩
  · exact ⟨e.ht, hl⟩

/-- Where the window can move on, the cursor is indexed and moved up by one.  The values written are variables here, so
that no check of a use of this lemma evaluates a hash. -/
theorem anchorRoll_runs (h : EncInv recCap e) (hv : e.flags.hvalid = true)
    (hlt : e.i.toNat + e.drvL.toNat < e.filled) : ∃ (hash : Word) (ht : Table),
      (anchorLines e).andThen hrollLines =
        .done { e with hash := hash, i := e.i + 1, ht := ht, flags := e.flags.clearCand } := by
  obtain ⟨ht, hl⟩ := anchorLines_runs hv
  have hno := hrollLines_noUninit ((anchorLines_encInv h).of_eq_done hl).1
  rw [hl, Run.andThen_done]
  obtain ⟨hbad, -⟩ | ⟨-, hbad, -⟩ | ⟨-, -, ⟨-, hr⟩ | ⟨out, -, ⟨-, hr⟩ | ⟨inn, -, hr⟩⟩⟩ :=
    hrollLines_cases { e with ht := ht }
  · exact absurd (hv.symm.trans hbad) nofun
  · exact absurd hbad hlt.not_ge
  · exact absurd hr hno.ne_raised
  · exact absurd hr hno.ne_raised
  · rw [wordOf_toNat_add_one] at hr
    exact ⟨_, ht, hr⟩

/-- Where the window ends at the last byte read, the cursor is indexed and HROLL raises `Range` (log entry 20). -/
theorem anchorRoll_of_window_end (hv : e.flags.hvalid = true) (hle : e.filled ≤ e.i.toNat + e.drvL.toNat) :
    ∃ ht : Table, (anchorLines e).andThen hrollLines =
      .raised { e with ht := ht } .range (e.i.toNat + e.drvL.toNat) := by
  obtain ⟨ht, hl⟩ := anchorLines_runs hv
  refine ⟨ht, ?_⟩
  rw [hl]
  exact hrollLines_of_window_end hv hle

/-! ### STEP -/

/-- The proper end of a STEP (R241). -/
structure Stepped (recCap : Nat) (e₀ e : Enc) : Prop where
  inv : EncInv recCap e
  i : e.i = e₀.i + 1
  cleared : e.flags.clearCand = e.flags
  stages : e₀.StepStages e

theorem stepLines_ends (h : EncInv recCap e) (hv : e.flags.hvalid = true)
    (hlt : e.i.toNat + e.drvL.toNat < e.filled) :
    (stepLines recCap e).Ends (Stepped recCap e) (StepOverflows recCap e) := by
  have hsearch := (searchLines_ends (h.setMatched false) rfl hv).of_start (e₀ := e) rfl rfl
  have hi := searchLines_i recCap { e with flags := { e.flags with matched := false } }
  have hw := searchLines_unwritten (op := 0x50) (by decide) recCap _ (Enc.unwritten_clearMatched (by decide) e)
  rw [stepLines_of_window hv hlt, Run.andThen_assoc]
  cases hs : searchLines recCap { e with flags := { e.flags with matched := false } } with
  | raised a x n =>
    rw [hs] at hsearch
    exact hsearch
  | done a =>
    rw [hs] at hsearch hi hw
    obtain ⟨ha, hstages⟩ := hsearch
    rw [Run.final_done] at hi hw
    have hva : a.flags.hvalid = true := (Enc.hvalid_of_unwritten (by decide) hw).trans hv
    have hlta : a.i.toNat + a.drvL.toNat < a.filled := by
      rw [hi, Enc.drvL_of_unwritten (by decide) hw, Enc.filled_of_unwritten (by decide) hw]
      exact hlt
    obtain ⟨hash, ht, hl⟩ := anchorRoll_runs ha hva hlta
    have hinv := ((anchorRoll_encInv ha).of_eq_done hl).1
    rw [Run.andThen_done, hl]
    exact ⟨hinv, congrArg (· + 1) hi, rfl, hstages.of_end rfl rfl⟩

end Lines

/-- Settles O39: the search overflows only where it staged nothing and `dataOffsets` was full; otherwise the window
moves on by one byte, and the write table gives the frame. -/
theorem stepAdvancesOneByte : Obligations.StepAdvancesOneByte := by
  intro s hr h hv hlt hroom
  have hends := stepLines_ends h hv hlt
  have hw := stepLines_unwritten (op := 0x50) (by decide) s.caps.recCap s.enc rfl
  have hleaves := stepLines_unwritten (op := 0x52) (by decide) s.caps.recCap s.enc rfl
  cases hl : stepLines s.caps.recCap s.enc with
  | raised e x n =>
    rw [hl] at hends
    obtain ⟨hover, hsame⟩ := hends
    have hruns : e.dataOffsets = s.enc.dataOffsets := (congrArg Enc.dataOffsets hsame :)
    exact absurd hroom (hruns ▸ hover.full).not_gt
  | done e =>
    rw [hl] at hends hw hleaves
    obtain ⟨hinv, hi, hcleared, hstages⟩ := hends
    refine ⟨e, exec_of_lines_done rfl hr (onEnc_of_done hl), hinv, hi, ?_, ?_⟩
    · have hframe := Enc.eq_of_leaves_of_cleared hleaves (Enc.lastI_of_unwritten (by decide) hw) hcleared
      rw [Enc.hvalid_of_unwritten (by decide) hw, hv] at hframe
      exact hframe
    · obtain ⟨hm, hsame⟩ | ⟨hm, hcount, hout, -⟩ := hstages
      · have hnrec : e.nrec = s.enc.nrec := (congrArg Enc.nrec hsame :)
        have hlast : e.lastMatch = s.enc.lastMatch := (congrArg Enc.lastMatch hsame :)
        simp [hm, hnrec, hlast]
      · have hne : e.nrec ≠ s.enc.nrec := fun heq => by rw [heq] at hcount; omega
        simp [hm, hcount, hne, hout.not_gt]

end Sys2Proof.Machine
end

section
/-! PROOFS. SKIP under the encoder invariants (R246): turn by turn the cursor moves up to the next multiple of `L`, or
to the end of the bytes read, where HROLL raises `Range`. -/

namespace Sys2Proof.Machine

open Sys2Proof

/-! ### The next multiple of `L` -/

/-- The least multiple of `L` from `i` up. -/
def nextBlock (L i : Nat) : Nat := (i + L - 1) / L * L

section NextBlock

variable {L i : Nat}

theorem le_nextBlock (hL : 1 ≤ L) : i ≤ nextBlock L i := by
  have hdiv := Nat.div_add_mod (i + L - 1) L
  have hmod := Nat.mod_lt (i + L - 1) hL
  rw [Nat.mul_comm] at hdiv
  unfold nextBlock
  omega

theorem nextBlock_of_multiple (hL : 1 ≤ L) (h : i % L = 0) : nextBlock L i = i := by
  obtain ⟨q, rfl⟩ := Nat.dvd_of_mod_eq_zero h
  rw [nextBlock, Nat.add_sub_assoc hL, Nat.mul_add_div hL, Nat.div_eq_of_lt (by omega), Nat.add_zero, Nat.mul_comm]

/-- Inside a block of `L` positions the end is the same from every position. -/
theorem nextBlock_of_inside {q r : Nat} (hr : 1 ≤ r) (hrL : r ≤ L) : nextBlock L (L * q + r) = L * q + L := by
  rw [nextBlock, Nat.add_sub_assoc (by omega), Nat.add_assoc, show r + (L - 1) = L + (r - 1) by omega,
    Nat.mul_add_div (by omega), Nat.add_div_left _ (by omega), Nat.div_eq_of_lt (by omega), Nat.mul_comm, Nat.mul_add]
  simp

theorem nextBlock_succ (hL : 1 ≤ L) (h : i % L ≠ 0) : nextBlock L (i + 1) = nextBlock L i := by
  have hlt := Nat.mod_lt i hL
  rw [← Nat.div_add_mod i L, nextBlock_of_inside (by omega) hlt.le, Nat.add_assoc, nextBlock_of_inside (by omega) hlt]

end NextBlock

/-! ### The loop of SKIP -/

/-- The proper end of SKIP. -/
structure Skipped (recCap filled L target : Nat) (e : Enc) : Prop where
  inv : EncInv recCap e
  cleared : e.flags.clearCand = e.flags
  i : e.i.toNat = target
  fits : target + L ≤ filled

/-- The fault of SKIP: the window at the next multiple of `L` would reach past the bytes read. -/
structure SkipStops (filled L target : Nat) (e : Enc) (x : Exn) (n : Nat) : Prop where
  cleared : e.flags.clearCand = e.flags
  code : x = .range
  info : n = filled
  i : e.i.toNat + L = filled
  beyond : filled < target + L

section SkipLoop

variable {recCap : Nat}

theorem EncInv.blockAligned_iff_drvL {e : Enc} (h : EncInv recCap e) :
    e.blockAligned = true ↔ e.i.toNat % e.drvL.toNat = 0 := by
  rw [h.blockAligned_iff, h.config.windowLength]

/-- Each turn moves the cursor up by one inside the bytes read, so the bound on the turns is not used up. -/
theorem skipLoop_ends {filled L target : Nat} : ∀ (n : Nat) (e : Enc), EncInv recCap e → e.flags.hvalid = true →
    e.flags.clearCand = e.flags → e.filled = filled → e.drvL.toNat = L → nextBlock L e.i.toNat = target →
    filled - e.i.toNat < n → (skipLoop n e).Ends (Skipped recCap filled L target) (SkipStops filled L target)
  | 0, _, _, _, _, _, _, _, hn => absurd hn (Nat.not_lt_zero _)
  | n + 1, e, h, hv, hc, hf, hL, ht, hn => by
    have hwindow := h.hash.windowRead hv
    have hpos := h.drvL_pos
    rw [hL] at hpos
    rw [skipLoop]
    split
    next ha =>
      rw [h.blockAligned_iff_drvL, hL] at ha
      rw [nextBlock_of_multiple hpos ha] at ht
      exact ⟨h, hc, ht, by omega⟩
    next ha =>
      rw [h.blockAligned_iff_drvL, hL] at ha
      have hnext := nextBlock_succ hpos ha
      obtain hlt | hend := Nat.lt_or_ge (e.i.toNat + e.drvL.toNat) e.filled
      · obtain ⟨hash, table, hl⟩ := anchorRoll_runs h hv hlt
        obtain ⟨hinv, hi, -⟩ := (anchorRoll_encInv h).of_eq_done hl
        rw [hl, Run.andThen_done]
        refine skipLoop_ends n _ hinv hv rfl hf hL ?_ ?_
        · rw [hi, hnext, ht]
        · omega
      · obtain ⟨table, hl⟩ := anchorRoll_of_window_end hv hend
        have := le_nextBlock (i := e.i.toNat + 1) hpos
        have hi : e.i.toNat + L = filled := by omega
        rw [hl]
        exact ⟨hc, rfl, by omega, hi, by omega⟩

theorem skipLines_ends {e : Enc} (h : EncInv recCap e) (hv : e.flags.hvalid = true) :
    (skipLines e).Ends (Skipped recCap e.filled e.drvL.toNat (nextBlock e.drvL.toNat e.i.toNat))
      (SkipStops e.filled e.drvL.toNat (nextBlock e.drvL.toNat e.i.toNat)) := by
  rw [skipLines, if_neg (by simp [hv])]
  exact skipLoop_ends _ _ h.clearCand hv rfl rfl rfl rfl (Nat.lt_succ_self _)

theorem skipLines_of_invalid {e : Enc} (hv : e.flags.hvalid = false) : skipLines e = .raised e .state 0x51 := by
  simp [skipLines, hv, opcode]

theorem skipLines_of_multiple {e : Enc} (hv : e.flags.hvalid = true) (ha : e.blockAligned = true) :
    skipLines e = .done e.clearCand := by
  have ha' : e.clearCand.blockAligned = true := ha
  simp [skipLines, hv, Enc.loopBound, skipLoop, ha']

/-- Elsewhere than at a multiple of `L` SKIP is one turn and then SKIP again: the turn that HROLL ended left a valid
hash, no candidate, and one turn less to go. -/
theorem skipLines_of_inside {e : Enc} (h : EncInv recCap e) (hv : e.flags.hvalid = true) (ha : e.blockAligned = false) :
    skipLines e = ((anchorLines e.clearCand).andThen hrollLines).andThen skipLines := by
  have ha' : e.clearCand.blockAligned = false := ha
  have hturn : skipLines e = ((anchorLines e.clearCand).andThen hrollLines).andThen
      (skipLoop (e.filled - e.i.toNat)) := by
    simp [skipLines, hv, Enc.loopBound, skipLoop, ha']
  rw [hturn]
  obtain hlt | hend := Nat.lt_or_ge (e.i.toNat + e.drvL.toNat) e.filled
  · obtain ⟨hash, table, hl⟩ := anchorRoll_runs h.clearCand hv hlt
    obtain ⟨-, hi, -⟩ := (anchorRoll_encInv h.clearCand).of_eq_done hl
    rw [hl, Run.andThen_done, Run.andThen_done, skipLines, if_neg (by simp [hv]), Enc.loopBound, hi]
    have hcount : e.filled - e.i.toNat = e.filled - (e.i.toNat + 1) + 1 := by omega
    rw [hcount]
    rfl
  · obtain ⟨table, hl⟩ := anchorRoll_of_window_end (e := e.clearCand) hv hend
    rw [hl]
    rfl

end SkipLoop

theorem EFlags.eq_of_unwritten_skip {f₀ f : EFlags} (h : f.unwritten 0x51 = f₀.unwritten 0x51)
    (hc : f.clearCand = f) : f = f₀.clearCand := by
  rw [← hc]
  cases f
  cases f₀
  simp_all [EFlags.unwritten, EFlags.clearCand, unlessWriter]

/-- What SKIP writes: the column "Written by" of R41 and the flag table of R55. -/
theorem Enc.eq_of_unwritten_skip {e₀ e : Enc} (h : e.unwritten 0x51 = e₀.unwritten 0x51)
    (hc : e.flags.clearCand = e.flags) :
    e = { e₀ with hash := e.hash, i := e.i, ht := e.ht, flags := e₀.flags.clearCand } := by
  have hflags : e.flags.unwritten 0x51 = e₀.flags.unwritten 0x51 := congrArg Enc.flags h
  rw [← EFlags.eq_of_unwritten_skip hflags hc]
  cases e
  cases e₀
  simp_all [Enc.unwritten, unlessWriter]

/-- Settles O40: the loop ends at the next multiple of `L` or stops short of it; elsewhere than at a multiple its first
turn is INSERT where due and HROLL, and what is left is SKIP again. -/
theorem skipReachesTheNextBlock : Obligations.SkipReachesTheNextBlock := by
  intro s hr h L target filled
  refine ⟨fun hv => exec_of_enc_raised rfl hr (skipLines_of_invalid hv), fun hv => ?_, fun hv => ?_⟩
  · have hends := skipLines_ends h hv
    have hw := skipLines_unwritten (op := 0x51) (by decide) s.enc rfl
    have hexec := exec_endIn (i := .skip) (f := skipLines) rfl hr
    cases hl : skipLines s.enc with
    | done e =>
      rw [hl] at hends hw hexec
      obtain ⟨hinv, hc, hi, hfits⟩ := hends
      refine ⟨e, Enc.eq_of_unwritten_skip hw hc, fun _ => ⟨hexec, ?_, hinv⟩, fun hlt => absurd hlt hfits.not_gt⟩
      have htarget : e.i.toNat = target := hi
      simp [← htarget]
    | raised e x n =>
      rw [hl] at hends hw hexec
      obtain ⟨hc, rfl, rfl, hi, hbeyond⟩ := hends
      exact ⟨e, Enc.eq_of_unwritten_skip hw hc, fun hle => absurd hbeyond hle.not_gt, fun _ => ⟨hexec, hi⟩⟩
  · intro cleared indexed
    have haligned := h.blockAligned_iff_drvL
    refine ⟨fun ha => exec_of_enc_done rfl hr (skipLines_of_multiple hv (haligned.2 ha)), fun ha => ?_⟩
    have hturn := (performs_anchor s.caps.recCap).andThen (performs_hroll _)
    have hexec := exec_endIn (i := .skip) (f := skipLines) rfl hr
    rw [skipLines_of_inside h hv (by simpa using mt haligned.1 ha)] at hexec
    have hskip := (performs_skip s.caps.recCap).endIn_andThen (s := cleared) rfl (hturn.keeps cleared.enc hr)
    rw [← hturn.ready cleared hr rfl] at hskip
    exact (hexec.trans (congrArg _ hskip)).trans (exec_eq_next _ _).symm

end Sys2Proof.Machine
end

section
/-! PROOFS. SCAN under the encoder invariants (R248, R249): block by block the cursor moves up by `L` until the margin
is reached or the staging overflows. -/

namespace Sys2Proof.Machine

open Sys2Proof

/-! ### What every part of SCAN keeps -/

/-- What SCAN keeps at every point of its work: what it does not write, the records staged before, and LAST_I, which it
updates at its proper end only (R249). -/
structure Enc.WorkKept (e₀ e : Enc) : Prop where
  leaves : Enc.Leaves 0x52 e₀ e
  records : e₀.RecordsKept e
  lastI : e.lastI = e₀.lastI

section WorkKept

variable {e₀ e₁ e : Enc}

theorem Enc.WorkKept.trans (h : e₀.WorkKept e₁) (h' : e₁.WorkKept e) : e₀.WorkKept e :=
  ⟨h'.leaves.trans h.leaves, h.records.trans h'.records, h'.lastI.trans h.lastI⟩

theorem Enc.WorkKept.refl (e : Enc) : e.WorkKept e := ⟨rfl, .of_stagingPart rfl, rfl⟩

/-- Lines that stage nothing and leave LAST_I keep the work. -/
theorem Enc.WorkKept.of_unwritten {op : Byte} (hleaves : Enc.Leaves 0x52 e₀ e) (hop : op ∉ stagingWriters)
    (hlast : op ∉ encSetup ++ [0x52, 0x53]) (h : e.unwritten op = e₀.unwritten op) : e₀.WorkKept e :=
  ⟨hleaves, .of_stagingPart (Enc.stagingPart_of_unwritten hop h), Enc.lastI_of_unwritten hlast h⟩

theorem Enc.WorkKept.drvL (h : e₀.WorkKept e) : e.drvL = e₀.drvL := Enc.drvL_of_unwritten (by decide) h.leaves

theorem Enc.WorkKept.drvTest (h : e₀.WorkKept e) : e.drvTest = e₀.drvTest :=
  Enc.drvTest_of_unwritten (by decide) h.leaves

theorem Enc.WorkKept.filled (h : e₀.WorkKept e) : e.filled = e₀.filled := Enc.filled_of_unwritten (by decide) h.leaves

theorem Enc.WorkKept.cycopen (h : e₀.WorkKept e) : e.flags.cycopen = e₀.flags.cycopen :=
  (congrArg (fun e : Enc => e.flags.cycopen) (Enc.eq_of_leaves h.leaves h.lastI) :)

theorem Enc.WorkKept.ready (h : e₀.WorkKept e) (hr : e₀.Ready) : e.Ready := hr.of_unwritten (by decide) h.leaves

end WorkKept

/-- The restart: the cursor at LAST_I, the hash kept only if it stands there already (R248). -/
theorem restart_eq (e : Enc) : restart e = { e with
    i := e.lastI
    flags := { e.flags.clearCand with hvalid := e.flags.hvalid && e.i == e.lastI } } := by
  unfold restart
  split
  next h => simp [h, Enc.clearCand, EFlags.clearCand]
  next h => simp [h, EFlags.dropHash]

theorem restart_workKept (e : Enc) : e.WorkKept (restart e) := by
  refine ⟨restart_unwritten e, ?_, ?_⟩ <;> rw [restart_eq]
  exact .of_stagingPart rfl

/-- The fault of a part of SCAN that began in `e₀`. -/
def ScanFaults (recCap : Nat) (e₀ e : Enc) (x : Exn) (n : Nat) : Prop := Overflow recCap e x n ∧ e₀.WorkKept e

/-- The proper end of a part of SCAN that began in `e₀`: the cursor `d` positions further, with the hash of its window
and no candidate. -/
structure Advanced (recCap : Nat) (e₀ : Enc) (d : Nat) (e : Enc) : Prop where
  inv : EncInv recCap e
  hvalid : e.flags.hvalid = true
  cleared : e.flags.clearCand = e.flags
  i : e.i.toNat = e₀.i.toNat + d
  kept : e₀.WorkKept e

/-- The two ends of a part of SCAN. -/
def Advances (recCap : Nat) (e₀ : Enc) (d : Nat) (r : Run Enc) : Prop :=
  r.Ends (Advanced recCap e₀ d) (ScanFaults recCap e₀)

section Scan

variable {recCap : Nat} {e : Enc}

theorem Advances.andThen {d d' : Nat} {r : Run Enc} {f : Enc → Run Enc} (hr : Advances recCap e d r)
    (hf : ∀ t, Advanced recCap e d t → Advances recCap t d' (f t)) : Advances recCap e (d + d') (r.andThen f) :=
  Run.Ends.andThen hr fun t ht => (hf t ht).imp
    (fun u hu => ⟨hu.inv, hu.hvalid, hu.cleared, by rw [hu.i, ht.i, Nat.add_assoc], ht.kept.trans hu.kept⟩)
    fun u x n hu => ⟨hu.1, ht.kept.trans hu.2⟩

/-! ### One block -/

theorem rehashLines_advances (h : EncInv recCap e) (hc : e.flags.clearCand = e.flags)
    (hle : e.i.toNat + e.drvL.toNat ≤ e.filled) : Advances recCap e 0 (rehashLines e) := by
  unfold rehashLines
  split
  next hv => exact ⟨h, hv, hc, rfl, .refl e⟩
  next =>
    have hinv := hinitLines_encInv h
    have hkept : e.WorkKept (hinitLines e).final :=
      .of_unwritten (op := 0x13) (hinitLines_unwritten (by decide) e) (by decide) (by decide)
        (hinitLines_unwritten (by decide) e)
    obtain ⟨hlt, -⟩ | ⟨-, a, -, hl⟩ | ⟨-, bs, -, hl⟩ := hinitLines_cases e
    · omega
    · exact absurd hl (hinitLines_noUninit h).ne_raised
    · rw [hl] at hinv hkept ⊢
      exact ⟨hinv, rfl, rfl, rfl, hkept⟩

/-- One STEP, inside a SCAN. -/
theorem stepLines_advances (h : EncInv recCap e) (hv : e.flags.hvalid = true)
    (hlt : e.i.toNat + e.drvL.toNat < e.filled) : Advances recCap e 1 (stepLines recCap e) := by
  have hends := stepLines_ends h hv hlt
  have hwritten := stepLines_unwritten (op := 0x50) (by decide) recCap e rfl
  have hleaves := stepLines_unwritten (op := 0x52) (by decide) recCap e rfl
  have hlast : (stepLines recCap e).final.lastI = e.lastI :=
    Enc.lastI_of_unwritten (by decide) hwritten
  cases hl : stepLines recCap e with
  | raised t x n =>
    rw [hl] at hends hleaves hlast
    obtain ⟨hover, hsame⟩ := hends
    exact ⟨hover, hleaves, .of_stagingPart hsame, hlast⟩
  | done t =>
    rw [hl] at hends hwritten hleaves hlast
    obtain ⟨hinv, hi, hcleared, hstages⟩ := hends
    have hrecords : e.RecordsKept t := by
      obtain ⟨-, hsame⟩ | ⟨-, -, -, hkept⟩ := hstages
      · exact .of_stagingPart hsame
      · exact hkept
    have hnat : t.i.toNat = e.i.toNat + 1 := by
      rw [hi, ← wordOf_toNat_add_one, toNat_wordOf]
      have := h.filled_le
      omega
    exact ⟨hinv, (Enc.hvalid_of_unwritten (by decide) hwritten).trans hv, hcleared, hnat, hleaves, hrecords, hlast⟩

theorem steps_advance : ∀ (n : Nat) (e : Enc), EncInv recCap e → e.flags.hvalid = true →
    e.flags.clearCand = e.flags → e.i.toNat + n + e.drvL.toNat ≤ e.filled →
    Advances recCap e n (Run.times (stepLines recCap) n e)
  | 0, e, h, hv, hc, _ => ⟨h, hv, hc, rfl, .refl e⟩
  | n + 1, e, h, hv, hc, hle => by
    rw [Run.times, Nat.add_comm]
    refine (stepLines_advances h hv (by omega)).andThen fun t ht => ?_
    refine steps_advance n t ht.inv ht.hvalid ht.cleared ?_
    rw [ht.i, ht.kept.drvL, ht.kept.filled]
    omega

/-- SKIP to a multiple of `L` with a window behind it. -/
theorem skipLines_advances {d : Nat} (h : EncInv recCap e) (hv : e.flags.hvalid = true)
    (hd : nextBlock e.drvL.toNat e.i.toNat = e.i.toNat + d) (hle : e.i.toNat + d + e.drvL.toNat ≤ e.filled) :
    Advances recCap e d (skipLines e) := by
  have hends := skipLines_ends h hv
  have hwritten := skipLines_unwritten (op := 0x51) (by decide) e rfl
  have hkept : e.WorkKept (skipLines e).final :=
    .of_unwritten (skipLines_unwritten (by decide) e rfl) (by decide) (by decide) hwritten
  rw [hd] at hends
  cases hl : skipLines e with
  | raised t x n =>
    rw [hl] at hends
    exact absurd hends.beyond hle.not_gt
  | done t =>
    rw [hl] at hends hwritten hkept
    exact ⟨hends.inv, (Enc.hvalid_of_unwritten (by decide) hwritten).trans hv, hends.cleared, hends.i, hkept⟩

/-- A block makes at least one STEP and at most `L` (R11). -/
theorem EncInv.drvTest_range (h : EncInv recCap e) : 1 ≤ e.drvTest.toNat ∧ e.drvTest.toNat ≤ e.drvL.toNat := by
  have hk := subsample_pos (windowLen e.cfgS.toNat)
  have hkA := Nat.mul_pos hk h.config.aPos
  have hL := windowLen_pos e.cfgS.toNat
  rw [h.config.probes, h.config.windowLength, probesPerBlock]
  omega

/-- One block moves the cursor from a multiple of `L` to the next. -/
theorem blockLines_advances (h : EncInv recCap e) (hc : e.flags.clearCand = e.flags)
    (ha : e.i.toNat % e.drvL.toNat = 0) (hlt : e.i.toNat + 2 * e.drvL.toNat < e.filled) :
    Advances recCap e e.drvL.toNat (blockLines recCap e) := by
  obtain ⟨hpos, hle⟩ := h.drvTest_range
  have hsteps : Advances recCap e e.drvTest.toNat
      ((rehashLines e).andThen fun e => Run.times (stepLines recCap) e.drvTest.toNat e) := by
    rw [← Nat.zero_add e.drvTest.toNat]
    refine (rehashLines_advances h hc (by omega)).andThen fun t ht => ?_
    have hi := ht.i
    rw [ht.kept.drvTest]
    refine steps_advance _ t ht.inv ht.hvalid ht.cleared ?_
    rw [ht.kept.drvL, ht.kept.filled]
    omega
  obtain ⟨q, hq⟩ := Nat.dvd_of_mod_eq_zero ha
  have hskip := nextBlock_of_inside (q := q) hpos hle
  rw [← Nat.add_sub_of_le hle, blockLines]
  refine hsteps.andThen fun t ht => ?_
  have hi := ht.i
  have hL := ht.kept.drvL
  refine skipLines_advances ht.inv ht.hvalid ?_ ?_
  · rw [hL, hi, hq, hskip]
    omega
  · rw [hL, ht.kept.filled]
    omega

/-! ### The loop -/

/-- The proper end of SCAN's loop, begun at position `p₀` in a context that agrees with `e₀` in what SCAN keeps: the
first multiple of `L` from `p₀` up with at most `2L` bytes behind it. -/
structure Scanned (recCap : Nat) (e₀ : Enc) (p₀ : Nat) (e : Enc) : Prop where
  inv : EncInv recCap e
  cleared : e.flags.clearCand = e.flags
  kept : e₀.WorkKept e
  aligned : e.i.toNat % e₀.drvL.toNat = 0
  onward : p₀ ≤ e.i.toNat
  margin : e₀.filled ≤ e.i.toNat + 2 * e₀.drvL.toNat
  first : ∀ p, p₀ ≤ p → p < e.i.toNat → p % e₀.drvL.toNat = 0 → p + 2 * e₀.drvL.toNat < e₀.filled

theorem Scanned.of_start {p₀ : Nat} {e₁ t : Enc} (hk : e.WorkKept e₁) (h : Scanned recCap e₁ p₀ t) :
    Scanned recCap e p₀ t := by
  obtain ⟨hinv, hc, hkept, haligned, honward, hmargin, hfirst⟩ := h
  rw [hk.drvL] at haligned hmargin hfirst
  rw [hk.filled] at hmargin hfirst
  exact ⟨hinv, hc, hk.trans hkept, haligned, honward, hmargin, hfirst⟩

/-- The only multiple of `L` in a block is its first position. -/
theorem Scanned.of_block {t : Enc} (hlt : e.i.toNat + 2 * e.drvL.toNat < e.filled)
    (ha : e.i.toNat % e.drvL.toNat = 0) (h : Scanned recCap e (e.i.toNat + e.drvL.toNat) t) :
    Scanned recCap e e.i.toNat t := by
  refine { h with onward := Nat.le_of_add_right_le h.onward, first := fun p hlo hhi hp => ?_ }
  obtain hbefore | hbehind := Nat.lt_or_ge p (e.i.toNat + e.drvL.toNat)
  · have hzero := Nat.sub_mod_eq_zero_of_mod_eq (hp.trans ha.symm)
    rw [Nat.mod_eq_of_lt (by omega)] at hzero
    omega
  · exact h.first p hbehind hhi hp

/-- Each block moves the cursor up, so the bound on the blocks is not used up. -/
theorem scanLoop_ends : ∀ (n : Nat) (e : Enc), EncInv recCap e → e.flags.clearCand = e.flags →
    e.i.toNat % e.drvL.toNat = 0 → e.filled - e.i.toNat < n →
    (scanLoop recCap n e).Ends (Scanned recCap e e.i.toNat) (ScanFaults recCap e)
  | 0, _, _, _, _, hn => absurd hn (Nat.not_lt_zero _)
  | n + 1, e, h, hc, ha, hn => by
    have hpos := h.drvL_pos
    obtain ⟨hmargin, hl⟩ | ⟨hlt, hl⟩ := scanLoop_succ recCap n e <;> rw [hl]
    · exact ⟨h, hc, .refl e, ha, le_rfl, hmargin, fun p hlo hhi => by omega⟩
    · refine Run.Ends.andThen (blockLines_advances h hc ha hlt) fun t ht => ?_
      have hat : t.i.toNat % t.drvL.toNat = 0 := by
        rw [ht.i, ht.kept.drvL, Nat.add_mod_right, ha]
      have hloop := scanLoop_ends n t ht.inv ht.cleared hat (by rw [ht.i, ht.kept.filled]; omega)
      rw [ht.i] at hloop
      exact hloop.imp (fun u hu => (hu.of_start ht.kept).of_block hlt ha) fun u x k hu => ⟨hu.1, ht.kept.trans hu.2⟩

theorem restart_cleared (e : Enc) : (restart e).flags.clearCand = (restart e).flags := by
  rw [restart_eq]
  rfl

/-- SCAN's loop after the restart. -/
def scanRun (recCap : Nat) (e : Enc) : Run Enc := scanLoop recCap (restart e).loopBound (restart e)

theorem scanRun_ends (h : EncInv recCap e) :
    (scanRun recCap e).Ends (Scanned recCap e e.lastI.toNat) (ScanFaults recCap e) := by
  have hk := restart_workKept e
  have haligned := (restart_encInv h).blockAligned_iff_drvL.1 (restart_blockAligned h)
  have hloop := scanLoop_ends (restart e).loopBound _ (restart_encInv h) (restart_cleared e) haligned
    (Nat.lt_succ_self _)
  rw [restart_i] at hloop
  exact hloop.imp (fun _ ht => ht.of_start hk) fun _ _ _ ht => ⟨ht.1, hk.trans ht.2⟩

/-- Where the staging can hold a record for every byte no record overflows it: each has taken a byte of its own. -/
theorem Overflow.capacity_lt {x : Exn} {n : Nat} (h : Overflow recCap e x n) (hopen : e.flags.cycopen = true) :
    recCap < e.filled := by
  obtain ⟨-, -, hinv, hfull, htail⟩ := h
  have hruns := hinv.staging.openRuns hopen
  have hsame := hinv.staging.sameRuns
  have hcount := hinv.staging.recordCount.resolve_right (by omega)
  omega

theorem scanRun_runs (h : EncInv recCap e) (hopen : e.flags.cycopen = true) (hcap : e.filled ≤ recCap) :
    ∃ t, scanRun recCap e = .done t ∧ Scanned recCap e e.lastI.toNat t := by
  have hends := scanRun_ends h
  cases hl : scanRun recCap e with
  | raised t x n =>
    rw [hl] at hends
    obtain ⟨hover, hk⟩ := hends
    have hlt := hover.capacity_lt (hk.cycopen.trans hopen)
    rw [hk.filled] at hlt
    exact absurd hcap hlt.not_ge
  | done t =>
    rw [hl] at hends
    exact ⟨t, rfl, hends⟩

theorem scanLines_of_closed (hc : e.flags.cycopen = false) : scanLines recCap e = .raised e .state 0x52 := by
  simp [scanLines, hc, opcode]

theorem scanLines_of_open (hc : e.flags.cycopen = true) : scanLines recCap e =
    (scanRun recCap e).andThen fun e => .done { e with lastI := e.i } := by
  simp [scanLines, scanRun, hc]

end Scan

theorem raise_enc_of_not_faulted {s : State} (hf : s.enc.flags.efault = false) (x : Exn) (n : Nat) :
    raise .enc x n s = { s with enc := { s.enc with
      eerr := x.code, eerrinfo := wordOf n, flags := { s.enc.flags with efault := true } } } :=
  if_neg (by simp [faulted, hf])

/-- Settles O42: the loop faults by `StageOvf` only, with the work kept; where it ends properly nothing has faulted. -/
theorem scanFaultsKeepTheWorkDone : Obligations.ScanFaultsKeepTheWorkDone := by
  intro s hr
  refine ⟨fun hc => exec_of_lines_raised rfl hr (onEnc_of_raised (scanLines_of_closed hc)), fun hc h t ht hf => ?_⟩
  have hends := scanRun_ends h
  have hexec := exec_endIn (i := .scan) (f := scanLines s.caps.recCap) rfl hr
  rw [scanLines_of_open hc, ht] at hexec
  obtain rfl := Host.Outcome.next.inj hexec
  cases hl : scanRun s.caps.recCap s.enc with
  | done e =>
    rw [hl] at hends hf
    obtain ⟨hnone, -⟩ := hends.kept.ready hr
    exact absurd (hnone.symm.trans hf) nofun
  | raised e x n =>
    rw [hl] at hends
    obtain ⟨⟨rfl, rfl, -, -, -⟩, hkept⟩ := hends
    obtain ⟨hlens, hoffsets, hdatalens, hdataOffsets⟩ := hkept.records
    have hframe := Enc.eq_of_leaves hkept.leaves hkept.lastI
    have hinfo : wordOf e.nrec.toNat = e.nrec := by simp
    rw [Run.andThen_raised, endIn, raise_enc_of_not_faulted (hkept.ready hr).1]
    exact ⟨rfl, hinfo, hkept.lastI, hlens, hoffsets, hdatalens, hdataOffsets, (congrArg Enc.buf hframe :),
      (congrArg Enc.base hframe :), (congrArg Enc.size hframe :)⟩

/-! ### SCAN as a sequence of commands -/

section Blocks

/-- HINIT on demand. -/
def hashed (u : State) : State := if u.enc.flags.hvalid = true then u else after .hinit u

/-- One block of SCAN as the host could issue it, with `T` STEPs. -/
def blockOf (T : Nat) (u : State) : State := after .skip ((after .step)^[T] (hashed u))

theorem performs_hashed (recCap : Nat) : Performs recCap hashed rehashLines := by
  have hinit := (performs_hinit recCap).ite fun e => ¬ e.flags.hvalid = true
  simp only [ite_not] at hinit
  exact hinit

theorem performs_block (recCap T : Nat) : Performs recCap (blockOf T)
    (fun e => ((rehashLines e).andThen (Run.times (stepLines recCap) T)).andThen skipLines) :=
  ((performs_hashed recCap).andThen ((performs_step recCap).iterate T)).andThen (performs_skip recCap)

/-- HINIT leaves the number of STEPs. -/
theorem blockLines_eq (recCap : Nat) (e : Enc) : blockLines recCap e =
    ((rehashLines e).andThen (Run.times (stepLines recCap) e.drvTest.toNat)).andThen skipLines := by
  have htest : (rehashLines e).final.drvTest = e.drvTest :=
    Enc.drvTest_of_unwritten (op := 0x52) (by decide) (rehashLines_unwritten e rfl)
  unfold blockLines
  cases hl : rehashLines e with
  | raised t x n => rfl
  | done t =>
    rw [hl] at htest
    rw [Run.andThen_done, Run.andThen_done, ← htest]
    rfl

/-- SCAN's loop is a number of blocks, each begun without a fault and ahead of the margin. -/
theorem scanLoop_blocks {s : State} {e₀ : Enc} : ∀ (n : Nat) (e : Enc), e.Ready → Enc.Leaves 0x52 e₀ e →
    ∃ m : Nat,
      (∀ j, j < m →
        ((blockOf e₀.drvTest.toNat)^[j] { s with enc := e }).enc.flags.efault = false ∧
        ((blockOf e₀.drvTest.toNat)^[j] { s with enc := e }).enc.i.toNat + 2 * e₀.drvL.toNat < e₀.filled) ∧
      (blockOf e₀.drvTest.toNat)^[m] { s with enc := e } = endIn s (scanLoop s.caps.recCap n e)
  | 0, _, _, _ => ⟨0, fun j hj => absurd hj (Nat.not_lt_zero j), rfl⟩
  | n + 1, e, hr, hw => by
    obtain ⟨-, hl⟩ | ⟨hlt, hl⟩ := scanLoop_succ s.caps.recCap n e <;> rw [hl]
    · exact ⟨0, fun j hj => absurd hj (Nat.not_lt_zero j), rfl⟩
    · have hblock : blockOf e₀.drvTest.toNat { s with enc := e } = endIn s (blockLines s.caps.recCap e) := by
        rw [blockLines_eq, Enc.drvTest_of_unwritten (by decide) hw]
        exact (performs_block _ _).ready { s with enc := e } hr rfl
      have hwb := blockLines_unwritten s.caps.recCap e hw
      rw [Enc.drvL_of_unwritten (by decide) hw, Enc.filled_of_unwritten (by decide) hw] at hlt
      cases hb : blockLines s.caps.recCap e with
      | raised t x k =>
        rw [hb] at hblock
        refine ⟨1, fun j hj => ?_, hblock⟩
        obtain rfl : j = 0 := by omega
        exact ⟨hr.1, hlt⟩
      | done t =>
        rw [hb] at hblock hwb
        have hready : t.Ready := hr.of_unwritten (op := 0x52) (by decide) (hwb.trans hw.symm)
        obtain ⟨m, hbefore, hend⟩ := scanLoop_blocks n t hready hwb
        refine ⟨m + 1, fun j hj => ?_, ?_⟩
        · cases j with
          | zero => exact ⟨hr.1, hlt⟩
          | succ j =>
            rw [Function.iterate_succ_apply, hblock]
            exact hbefore j (by omega)
        · rw [Function.iterate_succ_apply, hblock]
          exact hend

end Blocks

/-- Settles O41: the loop is a number of blocks, which without a fault end at the margin; with a record's room for every
byte there is no fault. -/
theorem scanRunsToTheMargin : Obligations.ScanRunsToTheMargin := by
  intro s hr h hopen L filled start hashed block
  have hends := scanRun_ends h
  have hexec := exec_endIn (i := .scan) (f := scanLines s.caps.recCap) rfl hr
  rw [scanLines_of_open hopen] at hexec
  constructor
  · have hk := restart_workKept s.enc
    have hstart : start = { s with enc := restart s.enc } := by
      rw [restart_eq]
      rfl
    obtain ⟨m, hbefore, hend⟩ := scanLoop_blocks (s := s) (restart s.enc).loopBound _ (hk.ready hr) hk.leaves
    rw [← hstart] at hbefore hend
    refine ⟨m, hbefore, ?_⟩
    intro u
    have hu : u = endIn s (scanRun s.caps.recCap s.enc) := hend
    rw [hu]
    cases hl : scanRun s.caps.recCap s.enc with
    | raised e x n =>
      rw [hl] at hexec
      have hfault : (raise .enc x n { s with enc := e }).enc.flags.efault = true := faulted_raise .enc x n _
      exact ⟨fun _ => hexec, fun hno => absurd (hno.symm.trans hfault) nofun⟩
    | done e =>
      rw [hl] at hexec hends
      obtain ⟨hnone, -⟩ := hends.kept.ready hr
      exact ⟨fun hyes => absurd (hnone.symm.trans hyes) nofun, fun _ => ⟨hends.margin, hexec⟩⟩
  · intro hcap
    obtain ⟨e, hl, hscanned⟩ := scanRun_runs h hopen hcap
    have hinv := scanLines_encInv h
    rw [scanLines_of_open hopen, hl] at hinv
    rw [hl] at hexec
    obtain ⟨-, hc, hk, ha, honward, hmargin, hfirst⟩ := hscanned
    have hframe := Enc.eq_of_leaves_of_cleared hk.leaves hk.lastI hc
    exact ⟨{ e with lastI := e.i }, hexec, hinv, rfl, ha, honward, hmargin, hfirst,
      congrArg (fun u : Enc => { u with lastI := e.i }) hframe⟩

end Sys2Proof.Machine
end

section
/-! PROOFS. The statements of `44_scan.md` about ENDCYC and FINAL: the ends of their lines, fault by fault in the order
of their tests. -/

namespace Sys2Proof.Machine

open Sys2Proof

/-! ### ENDCYC (R252) -/

section EndcycLines

variable {recCap : Nat} {e : Enc}

theorem runsFull_iff : e.runsFull recCap = true ↔
    e.nrec.toNat = recCap ∨ recCap ≤ e.dataOffsets.length ∨ recCap ≤ e.datalens.length := by
  simp [Enc.runsFull, or_assoc]

/-- The closing run reaches from LAST_MATCH to `tail`; where LAST_MATCH is beyond `tail` it is empty. -/
theorem closeRun_pushes (tail : Word) (e : Enc) : closeRun tail e = { e with
    dataOffsets := e.dataOffsets ++ [e.lastMatch]
    datalens := e.datalens ++
      [if tail.toNat < e.lastMatch.toNat then 0 else wordOf (tail.toNat - e.lastMatch.toNat)]
    lastMatch := if tail.toNat < e.lastMatch.toNat then e.lastMatch else tail } := by
  unfold closeRun
  split <;> rfl

theorem endcycLines_of_closed (hc : e.flags.cycopen = false) : endcycLines recCap e = .raised e .state 0x53 := by
  simp [endcycLines, hc, opcode]

theorem endcycLines_of_full (hc : e.flags.cycopen = true) (hfull : e.runsFull recCap = true) :
    endcycLines recCap e = .raised e .stageOvf e.nrec.toNat := by
  simp [endcycLines, hc, hfull]

theorem endcycLines_of_cycle_end (hc : e.flags.cycopen = true) (hroom : ¬ e.runsFull recCap = true)
    (hlap : e.filled ≠ e.cfgB.toNat) : endcycLines recCap e = .done (closeCycle (closeRun e.lastI e)) := by
  simp [endcycLines, hc, hroom, Enc.lapEnds, hlap]

theorem endcycLines_of_lap_end (hc : e.flags.cycopen = true) (hroom : ¬ e.runsFull recCap = true)
    (hlap : e.filled = e.cfgB.toNat) : endcycLines recCap e = .done (closeLap (closeRun e.cfgB e)) := by
  simp [endcycLines, hc, hroom, Enc.lapEnds, hlap]

end EndcycLines

/-- Settles O43: the ends of the lines in the order of their tests; `closeRun_pushes` is the run that both proper ends
push. -/
theorem endcycClosesTheCycle : Obligations.EndcycClosesTheCycle := by
  intro s hr filled full cleared run
  have hfull : s.enc.runsFull s.caps.recCap = true ↔ full := runsFull_iff
  refine ⟨fun hc => exec_of_lines_raised rfl hr (onEnc_of_raised (endcycLines_of_closed hc)),
    fun hc hf => exec_of_lines_raised rfl hr (onEnc_of_raised (endcycLines_of_full hc (hfull.2 hf))),
    fun hc hroom => ⟨fun hlap => ?_, fun hlap => ?_⟩⟩
  · have hl := endcycLines_of_cycle_end hc (mt hfull.1 hroom) hlap
    rw [closeRun_pushes] at hl
    exact exec_of_lines_done rfl hr (onEnc_of_done hl)
  · have hl := endcycLines_of_lap_end hc (mt hfull.1 hroom) hlap
    rw [closeRun_pushes] at hl
    exact exec_of_lines_done rfl hr (onEnc_of_done hl)

/-! ### FINAL (R255) -/

section FinalLines

variable {recCap : Nat} {e : Enc}

theorem finalLines_of_open_or_final (h : e.flags.cycopen = true ∨ e.flags.final = true) :
    finalLines recCap e = .raised e .state 0x54 := by
  obtain h | h := h <;> simp [finalLines, h, opcode]

theorem finalLines_of_no_room (hc : e.flags.cycopen = false) (hf : e.flags.final = false) (h0 : recCap = 0) :
    finalLines recCap e = .raised e .stageOvf 0 := by
  simp [finalLines, hc, hf, h0]

theorem finalLines_of_room (hc : e.flags.cycopen = false) (hf : e.flags.final = false) (h0 : recCap ≠ 0) :
    finalLines recCap e = .done { e.clearStaging with
      dataOffsets := [e.lastMatch]
      datalens := [wordOf (e.base.toNat - e.lastMatch.toNat)]
      lastMatch := e.base
      flags := { e.flags.clearCand with final := true } } := by
  simp [finalLines, hc, hf, h0]

end FinalLines

/-- Settles O44: the three ends of the lines. -/
theorem finalStagesTheTail : Obligations.FinalStagesTheTail := by
  intro s hr
  refine ⟨fun h => exec_of_lines_raised rfl hr (onEnc_of_raised (finalLines_of_open_or_final h)),
    fun hc hf => ⟨fun h0 => ?_, fun h0 => ?_⟩⟩
  · exact exec_of_lines_raised rfl hr (onEnc_of_raised (finalLines_of_no_room hc hf h0))
  · exact exec_of_lines_done rfl hr (onEnc_of_done (finalLines_of_room hc hf h0))

end Sys2Proof.Machine
end

section
/-! PROOFS. The statements of `45_segment_reconstruction.md` about DINIT and DFLUSH: the ends of their lines. -/

namespace Sys2Proof.Machine

open Sys2Proof

/-! ### DINIT (R266) -/

section DinitLines

variable {caps : Caps} {B s0 : Word} {d : Dec}

theorem dinitLines_of_dok (h : d.flags.dok = true) : dinitLines caps B s0 d = .raised d .state 0x60 := by
  simp [dinitLines, h, opcode]

/-- The tests after the first, in their order; where they pass the decoder is set up. -/
theorem dinitLines_of_not_dok (h : d.flags.dok = false) : dinitLines caps B s0 d =
    if B.toNat = 0 then .raised d .cfg 7
    else if 2 ^ 31 < B.toNat then .raised d .cfg 5
    else if s0.toNat = 0 ∨ B.toNat < s0.toNat then .raised d .cfg 8
    else if caps.seg0Cap < s0.toNat then .raised d .noMem 3
    else if caps.seg1Cap < B.toNat - s0.toNat then .raised d .noMem 4
    else .done (setUp B s0 d) := if_neg (by simp [h])

end DinitLines

section DinitCommand

variable {s : State}

theorem exec_dinit_of_raised {x : Exn} {n : Nat} (hf : s.dec.flags.dfault = false)
    (hl : dinitLines s.caps s.arg0 s.arg1 s.dec = .raised s.dec x n) : exec .dinit s = .next (raise .dec x n s) := by
  show unlessFaulted .dec (fun s => onDec (dinitLines s.caps s.arg0 s.arg1) s) s = _
  simp [unlessFaulted, faulted, hf, onDec, hl, finish]

theorem exec_dinit_of_done {d : Dec} (hf : s.dec.flags.dfault = false)
    (hl : dinitLines s.caps s.arg0 s.arg1 s.dec = .done d) : exec .dinit s = .next { s with dec := d } := by
  show unlessFaulted .dec (fun s => onDec (dinitLines s.caps s.arg0 s.arg1) s) s = _
  simp [unlessFaulted, faulted, hf, onDec, hl, finish]

end DinitCommand

/-- Settles O45: the ends of the lines, test by test. -/
theorem dinitSetsTheDecoderUp : Obligations.DinitSetsTheDecoderUp := by
  intro s hf B s0 stops
  have stop {x : Exn} {n : Nat} (hl : dinitLines s.caps s.arg0 s.arg1 s.dec = .raised s.dec x n) : stops x n :=
    exec_dinit_of_raised hf hl
  refine ⟨fun hd => stop (dinitLines_of_dok hd), fun hd => ?_⟩
  have hlines := dinitLines_of_not_dok (caps := s.caps) (B := s.arg0) (s0 := s.arg1) hd
  refine ⟨fun h0 => stop ?_, fun hB => stop ?_, fun h0 hB hs => stop ?_, fun hB hs hle => ?_⟩
  · exact hlines.trans (if_pos h0)
  · rw [hlines, if_neg (by omega), if_pos hB]
  · rw [hlines, if_neg h0, if_neg hB.not_gt, if_pos hs]
  · rw [if_neg (by omega), if_neg hB.not_gt, if_neg (by omega)] at hlines
    refine ⟨fun h3 => stop ?_, fun h3 h4 => stop ?_, fun h3 h4 => exec_dinit_of_done hf ?_⟩
    · rw [hlines, if_pos h3]
    · rw [hlines, if_neg h3.not_gt, if_pos h4]
    · rw [hlines, if_neg h3.not_gt, if_neg h4.not_gt]
      rfl

/-! ### DFLUSH (R274) -/

/-- The state with the write event of `bs` on DOUT recorded and its answer taken (R21, R119). -/
def State.withEvent (bs : List Byte) (s : State) : State :=
  { s with ports := { s.ports with
    doutAnswers := s.ports.doutAnswers.tail
    dout := s.ports.dout ++ [⟨bs, nextAnswer s.ports.doutAnswers⟩] } }

/-- Where the invariants hold `flush` ends in one of three ways: nothing pending, or the pending bytes in one event
that the sink accepts or refuses (R268). -/
theorem flushLines_ends {s : State} (h : DecInv s.dec) :
    (s.dec.dLast = s.dec.dData ∧ flushLines s = .done { s with dec := s.dec.markFlushed }) ∨
    (s.dec.dLast ≠ s.dec.dData ∧ ∃ bs : List Byte, bs.map some = s.dec.pending ∧ bs ≠ [] ∧
      (negative (nextAnswer s.ports.doutAnswers) = false →
        flushLines s = .done { s.withEvent bs with dec := s.dec.markFlushed }) ∧
      (negative (nextAnswer s.ports.doutAnswers) = true →
        flushLines s = .raised (s.withEvent bs) .io (nextAnswer s.ports.doutAnswers).toNat)) := by
  have hlast := h.lastLe
  obtain ⟨hle, hl⟩ | ⟨hlt, ⟨a, hr, -⟩ | ⟨bs, hr, hl⟩⟩ := flushLines_cases s
  · exact .inl ⟨BitVec.eq_of_toNat_eq (by omega), hl⟩
  · obtain ⟨-, ha, hnone, -⟩ := Memory.readRun_error _ _ _ _ hr
    have := h.cur_isSome (q := a) (by omega)
    simp [hnone] at this
  · obtain ⟨hlen, -⟩ := Memory.readRun_ok _ _ _ _ hr
    have hne : bs ≠ [] := List.ne_nil_of_length_pos (by omega)
    have hcursors : s.dec.dLast ≠ s.dec.dData := fun he => hlt.ne (congrArg BitVec.toNat he)
    refine .inr ⟨hcursors, bs, (pending_of_readRun hr).symm, hne, fun hc => ?_, fun hc => ?_⟩
    · rw [hl, doutPut, if_neg (by simp [hc])]
      rfl
    · rw [hl, doutPut, if_pos hc]
      rfl

/-- A decoder command leaves what its lines leave. -/
theorem exec_of_dec_lines {i : Instr} {op : Byte} {body : State → Run State} {s : State}
    (hi : exec i s = decCommand op body s) (hr : DecReady s) : exec i s = .next (finish .dec (body s)) := by
  rw [hi, decCommand_ready _ _ _ hr.1 hr.2]

/-- Settles O49: the three ends of `flush`. -/
theorem dflushHandsOutThePending : Obligations.DflushHandsOutThePending := by
  intro s hr h
  have hexec := exec_of_dec_lines (i := .dflush) rfl hr
  obtain ⟨he, hl⟩ | ⟨hne, bs, hbs, hnil, haccepted, hrefused⟩ := flushLines_ends h
  · have hsame : s.dec.markFlushed = s.dec := congrArg (fun w => { s.dec with dLast := w }) he.symm
    rw [hl, hsame] at hexec
    exact ⟨fun _ => hexec, fun hne => absurd he hne⟩
  · refine ⟨fun he => absurd he hne, fun _ => ⟨bs, hbs, hnil, fun hc => ?_, fun hc => ?_⟩⟩
    · rw [hexec, haccepted (Bool.eq_false_of_not_eq_true (mt (negative_iff _).1 hc.not_ge))]
      rfl
    · rw [hexec, hrefused ((negative_iff _).2 hc)]
      rfl

end Sys2Proof.Machine
end

section
/-! PROOFS. The two loops of the segment reconstruction unit as one: DLIT and DMATCH make room and append some bytes,
turn by turn (R268, R269, R271). What one such loop does, refused events included, is proved here once. -/

namespace Sys2Proof.Machine

open Sys2Proof

/-! ### The output the sink accepted -/

/-- What DOUT accepted and then the pending output: a refused event's bytes are still pending (R268). -/
def acceptedOutput (s : State) : List (Option Byte) := (doutBytes s).map some ++ s.dec.pending

theorem doutBytes_withEvent (bs : List Byte) (s : State) : doutBytes (s.withEvent bs) =
    doutBytes s ++ if negative (nextAnswer s.ports.doutAnswers) then [] else bs := by
  cases h : negative (nextAnswer s.ports.doutAnswers) <;> simp [doutBytes, State.withEvent, h]

/-- A sink that refuses had its answer listed: beyond the listed answers it accepts (log entry 4). -/
theorem nextAnswer_mem {answers : List Word} (h : negative (nextAnswer answers) = true) :
    nextAnswer answers ∈ answers := by
  cases answers with
  | nil => exact absurd h (by decide)
  | cons c cs => exact List.mem_cons_self

/-! ### Copied bytes -/

/-- From `s` to `t` the decoder took `n` bytes from DIN and appended `bs` to its ring and to its output; the sink may
have refused the event after that. -/
structure Copied (n : Nat) (bs : List Byte) (s t : State) : Prop where
  ring : Extends bs s.dec t.dec
  output : acceptedOutput t = acceptedOutput s ++ bs.map some
  answers : t.ports.doutAnswers ⊆ s.ports.doutAnswers
  din : t.ports.din = s.ports.din.drop n
  unoffered : t.ports.dinUnoffered = s.ports.dinUnoffered + (n - s.ports.din.length)

section Copied

variable {n m : Nat} {bs cs : List Byte} {s t u : State}

theorem Copied.trans (h : DecInv s.dec) (hb : Copied n bs s t) (hc : Copied m cs t u) :
    Copied (n + m) (bs ++ cs) s u where
  ring := hb.ring.trans h hc.ring
  output := by rw [hc.output, hb.output, List.map_append, List.append_assoc]
  answers := List.Subset.trans hc.answers hb.answers
  din := by rw [hc.din, hb.din, List.drop_drop]
  unoffered := by
    rw [hc.unoffered, hb.unoffered, hb.din, List.length_drop]
    omega

theorem Copied.refl (h : DecInv s.dec) : Copied 0 [] s s :=
  ⟨.refl h, (List.append_nil _).symm, List.Subset.refl _, rfl, by simp⟩

/-- A refused event appends nothing: its bytes stay pending (R268). -/
theorem copied_of_refused (h : DecInv s.dec) (hneg : negative (nextAnswer s.ports.doutAnswers) = true) :
    Copied 0 [] s (s.withEvent bs) where
  ring := .refl h
  output := by
    rw [acceptedOutput, doutBytes_withEvent, if_pos hneg, List.append_nil, List.map_nil, List.append_nil]
    rfl
  answers := List.tail_subset _
  din := rfl
  unoffered := by simp [State.withEvent]

/-- An accepted event moves its bytes from the pending output to what DOUT accepted. -/
theorem copied_of_accepted (h : DecInv s.dec) (hbs : bs.map some = s.dec.pending)
    (hneg : negative (nextAnswer s.ports.doutAnswers) = false) :
    Copied 0 [] s { s.withEvent bs with dec := s.dec.markFlushed } where
  ring := extends_markFlushed h
  output := by
    have hbytes : doutBytes { s.withEvent bs with dec := s.dec.markFlushed } = doutBytes s ++ bs := by
      have := doutBytes_withEvent bs s
      rwa [hneg, if_neg Bool.false_ne_true] at this
    have hflushed : s.dec.markFlushed.pending = [] := pending_of_flushed le_rfl
    simp only [acceptedOutput, hbytes, hflushed, ← hbs, List.map_append, List.append_nil, List.map_nil]
  answers := List.tail_subset _
  din := rfl
  unoffered := by simp [State.withEvent]

/-- Selecting the other segment at the end of a flushed one appends nothing. -/
theorem Copied.switch (ht : Copied 0 [] s t) (h : DecInv s.dec) (hflushed : t.dec.dData = t.dec.dLast)
    (hroom : t.dec.room = 0) : Copied 0 [] s { t with dec := t.dec.switch } where
  ring := ht.ring.trans h (extends_switch ht.ring.inv hroom)
  output := by
    have hpending : t.dec.switch.pending = t.dec.pending := by
      rw [pending_of_flushed le_rfl, pending_of_flushed (congrArg BitVec.toNat hflushed).le]
    rw [← ht.output]
    exact congrArg ((doutBytes t).map some ++ ·) hpending
  answers := ht.answers
  din := ht.din
  unoffered := ht.unoffered

end Copied

/-- `flushLines` moves D_LAST and appends nothing, or the sink refuses its event and nothing but the ports changes. -/
theorem flushLines_copied {s : State} (h : DecInv s.dec) :
    (∃ t, flushLines s = .done t ∧ Copied 0 [] s t ∧ t.dec = s.dec.markFlushed) ∨
    (∃ (t : State) (c : Word), flushLines s = .raised t .io c.toNat ∧ Copied 0 [] s t ∧
      c ∈ s.ports.doutAnswers ∧ negative c = true) := by
  obtain ⟨he, hl⟩ | ⟨-, bs, hbs, -, haccepted, hrefused⟩ := flushLines_ends h
  · have hsame : s.dec.markFlushed = s.dec := congrArg (fun w => { s.dec with dLast := w }) he.symm
    rw [hsame] at hl ⊢
    exact .inl ⟨s, hl, .refl h, rfl⟩
  · cases hneg : negative (nextAnswer s.ports.doutAnswers) with
    | false => exact .inl ⟨_, haccepted hneg, copied_of_accepted h hbs hneg, rfl⟩
    | true => exact .inr ⟨_, _, hrefused hneg, copied_of_refused h hneg, nextAnswer_mem hneg, hneg⟩

/-- After `makeRoom` there is room and nothing was appended, or the sink refused the event (R268). -/
theorem makeRoom_copied {s : State} (h : DecInv s.dec) :
    (∃ t, makeRoom s = .done t ∧ Copied 0 [] s t ∧ 0 < t.dec.room) ∨
    (∃ (t : State) (c : Word), makeRoom s = .raised t .io c.toNat ∧ Copied 0 [] s t ∧
      c ∈ s.ports.doutAnswers ∧ negative c = true) := by
  by_cases hroom : s.dec.room = 0
  · have hm : makeRoom s = (flushLines s).andThen fun s => .done { s with dec := s.dec.switch } := if_pos hroom
    obtain ⟨t, hl, hcopied, hdec⟩ | ⟨t, c, hl, hrefused⟩ := flushLines_copied h <;> rw [hl] at hm
    · have hflushed : t.dec.dData = t.dec.dLast := by rw [hdec]; rfl
      have hroom' : t.dec.room = 0 := by rw [hdec]; exact hroom
      exact .inl ⟨_, hm, hcopied.switch h hflushed hroom', room_switch_pos hcopied.ring.inv⟩
    · exact .inr ⟨t, c, hm, hrefused⟩
  · exact .inl ⟨s, if_neg hroom, .refl h, Nat.pos_of_ne_zero hroom⟩

theorem makeRoom_of_room {s : State} (h : 0 < s.dec.room) : makeRoom s = .done s := if_neg h.ne'

/-- Making room a second time does nothing. -/
theorem makeRoom_andThen_makeRoom {s : State} (h : DecInv s.dec) (f : State → Run State) :
    ((makeRoom s).andThen fun r => (makeRoom r).andThen f) = (makeRoom s).andThen f := by
  obtain ⟨r, hm, -, hroom⟩ | ⟨r, c, hm, -⟩ := makeRoom_copied h <;> rw [hm]
  · simp only [Run.andThen_done, makeRoom_of_room hroom]
  · rfl

/-! ### A turn -/

/-- `bs` put at the write head, `n` bytes taken from DIN. -/
def putTurn (n : Nat) (bs : List Byte) (s : State) : State :=
  { s with dec := putBytes bs s.dec, ports := (dinTake n s.ports).2 }

theorem dinTake_zero_ports (p : Ports) : (dinTake 0 p).2 = p := by simp [dinTake]

theorem putTurn_zero (bs : List Byte) (s : State) : putTurn 0 bs s = { s with dec := putBytes bs s.dec } := by
  rw [putTurn, dinTake_zero_ports]

theorem putBytes_append : ∀ (bs cs : List Byte) (d : Dec), DecInv d → bs.length ≤ d.room →
    putBytes (bs ++ cs) d = putBytes cs (putBytes bs d)
  | [], cs, d, h, _ => by rw [putBytes_nil h, List.nil_append]
  | b :: bs, cs, d, h, hroom => by
    have hpos : 0 < d.room := Nat.zero_lt_of_lt hroom
    have hroom' : bs.length ≤ (putBytes [b] d).room := by
      rw [room_putByte b h hpos]
      exact Nat.le_sub_one_of_lt hroom
    rw [List.cons_append, putBytes_cons b h hpos, putBytes_append bs cs _ (extends_putByte b h hpos).inv hroom',
      ← putBytes_cons b h hpos]

theorem dData_putBytes {bs : List Byte} {d : Dec} (h : DecInv d) (hroom : bs.length ≤ d.room) :
    (putBytes bs d).dData.toNat = d.dData.toNat + bs.length := by
  simpa [putBytes] using h.dData_advance hroom

theorem room_putBytes {bs : List Byte} {d : Dec} (h : DecInv d) (hroom : bs.length ≤ d.room) :
    (putBytes bs d).room = d.room - bs.length := by
  rw [Dec.room, dData_putBytes h hroom, Nat.sub_add_eq]
  simp [Dec.room, Dec.seglen, putBytes]

theorem putTurn_append {n m : Nat} {bs cs : List Byte} {s : State} (h : DecInv s.dec)
    (hroom : bs.length ≤ s.dec.room) : putTurn m cs (putTurn n bs s) = putTurn (n + m) (bs ++ cs) s := by
  have hports : (dinTake m (dinTake n s.ports).2).2 = (dinTake (n + m) s.ports).2 := by
    simp only [dinTake, List.drop_drop, List.length_drop, Ports.mk.injEq, true_and]
    omega
  simp only [putTurn, hports, putBytes_append bs cs _ h hroom]

/-- A turn for which there is room appends its bytes: they are pending (R275). -/
theorem putTurn_copied {n : Nat} {bs : List Byte} {s : State} (h : DecInv s.dec) (hroom : bs.length ≤ s.dec.room) :
    Copied n bs s (putTurn n bs s) where
  ring := extends_putBytes bs s.dec h hroom
  output := by
    have hpending : (putTurn n bs s).dec.pending = s.dec.pending ++ bs.map some := pending_putBytes h hroom
    rw [acceptedOutput, hpending, ← List.append_assoc]
    rfl
  answers := List.Subset.refl _
  din := rfl
  unoffered := rfl

/-! ### A loop that appends by turns -/

/-- `loop fuel n` appends `n` bytes: where there is room a turn puts some bytes that `bytes` allows, as many as the
smaller of `n` and the room decides, and takes `taken` of their number from DIN; `ok` is what a turn needs of the
context. -/
structure AppendsByTurns (loop : Nat → Nat → State → Run State) (taken : Nat → Nat) (ok : Dec → Prop)
    (bytes : List Byte → State → Prop) : Prop where
  taken_add : ∀ a b, taken (a + b) = taken a + taken b
  ok_extends : ∀ {bs : List Byte} {d d' : Dec}, ok d → Extends bs d d' → ok d'
  bytes_nil : ∀ s, bytes [] s
  bytes_append : ∀ {bs cs : List Byte} {s t : State}, DecInv s.dec → Copied (taken bs.length) bs s t → bytes bs s →
    bytes cs t → bytes (bs ++ cs) s
  zero : ∀ fuel s, loop fuel 0 s = .done s
  makes_room : ∀ fuel {n : Nat} {s : State}, DecInv s.dec → n ≠ 0 →
    loop (fuel + 1) n s = (makeRoom s).andThen (loop (fuel + 1) n)
  turn : ∀ {n : Nat} {s : State}, DecInv s.dec → ok s.dec → 0 < s.dec.room → n ≠ 0 → ∃ bs : List Byte,
    0 < bs.length ∧ bs.length ≤ n ∧ bs.length ≤ s.dec.room ∧ bytes bs s ∧
    ∀ fuel m, min m s.dec.room = min n s.dec.room →
      loop (fuel + 1) m s = loop fuel (m - bs.length) (putTurn (taken bs.length) bs s)

section Loop

variable {loop : Nat → Nat → State → Run State} {taken : Nat → Nat} {ok : Dec → Prop}
  {bytes : List Byte → State → Prop} (L : AppendsByTurns loop taken ok bytes)

include L

theorem AppendsByTurns.taken_zero : taken 0 = 0 := by
  have : taken 0 = taken 0 + taken 0 := L.taken_add 0 0
  omega

/-- With no byte to go nothing is done, which is a turn of no byte. -/
theorem AppendsByTurns.zero_eq_putTurn (fuel : Nat) {s : State} (h : DecInv s.dec) :
    loop fuel 0 s = .done (putTurn (taken 0) [] s) := by
  rw [L.zero, L.taken_zero, putTurn_zero, putBytes_nil h]

/-- The two ends of the loop: all bytes appended, or a refused event with fewer appended, of which nothing is lost
(R268, R346). -/
theorem AppendsByTurns.ends {fuel n : Nat} {s : State} (h : DecInv s.dec) (ho : ok s.dec) (hn : n ≤ fuel) :
    (∃ (t : State) (bs : List Byte), loop fuel n s = .done t ∧ bs.length = n ∧ bytes bs s ∧ Copied (taken n) bs s t) ∨
    (∃ (t : State) (bs : List Byte) (c : Word), loop fuel n s = .raised t .io c.toNat ∧ bs.length < n ∧ bytes bs s ∧
      Copied (taken bs.length) bs s t ∧ c ∈ s.ports.doutAnswers ∧ negative c = true) := by
  have hnil : taken ([] : List Byte).length = 0 := L.taken_zero
  induction fuel generalizing n s with
  | zero =>
    obtain rfl : n = 0 := Nat.le_zero.1 hn
    exact .inl ⟨s, [], L.zero 0 s, rfl, L.bytes_nil s, L.taken_zero.symm ▸ .refl h⟩
  | succ fuel ih =>
    by_cases h0 : n = 0
    · subst h0
      exact .inl ⟨s, [], L.zero _ s, rfl, L.bytes_nil s, L.taken_zero.symm ▸ .refl h⟩
    rw [L.makes_room fuel h h0]
    obtain ⟨r, hm, hcr, hroom⟩ | ⟨r, c, hm, hcr, hc⟩ := makeRoom_copied h <;> rw [hm]
    · obtain ⟨bs, hpos, hle, hfits, hbytes, hturn⟩ := L.turn hcr.ring.inv (L.ok_extends ho hcr.ring) hroom h0
      have hcopied : Copied (taken bs.length) bs s (putTurn (taken bs.length) bs r) := by
        simpa using hcr.trans h (putTurn_copied hcr.ring.inv hfits)
      have hsource : bytes bs s := L.bytes_append (bs := []) h (hnil.symm ▸ hcr) (L.bytes_nil s) hbytes
      rw [Run.andThen_done, hturn fuel n rfl]
      obtain ⟨t, cs, hl, hlen, hcs, hrest⟩ | ⟨t, cs, c, hl, hlt, hcs, hrest, hc, hneg⟩ :=
        ih hcopied.ring.inv (L.ok_extends ho hcopied.ring) (n := n - bs.length) (by omega)
      · have hsum : n = bs.length + (n - bs.length) := by omega
        refine .inl ⟨t, bs ++ cs, hl, ?_, L.bytes_append h hcopied hsource hcs, ?_⟩
        · rw [List.length_append, hlen, ← hsum]
        · rw [hsum, L.taken_add]
          exact hcopied.trans h hrest
      · refine .inr ⟨t, bs ++ cs, c, hl, ?_, L.bytes_append h hcopied hsource hcs, ?_, hcopied.answers hc, hneg⟩
        · rw [List.length_append]
          omega
        · rw [List.length_append, L.taken_add]
          exact hcopied.trans h hrest
    · exact .inr ⟨r, [], c, rfl, Nat.pos_of_ne_zero h0, L.bytes_nil s, hnil.symm ▸ hcr, hc⟩

/-- A loop that may make as many turns as it has bytes to go never ends by its bound. -/
theorem AppendsByTurns.bound_irrelevant {fuel fuel' n : Nat} {s : State} (h : DecInv s.dec) (ho : ok s.dec)
    (hn : n ≤ fuel) (hn' : n ≤ fuel') : loop fuel n s = loop fuel' n s := by
  induction fuel generalizing fuel' n s with
  | zero =>
    obtain rfl : n = 0 := Nat.le_zero.1 hn
    rw [L.zero, L.zero]
  | succ fuel ih =>
    by_cases h0 : n = 0
    · rw [h0, L.zero, L.zero]
    obtain ⟨fuel', rfl⟩ : ∃ k, fuel' = k + 1 := Nat.exists_eq_add_one.2 (by omega)
    rw [L.makes_room fuel h h0, L.makes_room fuel' h h0]
    obtain ⟨r, hm, hcr, hroom⟩ | ⟨r, c, hm, -⟩ := makeRoom_copied h <;> rw [hm]
    · have hor := L.ok_extends ho hcr.ring
      obtain ⟨bs, hpos, -, hfits, -, hturn⟩ := L.turn hcr.ring.inv hor hroom h0
      have hput := (putTurn_copied (n := taken bs.length) hcr.ring.inv hfits).ring
      rw [Run.andThen_done, Run.andThen_done, hturn fuel n rfl, hturn fuel' n rfl]
      exact ih hput.inv (L.ok_extends hor hput) (by omega) (by omega)
    · rfl

/-- A run no longer than the room left makes no write event: its bytes are put at the write head. -/
theorem AppendsByTurns.within_room {fuel n : Nat} {s : State} (h : DecInv s.dec) (ho : ok s.dec) (hn : n ≤ fuel)
    (hroom : n ≤ s.dec.room) : ∃ bs : List Byte, bs.length = n ∧ loop fuel n s = .done (putTurn (taken n) bs s) := by
  induction fuel generalizing n s with
  | zero =>
    obtain rfl : n = 0 := Nat.le_zero.1 hn
    exact ⟨[], rfl, L.zero_eq_putTurn 0 h⟩
  | succ fuel ih =>
    by_cases h0 : n = 0
    · exact ⟨[], h0.symm, h0 ▸ L.zero_eq_putTurn _ h⟩
    obtain ⟨bs, hpos, hle, hfits, -, hturn⟩ := L.turn h ho (by omega) h0
    have hput := (putTurn_copied (n := taken bs.length) h hfits).ring
    have hroom' : (putTurn (taken bs.length) bs s).dec.room = s.dec.room - bs.length := room_putBytes h hfits
    obtain ⟨cs, hlen, hl⟩ := ih hput.inv (L.ok_extends ho hput) (n := n - bs.length) (by omega) (by omega)
    have hsum : n = bs.length + (n - bs.length) := by omega
    refine ⟨bs ++ cs, by rw [List.length_append, hlen, ← hsum], ?_⟩
    rw [hturn fuel n rfl, hl, putTurn_append h hfits, ← L.taken_add, ← hsum]

/-- A run longer than the room is the run that fills the segment and then the rest. -/
theorem AppendsByTurns.split_at_room {fuel fuelA fuelB a b : Nat} {s : State} (h : DecInv s.dec) (ho : ok s.dec)
    (hroom : s.dec.room = a) (hn : a + b ≤ fuel) (ha : a ≤ fuelA) (hb : b ≤ fuelB) :
    loop fuel (a + b) s = (loop fuelA a s).andThen (loop fuelB b) := by
  induction fuel generalizing fuelA a s with
  | zero =>
    obtain ⟨rfl, rfl⟩ : a = 0 ∧ b = 0 := by omega
    simp only [L.zero, Run.andThen_done]
  | succ fuel ih =>
    by_cases h0 : a = 0
    · rw [h0, L.zero, Run.andThen_done, Nat.zero_add]
      exact L.bound_irrelevant h ho (by omega) hb
    obtain ⟨fuelA, rfl⟩ : ∃ k, fuelA = k + 1 := Nat.exists_eq_add_one.2 (by omega)
    obtain ⟨bs, hpos, hle, hfits, -, hturn⟩ := L.turn h ho (by omega) h0
    have hput := (putTurn_copied (n := taken bs.length) h hfits).ring
    have hroom' : (putTurn (taken bs.length) bs s).dec.room = s.dec.room - bs.length := room_putBytes h hfits
    have hsum : a + b - bs.length = a - bs.length + b := by omega
    rw [hturn fuel (a + b) (by omega), hturn fuelA a rfl, hsum]
    exact ih hput.inv (L.ok_extends ho hput) (by omega) (by omega) (by omega)

end Loop

end Sys2Proof.Machine
end

section
/-! PROOFS. What the bytes of a run are: the last `B` bytes appended to a ring are read back from it, and a run that
repeats the byte `offset` before it is the source repeated with period `offset` (R271, R272). -/

namespace Sys2Proof.Machine

open Sys2Proof

/-! ### Reading a ring after an append -/

section RingAfter

variable {B : Nat}

theorem mod_add_ne {x k : Nat} (hk : 0 < k) (hkB : k < B) : (x + k) % B ≠ x % B := fun h => by
  have hdvd : B ∣ x + k - x := (Nat.modEq_iff_dvd' (by omega)).1 (Eq.symm h : x ≡ x + k [MOD B])
  rw [Nat.add_sub_cancel_left] at hdvd
  exact absurd (Nat.le_of_dvd hk hdvd) hkB.not_ge

/-- A position that no byte was written at is left. -/
theorem ringAfter_of_ne : ∀ (bs : List Byte) (P : Nat) (r : Nat → Option Byte) {p : Nat}, P < B →
    (∀ j, j < bs.length → (P + j) % B ≠ p) → ringAfter B bs P r p = r p
  | [], _, _, _, _, _ => rfl
  | b :: bs, P, r, p, hP, hne => by
    have hhead : P ≠ p := by simpa [Nat.mod_eq_of_lt hP] using hne 0 (Nat.succ_pos _)
    have htail : ∀ j, j < bs.length → ((P + 1) % B + j) % B ≠ p := fun j hj => by
      rw [Nat.mod_add_mod, Nat.add_assoc, Nat.add_comm 1]
      exact hne (j + 1) (Nat.succ_lt_succ hj)
    rw [ringAfter, ringAfter_of_ne bs _ _ (Nat.mod_lt _ (by omega)) htail, Function.update_of_ne hhead.symm]

/-- Byte `j` is read back where it was written, unless a later byte of the run replaced it. -/
theorem ringAfter_getElem? : ∀ (bs : List Byte) (P : Nat) (r : Nat → Option Byte) {j : Nat}, P < B →
    j < bs.length → bs.length ≤ j + B → ringAfter B bs P r ((P + j) % B) = bs[j]?
  | b :: bs, P, r, 0, hP, _, hlast => by
    have hne : ∀ j, j < bs.length → ((P + 1) % B + j) % B ≠ (P + 0) % B := fun j hj => by
      rw [Nat.mod_add_mod, Nat.add_assoc]
      exact mod_add_ne (by omega) (by simp only [List.length_cons] at hlast; omega)
    rw [ringAfter, ringAfter_of_ne bs _ _ (Nat.mod_lt _ (by omega)) hne, Nat.add_zero, Nat.mod_eq_of_lt hP]
    simp
  | b :: bs, P, r, j + 1, hP, hj, hlast => by
    have hlt : j < bs.length := Nat.lt_of_succ_lt_succ hj
    have hlast' : bs.length ≤ j + B := by simp only [List.length_cons] at hlast; omega
    have hpos : (P + (j + 1)) % B = ((P + 1) % B + j) % B := by rw [Nat.mod_add_mod, Nat.add_assoc, Nat.add_comm 1]
    rw [ringAfter, hpos, ringAfter_getElem? bs _ _ (Nat.mod_lt _ (by omega)) hlt hlast', List.getElem?_cons_succ]

end RingAfter

/-! ### Repetition -/

section Repeats

variable {B offset : Nat}

/-- Byte `j` is the byte `offset` before it in the ring with the bytes before it appended. -/
theorem repeats_getElem? (hB : offset ≤ B) : ∀ (bs : List Byte) (P : Nat) (r : Nat → Option Byte) {j : Nat},
    Repeats B offset bs P r → P < B → j < bs.length →
    bs[j]? = ringAfter B (bs.take j) P r ((P + j + B - offset) % B)
  | b :: bs, P, r, 0, hrep, _, _ => hrep.1.symm
  | b :: bs, P, r, j + 1, hrep, hP, hj => by
    have hpos : (P + (j + 1) + B - offset) % B = ((P + 1) % B + j + B - offset) % B := by
      rw [show P + (j + 1) + B - offset = P + 1 + (j + (B - offset)) by omega,
        show (P + 1) % B + j + B - offset = (P + 1) % B + (j + (B - offset)) by omega, Nat.mod_add_mod]
    rw [List.getElem?_cons_succ, List.take_succ_cons, ringAfter, hpos]
    exact repeats_getElem? hB bs _ _ hrep.2 (Nat.mod_lt _ (by omega)) (Nat.lt_of_succ_lt_succ hj)

/-- The source, repeated with period `offset`. -/
theorem repeats_period {bs : List Byte} {P : Nat} {r : Nat → Option Byte} (hpos : 1 ≤ offset) (hB : offset < B)
    (hP : P < B) (hrep : Repeats B offset bs P r) {j : Nat} (hj : j < bs.length) :
    r ((P + B - offset + j % offset) % B) = bs[j]? := by
  induction j using Nat.strong_induction_on with
  | _ j ih =>
    have hbyte := repeats_getElem? hB.le bs P r hrep hP hj
    by_cases hlt : j < offset
    · have hne : ∀ i, i < (bs.take j).length → (P + i) % B ≠ (P + j + B - offset) % B := fun i hi => by
        have hij : i < j := by
          rw [List.length_take] at hi
          omega
        rw [show P + j + B - offset = P + i + (j + B - offset - i) by omega]
        exact (mod_add_ne (by omega) (by omega)).symm
      rw [hbyte, ringAfter_of_ne _ _ _ hP hne, Nat.mod_eq_of_lt hlt]
      congr 2
      omega
    · have hback : (P + j + B - offset) % B = (P + (j - offset)) % B := by
        rw [show P + j + B - offset = P + (j - offset) + B by omega, Nat.add_mod_right]
      have hlen : (bs.take j).length = j := List.length_take_of_le hj.le
      rw [hbyte, hback, ringAfter_getElem? _ _ _ hP (by omega) (by omega), List.getElem?_take_of_lt (by omega),
        ← ih (j - offset) (by omega) (by omega), ← Nat.mod_eq_sub_mod (by omega)]

/-- The repeated run as a list. -/
theorem repeats_map_some {bs : List Byte} {P : Nat} {r : Nat → Option Byte} (hpos : 1 ≤ offset) (hB : offset < B)
    (hP : P < B) (hrep : Repeats B offset bs P r) :
    bs.map some = (List.range bs.length).map fun j => r ((P + B - offset + j % offset) % B) :=
  map_some_eq_range rfl fun _ hj => repeats_period hpos hB hP hrep hj

end Repeats

end Sys2Proof.Machine
end

section
/-! PROOFS. DLIT's and DMATCH's loops are such loops, and the commands run them: the statements of
`45_segment_reconstruction.md` about runs that fit the room, cross a full segment, and meet a refused event. -/

namespace Sys2Proof.Machine

open Sys2Proof

/-! ### The two loops -/

theorem dinTake_append (n m : Nat) (p : Ports) :
    (dinTake (n + m) p).1 = (dinTake n p).1 ++ (dinTake m (dinTake n p).2).1 := takeBytes_add _ _ _ _ _

/-- What DLIT puts are the next bytes of DIN (R269). -/
theorem dlitLoop_appendsByTurns : AppendsByTurns dlitLoop id (fun _ => True)
    fun bs s => bs = (dinTake bs.length s.ports).1 where
  taken_add _ _ := rfl
  ok_extends _ _ := trivial
  bytes_nil s := (dinTake_zero s.ports).symm
  bytes_append {bs cs s t} _ hcopied hbs hcs := by
    have hnext : (dinTake cs.length t.ports).1 = (dinTake cs.length (dinTake bs.length s.ports).2).1 := by
      simp only [dinTake, hcopied.din, hcopied.unoffered, id]
    rw [List.length_append, dinTake_append, ← hnext, ← hbs, ← hcs]
  zero fuel s := by cases fuel <;> rfl
  makes_room fuel {n s} h h0 := by
    have hloop : ∀ r, dlitLoop (fuel + 1) n r = (makeRoom r).andThen fun r =>
        dlitLoop fuel (n - min n r.dec.room) (dlitTurn (min n r.dec.room) r) := fun r => if_neg h0
    rw [funext hloop]
    exact (makeRoom_andThen_makeRoom h _).symm
  turn {n s} _ _ hroom h0 := by
    refine ⟨(dinTake (min n s.dec.room) s.ports).1, ?_⟩
    rw [length_dinTake]
    refine ⟨by omega, by omega, by omega, rfl, fun fuel m hm => ?_⟩
    rw [dlitLoop_succ, if_neg (by omega), makeRoom_of_room hroom, Run.andThen_done, hm]
    rfl

/-- What DMATCH puts repeats the byte `offset` before it (R271). -/
theorem dmatchLoop_appendsByTurns (offset : Nat) : AppendsByTurns (dmatchLoop offset) (fun _ => 0)
    (LegalOffset offset) fun bs s => Repeats s.dec.dB.toNat offset bs s.dec.head s.dec.ring where
  taken_add _ _ := rfl
  ok_extends := LegalOffset.of_extends
  bytes_nil _ := trivial
  bytes_append {bs cs s t} h hcopied hbs hcs := by
    rw [hcopied.ring.size, hcopied.ring.head, hcopied.ring.ring] at hcs
    exact repeats_append bs cs _ _ h.head_lt hbs hcs
  zero fuel s := by cases fuel <;> rfl
  makes_room fuel {n s} h h0 := by
    have hloop : ∀ r, dmatchLoop offset (fuel + 1) n r = (makeRoom r).andThen fun r =>
        (onDec (subCopy offset (subCopyLen offset n r.dec)) r).andThen
          (dmatchLoop offset fuel (n - subCopyLen offset n r.dec)) := fun r => if_neg h0
    rw [funext hloop]
    exact (makeRoom_andThen_makeRoom h _).symm
  turn {n s} h ho hroom h0 := by
    obtain ⟨bs, hbs, hpos, hle, hfits, hcopy, hrep⟩ := subCopy_turn h ho hroom h0
    refine ⟨bs, hpos, hle, hfits, hrep, fun fuel m hm => ?_⟩
    have hcount : subCopyLen offset m s.dec = subCopyLen offset n s.dec := by
      unfold subCopyLen
      omega
    rw [dmatchLoop_succ (by omega) (makeRoom_of_room hroom) (hbs.trans hcount.symm) (hcount ▸ hcopy), putTurn_zero]

/-! ### The operand registers -/

/-- `s` with its operand registers changed by `f` and `g`. -/
def State.mapOperands (f g : Word → Word) (s : State) : State := { s with arg0 := f s.arg0, arg1 := g s.arg1 }

section Operands

variable (f g : Word → Word)

theorem raise_dec_mapOperands (s : State) (x : Exn) (n : Nat) :
    raise .dec x n (s.mapOperands f g) = (raise .dec x n s).mapOperands f g := by
  simp only [raise, apply_ite (State.mapOperands f g)]
  rfl

theorem finish_dec_mapOperands (r : Run State) :
    finish .dec (r.map (State.mapOperands f g)) = (finish .dec r).mapOperands f g := by
  cases r with
  | done s => rfl
  | raised s x n => exact raise_dec_mapOperands f g s x n

theorem flushLines_mapOperands (s : State) :
    flushLines (s.mapOperands f g) = (flushLines s).map (State.mapOperands f g) := by
  have hd : (s.mapOperands f g).dec = s.dec := rfl
  have hput : ∀ bs, doutPut bs (s.mapOperands f g) = (doutPut bs s).map (State.mapOperands f g) := fun bs => by
    simp only [doutPut, Run.map_ite]
    rfl
  simp only [flushLines, Run.map_ite, hd]
  congr 1
  cases s.dec.cur.readRun s.dec.dLast.toNat (s.dec.dData.toNat - s.dec.dLast.toNat) with
  | error a => rfl
  | ok bs => exact Run.map_andThen (hput bs) fun _ => rfl

theorem makeRoom_mapOperands (s : State) :
    makeRoom (s.mapOperands f g) = (makeRoom s).map (State.mapOperands f g) := by
  simp only [makeRoom, Run.map_ite]
  congr 1
  exact Run.map_andThen (flushLines_mapOperands f g s) fun _ => rfl

theorem dlitLoop_mapOperands : ∀ (fuel n : Nat) (s : State),
    dlitLoop fuel n (s.mapOperands f g) = (dlitLoop fuel n s).map (State.mapOperands f g)
  | 0, _, _ => rfl
  | fuel + 1, n, s => by
    simp only [dlitLoop_succ, Run.map_ite]
    congr 1
    exact Run.map_andThen (makeRoom_mapOperands f g s) fun s => dlitLoop_mapOperands fuel _ (dlitTurn _ s)

theorem dmatchLoop_mapOperands (offset : Nat) : ∀ (fuel len : Nat) (s : State),
    dmatchLoop offset fuel len (s.mapOperands f g) = (dmatchLoop offset fuel len s).map (State.mapOperands f g)
  | 0, _, _ => rfl
  | fuel + 1, len, s => by
    have hturn : ∀ c r, onDec (subCopy offset c) (r.mapOperands f g) =
        (onDec (subCopy offset c) r).map (State.mapOperands f g) := fun c r => by
      have hd : (r.mapOperands f g).dec = r.dec := rfl
      unfold onDec
      rw [hd]
      cases subCopy offset c r.dec <;> rfl
    simp only [dmatchLoop, Run.map_ite]
    congr 1
    exact Run.map_andThen (makeRoom_mapOperands f g s) fun s =>
      Run.map_andThen (hturn _ s) fun s => dmatchLoop_mapOperands offset fuel _ s

end Operands

/-! ### The commands run their loops -/

/-- `s` with the length of DLIT's run in its operand register. -/
abbrev State.setArg0 (w : Word) (s : State) : State := s.mapOperands (fun _ => w) id

/-- `s` with the length of DMATCH's run in its operand register. -/
abbrev State.setArg1 (w : Word) (s : State) : State := s.mapOperands id (fun _ => w)

section Commands

variable {s : State}

theorem dlitLines_of_run (h : s.arg0 ≠ 0xFFFFFFFF) : dlitLines s = dlitLoop s.arg0.toNat s.arg0.toNat s :=
  if_neg (by simp [abortForm_eq_false h])

theorem dmatchLines_of_legal (ho : LegalOffset s.arg0.toNat s.dec) :
    dmatchLines s = dmatchLoop s.arg0.toNat s.arg1.toNat s.arg1.toNat s :=
  (if_neg (Nat.one_le_iff_ne_zero.1 ho.pos)).trans ((if_neg ho.lt.not_ge).trans (if_neg ho.le.not_gt))

theorem exec_dlit_loop {w : Word} (hr : DecReady s) (hw : w ≠ 0xFFFFFFFF) :
    exec .dlit (s.setArg0 w) = .next ((finish .dec (dlitLoop w.toNat w.toNat s)).setArg0 w) := by
  have hlines : dlitLines (s.setArg0 w) = dlitLoop w.toNat w.toNat (s.setArg0 w) := dlitLines_of_run hw
  rw [exec_of_dec_lines (i := .dlit) (s := s.setArg0 w) rfl hr, hlines, dlitLoop_mapOperands, finish_dec_mapOperands]

theorem exec_dmatch_loop {w : Word} (hr : DecReady s) (ho : LegalOffset s.arg0.toNat s.dec) :
    exec .dmatch (s.setArg1 w) =
      .next ((finish .dec (dmatchLoop s.arg0.toNat w.toNat w.toNat s)).setArg1 w) := by
  have hlines : dmatchLines (s.setArg1 w) = dmatchLoop s.arg0.toNat w.toNat w.toNat (s.setArg1 w) :=
    dmatchLines_of_legal (s := s.setArg1 w) ho
  rw [exec_of_dec_lines (i := .dmatch) (s := s.setArg1 w) rfl hr, hlines, dmatchLoop_mapOperands,
    finish_dec_mapOperands]

end Commands

/-! ### The write events of a run -/

/-- The command `i` runs `loop` for each length `v` up to `w`, put by `set` in its operand register. -/
def RunsLoop (i : Instr) (set : Word → State → State) (loop : Nat → Nat → State → Run State) (ok : Dec → Prop)
    (w : Word) (s : State) : Prop :=
  ∀ (v : Word) (u : State), v.toNat ≤ w.toNat → u.arg0 = s.arg0 → DecReady u → ok u.dec →
    exec i (set v u) = .next (set v (finish .dec (loop v.toNat v.toNat u)))

theorem dlit_runsLoop {s : State} (hw : s.arg0 ≠ 0xFFFFFFFF) :
    RunsLoop .dlit State.setArg0 dlitLoop (fun _ => True) s.arg0 s := fun v u hv _ hr _ => by
  refine exec_dlit_loop hr ?_
  rintro rfl
  exact hw (BitVec.eq_of_toNat_eq (Nat.le_antisymm (Nat.le_of_lt_succ s.arg0.isLt) hv))

theorem dmatch_runsLoop (s : State) :
    RunsLoop .dmatch State.setArg1 (dmatchLoop s.arg0.toNat) (LegalOffset s.arg0.toNat) s.arg1 s :=
  fun v u _ h0 hr ho => by
  rw [← h0] at ho ⊢
  exact exec_dmatch_loop hr ho

theorem DecReady.of_extends {bs : List Byte} {s t : State} (hr : DecReady s) (he : Extends bs s.dec t.dec) :
    DecReady t := ⟨he.dfault.trans hr.1, he.dok.trans hr.2⟩

section Loop

variable {i : Instr} {set : Word → State → State} {loop : Nat → Nat → State → Run State} {taken : Nat → Nat}
  {ok : Dec → Prop} {bytes : List Byte → State → Prop} {w : Word} {s t : State}

/-- A run longer than the room is two commands: one that fills the segment and one with the rest. -/
theorem RunsLoop.split_at_room (hx : RunsLoop i set loop ok w s) (L : AppendsByTurns loop taken ok bytes)
    (hset : ∀ v v' u, set v (set v' u) = set v u) (hr : DecReady s) (h : DecInv s.dec) (ho : ok s.dec)
    (hlt : s.dec.room < w.toNat) (ht : loop w.toNat w.toNat s = .done t) :
    exec i (set w s) =
      .next (set w (after i (set (wordOf (w.toNat - s.dec.room)) (after i (set (wordOf s.dec.room) s))))) := by
  obtain ⟨bs, hlen, hfill⟩ := L.within_room (fuel := s.dec.room) h ho le_rfl le_rfl
  have he := (putTurn_copied (n := taken s.dec.room) h hlen.le).ring
  have hrest : loop (w.toNat - s.dec.room) (w.toNat - s.dec.room) (putTurn (taken s.dec.room) bs s) = .done t := by
    have hsplit := L.split_at_room (fuel := w.toNat) (b := w.toNat - s.dec.room) h ho rfl (by omega) le_rfl le_rfl
    rw [Nat.add_sub_cancel' hlt.le, hfill, Run.andThen_done] at hsplit
    exact hsplit.symm.trans ht
  have hwlt := w.isLt
  have hroom : (wordOf s.dec.room).toNat = s.dec.room := toNat_wordOf (by omega)
  have hleft : (wordOf (w.toNat - s.dec.room)).toNat = w.toNat - s.dec.room := toNat_wordOf (by omega)
  have hfirst := hx (wordOf s.dec.room) s (by omega) rfl hr ho
  rw [hroom, hfill] at hfirst
  have hsecond := hx (wordOf (w.toNat - s.dec.room)) (putTurn (taken s.dec.room) bs s) (by omega) rfl
    (hr.of_extends he) (L.ok_extends ho he)
  rw [hleft, hrest] at hsecond
  rw [after_of_exec hfirst, hset, finish, after_of_exec hsecond, hset, hx w s le_rfl rfl hr ho, ht,
    finish]

/-- At a full segment the run is DFLUSH, the switch, and then the run. -/
theorem RunsLoop.at_full_segment (hx : RunsLoop i set loop ok w s) (L : AppendsByTurns loop taken ok bytes)
    (hset : ∀ u : State, u.arg0 = s.arg0 → u.arg1 = s.arg1 → set w u = u) (hr : DecReady s) (h : DecInv s.dec)
    (ho : ok s.dec) (ha : DoutAccepts s) (hroom : s.dec.room = 0) (hpos : 0 < w.toNat) :
    exec i s = exec i (switched (after .dflush s)) := by
  obtain ⟨f, hflush, -, -⟩ := flushLines_appends h ha
  have hm : makeRoom s = .done (switched f) := by
    rw [makeRoom, if_pos hroom, hflush]
    rfl
  have hexec : exec .dflush s = .next f := by
    rw [exec_of_dec_lines (i := .dflush) rfl hr, hflush]
    rfl
  have hside : s.withDecSide f = f := withDecSide_of_exec_decoder (by decide) hexec
  have h0 : (switched f).arg0 = s.arg0 := by rw [← hside]; rfl
  have h1 : (switched f).arg1 = s.arg1 := by rw [← hside]; rfl
  obtain ⟨he, -⟩ := (makeRoom_extends h).of_eq_done hm
  have hs := hx w s le_rfl rfl hr ho
  have hf := hx w (switched f) le_rfl h0 (hr.of_extends he) (L.ok_extends ho he)
  rw [hset s rfl rfl] at hs
  rw [hset _ h0 h1] at hf
  rw [after_of_exec hexec, hs, hf]
  obtain ⟨k, hk⟩ : ∃ k, w.toNat = k + 1 := Nat.exists_eq_add_one.2 hpos
  rw [hk, L.makes_room k h (Nat.succ_ne_zero k), hm, Run.andThen_done]

/-- A loop that left the context faulted met a refused event (R268, R346). -/
theorem AppendsByTurns.refused (L : AppendsByTurns loop taken ok bytes) {n : Nat} (hr : DecReady s) (h : DecInv s.dec)
    (ho : ok s.dec) (ht : finish .dec (loop n n s) = t) (hf : t.dec.flags.dfault = true) :
    ∃ (bs : List Byte) (c : Word), bs.length < n ∧ bytes bs s ∧ c ∈ s.ports.doutAnswers ∧ negative c = true ∧
      t.dec.derr = 9 ∧ t.dec.derrinfo = c ∧ acceptedOutput t = acceptedOutput s ++ bs.map some ∧
      t.ports.din = s.ports.din.drop (taken bs.length) := by
  obtain ⟨u, bs, hl, -, -, hcopied⟩ | ⟨u, bs, c, hl, hlt, hbytes, hcopied, hc, hneg⟩ :=
    L.ends (fuel := n) h ho le_rfl <;> rw [hl] at ht
  · have hnone : u.dec.flags.dfault = false := hcopied.ring.dfault.trans hr.1
    rw [← ht, finish, hnone] at hf
    cases hf
  · have hnone : faulted .dec u = false := hcopied.ring.dfault.trans hr.1
    have hraise : t = { u with dec := { u.dec with
        derr := 9, derrinfo := wordOf c.toNat, flags := { u.dec.flags with dfault := true } } } := by
      rw [← ht, finish, raise, if_neg (by simp [hnone])]
      rfl
    subst hraise
    refine ⟨bs, c, hlt, hbytes, hc, hneg, rfl, ?_, hcopied.output, hcopied.din⟩
    exact (BitVec.ofNat_toNat 32 c).trans (BitVec.setWidth_eq c)

end Loop

/-! ### A run that was appended -/

/-- What DLIT and DMATCH leave of the state `s` after a run of `n` bytes, byte `j` of them `src j`. -/
structure RunAppended (n : Nat) (src : Nat → Option Byte) (s t : State) : Prop where
  frame : t = { s with dec := t.dec, ports := t.ports }
  inv : DecInv t.dec
  size : t.dec.dB = s.dec.dB
  size0 : t.dec.dSize0 = s.dec.dSize0
  derr : t.dec.derr = s.dec.derr
  derrinfo : t.dec.derrinfo = s.dec.derrinfo
  dok : t.dec.flags.dok = true
  dfault : t.dec.flags.dfault = false
  filled : t.dec.dFilled.toNat = min s.dec.dB.toNat (s.dec.dFilled.toNat + n)
  head : t.dec.head = (s.dec.head + n) % s.dec.dB.toNat
  placed : ∀ j, j < n → n ≤ j + s.dec.dB.toNat → t.dec.ring ((s.dec.head + j) % s.dec.dB.toNat) = src j
  left : ∀ p, p < s.dec.dB.toNat → (∀ j, j < n → (s.dec.head + j) % s.dec.dB.toNat ≠ p) →
    t.dec.ring p = s.dec.ring p
  within : n ≤ s.dec.room → t.ports.dout = s.ports.dout ∧ t.ports.doutAnswers = s.ports.doutAnswers ∧
    t.dec.flags = s.dec.flags ∧ t.dec.dLast = s.dec.dLast ∧ t.dec.dData.toNat = s.dec.dData.toNat + n

section RunAppended

variable {i : Instr} {loop : Nat → Nat → State → Run State} {taken : Nat → Nat} {ok : Dec → Prop}
  {bytes : List Byte → State → Prop} {s t : State}

/-- A run that fits the room moves D_DATA and makes no write event (R269, R271). -/
theorem AppendsByTurns.no_event {n : Nat} (L : AppendsByTurns loop taken ok bytes) (h : DecInv s.dec) (ho : ok s.dec)
    (ht : loop n n s = .done t) (hroom : n ≤ s.dec.room) :
    t.ports.dout = s.ports.dout ∧ t.ports.doutAnswers = s.ports.doutAnswers ∧ t.dec.flags = s.dec.flags ∧
      t.dec.dLast = s.dec.dLast ∧ t.dec.dData.toNat = s.dec.dData.toNat + n := by
  obtain ⟨bs, rfl, hl⟩ := L.within_room h ho le_rfl hroom
  obtain rfl : t = putTurn (taken bs.length) bs s := Run.done.inj (ht.symm.trans hl)
  exact ⟨rfl, rfl, by simp [putTurn, putBytes], by simp [putTurn, putBytes], dData_putBytes h hroom⟩

theorem runAppended_of_extends {n : Nat} {bs : List Byte} {src : Nat → Option Byte}
    (L : AppendsByTurns loop taken ok bytes) (hi : i = .dlit ∨ i = .dmatch) (hr : DecReady s) (h : DecInv s.dec)
    (ho : ok s.dec) (hx : exec i s = .next t) (ht : loop n n s = .done t) (hlen : bs.length = n)
    (he : Extends bs s.dec t.dec) (hsrc : ∀ j, j < n → bs[j]? = src j) : RunAppended n src s t := by
  subst hlen
  obtain ⟨hdec, hset⟩ : owner i = .decoder ∧ opcode i ∉ decSetup := by obtain rfl | rfl := hi <;> decide
  have hready := hr.of_extends he
  have hw := exec_writesWithin hx
  have hside : s.withDecSide t = t := withDecSide_of_exec_decoder hdec hx
  obtain ⟨-, hderr, hderrinfo⟩ := hw.decErrors (fun hop => hset (List.mem_append_left _ hop)) (.inr hready.1)
  exact
    { frame := by rw [← hside]; rfl
      inv := he.inv
      size := he.size
      size0 := eq_of_unlessWriter hset (congrArg Dec.dSize0 hw.dec)
      derr := hderr
      derrinfo := hderrinfo
      dok := hready.2
      dfault := hready.1
      filled := he.filled
      head := he.head
      placed := fun j hj hlast => by rw [he.ring, ringAfter_getElem? _ _ _ h.head_lt hj hlast, hsrc j hj]
      left := fun p _ hne => by rw [he.ring, ringAfter_of_ne _ _ _ h.head_lt hne]
      within := L.no_event h ho ht }

end RunAppended

/-- What a decoder command that took `n` bytes of DIN leaves of the ports: the encoder's, and the rest of DIN. -/
theorem Appends.ports_eq {i : Instr} {n : Nat} {bs : List Byte} {s t : State} (happ : Appends n bs s t)
    (hi : owner i = .decoder) (hx : exec i s = .next t) (hn : n ≤ s.ports.din.length) :
    t.ports = { s.ports with
      din := s.ports.din.drop n, dout := t.ports.dout, doutAnswers := t.ports.doutAnswers } := by
  have hside : s.withDecSide t = t := withDecSide_of_exec_decoder hi hx
  have hun : t.ports.dinUnoffered = s.ports.dinUnoffered := by rw [happ.unoffered, Nat.sub_eq_zero_of_le hn]; rfl
  have hports : t.ports = { s.ports with
      din := t.ports.din, dout := t.ports.dout, doutAnswers := t.ports.doutAnswers
      dinUnoffered := t.ports.dinUnoffered } := (congrArg State.ports hside).symm
  rwa [hun, happ.din] at hports

/-! ### DLIT (R269) -/

/-- Settles O46: the run is what DLIT's loop appends; its write events are those of the loop cut at the room. -/
theorem dlitAppendsTheLiteralRun : Obligations.DlitAppendsTheLiteralRun := by
  intro s hr
  refine ⟨fun hform => ?_, fun hform h ha hn => ?_⟩
  · have habort : abortForm s = true := beq_iff_eq.2 hform
    rw [exec_of_dec_lines (i := .dlit) rfl hr, dlitLines_of_abort habort]
    rfl
  · intro n B P
    have L := dlitLoop_appendsByTurns
    have hx := dlit_runsLoop hform
    obtain ⟨t, ht, happ⟩ := dlitLoop_appends n n s h ha le_rfl
    have hbytes : (dinTake n s.ports).1 = s.ports.din.take n := takeBytes_offered _ _ _ _ hn
    rw [hbytes] at happ
    have hexec : exec .dlit s = .next t := by
      rw [exec_of_dec_lines (i := .dlit) rfl hr, dlitLines_of_run hform, ht]
      rfl
    have R : RunAppended n (s.ports.din[·]?) s t :=
      runAppended_of_extends L (.inl rfl) hr h trivial hexec ht (List.length_take_of_le hn) happ.ring
        fun _ hj => List.getElem?_take_of_lt hj
    refine ⟨t.dec, t.ports, hexec.trans (congrArg _ R.frame), R.inv, happ.output, happ.ports_eq (by decide) hexec hn,
      R.size, R.size0, R.derr, R.derrinfo, R.dok, R.dfault, R.filled, R.head, R.placed, R.left, R.within,
      fun _ hlt => ?_, fun hroom hpos => ?_⟩
    · exact hx.split_at_room L (fun _ _ _ => rfl) hr h trivial hlt ht
    · exact hx.at_full_segment L (fun u h0 _ => by rw [← h0]; rfl) hr h trivial ha hroom hpos

/-! ### DMATCH (R271, R272) -/

/-- Settles O47: the run repeats its source, and DMATCH's loop appends it as DLIT's does a literal run. -/
theorem dmatchRepeatsTheSource : Obligations.DmatchRepeatsTheSource := by
  intro s hr offset len B P copied
  refine ⟨fun hill => ?_, fun h ha hpos hlt hle => ?_⟩
  · have hlines : dmatchLines s = .raised s .corrupt offset := by
      exact dmatchLines_of_illegal fun ⟨hpos, hlt, hle⟩ => by omega
    rw [exec_of_dec_lines (i := .dmatch) rfl hr, hlines]
    rfl
  · have ho : LegalOffset offset s.dec := ⟨hpos, hlt, hle⟩
    have L := dmatchLoop_appendsByTurns offset
    have hx := dmatch_runsLoop s
    obtain ⟨t, bs, ht, hlen, happ, hrep⟩ := dmatchLoop_appends offset len len s h ha ho le_rfl
    have hexec : exec .dmatch s = .next t := by
      rw [exec_of_dec_lines (i := .dmatch) rfl hr, dmatchLines_of_legal ho, ht]
      rfl
    have houtput : bs.map some = (List.range len).map copied := by
      rw [← hlen]
      exact repeats_map_some hpos hlt h.head_lt hrep
    have R : RunAppended len copied s t :=
      runAppended_of_extends L (.inr rfl) hr h ho hexec ht hlen happ.ring fun _ hj =>
        (repeats_period hpos hlt h.head_lt hrep (hj.trans_eq hlen.symm)).symm
    refine ⟨t.dec, t.ports, hexec.trans (congrArg _ R.frame), R.inv, houtput ▸ happ.output,
      happ.ports_eq (by decide) hexec (Nat.zero_le _), R.size, R.size0, R.derr, R.derrinfo, R.dok, R.dfault, R.filled,
      R.head, R.placed, R.left, R.within, fun _ hroom => ?_, fun hroom hn => ?_⟩
    · exact hx.split_at_room L (fun _ _ _ => rfl) hr h ho hroom ht
    · exact hx.at_full_segment L (fun u _ h1 => by rw [← h1]; rfl) hr h ho ha hroom hn

/-! ### Refused events (R346) -/

/-- Settles O48: the faulted end of the loops, with the bytes of each command's run. -/
theorem refusedOutputKeepsTheWorkDone : Obligations.RefusedOutputKeepsTheWorkDone := by
  intro i s t hr h hexec hf B offset accepted kept
  refine ⟨?_, ?_⟩
  · rintro rfl hform hn
    have ht : finish .dec (dlitLoop s.arg0.toNat s.arg0.toNat s) = t := by
      rw [exec_of_dec_lines (i := .dlit) rfl hr, dlitLines_of_run hform] at hexec
      exact Host.Outcome.next.inj hexec
    obtain ⟨bs, c, hlt, hbs, hc, hneg, hderr, hinfo, hout, hdin⟩ :=
      dlitLoop_appendsByTurns.refused hr h trivial ht hf
    have htake : bs = s.ports.din.take bs.length := by
      rw [dinTake, takeBytes_offered _ _ _ _ (by omega)] at hbs
      exact hbs
    refine ⟨bs.length, c, by simpa using ⟨hlt, by omega⟩, hc, hneg, hderr, hinfo, ?_, hdin⟩
    rw [← List.map_take, List.take_take, Nat.min_eq_left hlt.le, ← htake]
    exact hout
  · rintro rfl hpos hlt hle
    have ho : LegalOffset offset s.dec := ⟨hpos, hlt, hle⟩
    have ht : finish .dec (dmatchLoop offset s.arg1.toNat s.arg1.toNat s) = t := by
      rw [exec_of_dec_lines (i := .dmatch) rfl hr, dmatchLines_of_legal ho] at hexec
      exact Host.Outcome.next.inj hexec
    obtain ⟨bs, c, hbslt, hrep, hc, hneg, hderr, hinfo, hout, hdin⟩ :=
      (dmatchLoop_appendsByTurns offset).refused hr h ho ht hf
    refine ⟨bs.length, c, by simpa using hbslt, hc, hneg, hderr, hinfo, ?_, hdin⟩
    rw [← List.map_take, List.take_range, Nat.min_eq_left hbslt.le, ← repeats_map_some hpos hlt h.head_lt hrep]
    exact hout

end Sys2Proof.Machine
end

section
/-! PROOFS. The statements of `46_system.md`: what each operation of the host does as a step, NOP, RESET and the
hardware reset, and the register bus. -/

namespace Sys2Proof.Machine

open Sys2Proof

/-! ### A step by the host's operation (R293 to R295, R380)

A write to CMD is `step_wr_cmd`. -/

theorem step_rd {s : State} {n : BitVec 6} {rest : List HostOp} (h : s.bus = .rd n :: rest) :
    step s = .next (hostRead n.toNat { s with bus := rest }) := by
  rw [step, h]

theorem step_wr {s : State} {n : BitVec 6} {v : Word} {rest : List HostOp} (h : s.bus = .wr n v :: rest)
    (hn : n ≠ 0x3F) : step s = .next (busWrite n.toNat v { s with bus := rest }) := by
  have hcmd : n.toNat ≠ cmdReg := fun he => hn (BitVec.eq_of_toNat_eq he)
  simp only [step, h, if_neg hcmd]

theorem step_hwReset {s : State} {rest : List HostOp} (h : s.bus = .hwReset :: rest) :
    step s = .next (hardwareReset { s with bus := rest }) := by
  rw [step, h]

/-- The last part of R295: the word written to CMD runs as the command it encodes. -/
theorem runCommand_of_decoded {w : Word} {i : Instr} (h : decode w = .ok i) (s : State) :
    runCommand w s = exec i s := by
  rw [runCommand, h]

/-- Settles O6: a write to CMD is a command, and a command runs what it decodes to. -/
theorem commandWriteRunsTheDecodedInstruction : Obligations.CommandWriteRunsTheDecodedInstruction :=
  fun _ _ _ _ hbus hdec => (step_wr_cmd hbus).trans (runCommand_of_decoded hdec _)

/-! ### NOP, RESET, the hardware reset (R290, R291, R380) -/

/-- Settles O2: each command word of RESET selects its own set of contexts; the model takes HT all zeros after a reset
(log entry 2). -/
theorem nopAndResetEffects : Obligations.NopAndResetEffects := fun _ =>
  ⟨rfl, rfl, ⟨State.reset.enc.ht, rfl⟩, rfl, ⟨State.reset.enc.ht, rfl⟩,
    fun _ hbus => ⟨State.reset.enc.ht, step_hwReset hbus⟩⟩

/-! ### Bus reads (R293) -/

theorem getElem?_eq_some_stagingAt {arr : List Word} {idx : Word} (h : idx.toNat < arr.length) :
    arr[idx.toNat]? = some (stagingAt arr idx) := by
  rw [stagingAt, List.getD_eq_getElem _ _ h, List.getElem?_eq_getElem h]

theorem stagingAt_of_length_le {arr : List Word} {idx : Word} (h : arr.length ≤ idx.toNat) : stagingAt arr idx = 0 :=
  List.getD_eq_default _ _ h

/-- D_POS reads the write position only while the decoder is set up (R64). -/
theorem busRead_dPos (s : State) : busRead 0x25 s = if s.dec.flags.dok then wordOf s.dec.dataPos else 0 := rfl

theorem wordOf_dataPos_of_block0 {d : Dec} (h : d.flags.block0 = true) : wordOf d.dataPos = d.dData := by
  rw [Dec.dataPos, if_pos h, wordOf, BitVec.ofNat_toNat, BitVec.setWidth_eq]

theorem wordOf_dataPos_of_not_block0 {d : Dec} (h : d.flags.block0 = false) :
    wordOf d.dataPos = d.dData + d.dSize0 := by
  rw [Dec.dataPos, if_neg (by simp [h]), wordOf, BitVec.ofNat_add, BitVec.ofNat_toNat, BitVec.ofNat_toNat,
    BitVec.setWidth_eq, BitVec.setWidth_eq]

/-- Settles O3: a read is `hostRead`; a register is read off the map by its number, and the computed ones follow from
the staging window and the write position. -/
theorem busReadReturnsRegister : Obligations.BusReadReturnsRegister := by
  refine ⟨fun s n rest hbus => step_rd hbus, fun s => ⟨rfl, rfl, rfl, ?reserved, getElem?_eq_some_stagingAt,
    getElem?_eq_some_stagingAt, getElem?_eq_some_stagingAt, getElem?_eq_some_stagingAt, stagingAt_of_length_le,
    stagingAt_of_length_le, stagingAt_of_length_le, stagingAt_of_length_le, rfl, ?notSetUp, ?inSeg0, ?inSeg1⟩⟩
  case reserved =>
    intro n hn
    fin_cases hn <;> rfl
  case notSetUp =>
    intro hdok
    rw [busRead_dPos, if_neg (by simp [hdok])]
  case inSeg0 =>
    intro hdok hblock
    rw [busRead_dPos, if_pos hdok, wordOf_dataPos_of_block0 hblock]
  case inSeg1 =>
    intro hdok hblock
    rw [busRead_dPos, if_pos hdok, wordOf_dataPos_of_not_block0 hblock]

/-! ### Bus writes (R294) -/

theorem writeCfg_of_cfgok {s : State} (h : s.enc.flags.cfgok = true) (f : Enc → Enc) : writeCfg f s = s := if_pos h

theorem writeCfg_of_not_cfgok {s : State} (h : s.enc.flags.cfgok = false) (f : Enc → Enc) :
    writeCfg f s = { s with enc := f s.enc } := if_neg (by simp [h])

/-- A stream parameter cannot be written once the encoder is configured (R50). -/
theorem busWrite_cfg_of_cfgok {n : Nat} {s : State} (hn : n ≤ 0x05) (h : s.enc.flags.cfgok = true) (v : Word) :
    busWrite n v s = s := by
  interval_cases n <;> simp only [busWrite, writeCfg_of_cfgok h]

/-- A number that is no stream parameter and neither R_IDX, ARG0 nor ARG1 cannot be written. -/
theorem busWrite_of_not_writable {n : Nat} (hcfg : 0x05 < n) (hidx : n ≠ 0x30) (harg0 : n ≠ 0x38) (harg1 : n ≠ 0x39)
    (v : Word) (s : State) : busWrite n v s = s := by
  unfold busWrite
  split
  case h_10 => rfl
  all_goals omega

/-- Settles O5: a write to CMD is a command, any other is `busWrite`, number by number. -/
theorem busWriteStoresOrIsIgnored : Obligations.BusWriteStoresOrIsIgnored := by
  intro s n v rest hbus s'
  have hstep : n ≠ 0x3F → step s = .next (busWrite n.toNat v s') := step_wr hbus
  refine ⟨fun hc => ?stored, fun hc hn => ?configured, ?rIdx, ?arg0, ?arg1, ?command, ?ignored⟩
  case stored =>
    have hwrite : ∀ f, writeCfg f s' = { s' with enc := f s.enc } := writeCfg_of_not_cfgok hc
    refine ⟨?_, ?_, ?_, ?_, ?_, ?_⟩ <;>
    · rintro rfl
      rw [hstep (by decide)]
      simp [busWrite, hwrite]
  case configured =>
    rw [hstep (by rintro rfl; simp at hn), busWrite_cfg_of_cfgok (s := s') hn hc]
  case rIdx => rintro rfl; exact hstep (by decide)
  case arg0 => rintro rfl; exact hstep (by decide)
  case arg1 => rintro rfl; exact hstep (by decide)
  case command => rintro rfl; exact step_wr_cmd hbus
  case ignored =>
    intro hcfg hidx harg0 harg1 hcmd
    have hne : ∀ k : BitVec 6, n ≠ k → n.toNat ≠ k.toNat := fun _ hk he => hk (BitVec.eq_of_toNat_eq he)
    rw [hstep hcmd, busWrite_of_not_writable hcfg (hne _ hidx) (hne _ harg0) (hne _ harg1)]

end Sys2Proof.Machine
end

section
/-! PROOFS. The statements about faults and reset: what taking a fault writes, that a faulted context is stuck, that a
unit command faults before it writes anything, and that the invariants hold from reset and set-up on. -/

namespace Sys2Proof.Machine

open Sys2Proof

/-! ### Taking a fault (R341, R342) -/

theorem raise_enc_of_unfaulted {s : State} (h : s.enc.flags.efault = false) (x : Exn) (n : Nat) :
    raise .enc x n s = { s with enc := { s.enc with
      eerr := x.code, eerrinfo := wordOf n, flags := { s.enc.flags with efault := true } } } :=
  if_neg (by simp [faulted, h])

theorem raise_dec_of_unfaulted {s : State} (h : s.dec.flags.dfault = false) (x : Exn) (n : Nat) :
    raise .dec x n s = { s with dec := { s.dec with
      derr := x.code, derrinfo := wordOf n, flags := { s.dec.flags with dfault := true } } } :=
  if_neg (by simp [faulted, h])

/-- Settles O9: the two ends of `raise` in each context, and the table of codes. -/
theorem raiseRecordsTheFirstFault : Obligations.RaiseRecordsTheFirstFault := fun x n _ =>
  ⟨fun h => raise_enc_of_unfaulted h x n, fun h => raise_dec_of_unfaulted h x n,
    fun h => raise_of_faulted (c := .enc) h x n, fun h => raise_of_faulted (c := .dec) h x n, rfl⟩

/-- Settles O10: the preambles stop every command of a faulted context, and RESET runs in either. -/
theorem faultedContextIsStuckUntilReset : Obligations.FaultedContextIsStuckUntilReset := fun _ _ =>
  ⟨fun hf ho => exec_of_efault ho hf, fun hf ho => exec_of_dfault ho hf, rfl, ⟨State.reset.enc.ht, rfl⟩, rfl, rfl, rfl⟩

/-! ### Precise faults (R346) -/

/-- Where the run raised a fault nothing had been written yet. -/
def Run.Precise {σ : Type} (s : σ) (r : Run σ) : Prop := r.Ends (fun _ => True) fun t _ _ => t = s

theorem Run.Precise.guard {σ : Type} {s : σ} {c : Prop} [Decidable c] {x : Exn} {n : Nat} {r : Run σ}
    (hr : r.Precise s) : (if c then Run.raised s x n else r).Precise s := by
  split
  · exact rfl
  · exact hr

theorem onEnc_precise {f : Enc → Run Enc} {s : State} (h : (f s.enc).Precise s.enc) : (onEnc f s).Precise s := by
  unfold onEnc
  cases hf : f s.enc with
  | done e => trivial
  | raised e x n =>
    rw [hf] at h
    obtain rfl : e = s.enc := h
    exact rfl

theorem onDec_precise {f : Dec → Run Dec} {s : State} (h : (f s.dec).Precise s.dec) : (onDec f s).Precise s := by
  unfold onDec
  cases hf : f s.dec with
  | done d => trivial
  | raised d x n =>
    rw [hf] at h
    obtain rfl : d = s.dec := h
    exact rfl

theorem cfgLines_precise (caps : Caps) (e : Enc) : (cfgLines caps e).Precise e := by
  unfold cfgLines
  iterate 9 refine .guard ?_
  trivial

theorem hclrLines_precise (e : Enc) : (hclrLines e).Precise e := trivial

theorem hupdLines_precise (out inn : Nat) (e : Enc) : (hupdLines out inn e).Precise e := trivial

theorem htclrLines_precise (e : Enc) : (htclrLines e).Precise e := trivial

theorem hinitLines_precise (e : Enc) : (hinitLines e).Precise e := by
  obtain ⟨-, h⟩ | ⟨-, _, -, h⟩ | ⟨-, _, -, h⟩ := hinitLines_cases e <;> rw [h]
  · exact rfl
  · exact rfl
  · trivial

theorem hrollLines_precise (e : Enc) : (hrollLines e).Precise e := by
  obtain ⟨-, h⟩ | ⟨-, -, h⟩ | ⟨-, -, ⟨-, h⟩ | ⟨_, -, ⟨-, h⟩ | ⟨_, -, h⟩⟩⟩ := hrollLines_cases e <;> rw [h]
  · exact rfl
  · exact rfl
  · exact rfl
  · exact rfl
  · trivial

theorem insertLines_precise (e : Enc) : (insertLines e).Precise e := .guard (.guard trivial)

theorem probeLines_precise (e : Enc) : (probeLines e).Precise e := by
  refine .guard ?_
  split <;> trivial

theorem seekLines_precise (p : Word) (e : Enc) : (seekLines p e).Precise e := .guard trivial

theorem boundsLines_precise (e : Enc) : (boundsLines e).Precise e := by
  refine .guard (.guard ?_)
  split <;> trivial

theorem extbLines_precise (e : Enc) : (extbLines e).Precise e := by
  refine .guard ?_
  split
  · exact rfl
  · trivial

theorem extfLines_precise (e : Enc) : (extfLines e).Precise e := by
  refine .guard ?_
  split
  · exact rfl
  · trivial

theorem commitLines_precise (recCap : Nat) (e : Enc) : (commitLines recCap e).Precise e := by
  refine .guard ?_
  split
  · exact .guard trivial
  · trivial

theorem endcycLines_precise (recCap : Nat) (e : Enc) : (endcycLines recCap e).Precise e := by
  refine .guard (.guard ?_)
  split <;> trivial

theorem finalLines_precise (recCap : Nat) (e : Enc) : (finalLines recCap e).Precise e :=
  .guard (.guard (.guard trivial))

theorem fillLines_precise (s : State) : (fillLines s).Precise s := by
  unfold fillLines
  iterate 5 refine .guard ?_
  trivial

theorem dinitLines_precise (caps : Caps) (B s0 : Word) (d : Dec) : (dinitLines caps B s0 d).Precise d := by
  unfold dinitLines
  iterate 6 refine .guard ?_
  trivial

section Commands

variable {op : Byte} {c : Ctx} {body : State → Run State} {s t : State}

/-- A command whose lines fault precisely, and leave the fault flag to the fault, takes its fault in the state it found. -/
theorem unlessFaulted_precise (hp : (body s).Precise s) (hkeep : faulted c (body s).final = faulted c s)
    (h : unlessFaulted c body s = .next t) (hs : faulted c s = false) (ht : faulted c t = true) :
    ∃ x n, t = raise c x n s := by
  unfold unlessFaulted at h
  rw [if_neg (by simp [hs])] at h
  cases h
  obtain ⟨u, hr, hu⟩ | ⟨u, x, n, hr, hu⟩ := finish_cases c (body s) <;> rw [hr] at hp hkeep <;> rw [hu] at ht ⊢
  · exact absurd (ht.symm.trans (hkeep.trans hs)) (by decide)
  · obtain rfl : u = s := hp
    exact ⟨x, n, rfl⟩

/-- The state of an encoder command's precise fault. -/
def FaultedOnly (s t : State) : Prop :=
  t = { s with enc := { s.enc with
    eerr := t.enc.eerr, eerrinfo := t.enc.eerrinfo, flags := { s.enc.flags with efault := true } } }

theorem faultedOnly_raise (hs : s.enc.flags.efault = false) (x : Exn) (n : Nat) : FaultedOnly s (raise .enc x n s) := by
  rw [FaultedOnly, raise_enc_of_unfaulted hs]

theorem encCommand_faultedOnly (hp : (body s).Precise s) (hop : op ∉ [0x01])
    (hunw : (body s).final.unwritten op = s.unwritten op) (h : encCommand op body s = .next t)
    (hs : s.enc.flags.efault = false) (ht : t.enc.flags.efault = true) : FaultedOnly s t := by
  have hkeep := efault_of_unwritten hop hunw
  obtain ⟨x, n, rfl⟩ := unlessFaulted_precise (c := .enc) (by split; exacts [hp, rfl])
    (by split; exacts [hkeep, rfl]) h hs ht
  exact faultedOnly_raise hs x n

theorem onEnc_faultedOnly {f : Enc → Run Enc} (hp : (f s.enc).Precise s.enc) (hop : op ∉ [0x01])
    (hunw : (f s.enc).final.unwritten op = s.enc.unwritten op) (h : encCommand op (onEnc f) s = .next t)
    (hs : s.enc.flags.efault = false) (ht : t.enc.flags.efault = true) : FaultedOnly s t :=
  encCommand_faultedOnly (onEnc_precise hp) hop (onEnc_unwritten hunw) h hs ht

theorem exec_cfg_faultedOnly (h : exec .cfg s = .next t) (hs : s.enc.flags.efault = false)
    (ht : t.enc.flags.efault = true) : FaultedOnly s t := by
  have hkeep := efault_of_unwritten (by decide) (onEnc_unwritten (cfgLines_unwritten s.caps s.enc hs))
  obtain ⟨x, n, rfl⟩ := unlessFaulted_precise (c := .enc) (onEnc_precise (cfgLines_precise s.caps s.enc)) hkeep h hs ht
  exact faultedOnly_raise hs x n

theorem exec_dinit_precise (h : exec .dinit s = .next t) (hs : s.dec.flags.dfault = false)
    (ht : t.dec.flags.dfault = true) : ∃ x n, t = raise .dec x n s :=
  unlessFaulted_precise (c := .dec) (onDec_precise (dinitLines_precise s.caps s.arg0 s.arg1 s.dec))
    (dfault_of_unwritten (by decide) (onDec_unwritten (dinitLines_unwritten s.caps s.arg0 s.arg1 s.dec hs))) h hs ht

end Commands

/-- Every unit command of the encoder makes its tests before it writes. -/
theorem exec_unit_faultedOnly {i : Instr} {s t : State} (h : exec i s = .next t)
    (hi : i ∈ [Instr.cfg, .hclr, .hinit, .hroll, .htclr, .insert, .probe, .fill, .seek, .bounds, .extb, .extf, .commit,
      .endcyc, .final] ∨ ∃ out inn, i = .hupd out inn)
    (hs : s.enc.flags.efault = false) (ht : t.enc.flags.efault = true) : FaultedOnly s t := by
  cases i with
  | cfg => exact exec_cfg_faultedOnly h hs ht
  | hclr => exact onEnc_faultedOnly (hclrLines_precise _) (by decide) (hclrLines_unwritten _) h hs ht
  | hupd out inn =>
    exact onEnc_faultedOnly (op := 0x12) (hupdLines_precise out inn _) (by decide) (hupdLines_unwritten out inn _) h hs ht
  | hinit => exact onEnc_faultedOnly (hinitLines_precise _) (by decide) (hinitLines_unwritten (by decide) _) h hs ht
  | hroll => exact onEnc_faultedOnly (hrollLines_precise _) (by decide) (hrollLines_unwritten (by decide) _) h hs ht
  | htclr => exact onEnc_faultedOnly (htclrLines_precise _) (by decide) (htclrLines_unwritten _) h hs ht
  | insert => exact onEnc_faultedOnly (insertLines_precise _) (by decide) (insertLines_unwritten (by decide) _) h hs ht
  | probe => exact onEnc_faultedOnly (probeLines_precise _) (by decide) (probeLines_unwritten (by decide) _) h hs ht
  | fill => exact encCommand_faultedOnly (fillLines_precise s) (by decide) (fillLines_unwritten s) h hs ht
  | seek => exact onEnc_faultedOnly (seekLines_precise s.arg0 _) (by decide) (seekLines_unwritten s.arg0 _) h hs ht
  | bounds => exact onEnc_faultedOnly (boundsLines_precise _) (by decide) (boundsLines_unwritten (by decide) _) h hs ht
  | extb => exact onEnc_faultedOnly (extbLines_precise _) (by decide) (extbLines_unwritten (by decide) _) h hs ht
  | extf => exact onEnc_faultedOnly (extfLines_precise _) (by decide) (extfLines_unwritten (by decide) _) h hs ht
  | commit =>
    exact onEnc_faultedOnly (commitLines_precise _ _) (by decide) (commitLines_unwritten (by decide) _ _) h hs ht
  | endcyc => exact onEnc_faultedOnly (endcycLines_precise _ _) (by decide) (endcycLines_unwritten _ _) h hs ht
  | final => exact onEnc_faultedOnly (finalLines_precise _ _) (by decide) (finalLines_unwritten _ _) h hs ht
  | _ => simp at hi

/-- Settles O13: the fault of a unit command is taken in the state the command found. -/
theorem unitCommandFaultsArePrecise : Obligations.UnitCommandFaultsArePrecise := by
  intro i s t h
  refine ⟨exec_unit_faultedOnly h, ?_⟩
  rintro rfl hs ht
  obtain ⟨x, n, rfl⟩ := exec_dinit_precise h hs ht
  rw [raise_dec_of_unfaulted hs]

/-! ### Reset and set-up (R381, R171, R266) -/

/-- Settles O1: reset is the state of the default values, which are read off register by register. -/
theorem resetReadsZeroAndHoldsNothing : Obligations.ResetReadsZeroAndHoldsNothing := by
  refine ⟨fun n hn => ?_, ⟨rfl, rfl, rfl, rfl⟩, fun p => ⟨rfl, rfl, rfl⟩⟩
  interval_cases n <;> rfl

theorem canonical_reset : Canonical State.reset := ⟨reset_buf_wf, reset_ht_wf, reset_seg0_wf, reset_seg1_wf⟩

/-- CFG ends with the invariants, R70 (g) in full among them: no record is staged. -/
theorem exec_cfg_encInv {s t : State} (h : exec .cfg s = .next t) (ht : EncReady t) :
    EncInv t.caps.recCap t.enc ∧ EncChain t.enc.nrec.toNat t.enc := by
  obtain ⟨-, hd⟩ := unlessFaulted_done (c := .enc) h ht.1
  have hcfg := onEnc_done hd
  have hinv := (cfgLines_encInv t.caps.recCap s.caps s.enc).of_eq_done hcfg
  obtain ⟨c, hc⟩ := hinv.staging.chain
  exact ⟨hinv, hc.all (.inl ((cfgLines_nrec s.caps s.enc).of_eq_done hcfg))⟩

theorem exec_dinit_decInv {s t : State} (h : exec .dinit s = .next t) (ht : DecReady t) : DecInv t.dec := by
  obtain ⟨-, hd⟩ := unlessFaulted_done (c := .dec) h ht.1
  exact (onDec_onDone (s := s) (dinitLines_decInv s.caps s.arg0 s.arg1 s.dec)).of_eq_done hd

/-- Settles O54: after reset neither context is set up, so there the invariants claim nothing of their registers. -/
theorem invariantsHoldAtResetAndSetUp : Obligations.InvariantsHoldAtResetAndSetUp :=
  ⟨⟨canonical_reset, fun hr => Bool.noConfusion hr.2, fun hr => Bool.noConfusion hr.2⟩,
    fun _ _ h _ ht => exec_cfg_encInv h ht, fun _ _ h _ ht => exec_dinit_decInv h ht⟩

end Sys2Proof.Machine
end

section
/-! PROOFS. The stream format (R306 to R308, R326): words and blocks are read back as they were written. -/

namespace Sys2Proof.Machine

open Sys2Proof

/-! ### Stream words (R306) -/

@[simp] theorem length_streamWord (w : Word) : (streamWord w).length = 4 := rfl

theorem append_bytes (w : Word) :
    w.extractLsb' 24 8 ++ w.extractLsb' 16 8 ++ w.extractLsb' 8 8 ++ w.extractLsb' 0 8 = w := by
  rw [BitVec.extractLsb'_append_extractLsb'_eq_extractLsb' (start₂ := 24) (start₁ := 16) rfl,
    BitVec.extractLsb'_append_extractLsb'_eq_extractLsb' (start₂ := 16) (start₁ := 8) rfl,
    BitVec.extractLsb'_append_extractLsb'_eq_extractLsb' (start₂ := 8) (start₁ := 0) rfl, BitVec.extractLsb'_eq_self]

theorem takeWord_streamWord_append (w : Word) (rest : List Byte) :
    takeWord (streamWord w ++ rest) = some (w, rest) :=
  congrArg (fun v => some (v, rest)) (append_bytes w)

theorem streamWords_cons (w : Word) (ws : List Word) : streamWords (w :: ws) = streamWord w ++ streamWords ws := rfl

theorem length_streamWords (ws : List Word) : (streamWords ws).length = 4 * ws.length := by
  simp [streamWords, Nat.mul_comm]

theorem takeWords_streamWords_append : ∀ (ws : List Word) (rest : List Byte),
    takeWords ws.length (streamWords ws ++ rest) = some (ws, rest)
  | [], _ => rfl
  | w :: ws, rest => by
    rw [streamWords_cons, List.append_assoc, List.length_cons, takeWords, takeWord_streamWord_append]
    simp only [takeWords_streamWords_append ws rest]

theorem length_of_takeWords : ∀ {n : Nat} {bs : List Byte} {ws : List Word} {rest : List Byte},
    takeWords n bs = some (ws, rest) → ws.length = n
  | 0, _, _, _, h => by
    cases h
    rfl
  | n + 1, bs, ws, rest, h => by
    unfold takeWords at h
    split at h
    · cases h
    next w r _ =>
      split at h
      · cases h
      next vs r' hvs =>
        cases h
        rw [List.length_cons, length_of_takeWords hvs]

/-! ### Blocks (R307, R308) -/

theorem Block.eight_le_compSize (b : Block) : 8 ≤ b.compSize := by
  unfold Block.compSize
  omega

section Wf

variable {b : Block}

/-- `num` fits its stream word, as 12 bytes of the block go with each match. -/
theorem Block.wf.num_lt (h : b.wf) : b.num < 2 ^ 32 := by
  obtain ⟨-, -, -, hsize⟩ := h
  unfold Block.compSize at hsize
  omega

theorem Block.wf.length_body (h : b.wf) : b.body.length = b.compSize := by
  obtain ⟨hoffsets, hdatalens, hliterals, -⟩ := h
  simp only [Block.body, List.length_append, length_streamWord, length_streamWords, hoffsets, hdatalens, hliterals,
    Block.compSize, Block.num]
  omega

/-- The reader finds each array behind the one before, by the counts the grammar gives. -/
theorem Block.wf.parseBody_body (h : b.wf) : parseBody b.compSize b.body = .ok b := by
  have hnum : (wordOf b.num).toNat = b.num := toNat_wordOf h.num_lt
  obtain ⟨hoffsets, hdatalens, hliterals, -⟩ := h
  have hsize : ¬b.compSize < 8 + 12 * b.num := by
    unfold Block.compSize
    omega
  have hlens := takeWords_streamWords_append b.lens (streamWords b.offsets ++ (streamWords b.datalens ++ b.literals))
  have hoffs := takeWords_streamWords_append b.offsets (streamWords b.datalens ++ b.literals)
  have hdata := takeWords_streamWords_append b.datalens b.literals
  rw [hoffsets] at hoffs
  rw [hdatalens] at hdata
  unfold parseBody Block.body
  simp only [List.append_assoc, takeWord_streamWord_append, hnum, if_neg b.eight_le_compSize.not_gt, if_neg hsize]
  rw [show takeWords b.num _ = _ from hlens]
  simp only [hoffs, hdata, if_pos (show 8 + 12 * b.num + wordSum b.datalens = b.compSize from rfl)]

end Wf

/-- A body is accepted only where the sizes add up (R326). -/
theorem compSize_of_parseBody {n : Nat} {body : List Byte} {b : Block} (h : parseBody n body = .ok b) :
    n = 8 + 12 * b.num + wordSum b.datalens := by
  unfold parseBody at h
  split at h; · cases h
  split at h; · cases h
  next num r0 _ =>
  split at h; · cases h
  split at h; · cases h
  next lens r1 hlens =>
  split at h; · cases h
  next offsets r2 _ =>
  split at h; · cases h
  split at h
  next hsum =>
    cases h
    rw [← hsum, Block.num, length_of_takeWords hlens]
  · cases h

/-- Settles O59: framing and parsing take the arrays in one order, and the reader's last check is `comp_size`. -/
theorem blockParsingInvertsFraming : Obligations.BlockParsingInvertsFraming :=
  ⟨fun b h => ⟨h.parseBody_body, h.length_body, b.eight_le_compSize, rfl⟩, fun _ _ _ h => compSize_of_parseBody h⟩

end Sys2Proof.Machine
end

section
/-! PROOFS. The host's bus transactions, and a text as the decoder reproduces it: a literal run is the next stretch of the
text, a match is a stretch that repeats an earlier one, and the decoder holds as much of the text as its ring can. -/

namespace Sys2Proof.Machine

open Sys2Proof

/-! ### Bus transactions (R152) -/

theorem issue_cmd {i : Instr} (h : i.WellFormed) (ops : List HostOp) (s : State) :
    issue (cmd i :: ops) s = issue ops (after i { s with bus := [] }) := by
  have hstep : step { s with bus := [cmd i] } = .next (after i { s with bus := [] }) := by
    rw [step_wr_cmd (w := encode i) (rest := []) rfl, runCommand_of_decoded (decode_encode h), exec_eq_next]
  rw [issue, hstep]

theorem issue_arg0 (v : Word) (ops : List HostOp) (s : State) :
    issue (wr 0x38 v :: ops) s = issue ops { s with arg0 := v, bus := [] } := rfl

theorem issue_arg1 (v : Word) (ops : List HostOp) (s : State) :
    issue (wr 0x39 v :: ops) s = issue ops { s with arg1 := v, bus := [] } := rfl

theorem after_eq_of_exec {i : Instr} {s t : State} (h : exec i s = .next t) : after i s = t := by
  rw [after, h]

/-! ### Texts, runs and matches -/

section Text

variable (B : Nat) (Y : List Byte)

/-- The `len` bytes of the text `Y` at `P` repeat those `dist` before them (R271, R272). -/
structure MatchAt (P dist len : Nat) : Prop where
  pos : 1 ≤ dist
  lt : dist < B
  le : dist ≤ P
  within : P + len ≤ Y.length
  same : ∀ k, k < len → Y[P + k]? = Y[P + k - dist]?

/-- The records take the text from `P` to `E`: each is a literal run at its offset within the lap that begins at `lap`,
and a match behind it (R307). -/
inductive Codes (lap : Nat) : Nat → List Word → List Word → List Word → List Word → Nat → Prop
  | nil (P : Nat) : Codes lap P [] [] [] [] P
  | cons {P E : Nat} {D d o l : Word} {Ds ds os ls : List Word} (start : lap + D.toNat = P)
      (repeats : MatchAt B Y (P + d.toNat) o.toNat l.toNat)
      (rest : Codes lap (P + d.toNat + l.toNat) Ds ds os ls E) :
      Codes lap P (D :: Ds) (d :: ds) (o :: os) (l :: ls) E

/-- The literal runs in index order (R307). -/
def literalBytes (lap : Nat) (Ds ds : List Word) : List Byte :=
  (List.zipWith (fun D d : Word => (Y.drop (lap + D.toNat)).take d.toNat) Ds ds).flatten

/-- The block takes the text from `P` to `E`: records, and one run more (R308). -/
structure BlockCodes (P : Nat) (b : Block) (E : Nat) : Prop where
  wf : b.wf
  runsLe : ∀ d ∈ b.datalens, d.toNat ≤ B
  within : E ≤ Y.length
  codes : ∃ (lap : Nat) (D d : Word) (Ds ds : List Word), Codes B Y lap P Ds ds b.offsets b.lens (lap + D.toNat) ∧
    b.datalens = ds ++ [d] ∧ b.literals = literalBytes Y lap (Ds ++ [D]) (ds ++ [d]) ∧ lap + D.toNat + d.toNat = E

/-- The blocks take the text from `P` to `E`, one after the other. -/
inductive BlocksCode : Nat → List Block → Nat → Prop
  | nil (P : Nat) : BlocksCode P [] P
  | cons {P Q E : Nat} {b : Block} {bs : List Block} (head : BlockCodes B Y P b Q) (tail : BlocksCode Q bs E) :
      BlocksCode P (b :: bs) E

end Text

section Codes

variable {B lap P E : Nat} {Y : List Byte} {Ds ds os ls : List Word}

theorem Codes.le (h : Codes B Y lap P Ds ds os ls E) : P ≤ E := by
  induction h with
  | nil P => exact le_rfl
  | cons _ _ _ ih => omega

/-- One record more behind those before. -/
theorem Codes.snoc {D d o l : Word} (h : Codes B Y lap P Ds ds os ls E) (hD : lap + D.toNat = E)
    (hm : MatchAt B Y (E + d.toNat) o.toNat l.toNat) :
    Codes B Y lap P (Ds ++ [D]) (ds ++ [d]) (os ++ [o]) (ls ++ [l]) (E + d.toNat + l.toNat) := by
  induction h with
  | nil P => exact .cons hD hm (.nil _)
  | cons start repeats _ ih => exact .cons start repeats (ih hD hm)

theorem Codes.length (h : Codes B Y lap P Ds ds os ls E) :
    Ds.length = ls.length ∧ ds.length = ls.length ∧ os.length = ls.length := by
  induction h with
  | nil P => exact ⟨rfl, rfl, rfl⟩
  | cons _ _ _ ih => simpa using ih

end Codes

theorem literalBytes_cons (Y : List Byte) (lap : Nat) (D d : Word) (Ds ds : List Word) :
    literalBytes Y lap (D :: Ds) (d :: ds) = (Y.drop (lap + D.toNat)).take d.toNat ++ literalBytes Y lap Ds ds := rfl

theorem literalBytes_singleton (Y : List Byte) (lap : Nat) (D d : Word) :
    literalBytes Y lap [D] [d] = (Y.drop (lap + D.toNat)).take d.toNat := by
  simp [literalBytes]

/-! ### A text in the decoder -/

/-- The ready decoder has produced exactly the text `T`: its ring of `B` bytes holds the last of it, and what the sink
accepted and the pending output are all of it (R71, R275). -/
structure Decoded (B : Nat) (T : List Byte) (s : State) : Prop where
  ready : DecReady s
  inv : DecInv s.dec
  accepts : DoutAccepts s
  size : s.dec.dB.toNat = B
  filled : s.dec.dFilled.toNat = min B T.length
  head : s.dec.head = T.length % B
  ring : s.dec.ring = ringAfter B T 0 fun _ => none
  output : acceptedOutput s = T.map some

section Decoded

variable {B : Nat} {T bs : List Byte} {s t : State}

theorem Decoded.size_pos (h : Decoded B T s) : 0 < B := h.size ▸ h.inv.size_pos

theorem Decoded.size_le (h : Decoded B T s) : B ≤ 2 ^ 31 := h.size ▸ h.inv.bLe

/-- Appended bytes are text behind the text. -/
theorem Decoded.append {n : Nat} (h : Decoded B T s) (hc : Copied n bs s t) : Decoded B (T ++ bs) t where
  ready := h.ready.of_extends hc.ring
  inv := hc.ring.inv
  accepts c hmem := h.accepts c (hc.answers hmem)
  size := by rw [hc.ring.size, h.size]
  filled := by
    rw [hc.ring.filled, h.size, h.filled, List.length_append]
    omega
  head := by rw [hc.ring.head, h.size, h.head, Nat.mod_add_mod, List.length_append]
  ring := by
    rw [hc.ring.ring, h.size, h.head, h.ring, ringAfter_append _ _ _ _ h.size_pos, Nat.zero_add]
  output := by rw [hc.output, h.output, List.map_append]

/-- The operands, the ports' inputs and the pending operations are the host's. -/
theorem Decoded.of_eq (h : Decoded B T s) (hdec : t.dec = s.dec) (hans : t.ports.doutAnswers = s.ports.doutAnswers)
    (hdout : t.ports.dout = s.ports.dout) : Decoded B T t where
  ready := by unfold DecReady; rw [hdec]; exact h.ready
  inv := hdec ▸ h.inv
  accepts := by unfold DoutAccepts; rw [hans]; exact h.accepts
  size := hdec ▸ h.size
  filled := hdec ▸ h.filled
  head := hdec ▸ h.head
  ring := hdec ▸ h.ring
  output := by
    have hbytes : doutBytes t = doutBytes s := by
      unfold doutBytes
      rw [hdout]
    rw [acceptedOutput, hbytes, hdec]
    exact h.output

theorem Decoded.noFailure (h : Decoded B T s) : decoderFailure s = none := if_neg (by simp [h.ready.1])

/-- Where nothing is pending the sink has all of the text. -/
theorem Decoded.doutBytes_of_flushed (h : Decoded B T s) (hp : s.dec.pending = []) : doutBytes s = T := by
  have hout := h.output
  rw [acceptedOutput, hp, List.append_nil] at hout
  exact (List.map_injective_iff.2 (Option.some_injective Byte)) hout

/-- A loop that appends by turns runs to its end, as the sink refuses nothing. -/
theorem AppendsByTurns.copied {loop : Nat → Nat → State → Run State} {taken : Nat → Nat} {ok : Dec → Prop}
    {bytes : List Byte → State → Prop} (L : AppendsByTurns loop taken ok bytes) (h : DecInv s.dec)
    (ha : DoutAccepts s) (ho : ok s.dec) (n : Nat) : ∃ (t : State) (bs : List Byte),
      loop n n s = .done t ∧ bs.length = n ∧ bytes bs s ∧ Copied (taken n) bs s t := by
  obtain hd | ⟨-, -, c, -, -, -, -, hmem, hneg⟩ := L.ends h ho le_rfl
  · exact hd
  · exact absurd ((ha c hmem).symm.trans hneg) (by decide)

/-! ### Literal runs (R269) -/

theorem exec_dlit_copied (hr : DecReady s) (h : DecInv s.dec) (ha : DoutAccepts s) (hw : s.arg0 ≠ 0xFFFFFFFF)
    (hn : s.arg0.toNat ≤ s.ports.din.length) :
    Copied s.arg0.toNat (s.ports.din.take s.arg0.toNat) s (after .dlit s) := by
  obtain ⟨t, bs, ht, hlen, hbs, hc⟩ := dlitLoop_appendsByTurns.copied h ha trivial s.arg0.toNat
  have hexec : exec .dlit s = .next t := by
    rw [exec_of_dec_lines (i := .dlit) rfl hr, dlitLines_of_run hw, ht]
    rfl
  have hbytes : bs = s.ports.din.take s.arg0.toNat := by
    rw [hbs, hlen]
    exact takeBytes_offered _ _ _ _ hn
  rw [after_eq_of_exec hexec, ← hbytes]
  exact hc

/-- DLITN hands the decoder the next bytes of the text. -/
theorem Decoded.dlitN (h : Decoded B T s) (hbs : bs.length ≤ B) : Decoded B (T ++ bs) (dlitN bs s) := by
  have hB := h.size_le
  have hlen : (wordOf bs.length).toNat = bs.length := toNat_wordOf (by omega)
  have hw : wordOf bs.length ≠ 0xFFFFFFFF := fun he => by
    have := congrArg BitVec.toNat he
    rw [hlen] at this
    change bs.length = 4294967295 at this
    omega
  have h' : Decoded B T { s with arg0 := wordOf bs.length, ports := { s.ports with din := bs }, bus := [] } :=
    h.of_eq rfl rfl rfl
  have hc := exec_dlit_copied h'.ready h'.inv h'.accepts hw hlen.le
  rw [show (State.arg0 _).toNat = bs.length from hlen] at hc
  rw [Machine.dlitN, issue_arg0, issue_cmd (i := .dlit) rfl]
  have hall := h'.append hc
  rwa [List.take_length] at hall

/-! ### Matches (R271, R272) -/

/-- The ring after one byte more. -/
theorem ringAfter_snoc (hB : 0 < B) (b : Byte) :
    ringAfter B (T ++ [b]) 0 (fun _ => none) =
      Function.update (ringAfter B T 0 fun _ => none) (T.length % B) (some b) := by
  rw [ringAfter_append _ _ _ _ hB, Nat.zero_add, ringAfter, ringAfter]

/-- Bytes of a text that repeat those `dist` before them are what DMATCH copies from the ring of the text. -/
theorem repeats_of_text {dist : Nat} (hB : 0 < B) (hpos : 1 ≤ dist) (hlt : dist < B) :
    ∀ (bs T : List Byte), dist ≤ T.length → (∀ k, k < bs.length → bs[k]? = (T ++ bs)[T.length + k - dist]?) →
      Repeats B dist bs (T.length % B) (ringAfter B T 0 fun _ => none)
  | [], _, _, _ => trivial
  | b :: bs, T, hle, hsame => by
    have hsource : (T.length % B + B - dist) % B = (0 + (T.length - dist)) % B := by
      conv_rhs => rw [Nat.zero_add, ← Nat.add_mod_right, show T.length - dist + B = T.length + (B - dist) by omega,
        ← Nat.mod_add_mod]
      rw [show T.length % B + B - dist = T.length % B + (B - dist) by omega]
    refine ⟨?_, ?_⟩
    · rw [hsource, ringAfter_getElem? T 0 _ hB (by omega) (by omega)]
      have h0 := hsame 0 (by simp)
      rw [Nat.add_zero, List.getElem?_append_left (by omega)] at h0
      exact h0.symm
    · rw [Nat.mod_add_mod, ← ringAfter_snoc hB, show T.length + 1 = (T ++ [b]).length by simp]
      refine repeats_of_text hB hpos hlt bs (T ++ [b]) (by simp; omega) fun k hk => ?_
      have hk' := hsame (k + 1) (by simpa using hk)
      rw [List.getElem?_cons_succ] at hk'
      rw [hk', List.append_assoc, List.singleton_append, List.length_append, List.length_singleton, Nat.add_assoc,
        Nat.add_comm 1]

theorem exec_dmatch_copied (hr : DecReady s) (h : DecInv s.dec) (ha : DoutAccepts s)
    (ho : LegalOffset s.arg0.toNat s.dec) : ∃ bs : List Byte, bs.length = s.arg1.toNat ∧
      Repeats s.dec.dB.toNat s.arg0.toNat bs s.dec.head s.dec.ring ∧ Copied 0 bs s (after .dmatch s) := by
  obtain ⟨t, bs, ht, hlen, hrep, hc⟩ := (dmatchLoop_appendsByTurns s.arg0.toNat).copied h ha ho s.arg1.toNat
  have hexec : exec .dmatch s = .next t := by
    rw [exec_of_dec_lines (i := .dmatch) rfl hr, dmatchLines_of_legal ho, ht]
    rfl
  rw [after_eq_of_exec hexec]
  exact ⟨bs, hlen, hrep, hc⟩

end Decoded

section DecodedText

variable {B P : Nat} {Y : List Byte} {s : State}

/-- A match of the text is copied out of the decoder's ring. -/
theorem Decoded.dcopy {o l : Word} (h : Decoded B (Y.take P) s) (hm : MatchAt B Y P o.toNat l.toNat) :
    Decoded B (Y.take (P + l.toNat)) (issue (dcopyOps o l) s) := by
  have hwithin := hm.within
  have hle := hm.le
  have hlt := hm.lt
  have hP : (Y.take P).length = P := List.length_take_of_le (by omega)
  have h' : Decoded B (Y.take P) { s with arg0 := o, arg1 := l, bus := [] } := h.of_eq rfl rfl rfl
  have ho : LegalOffset o.toNat s.dec := ⟨hm.pos, by rw [h.size]; exact hlt, by rw [h.filled, hP]; omega⟩
  obtain ⟨bs, hlen, hrep, hc⟩ := exec_dmatch_copied h'.ready h'.inv h'.accepts ho
  have htext : Repeats B o.toNat ((Y.drop P).take l.toNat) ((Y.take P).length % B)
      (ringAfter B (Y.take P) 0 fun _ => none) := by
    refine repeats_of_text h.size_pos hm.pos hlt _ _ (by omega) fun k hk => ?_
    rw [List.length_take, List.length_drop] at hk
    rw [← List.take_add, hP, List.getElem?_take_of_lt (by omega), List.getElem?_take_of_lt (by omega),
      List.getElem?_drop]
    exact hm.same k (by omega)
  have hbs : bs = (Y.drop P).take l.toNat := by
    refine repeats_unique h.size_pos bs _ _ _ _ (fun _ _ => rfl) ?_ ?_ htext
    · rw [List.length_take_of_le (by rw [List.length_drop]; omega)]
      exact hlen
    · rw [← h.head, ← h.ring, ← h.size]
      exact hrep
  rw [List.take_add, ← hbs, dcopyOps, issue_arg0, issue_arg1, issue_cmd (i := .dmatch) rfl]
  exact h'.append hc

theorem Decoded.dlit_text {d : Word} (h : Decoded B (Y.take P) s) (hd : d.toNat ≤ B) :
    Decoded B (Y.take (P + d.toNat)) (Machine.dlitN ((Y.drop P).take d.toNat) s) := by
  rw [List.take_add]
  exact h.dlitN ((List.length_take_le _ _).trans hd)

/-! ### Blocks (R323, R324) -/

/-- The last run of a block stands alone. -/
theorem executeRuns_last {d : Word} {lits : List Byte} {t : State} (ht : Machine.dlitN (lits.take d.toNat) s = t)
    (hf : decoderFailure t = none) : executeRuns [d] [] [] lits s = (.ok t, t) := by
  simp only [executeRuns, ht, hf]

/-- Any other run has a match behind it. -/
theorem executeRuns_cons {d o l : Word} {ds os ls : List Word} {lits : List Byte} {t u : State}
    (ht : Machine.dlitN (lits.take d.toNat) s = t) (hft : decoderFailure t = none)
    (hu : issue (dcopyOps o l) t = u) (hfu : decoderFailure u = none) :
    executeRuns (d :: ds) (o :: os) (l :: ls) lits s = executeRuns ds os ls (lits.drop d.toNat) u := by
  simp only [executeRuns, ht, hft, hu, hfu]

/-- Runs and matches take the decoder through the text record by record. -/
theorem executeRuns_decodes {lap M : Nat} {D d : Word} {Ds ds os ls : List Word}
    (hc : Codes B Y lap P Ds ds os ls M) (hD : lap + D.toNat = M) (hE : M + d.toNat ≤ Y.length)
    (hle : ∀ x ∈ ds ++ [d], x.toNat ≤ B) (h : Decoded B (Y.take P) s) :
    ∃ t, executeRuns (ds ++ [d]) os ls (literalBytes Y lap (Ds ++ [D]) (ds ++ [d])) s = (.ok t, t) ∧
      Decoded B (Y.take (M + d.toNat)) t := by
  induction hc generalizing s with
  | nil P =>
    have hlit := h.dlit_text (hle d (by simp))
    refine ⟨_, executeRuns_last ?_ hlit.noFailure, hlit⟩
    rw [List.nil_append, List.nil_append, literalBytes_singleton, hD, List.take_take, Nat.min_self]
  | @cons P E D' d' o l Ds ds os ls start repeats rest ih =>
    have hEM := rest.le
    have hrun : ((Y.drop P).take d'.toNat).length = d'.toNat :=
      List.length_take_of_le (by rw [List.length_drop]; omega)
    have hlit := h.dlit_text (hle d' (by simp))
    have hcopy := hlit.dcopy repeats
    obtain ⟨t, ht, hdec⟩ := ih hD hE (fun x hx => hle x (by simp_all)) hcopy
    refine ⟨t, ?_, hdec⟩
    rw [List.cons_append, List.cons_append, literalBytes_cons, start,
      executeRuns_cons (by rw [List.take_left' hrun]) hlit.noFailure rfl hcopy.noFailure, List.drop_left' hrun, ht]

theorem exec_dflush_copied (hr : DecReady s) (h : DecInv s.dec) (ha : DoutAccepts s) :
    Copied 0 [] s (after .dflush s) ∧ (after .dflush s).dec = s.dec.markFlushed := by
  obtain ⟨t, hl, hc, hdec⟩ | ⟨-, c, -, -, hmem, hneg⟩ := flushLines_copied h
  · have hexec : exec .dflush s = .next t := by
      rw [exec_of_dec_lines (i := .dflush) rfl hr, hl]
      rfl
    rw [after_eq_of_exec hexec]
    exact ⟨hc, hdec⟩
  · exact absurd ((ha c hmem).symm.trans hneg) (by decide)

theorem Decoded.dflush {T : List Byte} (h : Decoded B T s) :
    Decoded B T (issue [cmd .dflush] s) ∧ doutBytes (issue [cmd .dflush] s) = T := by
  have h' : Decoded B T { s with bus := [] } := h.of_eq rfl rfl rfl
  obtain ⟨hc, hdec⟩ := exec_dflush_copied h'.ready h'.inv h'.accepts
  have hall := h'.append hc
  rw [List.append_nil] at hall
  rw [issue_cmd (i := .dflush) rfl]
  exact ⟨hall, hall.doutBytes_of_flushed (by rw [hdec]; exact pending_of_flushed le_rfl)⟩

/-- A block takes the decoder through its part of the text, and the sink then has all of it. -/
theorem executeBlock_decodes {b : Block} {E : Nat} (hb : BlockCodes B Y P b E) (h : Decoded B (Y.take P) s) :
    ∃ t, executeBlock b s = (.ok t, t) ∧ Decoded B (Y.take E) t ∧ doutBytes t = Y.take E := by
  obtain ⟨lap, D, d, Ds, ds, hcodes, hdata, hlits, rfl⟩ := hb.codes
  obtain ⟨t, ht, hdec⟩ := executeRuns_decodes hcodes rfl hb.within (hdata ▸ hb.runsLe) h
  obtain ⟨hflush, hbytes⟩ := hdec.dflush
  refine ⟨_, ?_, hflush, hbytes⟩
  simp only [executeBlock, hdata, hlits, ht, hflush.noFailure]

end DecodedText

/-! ### The stream (R321, R322) -/

theorem readExactly_append (short : Word) (bs rest : List Byte) :
    readExactly short bs.length { bytes := bs ++ rest } = .ok (bs, { bytes := rest }) := by
  unfold readExactly
  split
  next h => rw [List.eq_nil_of_length_eq_zero h, List.nil_append]
  next => simp [readCb]

theorem readWordExactly_append (short w : Word) (rest : List Byte) :
    readWordExactly short { bytes := streamWord w ++ rest } = .ok (w, { bytes := rest }) := by
  have hread : readExactly short 4 { bytes := streamWord w ++ rest } = .ok (streamWord w, { bytes := rest }) :=
    readExactly_append short (streamWord w) rest
  have hword : takeWord (streamWord w) = some (w, []) := by
    have h := takeWord_streamWord_append w []
    rwa [List.append_nil] at h
  simp only [readWordExactly, hread, hword]

/-- The decoder host reads a framed block, and the block is the one framed. -/
theorem decoderLoop_block {b : Block} (short : Word) (n : Nat) (s : State) (rest : List Byte) (hb : b.wf) {t : State}
    (ht : executeBlock b s = (.ok t, t)) :
    decoderLoop short (n + 1) s { bytes := b.bytes ++ rest } = decoderLoop short n t { bytes := rest } := by
  have hsize : (wordOf b.compSize).toNat = b.compSize := toNat_wordOf hb.2.2.2
  have h0 : wordOf b.compSize ≠ 0 := fun he => by
    have h8 := b.eight_le_compSize
    rw [← hsize, he] at h8
    exact absurd h8 (by decide)
  have hbody : readExactly short b.compSize { bytes := b.body ++ rest } = .ok (b.body, { bytes := rest }) := by
    rw [← hb.length_body]
    exact readExactly_append short b.body rest
  simp only [decoderLoop, Block.bytes, List.append_assoc, readWordExactly_append, if_neg h0, hsize, hbody,
    hb.parseBody_body, ht]

/-- The blocks of a text and the sentinel: the decoder host reports no error, and the sink has the text. -/
theorem decoderLoop_decodes {B P E : Nat} {Y : List Byte} (short : Word) {bs : List Block}
    (h : BlocksCode B Y P bs E) : ∀ (n : Nat) (s : State), bs.length < n → Decoded B (Y.take P) s →
      doutBytes s = Y.take P →
      ∃ t, decoderLoop short n s { bytes := bs.flatMap Block.bytes ++ eofBytes } = (none, t) ∧ doutBytes t = Y.take E := by
  induction h with
  | nil P =>
    intro n s hn _ hbytes
    obtain ⟨n, rfl⟩ : ∃ m, n = m + 1 := ⟨n - 1, by omega⟩
    refine ⟨s, ?_, hbytes⟩
    have hread := readWordExactly_append short 0 []
    rw [List.append_nil] at hread
    simp only [decoderLoop, List.flatMap_nil, List.nil_append, eofBytes, hread, if_true]
  | @cons P Q E b bs head tail ih =>
    intro n s hn hdec _
    obtain ⟨n, rfl⟩ : ∃ m, n = m + 1 := ⟨n - 1, by omega⟩
    obtain ⟨t, ht, hdec', hbytes⟩ := executeBlock_decodes head hdec
    obtain ⟨u, hu, hend⟩ := ih n t (by simpa using hn) hdec' hbytes
    refine ⟨u, ?_, hend⟩
    rw [List.flatMap_cons, List.append_assoc, decoderLoop_block short n s _ head.wf ht, hu]

end Sys2Proof.Machine
end

section
/-! PROOFS. A text in the encoder: BUF holds the text read so far, and the records staged code it up to LAST_MATCH, since
the bytes that EXTB and EXTF compared are a stretch of the text and the stretch DIST before it (R103, R211, R230). -/

namespace Sys2Proof.Machine

open Sys2Proof

/-! ### What the encoder knows of the text -/

/-- BUF holds the text `Y` up to `lap + filled`: this lap, which began at `lap`, and above it what is left of the lap
before (R103). -/
structure Enc.Holds (Y : List Byte) (lap : Nat) (e : Enc) : Prop where
  within : lap + e.filled ≤ Y.length
  now : ∀ p, p < e.filled → e.buf.read p = Y[lap + p]?
  before : e.flags.lapped = true → e.cfgB.toNat ≤ lap ∧
    ∀ p, e.filled ≤ p → p < e.cfgB.toNat → e.buf.read p = Y[lap + p - e.cfgB.toNat]?

/-- The text is in BUF, and the records staged take it from `P` to LAST_MATCH. -/
structure Enc.Coded (Y : List Byte) (lap P : Nat) (e : Enc) : Prop where
  holds : e.Holds Y lap
  codes : Codes e.cfgB.toNat Y lap P e.dataOffsets e.datalens e.offsets e.lens (lap + e.lastMatch.toNat)

/-- The byte at `p` and the byte of the candidate's side that is compared with it are equal (R226, R228); the candidate's
side is outside the bytes being read (R213). -/
structure Enc.Pair (e : Enc) (p : Nat) : Prop where
  above : e.i.toNat ≤ e.cand.toNat + p
  below : e.cand.toNat + p - e.i.toNat < e.cfgB.toNat
  outside : e.i.toNat < e.cand.toNat → e.filled ≤ e.cand.toNat + p - e.i.toNat
  equal : ∃ b, e.buf.read p = some b ∧ e.buf.read (e.cand.toNat + p - e.i.toNat) = some b

theorem equal_of_sameByte {buf : Memory} {p m : Nat} (h : sameByte buf p m = .ok true) :
    ∃ b, buf.read p = some b ∧ buf.read m = some b := by
  obtain ⟨a, b, ha, hb, hs⟩ | ⟨-, hs⟩ | ⟨-, -, hs⟩ := sameByte_cases buf p m <;> rw [hs] at h
  · obtain rfl : a = b := by simpa using h
    exact ⟨a, ha, hb⟩
  · cases h
  · cases h

section Lines

variable {recCap : Nat} {e : Enc} {Y : List Byte} {lap P : Nat}

/-! ### The match of an accepted candidate -/

theorem EncInv.i_lt_filled (h : EncInv recCap e) (hb : e.flags.bvalid = true) : e.i.toNat < e.filled := by
  have hwindow := h.hash.windowRead (h.candidate.hitHash (h.candidate.boundsHit hb))
  have hL := h.drvL_pos
  omega

/-- The distance is how far the candidate lies behind the cursor, around the ring (R128). -/
theorem EncInv.dist_eq (h : EncInv recCap e) (hb : e.flags.bvalid = true) :
    (e.cand.toNat < e.i.toNat ∧ e.dist.toNat = e.i.toNat - e.cand.toNat) ∨
    (e.filled ≤ e.cand.toNat ∧ e.flags.lapped = true ∧ e.dist.toNat = e.i.toNat + e.cfgB.toNat - e.cand.toNat) := by
  have hi := h.i_lt_filled hb
  have hin := h.cursors.inBuffer
  have hB := h.config.bLe
  have hhit := h.candidate.boundsHit hb
  have hcand := h.candidate.hitCand hhit
  have hlt : ringDist e.i.toNat e.cand.toNat e.cfgB.toNat < 2 ^ 32 :=
    (Nat.mod_lt _ (by omega)).trans (by omega)
  rw [h.candidate.boundsDist hb, toNat_wordOf hlt, ringDist]
  obtain hbehind | hahead := h.candidate.boundsOutside hb
  · refine .inl ⟨hbehind, ?_⟩
    rw [show e.i.toNat + e.cfgB.toNat - e.cand.toNat = e.i.toNat - e.cand.toNat + e.cfgB.toNat by omega,
      Nat.add_mod_right, Nat.mod_eq_of_lt (by omega)]
  · refine .inr ⟨hahead, ?_, Nat.mod_eq_of_lt (by omega)⟩
    by_contra hl
    have := h.candidate.hitFirstLap hhit (by simpa using hl)
    omega

/-- The candidate's side of a pair is the text DIST before the scan side. -/
theorem Enc.Pair.text (hp : e.Pair p) (h : EncInv recCap e) (hh : e.Holds Y lap) (hb : e.flags.bvalid = true)
    (hlt : p < e.filled) : Y[lap + p]? = Y[lap + p - e.dist.toNat]? := by
  have hi := h.i_lt_filled hb
  have habove := hp.above
  obtain ⟨b, hscan, hmatch⟩ := hp.equal
  rw [← hh.now p hlt, hscan, ← hmatch]
  obtain ⟨hbehind, hd⟩ | ⟨hahead, hlapped, hd⟩ := h.dist_eq hb <;> rw [hd]
  · rw [hh.now _ (by omega)]
    congr 1
    omega
  · obtain ⟨hlap, hbefore⟩ := hh.before hlapped
    have hin := h.cursors.inBuffer
    have hcand := h.candidate.hitCand (h.candidate.boundsHit hb)
    rw [hbefore _ (hp.outside (by omega)) hp.below]
    congr 1
    omega

/-- An extent of equal pairs is a match of the text at DIST. -/
theorem EncInv.matchAt (h : EncInv recCap e) (hh : e.Holds Y lap) (hb : e.flags.bvalid = true)
    (hstart : e.mstart.toNat ≤ e.i.toNat) (hi : e.i.toNat ≤ e.mend.toNat) (hend : e.mend.toNat ≤ e.filled)
    (hpairs : ∀ p, e.mstart.toNat ≤ p → p < e.mend.toNat → e.Pair p) :
    MatchAt e.cfgB.toNat Y (lap + e.mstart.toNat) e.dist.toNat (e.mend.toNat - e.mstart.toNat) where
  pos := (h.dist_range hb).1
  lt := (h.dist_range hb).2
  le := by
    obtain ⟨hbehind, hd⟩ | ⟨hahead, hlapped, hd⟩ := h.dist_eq hb
    · obtain hlt | heq := hstart.lt_or_eq
      · have := (hpairs _ le_rfl (by omega)).above
        omega
      · omega
    · have hlap := (hh.before hlapped).1
      have := (h.dist_range hb).2
      omega
  within := by
    have := hh.within
    omega
  same k hk := by
    have hp := (hpairs (e.mstart.toNat + k) (by omega) (by omega)).text h hh hb (by omega)
    rwa [← Nat.add_assoc] at hp

/-! ### EXTB, EXTF, COMMIT -/

theorem extbLines_pairs (h : EncInv recCap e) : (extbLines e).OnDone fun t =>
    ∀ p, t.mstart.toNat ≤ p → p < t.i.toNat → t.Pair p := by
  obtain ⟨-, hl⟩ | ⟨-, _, -, hl⟩ | ⟨hb, q, hrun, hl⟩ := extbLines_cases e <;> rw [hl]
  · trivial
  · trivial
  intro p hqp hpi
  obtain ⟨hlo, hle, hequal, -⟩ := extendBack_ok _ _ _ _ _ _ hrun
  have hqw : (wordOf q).toNat = q := toNat_wordOf (by have := e.i.isLt; omega)
  change (wordOf q).toNat ≤ p at hqp
  change p < e.i.toNat at hpi
  rw [hqw] at hqp
  have hback : e.backLimit ≤ p := by omega
  obtain ⟨-, habove, -, hout⟩ := h.backward_readable hb hback hpi
  have hcand := h.candidate.hitCand (h.candidate.boundsHit hb)
  have hside : e.cand.toNat + p - e.i.toNat = e.cand.toNat - (e.i.toNat - p) := by omega
  have hpair : e.Pair p :=
    { above := by omega
      below := by omega
      outside := fun hic => hside ▸ hout hic
      equal := by
        have hs := equal_of_sameByte (hequal p hqp (by omega))
        rwa [show e.cand.toNat - (e.i.toNat - (p + 1)) - 1 = e.cand.toNat + p - e.i.toNat by omega] at hs }
  exact { hpair with }

theorem extfLines_pairs (h : EncInv recCap e) (hs : ∀ p, e.mstart.toNat ≤ p → p < e.i.toNat → e.Pair p) :
    (extfLines e).OnDone fun t => ∀ p, t.mstart.toNat ≤ p → p < t.mend.toNat → t.Pair p := by
  obtain ⟨-, hl⟩ | ⟨-, _, -, hl⟩ | ⟨hb, q, hrun, hl⟩ := extfLines_cases e <;> rw [hl]
  · trivial
  · trivial
  intro p hsp hpq
  obtain ⟨hiq, hle, hequal, -⟩ := extendFwd_ok _ _ _ _ _ _ hrun
  change p < (wordOf q).toNat at hpq
  have hpq' := hpq.trans_le (toNat_wordOf_le q)
  have hpair : e.Pair p := by
    obtain hpi | hip := Nat.lt_or_ge p e.i.toNat
    · exact hs p hsp hpi
    · obtain ⟨-, hbelow, -⟩ := h.forward_readable hb hip (by omega)
      have hout := h.candidate.boundsOutside hb
      refine ⟨by omega, by omega, fun hic => by omega, ?_⟩
      have heq := equal_of_sameByte (hequal p hip hpq')
      rwa [← Nat.add_sub_assoc hip] at heq
  exact { hpair with }

/-- A record of a match of the text is coded behind the records before. -/
theorem Enc.Coded.stageRecord (hc : e.Coded Y lap P) (hlast : e.lastMatch.toNat ≤ e.mstart.toNat)
    (hle : e.mstart.toNat ≤ e.mend.toNat)
    (hm : MatchAt e.cfgB.toNat Y (lap + e.mstart.toNat) e.dist.toNat (e.mend.toNat - e.mstart.toNat)) :
    (Machine.stageRecord e).Coded Y lap P where
  holds := { hc.holds with }
  codes := by
    have hrun : (wordOf (e.mstart.toNat - e.lastMatch.toNat)).toNat = e.mstart.toNat - e.lastMatch.toNat :=
      toNat_wordOf (by have := e.mstart.isLt; omega)
    have hlen : (wordOf (e.mend.toNat - e.mstart.toNat)).toNat = e.mend.toNat - e.mstart.toNat :=
      toNat_wordOf (by have := e.mend.isLt; omega)
    have hP : lap + e.lastMatch.toNat + (e.mstart.toNat - e.lastMatch.toNat) = lap + e.mstart.toNat := by omega
    have hsnoc := hc.codes.snoc (D := e.lastMatch) (d := wordOf (e.mstart.toNat - e.lastMatch.toNat)) (o := e.dist)
      (l := wordOf (e.mend.toNat - e.mstart.toNat)) rfl (by rw [hrun, hlen, hP]; exact hm)
    rwa [hrun, hlen, hP, show lap + e.mstart.toNat + (e.mend.toNat - e.mstart.toNat) = lap + e.mend.toNat by omega]
      at hsnoc

theorem commitLines_coded (h : EncInv recCap e) (hc : e.Coded Y lap P)
    (hp : ∀ p, e.mstart.toNat ≤ p → p < e.mend.toNat → e.Pair p) :
    (commitLines recCap e).OnDone (Enc.Coded Y lap P) := by
  obtain ⟨-, hl⟩ | ⟨-, -, -, hl⟩ | ⟨-, -, -, -, hl⟩ | ⟨hs, he, -, -, hl⟩ := commitLines_cases recCap e <;> rw [hl]
  · trivial
  · exact ⟨{ hc.holds with }, hc.codes⟩
  · trivial
  · obtain ⟨hlast, hstart⟩ := h.candidate.startRange hs
    obtain ⟨hi, hend⟩ := h.candidate.endRange he
    exact hc.stageRecord hlast (hstart.trans hi)
      (h.matchAt hc.holds (h.candidate.startBounds hs) hstart hi hend hp)

/-! ### Lines that leave the text and the records -/

/-- The part of the context that a coding of the text reads. -/
theorem Enc.Holds.of_parts {e' : Enc} (h : e.Holds Y lap) (hfilled : e'.filled = e.filled) (hbuf : e'.buf = e.buf)
    (hB : e'.cfgB = e.cfgB) (hl : e'.flags.lapped = e.flags.lapped) : e'.Holds Y lap where
  within := hfilled ▸ h.within
  now := by rw [hfilled, hbuf]; exact h.now
  before := by rw [hfilled, hbuf, hB, hl]; exact h.before

theorem Enc.cfgB_of_unwritten {op : Byte} {e₀ e : Enc} (hop : op ∉ [0x01]) (h : e.unwritten op = e₀.unwritten op) :
    e.cfgB = e₀.cfgB :=
  eq_of_unlessWriter hop (congrArg Enc.cfgB h)

theorem Enc.final_of_unwritten {op : Byte} {e₀ e : Enc} (hop : op ∉ encSetup ++ [0x54])
    (h : e.unwritten op = e₀.unwritten op) : e.flags.final = e₀.flags.final :=
  eq_of_unlessWriter hop (congrArg (fun e : Enc => e.flags.final) h)

theorem Enc.Coded.of_unwritten {op : Byte} {e' : Enc} (h : e.Coded Y lap P) (hop : op ∉ stagingWriters)
    (hw : e'.unwritten op = e.unwritten op) : e'.Coded Y lap P := by
  have hstaging := Enc.stagingPart_of_unwritten hop hw
  have sub {ws : List Byte} (hsub : ws ⊆ stagingWriters) : op ∉ ws := fun hm => hop (hsub hm)
  have hB : e'.cfgB = e.cfgB := Enc.cfgB_of_unwritten (sub (by decide)) hw
  refine ⟨h.holds.of_parts (Enc.filled_of_unwritten (sub (by decide)) hw)
    (eq_of_unlessWriter (sub (by decide)) (congrArg Enc.buf hw)) hB
    (eq_of_unlessWriter (sub (by decide)) (congrArg (fun e : Enc => e.flags.lapped) hw)), ?_⟩
  have hlens : e'.lens = e.lens := (congrArg Enc.lens hstaging :)
  have hoffsets : e'.offsets = e.offsets := (congrArg Enc.offsets hstaging :)
  have hdatalens : e'.datalens = e.datalens := (congrArg Enc.datalens hstaging :)
  have hdataOffsets : e'.dataOffsets = e.dataOffsets := (congrArg Enc.dataOffsets hstaging :)
  have hlast : e'.lastMatch = e.lastMatch := (congrArg Enc.lastMatch hstaging :)
  rw [hB, hlens, hoffsets, hdatalens, hdataOffsets, hlast]
  exact h.codes

theorem Run.OnDone.of_final {σ : Type} {Q : σ → Prop} {r : Run σ} (h : Q r.final) : r.OnDone Q := by
  cases r with
  | done s => exact h
  | raised s x n => trivial

theorem Run.OnDone.and {σ : Type} {Q R : σ → Prop} {r : Run σ} (hq : r.OnDone Q) (hr : r.OnDone R) :
    r.OnDone fun s => Q s ∧ R s := by
  cases r with
  | done s => exact ⟨hq, hr⟩
  | raised s x n => trivial

/-- Lines that write neither BUF nor the staging leave a coding as it is. -/
theorem Enc.Coded.onDone {op : Byte} {r : Run Enc} (h : e.Coded Y lap P) (hop : op ∉ stagingWriters)
    (hw : r.final.unwritten op = e.unwritten op) : r.OnDone (Enc.Coded Y lap P) :=
  .of_final (h.of_unwritten hop hw)

/-! ### STEP and SCAN -/

/-- The extents that EXTB and EXTF find within a search are extents of equal pairs. -/
theorem verifyLines_coded (h : EncInv recCap e) (hc : e.Coded Y lap P) :
    (verifyLines recCap e).OnDone (Enc.Coded Y lap P) := by
  have hbounds := hc.onDone (op := 0x32) (by decide) (boundsLines_unwritten (by decide) e)
  refine ((boundsLines_encInv h).and hbounds).andThen fun e ⟨h, hc⟩ => ?_
  split
  · have hextb := hc.onDone (op := 0x40) (by decide) (extbLines_unwritten (by decide) e)
    refine (((extbLines_encInv h).and (hextb.and (extbLines_pairs h))).andThen (Q := fun t => EncInv recCap t ∧
      t.Coded Y lap P ∧ ∀ p, t.mstart.toNat ≤ p → p < t.mend.toNat → t.Pair p) fun e ⟨h, hc, hp⟩ => ?_).andThen
      fun e ⟨h, hc, hp⟩ => commitLines_coded h hc hp
    have hextf := hc.onDone (op := 0x41) (by decide) (extfLines_unwritten (by decide) e)
    exact (extfLines_encInv h).and (hextf.and (extfLines_pairs h hp))
  · exact hc

theorem searchLines_coded (h : EncInv recCap e) (hc : e.Coded Y lap P) :
    (searchLines recCap e).OnDone (Enc.Coded Y lap P) := by
  unfold searchLines
  split
  · have hprobe := hc.onDone (op := 0x22) (by decide) (probeLines_unwritten (by decide) e)
    refine ((probeLines_encInv h).and hprobe).andThen fun e ⟨h, hc⟩ => ?_
    split
    · exact verifyLines_coded h hc
    · exact hc
  · exact hc

theorem stepLines_coded (h : EncInv recCap e) (hc : e.Coded Y lap P) :
    (stepLines recCap e).OnDone (Enc.Coded Y lap P) := by
  refine .guard fun _ => .guard fun _ => ?_
  have hsearch := searchLines_coded (h.setMatched false) (Y := Y) (lap := lap) (P := P) ⟨{ hc.holds with }, hc.codes⟩
  refine (hsearch.andThen (Q := Enc.Coded Y lap P) fun e hc => ?_).andThen fun e hc => ?_
  · exact hc.onDone (op := 0x51) (by decide) (anchorLines_unwritten (by decide) e rfl)
  · exact hc.onDone (op := 0x14) (by decide) (hrollLines_unwritten (by decide) e)

theorem rehashLines_coded (hc : e.Coded Y lap P) : (rehashLines e).OnDone (Enc.Coded Y lap P) := by
  unfold rehashLines
  split
  · exact hc
  · exact hc.onDone (op := 0x13) (by decide) (hinitLines_unwritten (by decide) e)

/-- What every part of SCAN keeps. -/
abbrev Enc.Tracks (recCap : Nat) (Y : List Byte) (lap P : Nat) (e : Enc) : Prop := EncInv recCap e ∧ e.Coded Y lap P

theorem blockLines_tracks (h : e.Tracks recCap Y lap P) :
    (blockLines recCap e).OnDone (Enc.Tracks recCap Y lap P) := by
  have hsteps : ((rehashLines e).andThen fun e => Run.times (stepLines recCap) e.drvTest.toNat e).OnDone
      (Enc.Tracks recCap Y lap P) :=
    ((rehashLines_encInv h.1).and (rehashLines_coded h.2)).andThen fun e h =>
      Run.OnDone.times (fun _ h => (stepLines_encInv h.1).and (stepLines_coded h.1 h.2)) _ e h
  refine hsteps.andThen fun e h => ((skipLines_encInv h.1).imp fun _ ht => ht.1).and ?_
  exact h.2.onDone (op := 0x51) (by decide) (skipLines_unwritten (by decide) e rfl)

theorem scanLoop_tracks : ∀ (n : Nat) (e : Enc), e.Tracks recCap Y lap P →
    (scanLoop recCap n e).OnDone (Enc.Tracks recCap Y lap P)
  | 0, _, h => h
  | n + 1, e, h => by
    obtain ⟨-, hloop⟩ | ⟨-, hloop⟩ := scanLoop_succ recCap n e <;> rw [hloop]
    · exact h
    · exact (blockLines_tracks h).andThen (scanLoop_tracks n)

theorem restart_coded (hc : e.Coded Y lap P) : (restart e).Coded Y lap P := by
  rw [restart_eq]
  exact ⟨{ hc.holds with }, hc.codes⟩

/-- SCAN codes the text further. -/
theorem scanLines_tracks (h : e.Tracks recCap Y lap P) :
    (scanLines recCap e).OnDone (Enc.Tracks recCap Y lap P) := by
  refine (scanLines_encInv h.1).and ?_
  exact .guard fun _ => (scanLoop_tracks _ _ ⟨restart_encInv h.1, restart_coded h.2⟩).andThen fun e ⟨_, hc⟩ =>
    ⟨{ hc.holds with }, hc.codes⟩

end Lines

end Sys2Proof.Machine
end

section
/-! PROOFS. One cycle of the encoder host: FILL puts the next bytes of the text into BUF, SCAN codes, ENDCYC stages the
closing run, and the block framed from the staging takes the text from where the block before ended (R312 to R315). -/

namespace Sys2Proof.Machine

open Sys2Proof

/-- The context between two cycles: the text read so far ends at BASE, and there is room for more (R313). -/
structure Enc.Between (recCap : Nat) (Y : List Byte) (lap : Nat) (e : Enc) : Prop where
  ready : e.Ready
  inv : EncInv recCap e
  closed : e.flags.cycopen = false
  notFinal : e.flags.final = false
  room : e.base.toNat < e.cfgB.toNat
  holds : e.Holds Y lap

/-- The staging holds a block that takes the text from `P` to `E`: records and a closing run, all of them below `top` in
BUF, where the text from `lap` on is held. -/
structure Enc.StagesBlock (Y : List Byte) (P E lap top : Nat) (e : Enc) : Prop where
  fits : top ≤ e.cfgB.toNat
  within : lap + top ≤ Y.length
  held : ∀ p, p < top → e.buf.read p = Y[lap + p]?
  runs : ∃ (D d : Word) (Ds ds : List Word), Codes e.cfgB.toNat Y lap P Ds ds e.offsets e.lens (lap + D.toNat) ∧
    e.dataOffsets = Ds ++ [D] ∧ e.datalens = ds ++ [d] ∧ D.toNat + d.toNat ≤ top ∧ lap + D.toNat + d.toNat = E

section Cycle

variable {recCap lap P : Nat} {Y : List Byte} {e : Enc}

theorem Enc.Between.filled_eq (h : e.Between recCap Y lap) : e.filled = e.base.toNat := by
  rw [Enc.filled, h.inv.cursors.closedSize h.closed, Nat.add_zero]

/-! ### FILL (R207) -/

theorem filled_fillWith {ds : List Byte} (h : ds.length < 2 ^ 32) (e : Enc) :
    (fillWith ds e).filled = e.base.toNat + ds.length :=
  congrArg (e.base.toNat + ·) (toNat_wordOf h)

/-- FILL reads the next bytes of the text, and nothing is staged yet. -/
theorem Enc.Between.fillWith (h : e.Between recCap Y lap) {ds : List Byte} (h1 : 1 ≤ ds.length)
    (hB : e.base.toNat + ds.length ≤ e.cfgB.toNat) (hds : ds = (Y.drop (lap + e.base.toNat)).take ds.length) :
    (Machine.fillWith ds e).Tracks recCap Y lap (lap + e.lastMatch.toNat) := by
  have hle := h.inv.config.bLe
  have hfilled : (Machine.fillWith ds e).filled = e.base.toNat + ds.length := filled_fillWith (by omega) e
  have hlen := congrArg List.length hds
  rw [List.length_take, List.length_drop] at hlen
  refine ⟨h.inv.fillWith h.closed h.notFinal h1 hB, ⟨by omega, fun p hp => ?_, fun hl => ?_⟩, .nil _⟩
  · rw [hfilled] at hp
    show (e.buf.writeRun e.base.toNat ds).read p = _
    rw [Memory.read_writeRun]
    split
    next hin =>
      rw [hds, List.getElem?_take_of_lt (by omega), List.getElem?_drop]
      congr 1
      omega
    next => exact h.holds.now p (by rw [h.filled_eq]; omega)
  · obtain ⟨hlap, hbefore⟩ := h.holds.before hl
    refine ⟨hlap, fun p hp hpB => ?_⟩
    rw [hfilled] at hp
    show (e.buf.writeRun e.base.toNat ds).read p = _
    rw [Memory.read_writeRun, if_neg (by omega)]
    exact hbefore p (by rw [h.filled_eq]; omega) hpB

/-! ### ENDCYC and FINAL (R252, R255) -/

/-- What ENDCYC leaves: the block of the cycle staged, and the text going on behind it. -/
def CycleStaged (recCap : Nat) (Y : List Byte) (lap P : Nat) (e t : Enc) : Prop :=
  t.cfgB = e.cfgB ∧ ∃ lap' top, t.Between recCap Y lap' ∧ lap' + t.base.toNat = lap + e.filled ∧
    t.StagesBlock Y P (lap' + t.lastMatch.toNat) lap top

/-- At the end of a lap the closing run reaches to it, and the next lap begins there. -/
theorem closeLap_staged (h : e.Tracks recCap Y lap P) (hr : e.Ready) (hf : e.flags.final = false)
    (hlap : e.filled = e.cfgB.toNat) (hinv : EncInv recCap (closeLap (closeRun e.cfgB e))) :
    CycleStaged recCap Y lap P e (closeLap (closeRun e.cfgB e)) := by
  obtain ⟨he, hc⟩ := h
  have hlast := he.cursors.lastMatchLe
  have hBpos : 0 < e.cfgB.toNat := by
    have hL := windowLen_pos e.cfgS.toNat
    have hge := he.config.bGe
    omega
  have hlen : (wordOf (e.cfgB.toNat - e.lastMatch.toNat)).toNat = e.cfgB.toNat - e.lastMatch.toNat :=
    toNat_wordOf (by have := e.cfgB.isLt; omega)
  rw [closeRun_pushes, if_neg (by omega), if_neg (by omega)] at hinv ⊢
  refine ⟨rfl, lap + e.cfgB.toNat, e.filled, ⟨hr, hinv, rfl, hf, hBpos, ?_⟩, ?_, ?_⟩
  · refine ⟨by rw [← hlap]; exact hc.holds.within, fun p hp => absurd hp (Nat.not_lt_zero p), fun _ =>
      ⟨Nat.le_add_left _ _, fun p _ hp => ?_⟩⟩
    change p < e.cfgB.toNat at hp
    show e.buf.read p = Y[lap + e.cfgB.toNat + p - e.cfgB.toNat]?
    rw [show lap + e.cfgB.toNat + p - e.cfgB.toNat = lap + p by omega]
    exact hc.holds.now p (by omega)
  · rw [hlap]
    rfl
  · refine ⟨hlap.le, hc.holds.within, hc.holds.now, e.lastMatch, _, e.dataOffsets, e.datalens, hc.codes, rfl, rfl, ?_, ?_⟩
      <;> rw [hlen]
    · omega
    · show lap + e.lastMatch.toNat + (e.cfgB.toNat - e.lastMatch.toNat) = lap + e.cfgB.toNat + 0
      omega

/-- Inside a lap the closing run ends at the new LAST_MATCH. -/
theorem closeCycle_staged (h : e.Tracks recCap Y lap P) (hr : e.Ready) (hf : e.flags.final = false)
    (hlap : e.filled ≠ e.cfgB.toNat) (hinv : EncInv recCap (closeCycle (closeRun e.lastI e))) :
    CycleStaged recCap Y lap P e (closeCycle (closeRun e.lastI e)) := by
  obtain ⟨he, hc⟩ := h
  have hlast := he.cursors.lastMatchLe
  have hlastI := he.cursors.lastILe
  have hle := he.filled_le
  have hin := he.cursors.inBuffer
  have hbase : (wordOf e.filled).toNat = e.filled := toNat_wordOf (by omega)
  rw [closeRun_pushes] at hinv ⊢
  have hfilled {x : Enc} (hx : x.filled = e.filled) : (closeCycle x).filled = e.filled :=
    (closeCycle_filled (by omega)).trans hx
  refine ⟨rfl, lap, e.filled, ⟨hr, hinv, rfl, hf, ?_, hc.holds.of_parts (hfilled rfl) rfl rfl rfl⟩, ?_, ?_⟩
  · show (wordOf e.filled).toNat < e.cfgB.toNat
    omega
  · exact congrArg (lap + ·) hbase
  · refine ⟨hin, hc.holds.within, hc.holds.now, e.lastMatch, _, e.dataOffsets, e.datalens, hc.codes, rfl, rfl, ?_, ?_⟩
    · split
      · exact hlast
      · rw [toNat_wordOf (by omega)]
        omega
    · show lap + e.lastMatch.toNat + _ =
        lap + (if e.lastI.toNat < e.lastMatch.toNat then e.lastMatch else e.lastI).toNat
      split
      · rfl
      · rw [toNat_wordOf (by omega)]
        omega

theorem endcycLines_staged (h : e.Tracks recCap Y lap P) (hr : e.Ready) (hf : e.flags.final = false) :
    (endcycLines recCap e).OnDone (CycleStaged recCap Y lap P e) := by
  have hends := endcycLines_encInv h.1
  cases hopen : e.flags.cycopen with
  | false =>
    rw [endcycLines_of_closed hopen]
    trivial
  | true =>
    by_cases hroom : e.runsFull recCap = true
    · rw [endcycLines_of_full hopen hroom]
      trivial
    · by_cases hlap : e.filled = e.cfgB.toNat
      · rw [endcycLines_of_lap_end hopen hroom hlap] at hends ⊢
        exact closeLap_staged h hr hf hlap hends.1
      · rw [endcycLines_of_cycle_end hopen hroom hlap] at hends ⊢
        exact closeCycle_staged h hr hf hlap hends.1

/-- FINAL stages the tail: one run, to the end of the text read (R255). -/
theorem finalLines_staged (h : e.Between recCap Y lap) : (finalLines recCap e).OnDone fun t =>
    t.Ready ∧ EncInv recCap t ∧ ∃ top, t.StagesBlock Y (lap + e.lastMatch.toNat) (lap + e.base.toNat) lap top := by
  have hends := finalLines_encInv h.inv
  by_cases h0 : recCap = 0
  · rw [finalLines_of_no_room h.closed h.notFinal h0]
    trivial
  · rw [finalLines_of_room h.closed h.notFinal h0] at hends ⊢
    have hlast := h.inv.cursors.lastMatchLe
    have hin := h.inv.cursors.inBuffer
    have hle := h.inv.filled_le
    have hfilled := h.filled_eq
    have hlen : (wordOf (e.base.toNat - e.lastMatch.toNat)).toNat = e.base.toNat - e.lastMatch.toNat :=
      toNat_wordOf (by omega)
    refine ⟨h.ready, hends, e.filled, hin, h.holds.within, h.holds.now, e.lastMatch,
      wordOf (e.base.toNat - e.lastMatch.toNat), [], [], .nil _, rfl, rfl, ?_, ?_⟩ <;> rw [hlen] <;> omega

end Cycle

/-! ### The commands of a cycle -/

section Commands

variable {s : State} {lap P : Nat} {Y : List Byte}

theorem after_caps (i : Instr) (s : State) : (after i s).caps = s.caps :=
  (exec_writesWithin (exec_eq_next i s)).shared.2.1

/-- A command of a context that is not faulted after it ran its lines to their end. -/
theorem after_enc_done {i : Instr} {op : Byte} {f : Enc → Run Enc} (hi : exec i s = encCommand op (onEnc f) s)
    (ht : (after i s).enc.flags.efault = false) : EncReady s ∧ f s.enc = .done (after i s).enc := by
  obtain ⟨hr, hd⟩ := encCommand_done (hi.symm.trans (exec_eq_next i s)) ht
  exact ⟨hr, onEnc_done hd⟩

/-- SCAN codes the text further, and FINAL has not run. -/
theorem after_scan_tracks (h : s.enc.Tracks s.caps.recCap Y lap P) (hf : s.enc.flags.final = false)
    (ht : (after .scan s).enc.flags.efault = false) :
    (after .scan s).enc.Tracks s.caps.recCap Y lap P ∧ (after .scan s).enc.flags.final = false ∧
      (after .scan s).enc.cfgB = s.enc.cfgB ∧ (after .scan s).enc.filled = s.enc.filled := by
  obtain ⟨-, hd⟩ := after_enc_done (i := .scan) rfl ht
  have hw : (after .scan s).enc.unwritten 0x52 = s.enc.unwritten 0x52 := by
    have h := scanLines_unwritten s.caps.recCap s.enc
    rwa [hd] at h
  exact ⟨(scanLines_tracks h).of_eq_done hd, (Enc.final_of_unwritten (by decide) hw).trans hf,
    Enc.cfgB_of_unwritten (by decide) hw, Enc.filled_of_unwritten (by decide) hw⟩

/-- FILLN of some bytes that fit. -/
theorem fillN_enc {bs : List Byte} (hr : EncReady s) (hc : s.enc.flags.cycopen = false)
    (hf : s.enc.flags.final = false) (h1 : 1 ≤ bs.length) (hB : s.enc.base.toNat + bs.length ≤ s.enc.cfgB.toNat)
    (hle : s.enc.cfgB.toNat ≤ 2 ^ 31) :
    (fillN bs s).enc = fillWith bs s.enc ∧ (fillN bs s).caps = s.caps := by
  have hlen : (wordOf bs.length).toNat = bs.length := toNat_wordOf (by omega)
  have hw : wordOf bs.length ≠ 0xFFFFFFFF := fun he => by
    have := congrArg BitVec.toNat he
    rw [hlen] at this
    change bs.length = 4294967295 at this
    omega
  let u : State := { s with arg0 := wordOf bs.length, ports := { s.ports with ein := bs }, bus := [] }
  have hexec := exec_fill_of_tests (s := u) hr hc hf hw (by show (wordOf bs.length).toNat ≠ 0; omega)
    (by show s.enc.base.toNat + (wordOf bs.length).toNat ≤ s.enc.cfgB.toNat; omega)
  have htake : (einTake u.arg0.toNat u.ports).1 = bs := by
    show (einTake (wordOf bs.length).toNat u.ports).1 = bs
    rw [hlen, einTake_offered (p := u.ports) le_rfl]
    exact List.take_length
  have hfill : fillN bs s = after .fill u := by
    rw [fillN, issue_arg0, issue_cmd (i := .fill) rfl]
    rfl
  rw [hfill, after_eq_of_exec hexec, htake]
  exact ⟨rfl, rfl⟩

/-- A cycle of the host that ends without a fault: the block of the cycle is staged, and the text goes on. -/
theorem cycle_staged {bs : List Byte} (h : s.enc.Between s.caps.recCap Y lap) (h1 : 1 ≤ bs.length)
    (hB : s.enc.base.toNat + bs.length ≤ s.enc.cfgB.toNat)
    (hbs : bs = (Y.drop (lap + s.enc.base.toNat)).take bs.length) :
    let t := issue [cmd .scan, cmd .endcyc] (fillN bs s)
    t.enc.flags.efault = false → t.caps = s.caps ∧ t.enc.cfgB = s.enc.cfgB ∧
      ∃ lap' top, t.enc.Between s.caps.recCap Y lap' ∧
        lap' + t.enc.base.toNat = lap + s.enc.base.toNat + bs.length ∧
        t.enc.StagesBlock Y (lap + s.enc.lastMatch.toNat) (lap' + t.enc.lastMatch.toNat) lap top := by
  intro t ht
  have hle := h.inv.config.bLe
  obtain ⟨henc, hcaps⟩ := fillN_enc h.ready h.closed h.notFinal h1 hB hle
  have hfill := h.fillWith h1 hB hbs
  let u : State := { fillN bs s with bus := [] }
  have hu : u.enc.Tracks u.caps.recCap Y lap (lap + s.enc.lastMatch.toNat) := by
    show (fillN bs s).enc.Tracks (fillN bs s).caps.recCap Y lap _
    rw [henc, hcaps]
    exact hfill
  let v : State := { after .scan u with bus := [] }
  have htv : t = after .endcyc v := by
    show issue _ _ = _
    rw [issue_cmd (i := .scan) rfl, issue_cmd (i := .endcyc) rfl]
    rfl
  rw [htv] at ht ⊢
  obtain ⟨hready, hend⟩ := after_enc_done (i := .endcyc) rfl ht
  have hfin : u.enc.flags.final = false := by
    show (fillN bs s).enc.flags.final = false
    rw [henc]
    exact h.notFinal
  obtain ⟨htracks, hfinal, hsize, hfilled⟩ := after_scan_tracks hu hfin hready.1
  have hvcaps : v.caps = s.caps := (after_caps .scan u).trans hcaps
  have hucaps : u.caps = s.caps := hcaps
  rw [hucaps] at htracks
  rw [hvcaps] at hend
  obtain ⟨hB', lap', top, hbetween, htext, hblock⟩ := (endcycLines_staged htracks hready hfinal).of_eq_done hend
  refine ⟨(after_caps .endcyc v).trans hvcaps, ?_, lap', top, hbetween, ?_, hblock⟩
  · rw [hB', hsize]
    show (fillN bs s).enc.cfgB = s.enc.cfgB
    rw [henc]
    rfl
  · rw [htext, hfilled]
    show lap + (fillN bs s).enc.filled = _
    rw [henc, filled_fillWith (by omega), Nat.add_assoc]

end Commands

end Sys2Proof.Machine
end

section
/-! PROOFS. The encoder host frames the staged block (R314): it reads the arrays through the window and the literal runs
through EOUT, which leaves the encoder as it is. -/

namespace Sys2Proof.Machine

open Sys2Proof

/-! ### The window of the staging arrays (R59) -/

/-- The encoder and the capacities are as before: what the host's reading of the staging leaves. -/
structure SameEncoder (s t : State) : Prop where
  enc : t.enc = s.enc
  caps : t.caps = s.caps

theorem SameEncoder.trans {s t u : State} (h : SameEncoder s t) (h' : SameEncoder t u) : SameEncoder s u :=
  ⟨h'.enc.trans h.enc, h'.caps.trans h.caps⟩

theorem SameEncoder.ready {s t : State} (h : SameEncoder s t) (hr : EncReady s) : EncReady t := by
  unfold EncReady
  rw [h.enc]
  exact hr

theorem sameEncoder_windowAt (j : Nat) (s : State) : SameEncoder s (windowAt j s) := ⟨rfl, rfl⟩

/-- At index `j` the window shows entry `j` of the array. -/
theorem stagingAt_wordOf {arr : List Word} {j : Nat} (hj : j < arr.length) (h32 : j < 2 ^ 32) :
    stagingAt arr (wordOf j) = arr[j] := by
  rw [stagingAt, toNat_wordOf h32, List.getD_eq_getElem _ _ hj]

/-- Reading a window register at `j` and up gives the array behind it from there on. -/
theorem stagedWords_eq {reg : Nat} {arr : Enc → List Word}
    (hreg : ∀ s : State, busRead reg s = stagingAt (arr s.enc) s.rIdx) : ∀ (n j : Nat) (s : State),
    j + n = (arr s.enc).length → j + n ≤ 2 ^ 32 →
    (stagedWords reg n j s).1 = (arr s.enc).drop j ∧ SameEncoder s (stagedWords reg n j s).2
  | 0, j, s, hlen, _ => ⟨(List.drop_eq_nil_of_le (by omega)).symm, rfl, rfl⟩
  | n + 1, j, s, hlen, h32 => by
    obtain ⟨hrest, hsame⟩ := stagedWords_eq hreg n (j + 1) (windowAt j s) (by rw [Nat.add_assoc, Nat.add_comm 1]; exact hlen)
      (by omega)
    have hread : busRead reg (windowAt j s) = (arr s.enc)[j] :=
      (hreg _).trans (stagingAt_wordOf (arr := arr s.enc) (by omega) (by omega))
    refine ⟨?_, (sameEncoder_windowAt j s).trans hsame⟩
    rw [List.drop_eq_getElem_cons (by omega), ← hread]
    exact congrArg _ hrest

/-! ### What is staged -/

theorem Codes.runs_le {B lap P E : Nat} {Y : List Byte} {Ds ds os ls : List Word} (h : Codes B Y lap P Ds ds os ls E) :
    ∀ x ∈ Ds.zip ds, lap + x.1.toNat + x.2.toNat ≤ E := by
  induction h with
  | nil P => exact fun _ hx => absurd hx List.not_mem_nil
  | cons start repeats rest ih =>
    intro x hx
    rw [List.zip_cons_cons, List.mem_cons] at hx
    obtain rfl | hx := hx
    · have := rest.le
      simp only
      omega
    · exact ih x hx

section StagesBlock

variable {Y : List Byte} {P E lap top : Nat} {e : Enc}

/-- There is one run more than records (R308). -/
theorem Enc.StagesBlock.counts (h : e.StagesBlock Y P E lap top) :
    e.dataOffsets.length = e.lens.length + 1 ∧ e.datalens.length = e.lens.length + 1 ∧
      e.offsets.length = e.lens.length := by
  obtain ⟨D, d, Ds, ds, hcodes, hD, hd, -⟩ := h.runs
  obtain ⟨hDs, hds, hos⟩ := hcodes.length
  exact ⟨by rw [hD, List.length_append, hDs]; rfl, by rw [hd, List.length_append, hds]; rfl, hos⟩

theorem Enc.StagesBlock.runs_le (h : e.StagesBlock Y P E lap top) :
    ∀ x ∈ e.dataOffsets.zip e.datalens, x.1.toNat + x.2.toNat ≤ top := by
  obtain ⟨D, d, Ds, ds, hcodes, hD, hd, htop, -⟩ := h.runs
  obtain ⟨hDs, hds, -⟩ := hcodes.length
  rw [hD, hd, List.zip_append (hDs.trans hds.symm)]
  intro x hx
  rw [List.mem_append, List.zip_cons_cons, List.zip_nil_right, List.mem_singleton] at hx
  obtain hx | rfl := hx
  · have := hcodes.runs_le x hx
    omega
  · exact htop

/-- A staged run is a stretch of the text, and BUF holds it. -/
theorem Enc.StagesBlock.readRun (h : e.StagesBlock Y P E lap top) {off len : Nat} (hle : off + len ≤ top) :
    e.buf.readRun off len = .ok ((Y.drop (lap + off)).take len) := by
  have hwithin := h.within
  have hlen : ((Y.drop (lap + off)).take len).length = len :=
    List.length_take_of_le (by rw [List.length_drop]; omega)
  have hread := Memory.readRun_of_bytes ((Y.drop (lap + off)).take len) e.buf off fun t ht => by
    rw [hlen] at ht
    rw [h.held _ (by omega), List.getElem?_take_of_lt ht, List.getElem?_drop, Nat.add_assoc]
  rwa [hlen] at hread

end StagesBlock

/-! ### Literal runs (R215) -/

section Literals

variable {Y : List Byte} {P E lap top : Nat}

/-- LIT hands the host a run of the text, and changes nothing of the encoder. -/
theorem literalRun_eq {off len : Word} {s : State} (hr : EncReady s) (h : s.enc.StagesBlock Y P E lap top)
    (hle : off.toNat + len.toNat ≤ top) :
    (literalRun off len s).1 = (Y.drop (lap + off.toNat)).take len.toNat ∧
      SameEncoder s (literalRun off len s).2 := by
  let u : State := { s with
    arg0 := off, arg1 := len, ports := { s.ports with eout := [], eoutAnswers := [] }, bus := [] }
  have hrun : literalRun off len s =
      (((after .rdlit u).ports.eout.map WriteEvent.bytes).flatten, after .rdlit u) := by
    simp only [literalRun, issue_arg0, issue_arg1, issue_cmd (i := .rdlit) rfl]
    rfl
  have hB : u.arg0.toNat + u.arg1.toNat ≤ u.enc.cfgB.toNat := hle.trans h.fits
  rw [hrun]
  by_cases h0 : len.toNat = 0
  · have hexec : exec .rdlit u = .next u := exec_of_lines_done rfl hr (rdlitLines_of_empty hB h0)
    rw [after_eq_of_exec hexec, h0, List.take_zero]
    exact ⟨rfl, rfl, rfl⟩
  · have hexec : exec .rdlit u = .next { u with ports := { u.ports with
        eout := [⟨(Y.drop (lap + off.toNat)).take len.toNat, 0⟩] } } :=
      exec_of_lines_done rfl hr ((rdlitLines_of_ok hB h0 (h.readRun hle)).trans (if_neg (show ¬negative 0 = true by decide)))
    rw [after_eq_of_exec hexec]
    exact ⟨List.append_nil _, rfl, rfl⟩

/-- The literal runs from index `j` up, and the encoder as it was. -/
theorem literalRuns_eq : ∀ (n j : Nat) (s : State), EncReady s → s.enc.StagesBlock Y P E lap top →
    j + n = s.enc.lens.length + 1 → j + n ≤ 2 ^ 32 →
    (literalRuns n j s).1 = literalBytes Y lap (s.enc.dataOffsets.drop j) (s.enc.datalens.drop j) ∧
      SameEncoder s (literalRuns n j s).2
  | 0, j, s, _, h, hn, _ => by
    obtain ⟨hD, hd, -⟩ := h.counts
    rw [List.drop_eq_nil_of_le (by omega), List.drop_eq_nil_of_le (by omega)]
    exact ⟨rfl, rfl, rfl⟩
  | n + 1, j, s, hr, h, hn, h32 => by
    obtain ⟨hD, hd, -⟩ := h.counts
    have hoff : busRead 0x31 (windowAt j s) = s.enc.dataOffsets[j] :=
      stagingAt_wordOf (arr := s.enc.dataOffsets) (by omega) (by omega)
    have hlen : busRead 0x32 (windowAt j s) = s.enc.datalens[j] :=
      stagingAt_wordOf (arr := s.enc.datalens) (by omega) (by omega)
    have hmem : (s.enc.dataOffsets[j], s.enc.datalens[j]) ∈ s.enc.dataOffsets.zip s.enc.datalens := by
      rw [← List.getElem_zip (h := by rw [List.length_zip]; omega)]
      exact List.getElem_mem _
    obtain ⟨hrun, hsame⟩ := literalRun_eq (s := windowAt j s) hr h (h.runs_le _ hmem)
    rw [← hoff, ← hlen] at hrun hsame
    have hsame' := (sameEncoder_windowAt j s).trans hsame
    obtain ⟨hrest, hsame''⟩ := literalRuns_eq n (j + 1) _ (hsame'.ready hr) (hsame'.enc ▸ h)
      (by rw [hsame'.enc]; omega) (by omega)
    refine ⟨?_, hsame'.trans hsame''⟩
    rw [hsame'.enc] at hrest
    rw [List.drop_eq_getElem_cons (l := s.enc.dataOffsets) (by omega),
      List.drop_eq_getElem_cons (l := s.enc.datalens) (by omega), literalBytes_cons, ← hoff, ← hlen, ← hrun, ← hrest]
    rfl

end Literals

/-! ### The block (R314) -/

theorem length_literalBytes {Y : List Byte} {lap : Nat} : ∀ {Ds ds : List Word}, Ds.length = ds.length →
    (∀ x ∈ Ds.zip ds, lap + x.1.toNat + x.2.toNat ≤ Y.length) → (literalBytes Y lap Ds ds).length = wordSum ds
  | [], [], _, _ => rfl
  | D :: Ds, d :: ds, hlen, hle => by
    have hd := hle (D, d) (by simp)
    have hrest := length_literalBytes (Y := Y) (lap := lap) (Nat.succ.inj hlen) fun x hx => hle x (by simp [hx])
    rw [literalBytes_cons, List.length_append, hrest, List.length_take_of_le (by rw [List.length_drop]; simp at hd; omega)]
    simp [wordSum]

section Frame

variable {Y : List Byte} {P E lap top : Nat} {s : State}

/-- Every run of the block is a stretch of the text, so it has the bytes its length says. -/
theorem Enc.StagesBlock.length_literalBytes {e : Enc} (h : e.StagesBlock Y P E lap top) :
    (literalBytes Y lap e.dataOffsets e.datalens).length = wordSum e.datalens := by
  obtain ⟨hD, hd, -⟩ := h.counts
  refine Machine.length_literalBytes (hD.trans hd.symm) fun x hx => ?_
  have := h.runs_le x hx
  have := h.within
  omega

theorem Enc.StagesBlock.datalens_le {e : Enc} (h : e.StagesBlock Y P E lap top) :
    ∀ d ∈ e.datalens, d.toNat ≤ e.cfgB.toNat := by
  intro d hd
  obtain ⟨hD, hlen, -⟩ := h.counts
  obtain ⟨j, hj, rfl⟩ := List.getElem_of_mem hd
  have hmem : (e.dataOffsets[j], e.datalens[j]) ∈ e.dataOffsets.zip e.datalens := by
    rw [← List.getElem_zip (h := by rw [List.length_zip]; omega)]
    exact List.getElem_mem _
  have hle : e.dataOffsets[j].toNat + e.datalens[j].toNat ≤ top := h.runs_le _ hmem
  have := h.fits
  omega

/-- The block the host frames is the staged one. -/
theorem frameBlock_eq (hr : EncReady s) (h : s.enc.StagesBlock Y P E lap top)
    (hcount : s.enc.lens.length = s.enc.nrec.toNat) :
    (frameBlock s).1 = ⟨s.enc.lens, s.enc.offsets, s.enc.datalens,
      literalBytes Y lap s.enc.dataOffsets s.enc.datalens⟩ ∧ SameEncoder s (frameBlock s).2 := by
  obtain ⟨hD, hd, ho⟩ := h.counts
  have h32 := s.enc.nrec.isLt
  obtain ⟨hlens, h1⟩ := stagedWords_eq (reg := 0x34) (arr := Enc.lens) (fun _ => rfl) s.enc.nrec.toNat 0 s
    (by omega) (by omega)
  obtain ⟨hoffsets, h2⟩ := stagedWords_eq (reg := 0x33) (arr := Enc.offsets) (fun _ => rfl) s.enc.nrec.toNat 0
    (stagedWords 0x34 s.enc.nrec.toNat 0 s).2 (by rw [h1.enc]; omega) (by omega)
  have h12 := h1.trans h2
  obtain ⟨hdatalens, h3⟩ := stagedWords_eq (reg := 0x32) (arr := Enc.datalens) (fun _ => rfl) (s.enc.nrec.toNat + 1) 0
    _ (by rw [h12.enc]; omega) (by omega)
  have h123 := h12.trans h3
  obtain ⟨hliterals, h4⟩ := literalRuns_eq (s.enc.nrec.toNat + 1) 0 _ (h123.ready hr) (h123.enc ▸ h)
    (by rw [h123.enc]; omega) (by omega)
  rw [List.drop_zero] at hlens hoffsets hdatalens hliterals
  rw [h1.enc] at hoffsets
  rw [h12.enc] at hdatalens
  rw [List.drop_zero, h123.enc] at hliterals
  refine ⟨?_, h123.trans h4⟩
  rw [← hliterals, ← hlens, ← hoffsets, ← hdatalens]
  rfl

/-- A framed block whose size fits the stream word takes the text on. -/
theorem Enc.StagesBlock.blockCodes {e : Enc} (h : e.StagesBlock Y P E lap top) {b : Block}
    (hb : b = ⟨e.lens, e.offsets, e.datalens, literalBytes Y lap e.dataOffsets e.datalens⟩)
    (hsize : b.compSize < 2 ^ 32) : BlockCodes e.cfgB.toNat Y P b E := by
  subst hb
  obtain ⟨-, hd, ho⟩ := h.counts
  refine ⟨⟨ho, hd, h.length_literalBytes, hsize⟩, h.datalens_le, ?_, ?_⟩
  · obtain ⟨D, d, Ds, ds, -, -, -, htop, hE⟩ := h.runs
    have := h.within
    omega
  · obtain ⟨D, d, Ds, ds, hcodes, hDs, hds, -, hE⟩ := h.runs
    exact ⟨lap, D, d, Ds, ds, hcodes, hds, by rw [← hDs, ← hds], hE⟩

/-- `write_cb` that reports no error took the bytes. -/
theorem writeCb_ok {bytes : List Byte} {k k' : Sink} (h : writeCb bytes k = .ok k') : k'.bytes = k.bytes ++ bytes := by
  simp only [writeCb] at h
  split at h
  · cases h
  · cases h
    simp [Sink.bytes]

/-- The one end of `writeBlock` that reports no error. -/
theorem writeBlock_ok {tail : List Byte} {k : Sink} (h : (writeBlock tail s k).error = none) :
    ∃ k', (frameBlock s).1.compSize < 2 ^ 32 ∧ writeCb ((frameBlock s).1.bytes ++ tail) k = .ok k' ∧
      writeBlock tail s k = ⟨none, (frameBlock s).2, k'⟩ := by
  unfold writeBlock at h ⊢
  cases hs : encoderFailure s with
  | some x => simp [hs] at h
  | none =>
    cases hframed : framedAsExpected s with
    | false => simp [hs, hframed] at h
    | true =>
      cases ht : encoderFailure (frameBlock s).2 with
      | some x => simp [hs, hframed, ht] at h
      | none =>
        by_cases hsize : 2 ^ 32 ≤ (frameBlock s).1.compSize
        · simp [-Nat.reducePow, hs, hframed, ht, hsize] at h
        · cases hw : writeCb ((frameBlock s).1.bytes ++ tail) k with
          | error x => simp [-Nat.reducePow, hs, hframed, ht, hsize, hw] at h
          | ok k' => exact ⟨k', Nat.lt_of_not_ge hsize, rfl, by simp [-Nat.reducePow, ht, hsize, hw]⟩

/-- A block written without an error: the sink took its bytes and `tail`, and the encoder is as before. -/
theorem writeBlock_staged {tail : List Byte} {k : Sink} (hr : EncReady s) (h : s.enc.StagesBlock Y P E lap top)
    (hcount : s.enc.lens.length = s.enc.nrec.toNat) (herr : (writeBlock tail s k).error = none) :
    SameEncoder s (writeBlock tail s k).s ∧ ∃ b, BlockCodes s.enc.cfgB.toNat Y P b E ∧
      (writeBlock tail s k).sink.bytes = k.bytes ++ (b.bytes ++ tail) := by
  obtain ⟨hb, hsame⟩ := frameBlock_eq hr h hcount
  obtain ⟨k', hsize, hw, heq⟩ := writeBlock_ok herr
  rw [heq]
  exact ⟨hsame, _, h.blockCodes hb hsize, writeCb_ok hw⟩

end Frame

/-- Where `writeBlock` reports no error, the encoder was set up and had no fault. -/
theorem efault_of_writeBlock {tail : List Byte} {s : State} {k : Sink} (h : (writeBlock tail s k).error = none) :
    s.enc.flags.efault = false := by
  by_contra hf
  have hfail : encoderFailure s = some (encoderError (busRead 0x1F s) (busRead 0x1D s)) :=
    if_pos (by simpa using hf)
  simp [writeBlock, hfail] at h

/-! ### The source (R311) -/

/-- A read takes bytes off the front of the source: none only at its end, where the host asks for any. -/
theorem readCb_ok {size : Nat} {src src' : Source} {bytes : List Byte} (h : readCb size src = .ok (bytes, src')) :
    bytes ++ src'.bytes = src.bytes ∧ bytes.length ≤ size ∧ (1 ≤ size → bytes = [] → src.bytes = []) := by
  unfold readCb at h
  split at h
  · cases h
    refine ⟨List.take_append_drop _ _, List.length_take_le _ _, fun h1 hnil => ?_⟩
    simpa [Nat.ne_of_gt h1] using hnil
  · cases h
  · cases h
    refine ⟨List.take_append_drop _ _, (List.length_take_le _ _).trans (Nat.min_le_left _ _), fun h1 hnil => ?_⟩
    rw [List.take_eq_nil_iff] at hnil
    exact hnil.resolve_left (by omega)

/-- The host asks for at least one byte, and for none beyond the end of the lap (R312). -/
theorem readSize_range {s : State} (h : s.enc.base.toNat < s.enc.cfgB.toNat) :
    1 ≤ readSize s ∧ s.enc.base.toNat + readSize s ≤ s.enc.cfgB.toNat := by
  have hB : busRead 0x00 s = s.enc.cfgB := rfl
  have hbase : busRead 0x14 s = s.enc.base := rfl
  simp only [readSize, hB, hbase]
  split <;> omega

/-! ### The cycles (R313, R315) -/

/-- The terminal block takes the text to its end (R315). -/
theorem final_codes {B lap : Nat} {Y : List Byte} {s : State} {k : Sink} (h : s.enc.Between s.caps.recCap Y lap)
    (hB : s.enc.cfgB.toNat = B) (hend : Y.drop (lap + s.enc.base.toNat) = [])
    (herr : (writeBlock eofBytes (issue [cmd .final] s) k).error = none) :
    ∃ bs, BlocksCode B Y (lap + s.enc.lastMatch.toNat) bs Y.length ∧
      (writeBlock eofBytes (issue [cmd .final] s) k).sink.bytes = k.bytes ++ (bs.flatMap Block.bytes ++ eofBytes) := by
  let u : State := { s with bus := [] }
  have hissue : issue [cmd .final] s = after .final u := issue_cmd (i := .final) rfl [] s
  rw [hissue] at herr ⊢
  obtain ⟨-, hd⟩ := after_enc_done (i := .final) (s := u) rfl (efault_of_writeBlock herr)
  have hstaged := finalLines_staged (e := u.enc) h
  obtain ⟨hready, hinv, top, hblock⟩ := hstaged.of_eq_done hd
  have hsize : (after .final u).enc.cfgB = s.enc.cfgB := by
    have hw := finalLines_unwritten u.caps.recCap u.enc
    rw [hd] at hw
    exact Enc.cfgB_of_unwritten (by decide) hw
  obtain ⟨-, b, hb, hsink⟩ := writeBlock_staged hready hblock hinv.staging.lensCount herr
  rw [hsize, hB] at hb
  have hlen : lap + s.enc.base.toNat = Y.length := by
    have hin := h.holds.within
    rw [h.filled_eq] at hin
    have := List.drop_eq_nil_iff.1 hend
    omega
  refine ⟨[b], .cons hb ?_, by simpa using hsink⟩
  show BlocksCode B Y (lap + s.enc.base.toNat) [] Y.length
  rw [hlen]
  exact .nil _

/-- A cycle whose block was written takes the text on, and the next cycle begins where the text goes on (R313, R314). -/
theorem cycle_codes {lap : Nat} {Y bytes rest : List Byte} {s : State} {k : Sink}
    (h : s.enc.Between s.caps.recCap Y lap) (h1 : 1 ≤ bytes.length)
    (hroom : s.enc.base.toNat + bytes.length ≤ s.enc.cfgB.toNat)
    (htext : Y.drop (lap + s.enc.base.toNat) = bytes ++ rest) :
    let d := writeBlock [] (issue [cmd .scan, cmd .endcyc] (fillN bytes s)) k
    d.error = none → d.s.enc.cfgB = s.enc.cfgB ∧ ∃ lap' b, d.s.enc.Between d.s.caps.recCap Y lap' ∧
      Y.drop (lap' + d.s.enc.base.toNat) = rest ∧
      BlockCodes s.enc.cfgB.toNat Y (lap + s.enc.lastMatch.toNat) b (lap' + d.s.enc.lastMatch.toNat) ∧
      d.sink.bytes = k.bytes ++ b.bytes := by
  intro d herr
  obtain ⟨hcaps, hsize, lap', top, hbetween, hnext, hblock⟩ :=
    cycle_staged h h1 hroom (by rw [htext, List.take_left]) (efault_of_writeBlock herr)
  obtain ⟨hsame, b, hb, hsink⟩ := writeBlock_staged hbetween.ready hblock hbetween.inv.staging.lensCount herr
  rw [hsame.enc, hsame.caps, hcaps]
  refine ⟨hsize, lap', b, hbetween, ?_, hsize ▸ hb, by rw [hsink, List.append_nil]⟩
  rw [hnext, ← List.drop_drop, htext, List.drop_left]

/-- The encoder host without an error: the blocks it wrote take the text from LAST_MATCH to its end, and the sentinel
follows them. -/
theorem encoderLoop_codes {B : Nat} {Y : List Byte} : ∀ (n : Nat) (s : State) (src : Source) (k : Sink) (lap : Nat),
    s.enc.Between s.caps.recCap Y lap → s.enc.cfgB.toNat = B → Y.drop (lap + s.enc.base.toNat) = src.bytes →
    src.bytes.length < n → (encoderLoop n s src k).error = none →
    ∃ bs, BlocksCode B Y (lap + s.enc.lastMatch.toNat) bs Y.length ∧
      (encoderLoop n s src k).sink.bytes = k.bytes ++ (bs.flatMap Block.bytes ++ eofBytes)
  | 0, _, _, _, _, _, _, _, hn, _ => absurd hn (Nat.not_lt_zero _)
  | n + 1, s, src, k, lap, h, hB, hsrc, hn, herr => by
    obtain ⟨h1, hroom⟩ := readSize_range h.room
    rw [encoderLoop] at herr ⊢
    cases hread : readCb (readSize s) src with
    | error c => simp [hread] at herr
    | ok r =>
      obtain ⟨bytes, src'⟩ := r
      obtain ⟨hbytes, hle, hend⟩ := readCb_ok hread
      simp only [hread] at herr ⊢
      cases bytes with
      | nil =>
        simp only [List.isEmpty_nil, if_true] at herr ⊢
        exact final_codes h hB (hsrc.trans (hend h1 rfl)) herr
      | cons b bs =>
        simp only [List.isEmpty_cons, Bool.false_eq_true, if_false] at herr ⊢
        cases hw : (writeBlock [] (issue [cmd .scan, cmd .endcyc] (fillN (b :: bs) s)) k).error with
        | some x => simp [hw] at herr
        | none =>
          simp only [hw] at herr ⊢
          obtain ⟨hsize, lap', x, hbetween, hrest, hx, hsink⟩ :=
            cycle_codes h (bytes := b :: bs) (by simp) (by omega) (hsrc.trans hbytes.symm) hw
          obtain ⟨xs, hxs, hout⟩ := encoderLoop_codes (B := B) n _ src' _ lap' hbetween (by rw [hsize, hB]) hrest
            (by rw [← hbytes] at hn; simp at hn; omega) herr
          rw [hB] at hx
          exact ⟨x :: xs, .cons hx hxs, by rw [hout, hsink]; simp⟩

end Sys2Proof.Machine
end

section
/-! PROOFS. The round trip (R330): the encoder host's stream is a stream of blocks that take the text from its beginning to
its end, and the decoder host reads the text off such a stream. -/

namespace Sys2Proof.Machine

open Sys2Proof

/-! ### The encoder host (R310) -/

/-- The context with the stream parameters of `CONFIG`, right after RESET E (R153). -/
def Params.enc (p : Params) : Enc := { cfgB := p.B, cfgM := p.M, cfgS := p.S, cfgD := p.D, cfgH := p.H, cfgA := p.A }

theorem issue_config (caps : Caps) (p : Params) :
    issue (cmd (.reset 1) :: configOps p) { State.reset with caps := caps } =
      after .cfg { State.reset with caps := caps, enc := p.enc } := by
  rw [issue_cmd (i := .reset 1) rfl]
  exact issue_cmd (i := .cfg) rfl [] { State.reset with caps := caps, enc := p.enc }

theorem cfgLines_configured (caps : Caps) (e : Enc) : (cfgLines caps e).OnDone fun t => t = configured e := by
  unfold cfgLines
  iterate 9 refine .guard fun _ => ?_
  rfl

/-- CFG leaves the context at the beginning of a text. -/
theorem configured_between {recCap : Nat} {e : Enc} (Y : List Byte)
    (h : EncInv recCap (configured e)) : (configured e).Between recCap Y 0 where
  ready := ⟨rfl, rfl⟩
  inv := h
  closed := rfl
  notFinal := rfl
  room := by
    have hL := windowLen_pos (configured e).cfgS.toNat
    have hge := h.config.bGe
    show 0 < (configured e).cfgB.toNat
    omega
  holds := ⟨Nat.zero_le _, fun p hp => absurd hp (Nat.not_lt_zero p), nofun⟩

/-- The encoder host without an error: a legal block size, and a stream of blocks that take the text from 0 to its end. -/
theorem compress_codes {caps : Caps} {p : Params} {src : Source} {answers : List Word}
    (herr : (compress caps p src { answers := answers }).error = none) :
    p.B.toNat ≤ 2 ^ 31 ∧ ∃ bs, BlocksCode p.B.toNat src.bytes 0 bs src.bytes.length ∧
      (compress caps p src { answers := answers }).sink.bytes = streamBytes p.B bs := by
  let u : State := { State.reset with caps := caps, enc := p.enc }
  simp only [compress, issue_config] at herr ⊢
  cases hfail : encoderFailure (after .cfg u) with
  | some x => simp [u, hfail] at herr
  | none =>
    have hf : (after .cfg u).enc.flags.efault = false := by
      by_contra hf
      rw [encoderFailure, if_pos (by simpa using hf)] at hfail
      cases hfail
    obtain ⟨-, hd⟩ := unlessFaulted_done (c := .enc) (exec_eq_next .cfg u) hf
    have hcfg := onEnc_done hd
    have henc : (after .cfg u).enc = configured p.enc := (cfgLines_configured _ _).of_eq_done hcfg
    have hinv := (cfgLines_encInv caps.recCap _ _).of_eq_done hcfg
    rw [henc] at hinv
    have hbetween := configured_between src.bytes hinv
    have hcaps : (after .cfg u).caps = caps := after_caps .cfg u
    cases hw : writeCb (streamWord p.B) { answers := answers } with
    | error x => simp [u, hfail, hw] at herr
    | ok k =>
      simp only [u, hfail, hw] at herr ⊢
      obtain ⟨bs, hbs, hsink⟩ := encoderLoop_codes (B := p.B.toNat) (src.bytes.length + 1) (after .cfg u) src k 0
        (by rw [henc, hcaps]; exact hbetween) (by rw [henc]; rfl) (by rw [henc]; rfl) (Nat.lt_succ_self _) herr
      refine ⟨hinv.config.bLe, bs, ?_, ?_⟩
      · rw [henc] at hbs
        exact hbs
      · rw [hsink, writeCb_ok hw]
        simp [streamBytes, Sink.bytes]

/-! ### The decoder host (R320) -/

theorem issue_setup (B s0 : Word) (s : State) :
    issue [cmd (.reset 2), wr 0x38 B, wr 0x39 s0, cmd .dinit] s =
      after .dinit { s with dec := {}, arg0 := B, arg1 := s0, bus := [] } := by
  rw [issue_cmd (i := .reset 2) rfl]
  exact issue_cmd (i := .dinit) rfl [] { s with dec := {}, arg0 := B, arg1 := s0, bus := [] }

/-- A legal DSETUP leaves the decoder at the beginning of a text. -/
theorem decoded_of_setUp {B : Nat} {s : State} (hf : s.dec.flags.dfault = false) (hdok : s.dec.flags.dok = false)
    (hB : s.arg0.toNat = B) (hle : B ≤ 2 ^ 31) (h1 : 1 ≤ s.arg1.toNat) (hs0 : s.arg1.toNat ≤ B)
    (hcap0 : s.arg1.toNat ≤ s.caps.seg0Cap) (hcap1 : B - s.arg1.toNat ≤ s.caps.seg1Cap) (ha : DoutAccepts s)
    (hdout : s.ports.dout = []) : Decoded B [] (after .dinit s) ∧ doutBytes (after .dinit s) = [] := by
  have hl : dinitLines s.caps s.arg0 s.arg1 s.dec = .done (setUp s.arg0 s.arg1 s.dec) := by
    rw [dinitLines_of_not_dok hdok, if_neg (by omega), if_neg (by omega), if_neg (by omega), if_neg (by omega),
      if_neg (by omega)]
  have hinv : DecInv (setUp s.arg0 s.arg1 s.dec) := (dinitLines_decInv _ _ _ _).of_eq_done hl
  rw [after_eq_of_exec (exec_dinit_of_done hf hl)]
  have hbytes : doutBytes { s with dec := setUp s.arg0 s.arg1 s.dec } = [] := by
    unfold doutBytes
    rw [hdout]
    rfl
  refine ⟨?_, hbytes⟩
  exact
    { ready := ⟨rfl, rfl⟩
      inv := hinv
      accepts := ha
      size := hB
      filled := (Nat.min_zero B).symm
      head := by
        show (setUp s.arg0 s.arg1 s.dec).dataPos % s.arg0.toNat = 0 % B
        rw [hB]
        rfl
      ring := funext fun p => setUp_ring _ _ _ p
      output := by
        rw [acceptedOutput, hbytes]
        exact pending_of_flushed le_rfl }

theorem BlocksCode.length_le {B P E : Nat} {Y : List Byte} {bs : List Block} (h : BlocksCode B Y P bs E) :
    bs.length ≤ (bs.flatMap Block.bytes).length := by
  induction h with
  | nil P => exact le_rfl
  | cons head tail ih =>
    rw [List.length_cons, List.flatMap_cons, List.length_append, Block.bytes, List.length_append, length_streamWord]
    omega

/-- The decoder host reads a text off a stream of blocks that take the text from 0 to its end. -/
theorem decompress_text {caps : Caps} {s0 : Word → Word} {short B : Word} {bs : List Block} {Y : List Byte}
    {answers : List Word} (h : BlocksCode B.toNat Y 0 bs Y.length) (hle : B.toNat ≤ 2 ^ 31) (h1 : 1 ≤ (s0 B).toNat)
    (hs0 : (s0 B).toNat ≤ B.toNat) (hcap0 : (s0 B).toNat ≤ caps.seg0Cap)
    (hcap1 : B.toNat - (s0 B).toNat ≤ caps.seg1Cap) (ha : ∀ c ∈ answers, negative c = false) :
    (decompress caps s0 short { bytes := streamBytes B bs } answers).1 = none ∧
      doutBytes (decompress caps s0 short { bytes := streamBytes B bs } answers).2 = Y := by
  let u : State := { State.reset with
    caps := caps, ports := { doutAnswers := answers }, arg0 := B, arg1 := s0 B }
  obtain ⟨hdec, hbytes⟩ := decoded_of_setUp (s := u) rfl rfl rfl hle h1 hs0 hcap0 hcap1 ha rfl
  obtain ⟨t, ht, hout⟩ := decoderLoop_decodes short h ((bs.flatMap Block.bytes ++ eofBytes).length + 1)
    (after .dinit u) (by have := h.length_le; rw [List.length_append]; omega) (by rwa [List.take_zero])
    (by rwa [List.take_zero])
  have hread := readWordExactly_append short B (bs.flatMap Block.bytes ++ eofBytes)
  have hstream : streamBytes B bs = streamWord B ++ (bs.flatMap Block.bytes ++ eofBytes) := List.append_assoc _ _ _
  have hsetup : issue [cmd (.reset 2), wr 0x38 B, wr 0x39 (s0 B), cmd .dinit]
      { State.reset with caps := caps, ports := { doutAnswers := answers } } = after .dinit u := issue_setup _ _ _
  have hrun : decompress caps s0 short { bytes := streamBytes B bs } answers = (none, issue [cmd (.reset 2)] t) := by
    simp only [decompress, hstream, hread, hsetup, hdec.noFailure, ht]
  rw [hrun]
  refine ⟨rfl, ?_⟩
  rw [issue_cmd (i := .reset 2) rfl]
  rw [List.take_length] at hout
  exact hout

/-- Settles O60: the stream of the encoder host without an error codes the whole source, and the decoder host reads the
source off it. -/
theorem roundTripGivesTheInputBack : Obligations.RoundTripGivesTheInputBack := by
  intro encCaps decCaps p src answers doutAnswers s0 short d herr h1 hs0 hcap0 hcap1 ha
  obtain ⟨hle, bs, hbs, hstream⟩ := compress_codes herr
  have h := decompress_text (short := short) hbs hle h1 hs0 hcap0 hcap1 ha
  rwa [← hstream] at h

end Sys2Proof.Machine
end
